-- ==== Sys2Proof/Word.lean ====
section
/-! DEFINITION. The number types of the link and the timebase, the names of groups, pairs and channels, and the small
containers that hold one value for each of them. -/

namespace Sys2Proof

/-- One character of the service link. -/
abbrev Byte := BitVec 8
/-- A 32-bit counter, cycle number or window number; it wraps. -/
abbrev Word := BitVec 32
/-- A count of the 10 MHz timebase (100 ns), 64-bit ("Time and the crossing detector"). -/
abbrev Count := BitVec 64
/-- A converter's signed 16-bit raw code (R2). -/
abbrev RawCode := BitVec 16
/-- A set of the twelve sticky flags or of their report masks, flag k at bit k (R167, R172). -/
abbrev FlagSet := BitVec 12

/-- Groups 0 to 3. -/
inductive GroupId
  | g0 | g1 | g2 | g3
deriving DecidableEq, Repr

/-- Pairs 0 and 1. -/
inductive PairId
  | p0 | p1
deriving DecidableEq, Repr

/-- The thirteen channels: V0 to V3, IA0 to IA3, IB0 to IB3 and ACREF. -/
inductive ChannelId
  | v (g : GroupId)
  | ia (g : GroupId)
  | ib (g : GroupId)
  | acref
deriving DecidableEq, Repr

/-- C0 and C1 of a group (R121). -/
inductive CompId
  | c0 | c1
deriving DecidableEq, Repr

/-- A judged or reported unit: one group or one pair. -/
inductive UnitId
  | group (g : GroupId)
  | pair (p : PairId)
deriving DecidableEq, Repr

/-- One value for each of the four groups. -/
structure Quad (α : Type) where
  g0 : α
  g1 : α
  g2 : α
  g3 : α
deriving DecidableEq, Repr

/-- One value for each of two pairs, or for each of a group's two comparators. -/
structure Duo (α : Type) where
  fst : α
  snd : α
deriving DecidableEq, Repr

/-- One value for each of the thirteen channels. -/
structure PerChannel (α : Type) where
  v : Quad α
  ia : Quad α
  ib : Quad α
  ac : α
deriving DecidableEq, Repr

def GroupId.all : List GroupId := [.g0, .g1, .g2, .g3]
def PairId.all : List PairId := [.p0, .p1]
def CompId.all : List CompId := [.c0, .c1]

def GroupId.toNat : GroupId → Nat
  | .g0 => 0
  | .g1 => 1
  | .g2 => 2
  | .g3 => 3

def GroupId.ofNat? : Nat → Option GroupId
  | 0 => some .g0
  | 1 => some .g1
  | 2 => some .g2
  | 3 => some .g3
  | _ => none

def PairId.toNat : PairId → Nat
  | .p0 => 0
  | .p1 => 1

def PairId.ofNat? : Nat → Option PairId
  | 0 => some .p0
  | 1 => some .p1
  | _ => none

def CompId.toNat : CompId → Nat
  | .c0 => 0
  | .c1 => 1

def CompId.ofNat? : Nat → Option CompId
  | 0 => some .c0
  | 1 => some .c1
  | _ => none

/-- Pair 0 is groups 0 and 1, pair 1 groups 2 and 3 (00_scope, "Groups, pairs, orders and series"). -/
def GroupId.pair : GroupId → PairId
  | .g0 => .p0
  | .g1 => .p0
  | .g2 => .p1
  | .g3 => .p1

def PairId.first : PairId → GroupId
  | .p0 => .g0
  | .p1 => .g2

def PairId.second : PairId → GroupId
  | .p0 => .g1
  | .p1 => .g3

/-- The other group of a group's pair. -/
def GroupId.partner : GroupId → GroupId
  | .g0 => .g1
  | .g1 => .g0
  | .g2 => .g3
  | .g3 => .g2

/-- The channel numbers of SET_CHANNEL (R14). -/
def ChannelId.toNat : ChannelId → Nat
  | .v g => g.toNat
  | .ia g => 4 + g.toNat
  | .ib g => 8 + g.toNat
  | .acref => 12

def ChannelId.ofNat? : Nat → Option ChannelId
  | 0 => some (.v .g0)
  | 1 => some (.v .g1)
  | 2 => some (.v .g2)
  | 3 => some (.v .g3)
  | 4 => some (.ia .g0)
  | 5 => some (.ia .g1)
  | 6 => some (.ia .g2)
  | 7 => some (.ia .g3)
  | 8 => some (.ib .g0)
  | 9 => some (.ib .g1)
  | 10 => some (.ib .g2)
  | 11 => some (.ib .g3)
  | 12 => some .acref
  | _ => none

/-- The eight current channels have two ranges; the voltage channels and ACREF have one. -/
def ChannelId.isCurrent : ChannelId → Bool
  | .ia _ => true
  | .ib _ => true
  | _ => false

def ChannelId.all : List ChannelId :=
  GroupId.all.map .v ++ GroupId.all.map .ia ++ GroupId.all.map .ib ++ [.acref]

/-- GROUP 0, PAIR 1 (R177). -/
def UnitId.kindCode : UnitId → Nat
  | .group _ => 0
  | .pair _ => 1

def UnitId.index : UnitId → Nat
  | .group g => g.toNat
  | .pair p => p.toNat

namespace Quad

def get (q : Quad α) : GroupId → α
  | .g0 => q.g0
  | .g1 => q.g1
  | .g2 => q.g2
  | .g3 => q.g3

def set (q : Quad α) (g : GroupId) (x : α) : Quad α :=
  match g with
  | .g0 => { q with g0 := x }
  | .g1 => { q with g1 := x }
  | .g2 => { q with g2 := x }
  | .g3 => { q with g3 := x }

def ofFn (f : GroupId → α) : Quad α := ⟨f .g0, f .g1, f .g2, f .g3⟩

def fill (x : α) : Quad α := ⟨x, x, x, x⟩

def map (f : α → β) (q : Quad α) : Quad β := ⟨f q.g0, f q.g1, f q.g2, f q.g3⟩

def any (q : Quad Bool) : Bool := q.g0 || q.g1 || q.g2 || q.g3

def all (q : Quad Bool) : Bool := q.g0 && q.g1 && q.g2 && q.g3

end Quad

namespace Duo

def get (d : Duo α) : PairId → α
  | .p0 => d.fst
  | .p1 => d.snd

def set (d : Duo α) (p : PairId) (x : α) : Duo α :=
  match p with
  | .p0 => { d with fst := x }
  | .p1 => { d with snd := x }

def ofFn (f : PairId → α) : Duo α := ⟨f .p0, f .p1⟩

def fill (x : α) : Duo α := ⟨x, x⟩

def map (f : α → β) (d : Duo α) : Duo β := ⟨f d.fst, f d.snd⟩

/-- The value of comparator C0 or C1. -/
def comp (d : Duo α) : CompId → α
  | .c0 => d.fst
  | .c1 => d.snd

def setComp (d : Duo α) (c : CompId) (x : α) : Duo α :=
  match c with
  | .c0 => { d with fst := x }
  | .c1 => { d with snd := x }

end Duo

namespace PerChannel

def get (t : PerChannel α) : ChannelId → α
  | .v g => t.v.get g
  | .ia g => t.ia.get g
  | .ib g => t.ib.get g
  | .acref => t.ac

def set (t : PerChannel α) (c : ChannelId) (x : α) : PerChannel α :=
  match c with
  | .v g => { t with v := t.v.set g x }
  | .ia g => { t with ia := t.ia.set g x }
  | .ib g => { t with ib := t.ib.set g x }
  | .acref => { t with ac := x }

def ofFn (f : ChannelId → α) : PerChannel α :=
  ⟨Quad.ofFn fun g => f (.v g), Quad.ofFn fun g => f (.ia g), Quad.ofFn fun g => f (.ib g), f .acref⟩

def fill (x : α) : PerChannel α := ⟨Quad.fill x, Quad.fill x, Quad.fill x, x⟩

end PerChannel

/-- A table computed entry by entry from another (kernel-evaluable, unlike the array map). -/
def tableMap (f : α → β) (v : Vector α n) : Vector β n := Vector.ofFn fun i => f v[i]

/-- A table computed entry by entry from two others. -/
def tableZip (f : α → β → γ) (v : Vector α n) (w : Vector β n) : Vector γ n := Vector.ofFn fun i => f v[i] w[i]

end Sys2Proof
end

