-- ==== Sys2Proof/Machine/Bits.lean ====
section
/-! DEFINITION. Byte order and two's complement of link fields, the two CRCs, rounding, clamping and the integer square
root: the arithmetic words of 00_scope.md ("Rounding, roots and clamps", "Numbers on the link"), R157 and R180. -/

namespace Sys2Proof.Machine

/-- The number an unsigned field carries, most significant byte first (R172). -/
def beNat (bs : List Byte) : Nat := bs.foldl (fun n b => n * 256 + b.toNat) 0

/-- The `n` bytes of an unsigned field, most significant first (R172). -/
def beBytes : Nat → Nat → List Byte
  | 0, _ => []
  | n + 1, x => BitVec.ofNat 8 (x / 256 ^ n) :: beBytes n x

/-- The number a signed two's complement field carries (R172). -/
def beInt (bs : List Byte) : Int :=
  let n := beNat bs
  if 2 * n < 256 ^ bs.length then (n : Int) else (n : Int) - (256 ^ bs.length : Nat)

/-- The `n` bytes of a signed two's complement field (R172). -/
def beBytesInt (n : Nat) (x : Int) : List Byte := beBytes n (x % (256 ^ n : Nat)).toNat

/-- A field that is no or yes: no 0, yes 1 (R177). -/
def boolByte (b : Bool) : Byte := if b then 1 else 0

/-- The reading of a no-or-yes field; any other byte is outside the field's values (R177). -/
def byteBool? (b : Byte) : Option Bool :=
  if b = 0 then some false else if b = 1 then some true else none

/-- A field that its rule allows to be absent: one presence byte, then the field at full width, all 0 when absent (R172). -/
def optBytes (width : Nat) : Option (List Byte) → List Byte
  | some bs => 1 :: bs
  | none => 0 :: List.replicate width 0

/-- One bit into the CRC-16 register, polynomial 0x1021, most significant bit first (R157). -/
def crc16Bit (r : BitVec 16) : BitVec 16 :=
  if r.msb then (r <<< 1) ^^^ 0x1021#16 else r <<< 1

def crc16Byte (r : BitVec 16) (b : Byte) : BitVec 16 :=
  Nat.repeat crc16Bit 8 (r ^^^ ((b.setWidth 16) <<< 8))

/-- The check of a frame: CRC-16, register from 0xFFFF, not reflected, nothing combined at the end (R157). -/
def crc16 (bs : List Byte) : BitVec 16 := bs.foldl crc16Byte 0xFFFF#16

/-- One bit into the CRC-32 register, polynomial 0x04C11DB7 reflected (R180). -/
def crc32Bit (r : BitVec 32) : BitVec 32 :=
  if r.getLsbD 0 then (r >>> 1) ^^^ 0xEDB88320#32 else r >>> 1

def crc32Byte (r : BitVec 32) (b : Byte) : BitVec 32 :=
  Nat.repeat crc32Bit 8 (r ^^^ b.setWidth 32)

/-- The CRC of the stored image: CRC-32, input and output reflected, register from 0xFFFFFFFF, final exclusive-or with
0xFFFFFFFF (R180). -/
def crc32 (bs : List Byte) : Word := bs.foldl crc32Byte 0xFFFFFFFF#32 ^^^ 0xFFFFFFFF#32

/-- "Rounded to nearest" of a quotient of naturals, a half rounded up (away from zero); a zero divisor gives 0. -/
def roundDiv (n d : Nat) : Nat := (2 * n + d) / (2 * d)

/-- "Rounded to nearest" of a quotient with a signed numerator: by its magnitude, with its sign kept (R6, R61). -/
def roundDivInt (n : Int) (d : Nat) : Int :=
  if n < 0 then -(roundDiv n.natAbs d : Int) else (roundDiv n.natAbs d : Int)

/-- One root bit at a time, from bit `k` − 1 downward: the largest root not below `r` that those bits can still reach. -/
def isqrtFrom (n : Nat) : Nat → Nat → Nat
  | 0, r => r
  | k + 1, r => isqrtFrom n k (if (r + 2 ^ k) * (r + 2 ^ k) ≤ n then r + 2 ^ k else r)

/-- The integer square root rounded down (00_scope, "isqrt"). -/
def isqrt (n : Nat) : Nat := isqrtFrom n (n.log2 / 2 + 1) 0

/-- Limited to −`lo` .. `hi`. -/
def clampInt (lo hi x : Int) : Int := if x < lo then lo else if hi < x then hi else x

/-- The number of whole counts from `a` to `b`; the 64-bit timebase does not wrap in service, so this is `b − a`. -/
def countsFrom (a b : Count) : Nat := (b - a).toNat

end Sys2Proof.Machine
end

