-- ==== Sys2Proof/Machine/Settings.lean ====
section
/-! DEFINITION. The settings of the part (R178): their fields, codes (R177), factory defaults and working ranges, the
staging area and the stored image. -/

namespace Sys2Proof.Machine

/-- NORMAL or MAINTENANCE (R183). -/
inductive Mode
  | normal | maintenance
deriving DecidableEq, Repr

/-- The output of the AC reference comparator and the confirmed polarity (R21). -/
inductive Polarity
  | positive | negative
deriving DecidableEq, Repr

/-- The range mode of a current channel ("Range modes"). `other k` is the byte `k` + 3, none of the three codes: no request writes it,
and a stored image may hold it (R180: for channels 0 to 3 and 12 the field is not examined). -/
inductive RangeMode
  | auto | fixedLow | fixedHigh
  | other (k : Fin 253)
deriving DecidableEq, Repr

/-- The settings of one channel (R14). For channels 0 to 3 and 12 the last four act on nothing. -/
structure ChannelSettings where
  fs : Nat
  offsetLow : Int
  gainLow : Nat
  offsetHigh : Int
  gainHigh : Nat
  rangeMode : RangeMode
  hold : Nat
deriving DecidableEq, Repr

/-- The window length W: 1, 2, 4 or 8 cycles (R40). -/
inductive WindowLen
  | w1 | w2 | w4 | w8
deriving DecidableEq, Repr

/-- The nominal frequency (R31). -/
inductive Nominal
  | hz50 | hz60
deriving DecidableEq, Repr

/-- The pairing setting (R87). -/
inductive Pairing
  | none | pair0 | pair1 | both
deriving DecidableEq, Repr

/-- The seven analysis settings of SET_ANALYSIS (R178). -/
structure AnalysisSettings where
  window : WindowLen
  nominal : Nominal
  baseMin : Nat
  lightLoad : Nat
  settle : Nat
  pairing : Pairing
  digest : Nat
deriving DecidableEq, Repr

/-- The figure a limit entry judges (R97, R98). -/
inductive Quantity
  | vRf | vPpr | vHarm | iHarm | armK | shareDev | iMean | jg | pHarm | jp
deriving DecidableEq, Repr

/-- Which bridge an I_HARM or ARM_K entry judges (R97). -/
inductive Bridge
  | a | b | either
deriving DecidableEq, Repr

inductive Sense
  | above | below
deriving DecidableEq, Repr

/-- The grades of a limit entry (R97). -/
inductive Severity
  | watch | alarm | trip
deriving DecidableEq, Repr

/-- A set of groups, or one pair (R97). -/
inductive Scope
  | groups (members : Quad Bool)
  | pair (p : PairId)
deriving DecidableEq, Repr

/-- One limit entry (R97). The bridge, first and last fields are kept as the bytes written, since R99 does not examine them
for every quantity. -/
structure LimitEntry where
  scope : Scope
  quantity : Quantity
  bridge : Byte
  first : Byte
  last : Byte
  sense : Sense
  limit : Int
  release : Int
  onCount : Nat
  offCount : Nat
  severity : Severity
deriving DecidableEq, Repr

/-- The channel of its group that a comparator watches (R121). -/
inductive CompSource
  | v | ia | ib
deriving DecidableEq, Repr

inductive CompMode
  | high | low
deriving DecidableEq, Repr

/-- The settings of one fast comparator (R121). -/
structure CompSettings where
  source : CompSource
  mode : CompMode
  level : Nat
  filter : Nat
  tripArmed : Bool
  freezeTrigger : Bool
  report : Bool
deriving DecidableEq, Repr

/-- The freeze setup (R136). -/
structure FreezeSetup where
  postCycles : Nat
  verdictAlarm : Bool
  verdictTrip : Bool
  comparator : Bool
deriving DecidableEq, Repr

/-- Every settings group of R178. -/
structure Settings where
  channels : PerChannel ChannelSettings
  analysis : AnalysisSettings
  weights : Vector Nat 50
  limits : Vector (Option LimitEntry) 48
  comparators : Quad (Duo CompSettings)
  freeze : FreezeSetup
deriving DecidableEq, Repr

/-- A staged edit of one limit slot (R99, R100). -/
inductive LimitEdit
  | replace (e : LimitEntry)
  | delete
deriving DecidableEq, Repr

/-- The staged values of one channel, field by field: nothing, or one value (R178). -/
structure StagedChannel where
  fs : Option Nat
  offsetLow : Option Int
  gainLow : Option Nat
  offsetHigh : Option Int
  gainHigh : Option Nat
  rangeMode : Option RangeMode
  hold : Option Nat
deriving DecidableEq, Repr

/-- The staging area (R178). SET_ANALYSIS stages all seven of its fields together, and they are applied together, so they
are one value here. -/
structure Staging where
  channels : PerChannel StagedChannel
  analysis : Option AnalysisSettings
  weights : Vector (Option Nat) 50
  limits : Vector (Option LimitEdit) 48
deriving DecidableEq, Repr

/-- What the non-volatile memory holds (R180, R181). -/
inductive StoredImage
  /-- Erased, or only partly written: its CRC does not match (R181). -/
  | torn
  /-- A copy that holds some code outside the values of a field that R180 examines, with the CRC computed over it and the stored
  CRC. -/
  | foreign (computed stored : Word)
  /-- A copy of every settings group, with the stored CRC. -/
  | whole (copy : Settings) (stored : Word)
deriving DecidableEq, Repr

def WindowLen.cycles : WindowLen → Nat
  | .w1 => 1
  | .w2 => 2
  | .w4 => 4
  | .w8 => 8

/-- L, the samples of a window (R40). -/
def WindowLen.samples (w : WindowLen) : Nat := 120 * w.cycles

/-- P_nom (R31). -/
def Nominal.period : Nominal → Nat
  | .hz50 => 200000
  | .hz60 => 166667

def Nominal.hertz : Nominal → Nat
  | .hz50 => 50
  | .hz60 => 60

/-- Which pairs a pairing pairs (R87). -/
def Pairing.paired : Pairing → PairId → Bool
  | .none, _ => false
  | .pair0, .p0 => true
  | .pair0, .p1 => false
  | .pair1, .p0 => false
  | .pair1, .p1 => true
  | .both, _ => true

def StagedChannel.empty : StagedChannel :=
  { fs := none, offsetLow := none, gainLow := none, offsetHigh := none, gainHigh := none, rangeMode := none, hold := none }

def StagedChannel.isEmpty (c : StagedChannel) : Bool :=
  c.fs.isNone && c.offsetLow.isNone && c.gainLow.isNone && c.offsetHigh.isNone && c.gainHigh.isNone &&
    c.rangeMode.isNone && c.hold.isNone

def Staging.empty : Staging :=
  { channels := PerChannel.fill StagedChannel.empty, analysis := none,
    weights := Vector.replicate 50 none, limits := Vector.replicate 48 none }

/-! ### Codes (R177) -/

def RangeMode.code : RangeMode → Nat
  | .auto => 0
  | .fixedLow => 1
  | .fixedHigh => 2
  | .other k => k.val + 3

/-- One of the three codes of the field (R177). -/
def RangeMode.known : RangeMode → Bool
  | .other _ => false
  | _ => true

def RangeMode.ofCode? : Nat → Option RangeMode
  | 0 => some .auto
  | 1 => some .fixedLow
  | 2 => some .fixedHigh
  | _ => none

def WindowLen.ofCycles? : Nat → Option WindowLen
  | 1 => some .w1
  | 2 => some .w2
  | 4 => some .w4
  | 8 => some .w8
  | _ => none

def Nominal.ofHertz? : Nat → Option Nominal
  | 50 => some .hz50
  | 60 => some .hz60
  | _ => none

def Pairing.code : Pairing → Nat
  | .none => 0
  | .pair0 => 1
  | .pair1 => 2
  | .both => 3

def Pairing.ofCode? : Nat → Option Pairing
  | 0 => some .none
  | 1 => some .pair0
  | 2 => some .pair1
  | 3 => some .both
  | _ => Option.none

def Quantity.code : Quantity → Nat
  | .vRf => 0
  | .vPpr => 1
  | .vHarm => 2
  | .iHarm => 3
  | .armK => 4
  | .shareDev => 5
  | .iMean => 6
  | .jg => 7
  | .pHarm => 8
  | .jp => 9

def Quantity.ofCode? : Nat → Option Quantity
  | 0 => some .vRf
  | 1 => some .vPpr
  | 2 => some .vHarm
  | 3 => some .iHarm
  | 4 => some .armK
  | 5 => some .shareDev
  | 6 => some .iMean
  | 7 => some .jg
  | 8 => some .pHarm
  | 9 => some .jp
  | _ => none

def Bridge.ofCode? : Nat → Option Bridge
  | 0 => some .a
  | 1 => some .b
  | 2 => some .either
  | _ => none

def Sense.code : Sense → Nat
  | .above => 0
  | .below => 1

def Sense.ofCode? : Nat → Option Sense
  | 0 => some .above
  | 1 => some .below
  | _ => none

def Severity.code : Severity → Nat
  | .watch => 1
  | .alarm => 2
  | .trip => 3

def Severity.ofCode? : Nat → Option Severity
  | 1 => some .watch
  | 2 => some .alarm
  | 3 => some .trip
  | _ => none

def CompSource.code : CompSource → Nat
  | .v => 0
  | .ia => 1
  | .ib => 2

def CompSource.ofCode? : Nat → Option CompSource
  | 0 => some .v
  | 1 => some .ia
  | 2 => some .ib
  | _ => none

def CompMode.code : CompMode → Nat
  | .high => 0
  | .low => 1

def CompMode.ofCode? : Nat → Option CompMode
  | 0 => some .high
  | 1 => some .low
  | _ => none

def Mode.code : Mode → Nat
  | .normal => 0
  | .maintenance => 1

/-- The scope kind of an entry: GROUPS 0, PAIR 1. -/
def Scope.kindCode : Scope → Nat
  | .groups _ => 0
  | .pair _ => 1

/-- The group flags of a GROUPS scope, group k at bit k, or the pair index. -/
def Scope.valueCode : Scope → Nat
  | .groups m => (if m.g0 then 1 else 0) + (if m.g1 then 2 else 0) + (if m.g2 then 4 else 0) + (if m.g3 then 8 else 0)
  | .pair p => p.toNat

/-- The units of a scope: its groups from group 0 upward, or its pair (R104). -/
def Scope.units : Scope → List UnitId
  | .groups m => (GroupId.all.filter m.get).map .group
  | .pair p => [.pair p]

/-! ### Factory defaults -/

/-- The factory channel settings (R18). -/
def ChannelSettings.factory : ChannelSettings :=
  { fs := 40000, offsetLow := 0, gainLow := 32768, offsetHigh := 0, gainHigh := 32768, rangeMode := .auto, hold := 6 }

/-- R40, R31, R67, R86, R87 and R166. -/
def AnalysisSettings.factory : AnalysisSettings :=
  { window := .w4, nominal := .hz50, baseMin := 5000, lightLoad := 2000, settle := 25, pairing := .both, digest := 0 }

/-- The factory weights: 0 for orders 1 to 19, 1,024 for orders 20 to 50 (R73). Index 0 is order 1. -/
def factoryWeights : Vector Nat 50 := Vector.ofFn fun i => if i.val < 19 then 0 else 1024

def factoryEntry (q : Quantity) (b f l : Byte) (limit release : Int) (on off : Nat) (sev : Severity) : LimitEntry :=
  { scope := .groups (Quad.fill true), quantity := q, bridge := b, first := f, last := l, sense := .above,
    limit := limit, release := release, onCount := on, offCount := off, severity := sev }

/-- The four factory entries of R117. The fields R117 leaves unsaid (the bridge and orders of a quantity that has none) are 0
(DESIGN CHOICE, log entry 5). -/
def factoryLimits : Vector (Option LimitEntry) 48 :=
  ((((Vector.replicate 48 none).set 0 (some (factoryEntry .vRf 0 0 0 200 150 4 8 .watch))).set 1
    (some (factoryEntry .vRf 0 0 0 400 300 4 8 .alarm))).set 2
    (some (factoryEntry .vHarm 0 6 6 100 70 8 16 .alarm))).set 3
    (some (factoryEntry .armK 2 0 0 1500 1000 8 16 .trip))

/-- The factory comparators: C0 HIGH at level 255, C1 LOW at level 0, both off (R121). -/
def factoryComparators : Duo CompSettings :=
  { fst := { source := .v, mode := .high, level := 255, filter := 12, tripArmed := false, freezeTrigger := false,
             report := true }
    snd := { source := .v, mode := .low, level := 0, filter := 12, tripArmed := false, freezeTrigger := false,
             report := true } }

/-- R136. -/
def FreezeSetup.factory : FreezeSetup :=
  { postCycles := 4, verdictAlarm := false, verdictTrip := true, comparator := false }

/-- The factory defaults of every settings group (R183). -/
def Settings.factory : Settings :=
  { channels := PerChannel.fill ChannelSettings.factory, analysis := .factory, weights := factoryWeights,
    limits := factoryLimits, comparators := Quad.fill factoryComparators, freeze := .factory }

/-! ### Working ranges (R14, R67, R86, R99, R129, R136, R180) -/

def calibrationInRange (offset : Int) (gain : Nat) : Bool :=
  decide (-2048 ≤ offset) && decide (offset ≤ 2047) && decide (16384 ≤ gain) && decide (gain ≤ 49151)

/-- The test of R14 on the fields it examines for channel `c`. -/
def ChannelSettings.inRange (c : ChannelId) (x : ChannelSettings) : Bool :=
  decide (1000 ≤ x.fs) && decide (x.fs ≤ 65535) && calibrationInRange x.offsetLow x.gainLow &&
    (!c.isCurrent || (calibrationInRange x.offsetHigh x.gainHigh && x.rangeMode.known && decide (1 ≤ x.hold) &&
      decide (x.hold ≤ 60)))

/-- The settings of channel `c` with the four fields that R14 holds at fixed values for a channel without a HIGH range. -/
def ChannelSettings.fixUnused (c : ChannelId) (x : ChannelSettings) : ChannelSettings :=
  if c.isCurrent then x else { x with offsetHigh := 0, gainHigh := 32768, rangeMode := .auto, hold := 6 }

def AnalysisSettings.inRange (x : AnalysisSettings) : Bool :=
  decide (x.baseMin ≤ 40000) && decide (x.lightLoad ≤ 40000) && decide (1 ≤ x.settle) && decide (x.settle ≤ 1000) &&
    decide (x.digest ≤ 255)

def Quantity.isPair : Quantity → Bool
  | .pHarm => true
  | .jp => true
  | _ => false

/-- The quantities that name a bridge. -/
def Quantity.hasBridge : Quantity → Bool
  | .iHarm => true
  | .armK => true
  | _ => false

/-- The three _HARM quantities, which name orders. -/
def Quantity.hasOrders : Quantity → Bool
  | .vHarm => true
  | .iHarm => true
  | .pHarm => true
  | _ => false

def Scope.valid : Scope → Bool
  | .groups m => m.any
  | .pair _ => true

def Scope.isPair : Scope → Bool
  | .groups _ => false
  | .pair _ => true

/-- The tests of R99 that the codes themselves do not already settle. -/
def LimitEntry.valid (e : LimitEntry) : Bool :=
  e.scope.valid && (e.quantity.isPair == e.scope.isPair) &&
    (!e.quantity.hasBridge || (Bridge.ofCode? e.bridge.toNat).isSome) &&
    (!e.quantity.hasOrders || (decide (1 ≤ e.first.toNat) && decide (e.first.toNat ≤ e.last.toNat) &&
      decide (e.last.toNat ≤ 50))) &&
    (decide (e.quantity = .iMean) || (decide (0 ≤ e.limit) && decide (0 ≤ e.release))) &&
    (match e.sense with
     | .above => decide (e.release ≤ e.limit)
     | .below => decide (e.limit ≤ e.release)) &&
    decide (1 ≤ e.onCount) && decide (1 ≤ e.offCount)

/-- An entry's fields fit their bytes on the link: limit and release 32-bit signed, the counts one byte (R97, R172). -/
def LimitEntry.fits (e : LimitEntry) : Bool :=
  decide (-2147483648 ≤ e.limit) && decide (e.limit ≤ 2147483647) && decide (-2147483648 ≤ e.release) &&
    decide (e.release ≤ 2147483647) && decide (e.onCount ≤ 255) && decide (e.offCount ≤ 255)

def CompSettings.inRange (x : CompSettings) : Bool :=
  decide (x.level ≤ 255) && decide (1 ≤ x.filter) && decide (x.filter ≤ 255)

def FreezeSetup.inRange (x : FreezeSetup) : Bool := decide (x.postCycles ≤ 15)

/-- Every value of the copy lies within the working range of its setting (R180). -/
def Settings.inRange (x : Settings) : Bool :=
  (ChannelId.all.all fun c => (x.channels.get c).inRange c) && x.analysis.inRange &&
    (x.weights.toList.all fun w => decide (w ≤ 1024)) &&
    (x.limits.toList.all fun e => match e with
      | some e => e.valid && e.fits
      | none => true) &&
    (GroupId.all.all fun g => CompId.all.all fun c => ((x.comparators.get g).comp c).inRange) && x.freeze.inRange

/-- The copy as it is loaded: channels 0 to 3 and 12 take the fixed values of R14 (R180). -/
def Settings.asLoaded (x : Settings) : Settings :=
  { x with channels := PerChannel.ofFn fun c => (x.channels.get c).fixUnused c }

/-! ### Prospective and applied values -/

def StagedChannel.apply (st : StagedChannel) (x : ChannelSettings) : ChannelSettings :=
  { fs := st.fs.getD x.fs, offsetLow := st.offsetLow.getD x.offsetLow, gainLow := st.gainLow.getD x.gainLow,
    offsetHigh := st.offsetHigh.getD x.offsetHigh, gainHigh := st.gainHigh.getD x.gainHigh,
    rangeMode := st.rangeMode.getD x.rangeMode, hold := st.hold.getD x.hold }

/-- The table slot after an edit (R102). -/
def LimitEdit.apply : Option LimitEdit → Option LimitEntry → Option LimitEntry
  | none, e => e
  | some (.replace e), _ => some e
  | some .delete, _ => none

/-- Every staged analysis-class value applied (R47). -/
def Settings.applyAnalysis (st : Staging) (x : Settings) : Settings :=
  { x with
    channels := PerChannel.ofFn fun c => (st.channels.get c).apply (x.channels.get c)
    analysis := st.analysis.getD x.analysis
    weights := tableZip (fun w old => w.getD old) st.weights x.weights }

/-- Every staged limit edit applied (R102). -/
def Settings.applyLimits (st : Staging) (x : Settings) : Settings :=
  { x with limits := tableZip LimitEdit.apply st.limits x.limits }

/-- The settings as they will stand once everything staged has been applied (R181). -/
def Settings.prospective (st : Staging) (x : Settings) : Settings :=
  (x.applyAnalysis st).applyLimits st

/-- The staging area with nothing left of the analysis class (R47). -/
def Staging.withoutAnalysis (st : Staging) : Staging := { Staging.empty with limits := st.limits }

/-- The staging area with no limit edit (R102). -/
def Staging.withoutLimits (st : Staging) : Staging := { st with limits := Vector.replicate 48 none }

end Sys2Proof.Machine
end

