-- ==== Sys2Proof/Machine/Blocks.lean ====
section
/-! DEFINITION. The state of each of the ten blocks, and the data they exchange: samples, accumulating sets, finishing jobs,
window records, reports and pending entries. -/

namespace Sys2Proof.Machine

/-! ### Front end, FE -/

inductive Range
  | low | high
deriving DecidableEq, Repr

/-- What FE holds for one current channel (R8, R9, R12). `steady` says that every sample of the present test interval keeps
the up-switch test of R9 passed; `last` is the value last delivered. -/
structure RangeState where
  range : Range
  hold : Nat
  steady : Bool
  last : Int
deriving DecidableEq, Repr

structure FrontEnd where
  ia : Quad RangeState
  ib : Quad RangeState
deriving DecidableEq, Repr

/-- One delivered extended sample with its two marks (R12). `judged` is clear exactly for the first row of R12's table, which
no comparator judges (R124). -/
structure Sample where
  value : Int
  held : Bool
  clipped : Bool
  judged : Bool
deriving DecidableEq, Repr

/-! ### Cycle tracker, CT -/

inductive Tracker
  | seek | locking | locked | holdover | free
deriving DecidableEq, Repr

/-- The origin of a LOCKING run (R23). -/
inductive Origin
  | seek | free
deriving DecidableEq, Repr

/-- A candidate polarity and the count at which it began (R21). -/
structure Candidate where
  polarity : Polarity
  stamp : Count
deriving DecidableEq, Repr

/-- The crossing detector and the tracker (R21 to R30). -/
structure CycleTracker where
  /-- the count of the event taken last -/
  timebase : Count
  /-- the present output of the AC reference comparator -/
  reference : Polarity
  /-- none is NONE -/
  confirmed : Option Polarity
  candidate : Option Candidate
  /-- the stamp of the crossing before -/
  previous : Option Count
  tracker : Tracker
  accepted : Option Nat
  lastInRange : Option Nat
  runCount : Nat
  missCount : Nat
  holdoverCycles : Nat
  origin : Origin
  /-- none is stopped; otherwise the count at which the miss timer expires -/
  missTimer : Option Count
  cycle : Word
  start : Count
  length : Nat
  /-- sample events of the cycle issued so far, 0 to 120 -/
  issued : Nat
  /-- HOLDOVER was the state at some moment of this cycle (R30) -/
  holdoverMark : Bool
  /-- the stamp of the last accepted crossing issued during this cycle (R27) -/
  steering : Option Count
deriving DecidableEq, Repr

/-! ### Analysis engine, AE -/

/-- The CLIP and HELD flags of one channel (R13, R44). -/
structure Marks where
  clip : Bool
  held : Bool
deriving DecidableEq, Repr

/-- An accumulating set (R42, R44). `marks` has one entry for each source channel of the series, in the order of R44. -/
structure AccSet where
  s0 : Int
  q : Nat
  largest : Option Int
  smallest : Option Int
  cosSums : Vector Int 50
  sinSums : Vector Int 50
  degraded : Bool
  marks : List Marks
deriving DecidableEq, Repr

structure GroupSets where
  v : AccSet
  ia : AccSet
  ib : AccSet
  ig : AccSet
deriving DecidableEq, Repr

/-- The window clock while RUNNING (R38). -/
structure WindowClock where
  window : Word
  firstCycle : Word
  length : WindowLen
  completed : Nat
deriving DecidableEq, Repr

/-- The analysis settings a window was governed by (R46). -/
structure Snapshot where
  fsV : Nat
  fsIA : Nat
  fsIB : Nat
  baseMin : Nat
  lightLoad : Nat
  weights : Vector Nat 50
deriving DecidableEq, Repr

/-- What a finishing job carries besides its sets (R46). `order` is the ordinal of the hand-over at which it entered. -/
structure JobHead where
  order : Nat
  window : Word
  firstCycle : Word
  length : WindowLen
  snapshot : Snapshot
deriving DecidableEq, Repr

structure GroupJob where
  head : JobHead
  sets : GroupSets
deriving DecidableEq, Repr

structure PairJob where
  head : JobHead
  set : AccSet
deriving DecidableEq, Repr

/-- A finishing slot: EMPTY, WAITING or RUNNING (R49). -/
inductive JobSlot (α : Type)
  | empty
  | waiting (job : α)
  | running (job : α)
deriving DecidableEq, Repr

/-- The lines of one series: amplitude by order, index 0 being order 1. -/
abbrev Lines := Vector Nat 50

/-- A group window record (R53). The voltage line ratios are present exactly when RF is. -/
structure GroupRecord where
  group : GroupId
  window : Word
  firstCycle : Word
  length : WindowLen
  degraded : Bool
  noBase : Bool
  clamped : Bool
  marksV : Marks
  marksIA : Marks
  marksIB : Marks
  meanV : Int
  meanIA : Int
  meanIB : Int
  meanIG : Int
  rippleV : Nat
  peakV : Nat
  rf : Option Nat
  ppr : Option Nat
  rippleIG : Nat
  sd : Option Nat
  ka : Option Nat
  kb : Option Nat
  jg : Nat
  linesV : Lines
  ratiosV : Option Lines
  linesIA : Lines
  linesIB : Lines
  linesIG : Lines
deriving DecidableEq, Repr

/-- A pair window record (R54). `marks` has V, IA, IB of the first group and then of the second. -/
structure PairRecord where
  pair : PairId
  window : Word
  firstCycle : Word
  length : WindowLen
  degraded : Bool
  noBase : Bool
  clamped : Bool
  marks : List Marks
  meanIP : Int
  jp : Nat
  linesIP : Lines
  ratiosIP : Option Lines
deriving DecidableEq, Repr

/-- A record store: latest and previous (R55). -/
structure RecordStore (α : Type) where
  latest : Option α
  previous : Option α
deriving DecidableEq, Repr

/-- The outcome of a window for one unit (R52); `awaited` stands until its job has completed. -/
inductive WindowOutcome (α : Type)
  | none
  | skipped
  | awaited
  | record (r : α)
deriving DecidableEq, Repr

/-- An evaluation pass awaiting hand-over (R52). -/
structure Pass where
  order : Nat
  window : Word
  groups : Quad (WindowOutcome GroupRecord)
  pairs : Duo (WindowOutcome PairRecord)
deriving DecidableEq, Repr

structure AnalysisEngine where
  /-- none is STOPPED -/
  clock : Option WindowClock
  counter : Word
  groupSets : Quad (Option GroupSets)
  pairSets : Duo (Option AccSet)
  groupSlots : Quad (JobSlot GroupJob)
  pairSlots : Duo (JobSlot PairJob)
  groupStore : Quad (RecordStore GroupRecord)
  pairStore : Duo (RecordStore PairRecord)
  passes : List Pass
  /-- hand-overs so far; the model's own ordinal for "earliest" (R50) -/
  handovers : Nat
deriving DecidableEq, Repr

/-! ### Group and pair monitors, GM -/

inductive Level
  | opened | closed
deriving DecidableEq, Repr

inductive MonitorState
  | out | settling | monitor
deriving DecidableEq, Repr

inductive PairState
  | broken | intact
deriving DecidableEq, Repr

/-- What GM holds for one group (R80, R82). -/
structure GroupMonitor where
  accepted : Level
  debounce : Nat
  state : MonitorState
  settle : Nat
deriving DecidableEq, Repr

structure Monitors where
  groups : Quad GroupMonitor
  pairs : Duo PairState
deriving DecidableEq, Repr

/-! ### Limit evaluator, LE -/

inductive CondState
  | clear | pendingOn | active | pendingOff
deriving DecidableEq, Repr

/-- A condition record (R104). -/
structure CondRecord where
  state : CondState
  count : Nat
deriving DecidableEq, Repr

inductive Verdict
  | normal | watch | alarm | trip
deriving DecidableEq, Repr

/-- LE beside the limit table, which is a settings group. `records` holds, for each slot, the condition records of its entry
in the order of the entry's scope. -/
structure LimitEvaluator where
  records : Vector (List (UnitId × CondRecord)) 48
  verdicts : Quad Verdict
  latches : Quad Bool
  tripLines : Quad Bool
  alert : Bool
deriving DecidableEq, Repr

/-! ### Fast comparators, FC -/

/-- The filtered output and run count of a comparator (R121). -/
structure CompState where
  active : Bool
  run : Nat
deriving DecidableEq, Repr

structure Comparators where
  comps : Quad (Duo CompState)
deriving DecidableEq, Repr

/-! ### Capture ring, CR -/

/-- One channel's part of a slot: the samples written so far, index 0 first, and its marks (R134). -/
structure SlotChannel where
  samples : List Int
  marks : Marks
deriving DecidableEq, Repr

/-- A slot of every channel; untagged when `tag` is none (R134). -/
structure RingSlot where
  tag : Option Word
  channels : PerChannel SlotChannel
deriving DecidableEq, Repr

inductive FreezeState
  | running | post | frozen
deriving DecidableEq, Repr

inductive FreezeCause
  | verdictAlarm | verdictTrip | comparator | force
deriving DecidableEq, Repr

/-- The trigger record (R137). -/
structure TriggerRecord where
  cause : FreezeCause
  group : Option GroupId
  comparator : Option CompId
  window : Option Word
  cycle : Word
deriving DecidableEq, Repr

structure CaptureRing where
  slots : Vector RingSlot 16
  current : Fin 16
  state : FreezeState
  postCount : Nat
  trigger : Option TriggerRecord
  ignored : Nat
  releasePending : Bool
deriving DecidableEq, Repr

/-! ### Statistics, ST -/

/-- Each group's twelve counters, by the numbers of R155, and each pair's windows-analysed counter (R151). -/
structure Statistics where
  groups : Quad (Vector Word 12)
  pairs : Duo Word
deriving DecidableEq, Repr

/-! ### Service link, LC -/

/-- The twelve sticky flags (R167). -/
inductive Flag
  | linkCheck | linkRunt | linkOverlong | linkGap | requestOverflow | reportLost
  | syncHoldover | syncFree | clip | windowSkipped | settingsDefaulted | storeFailed
deriving DecidableEq, Repr

inductive SyncCause
  | crossing | missTimer | holdoverLimit
deriving DecidableEq, Repr

inductive GroupCause
  | inputClosed | settled | inputOpen | groupsMonitored | groupOut | pairing
deriving DecidableEq, Repr

inductive VerdictCause
  | evaluation | limitEdit | out | pairBroken
deriving DecidableEq, Repr

inductive LimitEventKind
  | active | cleared | withdrawn
deriving DecidableEq, Repr

/-- The fields of a report after its head (R164). -/
inductive ReportBody
  /-- R112; `entry` is the entry number with whether it is of pair scope -/
  | verdictChange (g : GroupId) (old new : Verdict) (cause : VerdictCause) (window : Word) (entry : Option (Nat × Bool))
  /-- R107 -/
  | limitEvent (entry : Nat) (unit : UnitId) (event : LimitEventKind) (severity : Severity) (window : Word)
      (value : Option Int)
  /-- R128 -/
  | fastEvent (g : GroupId) (c : CompId) (source : CompSource) (mode : CompMode) (active : Bool) (value : Int)
      (index : Nat) (tripped : Bool)
  /-- R33 -/
  | syncEvent (old new : Tracker) (cause : SyncCause) (period : Nat) (frequency : Nat)
  /-- R91, unit GROUP -/
  | groupEvent (g : GroupId) (old new : MonitorState) (cause : GroupCause) (window : Word)
  /-- R91, unit PAIR -/
  | pairEvent (p : PairId) (old new : PairState) (cause : GroupCause) (window : Word)
  /-- R142 -/
  | freezeEvent (frozen : Bool) (trigger : TriggerRecord) (post : Nat) (span : Option (Word × Word)) (ignored : Nat)
  /-- R168 -/
  | flagEvent (flag : Flag) (set : FlagSet)
  /-- R166 -/
  | windowDigest (g : GroupId) (window : Word) (meanV : Int) (rf : Option Nat) (jg : Nat) (verdict : Verdict)
deriving DecidableEq, Repr

/-- A record of the report queue: the cycle number at enqueue and the fields (R164). -/
structure Report where
  cycle : Word
  body : ReportBody
deriving DecidableEq, Repr

/-- What a block hands to LC: a report to enqueue, or the cause of a sticky flag. -/
inductive Notice
  | report (b : ReportBody)
  | flag (f : Flag)
deriving DecidableEq, Repr

/-- The content of a frame: kind, tag and payload (R157). -/
structure Frame where
  kind : Byte
  tag : Byte
  payload : List Byte
deriving DecidableEq, Repr

/-- The stage of a pending entry (R160). `order` is the ordinal at which it became READY. -/
inductive Stage
  | waiting
  | deferred
  | ready (order : Nat) (reply : Frame)
  | sending
deriving DecidableEq, Repr

structure Entry where
  request : Frame
  stage : Stage
deriving DecidableEq, Repr

/-- The receiver's state (R158): the body bytes collected so far, and in CHECK the first check character. -/
inductive Receiver
  | hunt
  | length
  | body (n : Nat) (got : List Byte)
  | check (n : Nat) (got : List Byte) (high : Option Byte)
deriving DecidableEq, Repr

/-- The frame being transmitted: a reply or a report (R163). -/
structure Sending where
  isReply : Bool
  frame : Frame
deriving DecidableEq, Repr

/-- A class of a SYNC_POINT: none while open, else the window number, or none for the point CYCLE (R162). -/
structure SyncWatch where
  analysis : Option (Option Word)
  limit : Option (Option Word)
deriving DecidableEq, Repr

structure LinkController where
  receiver : Receiver
  /-- the count at which the last character of the frame being received ended; none when no gap timer runs -/
  gapFrom : Option Count
  entries : List Entry
  queue : List Report
  /-- none is idle -/
  sending : Option Sending
  holdCount : Nat
  lost : Nat
  flags : FlagSet
  masks : FlagSet
  counters : Vector Word 6
  digests : Quad Nat
  sync : Option SyncWatch
  /-- replies made READY so far; the model's own ordinal for "earliest" (R163) -/
  readied : Nat
  /-- the RESTART reply has been sent and the restart is to be carried out (R171) -/
  restartDue : Bool
deriving DecidableEq, Repr

/-! ### Settings store, SS -/

/-- The store or check in flight (R181, R182). -/
inductive StoreFlight
  | store (snapshot : Settings)
  | check
deriving DecidableEq, Repr

structure SettingsStore where
  working : Settings
  staged : Staging
  image : StoredImage
  flight : Option StoreFlight
deriving DecidableEq, Repr

end Sys2Proof.Machine
end

