-- ==== Sys2Proof/Syntax.lean ====
section
/-! DEFINITION. The commands: one constructor for each row of spec/opcode_table.json, with what the outside world supplies at
that step as its operands. -/

namespace Sys2Proof

open Sys2Proof.Machine

/-- The thirteen raw codes of one sample event (R1, R2). -/
abbrev RawCodes := PerChannel RawCode

/-- The levels of the four in-service inputs at a cycle boundary (R80); yes is closed. -/
abbrev InputLevels := Quad Bool

/-- Which occurrence completes the third miss (R25, R26). -/
inductive MissKind
  | crossing | missTimer
deriving DecidableEq, Repr

/-- The steps of the part. A row that names a special case of a wider step (LOCK_ACHIEVED, WINDOW_BOUNDARY, INPUT_OPEN, ...)
is that whole step, taken when the case arises (log entry 6). Requests carry no operand here: their fields are the payload of
the pending entry that the handler takes (R160). -/
inductive Instr
  /-- Reset or power loss. `written` is what the image memory then holds if a store in flight had completed its write; none
  if its erase or write was still under way (R181). -/
  | reset (written : Option StoredImage)
  /-- Reset release, with the strap's level and the present output of the reference comparator. -/
  | resetRelease (strap : Bool) (reference : Polarity)
  /-- The reference comparator's output takes a polarity, `elapsed` counts after the last timed event. -/
  | referencePolarityChange (elapsed : Nat) (polarity : Polarity)
  | polarityConfirmed
  | lockAchieved
  | missTimer
  | holdoverEntry (kind : MissKind)
  | relock
  | holdoverLimit (inputs : InputLevels)
  | sampleEvent (raw : RawCodes)
  /-- The sample event at which the hold count of channel `c` reaches 0. -/
  | holdEnd (c : ChannelId) (raw : RawCodes)
  /-- The sample event at which the filtered output of comparator `c` of group `g` changes. -/
  | filteredOutputChange (g : GroupId) (c : CompId) (raw : RawCodes)
  | cycleBoundary (inputs : InputLevels)
  /-- The cycle boundary at which a CLOSED level is accepted for group `g`. -/
  | inputClosed (g : GroupId) (inputs : InputLevels)
  /-- The cycle boundary at which an OPEN level is accepted for group `g`. -/
  | inputOpen (g : GroupId) (inputs : InputLevels)
  /-- The cycle boundary at which the settle count of group `g` reaches 0. -/
  | settleCountExpiry (g : GroupId) (inputs : InputLevels)
  | ringFrozen (inputs : InputLevels)
  | reportHoldEnd (inputs : InputLevels)
  | windowBoundary (inputs : InputLevels)
  | jobStart
  | jobCompletion
  | evaluationPass
  /-- A character whose stop bit ends `elapsed` counts after the last timed event; `stopBit` says whether the stop bit was
  there. -/
  | linkCharacter (elapsed : Nat) (character : Byte) (stopBit : Bool)
  | gapTimeout
  /-- The character that completes a good frame. -/
  | frameAccepted (elapsed : Nat) (character : Byte) (stopBit : Bool)
  | nonRequestKind
  | transmitStart
  | frameSent
  | identify
  | getStatus
  | clearFlags
  | setFlagMask
  | getWindow
  | getLines
  | scanLines
  | readSamples
  | setFreeze
  | forceFreeze
  | releaseFreeze
  | setLimit
  | getLimit
  | deleteLimit
  | setWeights
  | setChannel
  | setComparator
  | setAnalysis
  | getSettings
  | getCounters
  | setCounter
  | clearTrip
  | holdReports
  | syncPoint
  | storeSettings
  /-- The store finishes, having read `readBack` back from the image memory. -/
  | storeCompletion (readBack : StoredImage)
  | checkSettings
  | checkCompletion
  | restart
  | restartExecution
  | leaveMaintenance
deriving DecidableEq, Repr

end Sys2Proof
end

