-- ==== Sys2Proof/Config.lean ====
section
/-! DEFINITION. What the manual fixes as numbers for the whole part, and the values it leaves open as constants without a
body. -/

namespace Sys2Proof.Config

open Sys2Proof.Machine

/-- A candidate polarity is confirmed when it has lasted 2,000 counts (R21). -/
def confirmCounts : Nat := 2000
/-- The sample events of a cycle (R29). -/
def samplesPerCycle : Nat := 120
/-- The shortest and longest period in range (R22). -/
def periodMin : Nat := 151516
def periodMax : Nat := 238095
/-- The tracker leaves HOLDOVER for FREE at the 50th boundary (R28). -/
def holdoverLimit : Nat := 50
/-- Misses that end LOCKED (R25). -/
def missLimit : Nat := 3
/-- Steady periods that make a lock (R24, R28). -/
def steadyLimit : Nat := 4
/-- The largest absolute value of a sample that passes the up-switch test (R9). -/
def upSwitchLimit : Nat := 24000
/-- The entries of the pending list (R160) and of the report queue (R164). -/
def pendingMax : Nat := 4
def queueMax : Nat := 64
/-- The slots of the capture ring (R134). -/
def ringSlots : Nat := 16
/-- The gap that abandons a frame, 1.0 ms (R158). -/
def gapCounts : Nat := 10000
/-- A character of ten bits takes 21.70 µs ("The line and the frame"). -/
def characterCounts : Nat := 217

/-- The bytes of the image's copy, over which its CRC-32 is taken. R180: "The order of fields within the image is not visible
over the link and is not given here." A free value (log entry 2). -/
opaque imageLayout : Settings → List Byte

/-- What a read of an erased or half-written image gives as its computed and stored CRC; only that they do not match is stated
(R181). Free values, applied to a counter of State that moves on with each store (log entry 3). -/
opaque tornComputed : Nat → Word
opaque tornStored : Nat → Word

/-- The 4-byte period field of a SYNC_EVENT whose period is 2^32 counts or more, a length no rule fits into its field (R33, R172).
A free value (log entry 4). -/
opaque longPeriod : Nat → Word

end Sys2Proof.Config
end

