-- ==== Sys2Proof/Machine/Layout.lean ====
section
/-! DEFINITION. Message kinds and byte layouts (R172 to R177): request kinds with their lengths, report payloads, record
summaries and line entries, and the frame on the wire (R157). -/

namespace Sys2Proof.Machine

/-! ### Codes of states and causes (R177) -/

def Flag.number : Flag → Nat
  | .linkCheck => 0
  | .linkRunt => 1
  | .linkOverlong => 2
  | .linkGap => 3
  | .requestOverflow => 4
  | .reportLost => 5
  | .syncHoldover => 6
  | .syncFree => 7
  | .clip => 8
  | .windowSkipped => 9
  | .settingsDefaulted => 10
  | .storeFailed => 11

def Verdict.code : Verdict → Nat
  | .normal => 0
  | .watch => 1
  | .alarm => 2
  | .trip => 3

def VerdictCause.code : VerdictCause → Nat
  | .evaluation => 0
  | .limitEdit => 1
  | .out => 2
  | .pairBroken => 3

def LimitEventKind.code : LimitEventKind → Nat
  | .active => 0
  | .cleared => 1
  | .withdrawn => 2

def Tracker.code : Tracker → Nat
  | .seek => 0
  | .locking => 1
  | .locked => 2
  | .holdover => 3
  | .free => 4

def SyncCause.code : SyncCause → Nat
  | .crossing => 0
  | .missTimer => 1
  | .holdoverLimit => 2

def MonitorState.code : MonitorState → Nat
  | .out => 0
  | .settling => 1
  | .monitor => 2

def PairState.code : PairState → Nat
  | .broken => 0
  | .intact => 1

def GroupCause.code : GroupCause → Nat
  | .inputClosed => 0
  | .settled => 1
  | .inputOpen => 2
  | .groupsMonitored => 3
  | .groupOut => 4
  | .pairing => 5

def FreezeState.code : FreezeState → Nat
  | .running => 0
  | .post => 1
  | .frozen => 2

def FreezeCause.code : FreezeCause → Nat
  | .verdictAlarm => 0
  | .verdictTrip => 1
  | .comparator => 2
  | .force => 3

def CondState.code : CondState → Nat
  | .clear => 0
  | .pendingOn => 1
  | .active => 2
  | .pendingOff => 3

def Range.code : Range → Nat
  | .low => 0
  | .high => 1

/-! ### Field widths -/

def byte1 (n : Nat) : List Byte := beBytes 1 n
def byte2 (n : Nat) : List Byte := beBytes 2 n
def byte4 (n : Nat) : List Byte := beBytes 4 n
def word4 (w : Word) : List Byte := beBytes 4 w.toNat
def signed4 (x : Int) : List Byte := beBytesInt 4 x

/-- A set of twelve flags takes two bytes, flag k at bit k (R172). -/
def flagBytes (s : FlagSet) : List Byte := beBytes 2 s.toNat

/-- The four bytes of a SYNC_EVENT's period: the count, or a free value where it does not fit (log entry 4). -/
def periodBytes (p : Nat) : List Byte := if p < 2 ^ 32 then byte4 p else word4 (Config.longPeriod p)

/-! ### Reports (R172, R174) -/

def ReportBody.kind : ReportBody → Byte
  | .verdictChange .. => 0x81
  | .limitEvent .. => 0x82
  | .fastEvent .. => 0x83
  | .syncEvent .. => 0x84
  | .groupEvent .. => 0x85
  | .pairEvent .. => 0x85
  | .freezeEvent .. => 0x86
  | .flagEvent .. => 0x87
  | .windowDigest .. => 0x88

/-- A ratio field of a record layout: 0xFFFF when absent (R174 to R176). -/
def ratioBytes (r : Option Nat) : List Byte := byte2 (r.getD 0xFFFF)

/-- A trip record: a VERDICT_CHANGE whose to is TRIP, or a FAST_EVENT with tripped yes (R164). -/
def ReportBody.isTrip : ReportBody → Bool
  | .verdictChange _ _ new _ _ _ => decide (new = .trip)
  | .fastEvent _ _ _ _ _ _ _ tripped => tripped
  | _ => false

/-- The fields of a report after the cycle number, in the order of its rule. The value of a FAST_EVENT and of a LIMIT_EVENT takes 4 bytes
whatever the source or the quantity, which is the model's reading of R172 (log entry 35). -/
def ReportBody.fields : ReportBody → List Byte
  | .verdictChange g old new cause window entry =>
    byte1 g.toNat ++ byte1 old.code ++ byte1 new.code ++ byte1 cause.code ++ word4 window ++
      optBytes 1 (entry.map fun e => byte1 e.1) ++ [boolByte ((entry.map Prod.snd).getD false)]
  | .limitEvent entry unit event severity window value =>
    byte1 entry ++ byte1 unit.kindCode ++ byte1 unit.index ++ byte1 event.code ++ byte1 severity.code ++ word4 window ++
      optBytes 4 (value.map signed4)
  | .fastEvent g c source mode active value index tripped =>
    byte1 g.toNat ++ byte1 c.toNat ++ byte1 source.code ++ byte1 mode.code ++ [boolByte active] ++ signed4 value ++
      byte1 index ++ [boolByte tripped]
  | .syncEvent old new cause period frequency =>
    byte1 old.code ++ byte1 new.code ++ byte1 cause.code ++ periodBytes period ++ byte4 frequency
  | .groupEvent g old new cause window =>
    byte1 0 ++ byte1 g.toNat ++ byte1 old.code ++ byte1 new.code ++ byte1 cause.code ++ word4 window
  | .pairEvent p old new cause window =>
    byte1 1 ++ byte1 p.toNat ++ byte1 old.code ++ byte1 new.code ++ byte1 cause.code ++ word4 window
  | .freezeEvent frozen trigger post span ignored =>
    byte1 (if frozen then 2 else 1) ++ byte1 trigger.cause.code ++ optBytes 1 (trigger.group.map fun g => byte1 g.toNat) ++
      optBytes 1 (trigger.comparator.map fun c => byte1 c.toNat) ++ optBytes 4 (trigger.window.map word4) ++
      word4 trigger.cycle ++ byte1 post ++ optBytes 4 (span.map fun s => word4 s.1) ++
      optBytes 4 (span.map fun s => word4 s.2) ++ byte2 ignored
  | .flagEvent flag set => byte1 flag.number ++ flagBytes set
  | .windowDigest g window meanV rf jg verdict =>
    byte1 g.toNat ++ word4 window ++ signed4 meanV ++ [boolByte rf.isSome] ++ ratioBytes rf ++ byte4 jg ++
      byte1 verdict.code

/-- A report carries tag 0, and its payload begins with the cycle number at enqueue (R157, R174). -/
def Report.frame (r : Report) : Frame :=
  { kind := r.body.kind, tag := 0, payload := word4 r.cycle ++ r.body.fields }

/-! ### The frame (R157) -/

/-- The checked bytes of a frame: length, kind, tag and payload. -/
def Frame.checked (f : Frame) : List Byte :=
  BitVec.ofNat 8 (f.payload.length + 2) :: f.kind :: f.tag :: f.payload

/-- The bytes of a frame on the wire: start mark, checked bytes, check high byte first. -/
def Frame.wire (f : Frame) : List Byte := 0xA5 :: f.checked ++ beBytes 2 (crc16 f.checked).toNat

/-! ### Replies (R173) -/

/-- Why a request is refused (R161, R173). -/
inductive Reason
  | unknownKind | badLength | badValue | busy | notAvailable | causePresent | mode
deriving DecidableEq, Repr

def Reason.code : Reason → Nat
  | .unknownKind => 1
  | .badLength => 2
  | .badValue => 3
  | .busy => 4
  | .notAvailable => 5
  | .causePresent => 6
  | .mode => 7

/-- The reply to a request: its kind plus 0x40, its tag, the status byte and the fields. -/
def replyFrame (request : Frame) (status : Byte) (fields : List Byte) : Frame :=
  { kind := request.kind + 0x40, tag := request.tag, payload := status :: fields }

/-- The REFUSED frame, with the kind refused and the reason. -/
def refusedFrame (request : Frame) (r : Reason) : Frame :=
  { kind := 0x7F, tag := request.tag, payload := [request.kind, BitVec.ofNat 8 r.code] }

/-- The request kinds are 0x01 to 0x1C (R159). -/
def isRequestKind (k : Byte) : Bool := decide (0x01 ≤ k.toNat) && decide (k.toNat ≤ 0x1C)

/-- The payload length that the kind table gives; none for SET_WEIGHTS, whose length depends on its count (R173). -/
def kindLength : Nat → Option Nat
  | 0x03 => some 2
  | 0x04 => some 2
  | 0x05 => some 3
  | 0x06 => some 6
  | 0x07 => some 12
  | 0x08 => some 7
  | 0x09 => some 5
  | 0x0C => some 19
  | 0x0D => some 1
  | 0x0E => some 1
  | 0x0F => none
  | 0x10 => some 13
  | 0x11 => some 9
  | 0x12 => some 10
  | 0x13 => some 2
  | 0x15 => some 7
  | 0x16 => some 1
  | 0x17 => some 2
  | _ => some 0

/-- The kinds refused with MODE in MAINTENANCE (R173). -/
def refusedInMaintenance (k : Nat) : Bool :=
  k == 0x05 || k == 0x06 || k == 0x07 || k == 0x0A || k == 0x0B || k == 0x16

/-- The length test of R161. -/
def lengthFits (k : Byte) (payload : List Byte) : Bool :=
  match kindLength k.toNat with
  | some n => decide (payload.length = n)
  | none => decide (2 ≤ payload.length) && decide ((payload.length - 2) % 2 = 0)

/-! ### Record summaries and line entries (R175, R176) -/

def bitAt (k : Nat) (b : Bool) : Nat := if b then 2 ^ k else 0

/-- CLIP and HELD of each channel in turn, CLIP first, from bit `k` up. -/
def marksBits : Nat → List Marks → Nat
  | _, [] => 0
  | k, m :: ms => bitAt k m.clip + bitAt (k + 1) m.held + marksBits (k + 2) ms

def GroupRecord.flags (r : GroupRecord) : Nat :=
  bitAt 0 r.degraded + bitAt 1 r.noBase + bitAt 2 r.clamped + marksBits 3 [r.marksV, r.marksIA, r.marksIB]

def PairRecord.flags (r : PairRecord) : Nat :=
  bitAt 0 r.degraded + bitAt 1 r.noBase + bitAt 2 r.clamped + marksBits 3 r.marks

/-- The group summary of R175 after its status byte. -/
def GroupRecord.summary (r : GroupRecord) : List Byte :=
  byte1 0 ++ byte1 r.group.toNat ++ word4 r.window ++ word4 r.firstCycle ++ byte1 r.length.cycles ++ byte2 r.flags ++
    byte1 (bitAt 0 r.rf.isSome + bitAt 1 r.ppr.isSome + bitAt 2 r.sd.isSome + bitAt 3 r.ka.isSome + bitAt 4 r.kb.isSome) ++
    signed4 r.meanV ++ signed4 r.meanIA ++ signed4 r.meanIB ++ signed4 r.meanIG ++ byte4 r.rippleV ++ byte4 r.peakV ++
    ratioBytes r.rf ++ ratioBytes r.ppr ++ byte4 r.rippleIG ++ ratioBytes r.sd ++ ratioBytes r.ka ++ ratioBytes r.kb ++
    byte4 r.jg

/-- The pair summary of R175 after its status byte. -/
def PairRecord.summary (r : PairRecord) : List Byte :=
  byte1 1 ++ byte1 r.pair.toNat ++ word4 r.window ++ word4 r.firstCycle ++ byte1 r.length.cycles ++ byte2 r.flags ++
    byte1 (bitAt 0 r.ratiosIP.isSome) ++ signed4 r.meanIP ++ byte4 r.jp

/-- One line entry: the amplitude and the ratio, 0xFFFF when absent (R176). -/
def lineEntry (amplitude : Nat) (ratio : Option Nat) : List Byte := byte4 amplitude ++ ratioBytes ratio

/-- The entry of a table at a one-based order; orders outside 1 to 50 read as 0. -/
def atOrder (t : Lines) (order : Nat) : Nat := t.toList.getD (order - 1) 0

end Sys2Proof.Machine
end

