-- ==== Sys2Proof/Machine/Fresh.lean ====
section
/-! DEFINITION. The state each block takes at reset release and on RESTART, from the working settings (R18, R35, R56, R95,
R119, R133, R145, R156, R171). -/

namespace Sys2Proof.Machine

/-- R18: LOW, or HIGH in FIXED_HIGH, no hold, an empty test interval. The value last delivered is named by no rule; it is 0
(DESIGN CHOICE, log entry 1). -/
def RangeState.fresh (x : ChannelSettings) : RangeState :=
  { range := if x.rangeMode = .fixedHigh then .high else .low, hold := 0, steady := true, last := 0 }

def FrontEnd.fresh (x : Settings) : FrontEnd :=
  { ia := x.channels.ia.map RangeState.fresh, ib := x.channels.ib.map RangeState.fresh }

/-- R35 and R36, with the timebase at `now` and a candidate of the comparator output's present polarity (R21). -/
def CycleTracker.fresh (x : Settings) (now : Count) (reference : Polarity) : CycleTracker :=
  { timebase := now, reference := reference, confirmed := none,
    candidate := some { polarity := reference, stamp := now }, previous := none, tracker := .seek, accepted := none,
    lastInRange := none, runCount := 0, missCount := 0, holdoverCycles := 0, origin := .seek, missTimer := none,
    cycle := 0, start := now, length := x.analysis.nominal.period, issued := 0, holdoverMark := false, steering := none }

/-- R56. -/
def AnalysisEngine.fresh : AnalysisEngine :=
  { clock := none, counter := 0, groupSets := Quad.fill none, pairSets := Duo.fill none,
    groupSlots := Quad.fill .empty, pairSlots := Duo.fill .empty,
    groupStore := Quad.fill { latest := none, previous := none },
    pairStore := Duo.fill { latest := none, previous := none }, passes := [], handovers := 0 }

def GroupMonitor.fresh : GroupMonitor := { accepted := .opened, debounce := 0, state := .out, settle := 0 }

/-- R95. -/
def Monitors.fresh : Monitors := { groups := Quad.fill GroupMonitor.fresh, pairs := Duo.fill .broken }

def CondRecord.clear : CondRecord := { state := .clear, count := 0 }

/-- The records of a newly created entry: one per unit of its scope, CLEAR with count 0 (R103, R104). -/
def freshRecords : Option LimitEntry → List (UnitId × CondRecord)
  | some e => e.scope.units.map fun u => (u, CondRecord.clear)
  | none => []

/-- R119: every record CLEAR, every verdict NORMAL, every latch clear, every line inactive. -/
def LimitEvaluator.fresh (x : Settings) : LimitEvaluator :=
  { records := tableMap freshRecords x.limits, verdicts := Quad.fill .normal, latches := Quad.fill false,
    tripLines := Quad.fill false, alert := false }

/-- R133. -/
def Comparators.fresh : Comparators := { comps := Quad.fill (Duo.fill { active := false, run := 0 }) }

def Marks.clear : Marks := { clip := false, held := false }

/-- A slot just taken: no sample written, marks clear (R135). -/
def RingSlot.fresh (tag : Option Word) : RingSlot :=
  { tag := tag, channels := PerChannel.fill { samples := [], marks := Marks.clear } }

/-- R145: every slot untagged but the current one, which is tagged with cycle 0. Which slot is the current one R145 leaves open: slot 0 is
the model's choice (log entry 37). -/
def CaptureRing.fresh : CaptureRing :=
  { slots := (Vector.replicate 16 (RingSlot.fresh none)).set 0 (RingSlot.fresh (some 0)), current := 0,
    state := .running, postCount := 0, trigger := none, ignored := 0, releasePending := false }

/-- R156. -/
def Statistics.fresh : Statistics := { groups := Quad.fill (Vector.replicate 12 0), pairs := Duo.fill 0 }

/-- R171, before start-up has set any flag. -/
def LinkController.fresh : LinkController :=
  { receiver := .hunt, gapFrom := none, entries := [], queue := [], sending := none, holdCount := 0, lost := 0,
    flags := 0, masks := BitVec.allOnes 12, counters := Vector.replicate 6 0, digests := Quad.fill 0, sync := none,
    readied := 0, restartDue := false }

/-- The staging area is empty and nothing is in flight (R183). -/
def SettingsStore.fresh (working : Settings) (image : StoredImage) : SettingsStore :=
  { working := working, staged := Staging.empty, image := image, flight := none }

end Sys2Proof.Machine
end

