-- ==== Sys2Proof/Machine/State.lean ====
section
/-! DEFINITION. The state of the part, and its state after reset. -/

namespace Sys2Proof.Machine

/-- The part. `pending` is the queue of the commands that are waiting; every other field but `freeNext` is a block's own
state. -/
structure State where
  /-- commands waiting, first in, first out (the model's own) -/
  pending : List Instr
  /-- RESET_N is asserted or power is off: RESET has been taken and RESET_RELEASE has not -/
  inReset : Bool
  mode : Mode
  fe : FrontEnd
  ct : CycleTracker
  ae : AnalysisEngine
  gm : Monitors
  le : LimitEvaluator
  fc : Comparators
  cr : CaptureRing
  st : Statistics
  lc : LinkController
  ss : SettingsStore
  /-- the number of the free value that a torn image reads as; each store that ends moves it on (the model's own) -/
  freeNext : Nat
deriving DecidableEq, Repr

/-- The part has no fault: no rule of the manual stops it, and no meaning raises one. -/
inductive Fault
deriving DecidableEq, Repr

/-- Why a command has no meaning. -/
inductive Refusal
  /-- Raised by `exec` alone, in the arm of a command whose meaning has not been written (safe: nothing is claimed of it). No
  arm raises it now. -/
  | notModelled (mnemonic : String)
deriving DecidableEq, Repr

/-- The blocks at reset release with the working settings `x`, before start-up sets any flag. -/
def State.released (x : Settings) (mode : Mode) (reference : Polarity) (image : StoredImage) : State :=
  { pending := [], inReset := false, mode := mode, fe := FrontEnd.fresh x, ct := CycleTracker.fresh x 0 reference,
    ae := AnalysisEngine.fresh, gm := Monitors.fresh, le := LimitEvaluator.fresh x, fc := Comparators.fresh,
    cr := CaptureRing.fresh, st := Statistics.fresh, lc := LinkController.fresh, ss := SettingsStore.fresh x image,
    freeNext := 0 }

/-- The part right after reset release with the strap not asserted and no image ever stored: the factory defaults are the
working settings, SETTINGS_DEFAULTED is set, and its FLAG_EVENT is the first record in the queue (R171, R183). That the image
is blank, the strap is off and the reference comparator's output is negative are DESIGN CHOICES (log entry 1). -/
def State.reset : State :=
  let s := State.released Settings.factory .normal .negative .torn
  { s with lc := { s.lc with flags := 0x400#12, queue := [{ cycle := 0, body := .flagEvent .settingsDefaulted 0x400#12 }] } }

/-! ### One block replaced -/

def State.setFe (s : State) (x : FrontEnd) : State := { s with fe := x }
def State.setCt (s : State) (x : CycleTracker) : State := { s with ct := x }
def State.setAe (s : State) (x : AnalysisEngine) : State := { s with ae := x }
def State.setGm (s : State) (x : Monitors) : State := { s with gm := x }
def State.setLe (s : State) (x : LimitEvaluator) : State := { s with le := x }
def State.setFc (s : State) (x : Comparators) : State := { s with fc := x }
def State.setCr (s : State) (x : CaptureRing) : State := { s with cr := x }
def State.setSt (s : State) (x : Statistics) : State := { s with st := x }
def State.setLc (s : State) (x : LinkController) : State := { s with lc := x }
def State.setSs (s : State) (x : SettingsStore) : State := { s with ss := x }
def State.setMode (s : State) (x : Mode) : State := { s with mode := x }
def State.setFreeNext (s : State) (x : Nat) : State := { s with freeNext := x }

end Sys2Proof.Machine
end

