-- ==== Sys2Proof/Machine/Flags.lean ====
section
/-! DEFINITION. The sticky flags and the report queue of LC (R164, R167, R168), which set and enqueue one another. -/

namespace Sys2Proof.Machine

def flagOf (s : FlagSet) (f : Flag) : Bool := s.getLsbD f.number

def flagBit (f : Flag) : FlagSet := BitVec.ofNat 12 (2 ^ f.number)

/-- The queue with its oldest non-trip record removed, if it holds one (R164). -/
def dropOldestNonTrip : List Report → Option (List Report)
  | [] => none
  | r :: rs => if r.body.isTrip then (dropOldestNonTrip rs).map (r :: ·) else some rs

/-- The full-queue policy of R164: the queue after `r` is enqueued, and whether a record was lost. -/
def queueAfter (q : List Report) (r : Report) : List Report × Bool :=
  if q.length < Config.queueMax then (q ++ [r], false)
  else if r.body.isTrip then
    match dropOldestNonTrip q with
    | some q' => (q' ++ [r], true)
    | none => (q, true)
  else (q, true)

/-- The lost-report count: 16-bit, staying at 65,535 (R164). -/
def bumpLost (n : Nat) : Nat := if n < 65535 then n + 1 else 65535

/-- One record enqueued, without the flag that a loss sets. -/
def LinkController.enqueueRaw (l : LinkController) (r : Report) : LinkController :=
  let a := queueAfter l.queue r
  { l with queue := a.1, lost := if a.2 then bumpLost l.lost else l.lost }

/-- One record enqueued (R164): a loss sets REPORT_LOST, and the FLAG_EVENT of that goes through the same policy. -/
def LinkController.enqueue (cycle : Word) (l : LinkController) (b : ReportBody) : LinkController :=
  let r : Report := { cycle := cycle, body := b }
  let l' := l.enqueueRaw r
  if (queueAfter l.queue r).2 && !flagOf l.flags .reportLost then
    let flags := l.flags ||| flagBit .reportLost
    let l'' := { l' with flags := flags }
    if flagOf l.masks .reportLost then l''.enqueueRaw { cycle := cycle, body := .flagEvent .reportLost flags } else l''
  else l'

/-- The cause of a flag comes (R168): a clear flag is set, and with its mask on a FLAG_EVENT is enqueued. -/
def LinkController.raise (cycle : Word) (l : LinkController) (f : Flag) : LinkController :=
  if flagOf l.flags f then l
  else
    let flags := l.flags ||| flagBit f
    let l' := { l with flags := flags }
    if flagOf l.masks f then l'.enqueue cycle (.flagEvent f flags) else l'

def LinkController.take (cycle : Word) (l : LinkController) : Notice → LinkController
  | .report b => l.enqueue cycle b
  | .flag f => l.raise cycle f

/-- Reports enqueued and flags raised, in order. -/
def LinkController.post (cycle : Word) (l : LinkController) (ns : List Notice) : LinkController :=
  ns.foldl (LinkController.take cycle) l

/-- A block's notices handed to LC, under the number of the cycle in progress (R164). -/
def State.post (s : State) (ns : List Notice) : State := s.setLc (s.lc.post s.ct.cycle ns)

end Sys2Proof.Machine
end

