-- ==== Sys2Proof/Machine/Ops.lean ====
section
/-! DEFINITION. The named operations that the meanings share: time, latches and the alert line, freeze triggers, counters, and the
handler of the pending list. -/

namespace Sys2Proof.Machine

/-- The outcome of a step of this part: it never faults and no written meaning refuses. -/
abbrev Result := Host.Outcome State Fault Refusal

/-- No command but a reset release is taken while the part is held in reset (R20, R183; log entry 7). -/
def whenRunning (s : State) (t : State) : Result := .next (if s.inReset then s else t)

/-- A command that names an occurrence has its effect when the occurrence arises, and otherwise none (log entry 6). -/
def whenDue (s : State) (due : Bool) (t : State) : Result := .next (if !s.inReset && due then t else s)

/-! ### Time -/

/-- An event `elapsed` counts after the last timed event. -/
def CycleTracker.elapse (c : CycleTracker) (elapsed : Nat) : CycleTracker :=
  { c with timebase := c.timebase + BitVec.ofNat 64 elapsed }

/-- An event that falls at the count `due`; the timebase never runs backward (log entry 8). -/
def CycleTracker.reach (c : CycleTracker) (due : Count) : CycleTracker :=
  { c with timebase := if c.timebase.toNat < due.toNat then due else c.timebase }

/-! ### Trip latches, trip lines and the alert line -/

/-- A verdict that raises the alert line: ALARM or TRIP (R116). -/
def Verdict.alerting : Verdict → Bool
  | .alarm => true
  | .trip => true
  | _ => false

/-- R116, re-evaluated from the verdicts and the latches. -/
def LimitEvaluator.refreshAlert (l : LimitEvaluator) (m : Mode) : LimitEvaluator :=
  { l with alert := decide (m = .normal) && ((l.verdicts.map Verdict.alerting).any || l.latches.any) }

/-- A group's latch set or cleared, its trip line and the alert line following (R114, R116). -/
def LimitEvaluator.setLatch (l : LimitEvaluator) (m : Mode) (g : GroupId) (on : Bool) : LimitEvaluator :=
  LimitEvaluator.refreshAlert { l with latches := l.latches.set g on, tripLines := l.tripLines.set g on } m

/-! ### Freeze triggers (R137, R139) -/

/-- A considered trigger: taken in RUNNING, ignored and counted in POST and FROZEN. -/
def CaptureRing.consider (c : CaptureRing) (post : Nat) (r : TriggerRecord) : CaptureRing × List Notice :=
  match c.state with
  | .running =>
    ({ c with state := .post, postCount := post, trigger := some r },
      [.report (.freezeEvent false r post none c.ignored)])
  | _ => ({ c with ignored := if c.ignored < 65535 then c.ignored + 1 else c.ignored }, [])

/-- The source flag of a cause in the freeze setup; FORCE has none and is always considered (R136, R140). -/
def FreezeSetup.admits (f : FreezeSetup) : FreezeCause → Bool
  | .verdictAlarm => f.verdictAlarm
  | .verdictTrip => f.verdictTrip
  | .comparator => f.comparator
  | .force => true

/-- A trigger offered to CR (R137). -/
def State.offerTrigger (s : State) (r : TriggerRecord) : State :=
  if s.ss.working.freeze.admits r.cause then
    let a := s.cr.consider s.ss.working.freeze.postCycles r
    (s.setCr a.1).post a.2
  else s

/-! ### Counters (R151, R169) -/

/-- A counter of a table increased by 1, wrapping at 32 bits. -/
def bumpAt (v : Vector Word n) (k : Nat) : Vector Word n :=
  Vector.ofFn fun i => if i.val = k then v[i] + 1 else v[i]

def Statistics.bumpGroup (s : Statistics) (g : GroupId) (k : Nat) : Statistics :=
  { s with groups := s.groups.set g (bumpAt (s.groups.get g) k) }

def Statistics.bumpPair (s : Statistics) (p : PairId) : Statistics :=
  { s with pairs := s.pairs.set p (s.pairs.get p + 1) }

def LinkController.bump (l : LinkController) (k : Nat) : LinkController := { l with counters := bumpAt l.counters k }

/-! ### The pending list and its handler (R160, R161) -/

/-- The reply to RESTART: kind 0x1B plus 0x40. -/
def restartReplyKind : Byte := 0x5B

def Stage.isRestartReply : Stage → Bool
  | .ready _ r => r.kind == restartReplyKind
  | _ => false

/-- While the RESTART reply is READY or SENDING, and until the restart has been carried out, the handler takes no request
(R171). -/
def LinkController.handlerHeld (l : LinkController) : Bool :=
  l.restartDue || l.entries.any (fun e => e.stage.isRestartReply) ||
    (match l.sending with
     | some t => t.isReply && t.frame.kind == restartReplyKind
     | none => false)

def Entry.isWaiting (e : Entry) : Bool := decide (e.stage = .waiting)

/-- The request the handler takes next: the earliest WAITING entry (R160). -/
def State.nextRequest (s : State) : Option Frame :=
  if s.lc.handlerHeld then none else (s.lc.entries.find? Entry.isWaiting).map Entry.request

/-- The first entry that `p` holds of, with its stage replaced. -/
def restage (p : Entry → Bool) (stage : Stage) : List Entry → List Entry
  | [] => []
  | e :: es => if p e then { e with stage := stage } :: es else e :: restage p stage es

/-- An entry becomes READY with its reply formed (R160). -/
def LinkController.makeReady (l : LinkController) (p : Entry → Bool) (reply : Frame) : LinkController :=
  { l with entries := restage p (.ready l.readied reply) l.entries, readied := l.readied + 1 }

/-- What the rule of a request answers: a refusal, which changes no state; a reply with its status and fields, over the state
the request leaves; or a deferred reply. -/
inductive Answer
  | refused (r : Reason)
  | replied (s : State) (status : Byte) (fields : List Byte)
  | deferred (s : State)

/-- The entry being handled takes its stage by the answer (R160, R161). -/
def State.answer (s : State) (request : Frame) : Answer → State
  | .refused r => s.setLc (s.lc.makeReady Entry.isWaiting (refusedFrame request r))
  | .replied t status fields => t.setLc (t.lc.makeReady Entry.isWaiting (replyFrame request status fields))
  | .deferred t => t.setLc { t.lc with entries := restage Entry.isWaiting .deferred t.lc.entries }

/-- Tests 2 and 3 of R161, then the rule of the request. -/
def State.tested (s : State) (request : Frame) (rule : List Byte → State → Answer) : Answer :=
  if !lengthFits request.kind request.payload then .refused .badLength
  else if decide (s.mode = .maintenance) && refusedInMaintenance request.kind.toNat then .refused .mode
  else rule request.payload s

/-- The handling of a request of kind `kind`, when the earliest WAITING entry is one (R160, R161). -/
def handle (kind : Byte) (rule : List Byte → State → Answer) (s : State) : Result :=
  match s.nextRequest with
  | some request => whenDue s (request.kind == kind) (s.answer request (s.tested request rule))
  | none => .next s

/-- A DEFERRED entry of a kind. -/
def Entry.isDeferred (kind : Byte) (e : Entry) : Bool := decide (e.stage = .deferred) && (e.request.kind == kind)

/-- The tag and kind of the first DEFERRED entry of a kind. -/
def LinkController.deferredRequest (l : LinkController) (kind : Byte) : Option Frame :=
  (l.entries.find? (Entry.isDeferred kind)).map Entry.request

/-- The deferred reply of `kind` is formed and becomes READY (R160). -/
def LinkController.replyDeferred (l : LinkController) (kind : Byte) (status : Byte) (fields : List Byte) : LinkController :=
  match l.deferredRequest kind with
  | some request => l.makeReady (Entry.isDeferred kind) (replyFrame request status fields)
  | none => l

end Sys2Proof.Machine
end

