-- ==== Sys2Proof/Machine/FastComparators.lean ====
section
/-! DEFINITION. FC: threshold, raw output, filter, and what a change of a filtered output does (R121 to R132). -/

namespace Sys2Proof.Machine

/-- One step of the level code in extended units (R122). -/
def CompSource.step : CompSource → Int
  | .v => 128
  | .ia => 1024
  | .ib => 1024

/-- The threshold of R122. -/
def CompSettings.threshold (x : CompSettings) : Int :=
  match x.mode with
  | .high => (x.level + 1) * x.source.step
  | .low => x.level * x.source.step

/-- The raw output of R122, a negative sample compared as 0. -/
def CompSettings.rawOutput (x : CompSettings) (value : Int) : Bool :=
  let v := if value < 0 then 0 else value
  match x.mode with
  | .high => decide (x.threshold ≤ v)
  | .low => decide (v < x.threshold)

/-- The filter changes its output at this sample: judged, disagreeing, and the run complete (R123, R124). -/
def CompState.changes (x : CompSettings) (c : CompState) (y : Sample) : Bool :=
  y.judged && (x.rawOutput y.value != c.active) && decide (c.run + 1 = x.filter)

/-- The filter after a sample (R123, R124). -/
def CompState.afterSample (x : CompSettings) (c : CompState) (y : Sample) : CompState :=
  if !y.judged then c
  else if x.rawOutput y.value == c.active then { c with run := 0 }
  else if c.run + 1 = x.filter then { active := x.rawOutput y.value, run := 0 }
  else { c with run := c.run + 1 }

/-- The sample of a comparator's source channel. -/
def sourceSample (ys : PerChannel Sample) (g : GroupId) : CompSource → Sample
  | .v => ys.v.get g
  | .ia => ys.ia.get g
  | .ib => ys.ib.get g

/-- An armed comparator may trip its group in SETTLING and MONITOR (R126). -/
def MonitorState.inService : MonitorState → Bool
  | .out => false
  | .settling => true
  | .monitor => true

def Comparators.get (f : Comparators) (g : GroupId) (c : CompId) : CompState := (f.comps.get g).comp c

def Comparators.set (f : Comparators) (g : GroupId) (c : CompId) (x : CompState) : Comparators :=
  { comps := f.comps.set g ((f.comps.get g).setComp c x) }

def Settings.comparator (x : Settings) (g : GroupId) (c : CompId) : CompSettings := (x.comparators.get g).comp c

/-- R126: the change is to ACTIVE, the comparator is armed and the group is in SETTLING or MONITOR. -/
def State.comparatorTrips (s : State) (g : GroupId) (x : CompSettings) (after : CompState) : Bool :=
  after.active && x.tripArmed && (s.gm.groups.get g).state.inService

/-- What a change of a filtered output does: the trip, the freeze trigger and the report, in that order (R126 to R128). -/
def State.outputChanged (s : State) (g : GroupId) (c : CompId) (x : CompSettings) (after : CompState) (value : Int)
    (index : Nat) : State :=
  let tripped := s.comparatorTrips g x after
  let s := if tripped then s.setLe (s.le.setLatch s.mode g true) else s
  let s :=
    if after.active && x.freezeTrigger then
      s.offerTrigger { cause := .comparator, group := some g, comparator := some c, window := none, cycle := s.ct.cycle }
    else s
  if x.report then s.post [.report (.fastEvent g c x.source x.mode after.active value index tripped)] else s

/-- One comparator takes its sample (R122 to R128). -/
def State.judgeComparator (s : State) (ys : PerChannel Sample) (index : Nat) (g : GroupId) (c : CompId) : State :=
  let x := s.ss.working.comparator g c
  let y := sourceSample ys g x.source
  let before := s.fc.get g c
  let after := before.afterSample x y
  let s' := s.setFc (s.fc.set g c after)
  if before.changes x y then s'.outputChanged g c x after y.value index else s'

/-- C0 and C1 of group 0, then of groups 1, 2 and 3 (R125). -/
def comparatorOrder : List (GroupId × CompId) := GroupId.all.flatMap fun g => CompId.all.map fun c => (g, c)

/-- The eight comparators at one sample event; in MAINTENANCE they are held inactive (R125, R132). -/
def State.judgeComparators (s : State) (ys : PerChannel Sample) (index : Nat) : State :=
  match s.mode with
  | .normal => comparatorOrder.foldl (fun s gc => s.judgeComparator ys index gc.1 gc.2) s
  | .maintenance => s.setFc Comparators.fresh

end Sys2Proof.Machine
end

