-- ==== Sys2Proof/Machine/FrontEnd.lean ====
section
/-! DEFINITION. FE: calibration, extended samples, marks, the down-switch with its hold, and the up-switch test (R1 to R16). -/

namespace Sys2Proof.Machine

/-- A corrected code with whether the sample is clipped. -/
structure Conversion where
  code : Int
  clipped : Bool
deriving DecidableEq, Repr

/-- R3 before its clamp: (raw − offset) × gain + 16,384, divided by 32,768 and rounded down. -/
def calibrate (offset : Int) (gain : Nat) (raw : Int) : Int := ((raw - offset) * gain + 16384) / 32768

/-- The corrected code of R3, and whether the sample is clipped by R4. -/
def convert (offset : Int) (gain : Nat) (raw : RawCode) : Conversion :=
  let q := calibrate offset gain raw.toInt
  let c := clampInt (-32768) 32767 q
  { code := c, clipped := decide (raw.toInt = -32768) || decide (raw.toInt = 32767) || decide (c ≠ q) }

/-- A channel with one range: the sample is the corrected code (R5, R12). -/
def plainSample (x : ChannelSettings) (raw : RawCode) : Sample :=
  let c := convert x.offsetLow x.gainLow raw
  { value := c.code, held := false, clipped := c.clipped, judged := true }

/-- The conversion of a current channel in a range, and its extended sample: a LOW code counts eight units (R5). -/
def rangeConversion (x : ChannelSettings) (range : Range) (raw : RawCode) : Conversion :=
  match range with
  | .low =>
    let c := convert x.offsetLow x.gainLow raw
    { c with code := c.code * 8 }
  | .high => convert x.offsetHigh x.gainHigh raw

/-- The down-switch case of R11. -/
def downSwitches (x : ChannelSettings) (r : RangeState) (c : Conversion) : Bool :=
  decide (r.hold = 0) && decide (x.rangeMode = .auto) && decide (r.range = .high) && c.clipped

/-- The sample of a current channel by the table of R12, first matching row. -/
def currentSample (x : ChannelSettings) (r : RangeState) (raw : RawCode) : Sample :=
  let c := rangeConversion x r.range raw
  if 0 < r.hold then { value := r.last, held := true, clipped := c.clipped, judged := false }
  else if downSwitches x r c then { value := c.code, held := true, clipped := false, judged := true }
  else { value := c.code, held := false, clipped := c.clipped, judged := true }

/-- The sample keeps the up-switch test of R9 passed: taken in LOW and AUTO, within 24,000, neither clipped nor held. -/
def keepsSteady (x : ChannelSettings) (r : RangeState) (y : Sample) (c : Conversion) : Bool :=
  decide (x.rangeMode = .auto) && decide (r.range = .low) && decide (y.value.natAbs ≤ Config.upSwitchLimit) &&
    !c.clipped && !y.held

/-- What the channel holds after the sample (R8, R11, R12). -/
def RangeState.afterSample (x : ChannelSettings) (r : RangeState) (raw : RawCode) : RangeState :=
  let c := rangeConversion x r.range raw
  let y := currentSample x r raw
  let steady := r.steady && keepsSteady x r y c
  if 0 < r.hold then { r with hold := r.hold - 1, steady := steady, last := y.value }
  else if downSwitches x r c then { range := .low, hold := x.hold, steady := steady, last := y.value }
  else { r with steady := steady, last := y.value }

/-- The thirteen samples of one event (R1). -/
def FrontEnd.samples (f : FrontEnd) (x : Settings) (raw : PerChannel RawCode) : PerChannel Sample :=
  { v := Quad.ofFn fun g => plainSample (x.channels.v.get g) (raw.v.get g)
    ia := Quad.ofFn fun g => currentSample (x.channels.ia.get g) (f.ia.get g) (raw.ia.get g)
    ib := Quad.ofFn fun g => currentSample (x.channels.ib.get g) (f.ib.get g) (raw.ib.get g)
    ac := plainSample x.channels.ac raw.ac }

/-- FE after the event. -/
def FrontEnd.afterSample (f : FrontEnd) (x : Settings) (raw : PerChannel RawCode) : FrontEnd :=
  { ia := Quad.ofFn fun g => (f.ia.get g).afterSample (x.channels.ia.get g) (raw.ia.get g)
    ib := Quad.ofFn fun g => (f.ib.get g).afterSample (x.channels.ib.get g) (raw.ib.get g) }

/-- Some sample carries the clipped mark, ACREF included (R13). -/
def anyClipped (ys : PerChannel Sample) : Bool := ChannelId.all.any fun c => (ys.get c).clipped

/-! ### Test points and the application of channel settings -/

/-- At a test point: HIGH for a channel in AUTO and LOW whose test is passed, and a new interval begins (R9, R10). -/
def RangeState.testPoint (x : ChannelSettings) (r : RangeState) : RangeState :=
  { r with
    range := if x.rangeMode = .auto ∧ r.range = .low ∧ r.steady = true then .high else r.range
    steady := true }

def FrontEnd.testPoint (f : FrontEnd) (x : Settings) : FrontEnd :=
  { ia := Quad.ofFn fun g => (f.ia.get g).testPoint (x.channels.ia.get g)
    ib := Quad.ofFn fun g => (f.ib.get g).testPoint (x.channels.ib.get g) }

/-- A staged range mode applied (R16). -/
def RangeState.applyMode (mode : Option RangeMode) (r : RangeState) : RangeState :=
  match mode with
  | some .fixedLow => { r with range := .low }
  | some .fixedHigh => { r with range := .high, hold := 0 }
  | _ => r

def FrontEnd.applyStaged (f : FrontEnd) (st : Staging) : FrontEnd :=
  { ia := Quad.ofFn fun g => (f.ia.get g).applyMode (st.channels.ia.get g).rangeMode
    ib := Quad.ofFn fun g => (f.ib.get g).applyMode (st.channels.ib.get g).rangeMode }

end Sys2Proof.Machine
end

