-- ==== Sys2Proof/Machine/Arithmetic.lean ====
section
/-! DEFINITION. The cosine and sine tables, accumulation into a set, and every computation of a finishing job (R42 to R44,
R58 to R78). -/

namespace Sys2Proof.Machine

/-! ### Tables (R59) -/

/-- Entries 0 to 30 of cosT, as tabulated. -/
def cosQuarter : List Nat :=
  [32767, 32722, 32587, 32364, 32051, 31650, 31163, 30591, 29934, 29196, 28377, 27481, 26509, 25465, 24351, 23170, 21925,
   20621, 19260, 17846, 16384, 14876, 13328, 11743, 10126, 8481, 6813, 5126, 3425, 1715, 0]

/-- cosT by the symmetries of R59. -/
def cosT (k : Nat) : Int :=
  let k := k % 120
  if k ≤ 30 then (cosQuarter.getD k 0 : Int)
  else if k ≤ 60 then -(cosQuarter.getD (60 - k) 0 : Int)
  else if k ≤ 90 then -(cosQuarter.getD (k - 60) 0 : Int)
  else (cosQuarter.getD (120 - k) 0 : Int)

/-- sinT[k] = cosT[(k + 90) mod 120]. -/
def sinT (k : Nat) : Int := cosT (k + 90)

/-! ### Accumulating sets (R42 to R44) -/

/-- A set as it opens, for a series of `channels` source channels. -/
def AccSet.opened (channels : Nat) : AccSet :=
  { s0 := 0, q := 0, largest := none, smallest := none, cosSums := Vector.replicate 50 0, sinSums := Vector.replicate 50 0,
    degraded := false, marks := List.replicate channels { clip := false, held := false } }

/-- The four sets of a group: V, IA and IB of one source channel each, IG of both currents. -/
def GroupSets.opened : GroupSets :=
  { v := .opened 1, ia := .opened 1, ib := .opened 1, ig := .opened 2 }

/-- The CLIP and HELD flags after the samples of the set's source channels (R44). -/
def addMarks (ms : List Marks) (ys : List Sample) : List Marks :=
  List.zipWith (fun m y => { clip := m.clip || y.clipped, held := m.held || y.held }) ms ys

/-- A sample added at index `k` of its cycle: S0, Q and the hundred sums (R43). -/
def AccSet.add (a : AccSet) (k : Nat) (x : Int) (sources : List Sample) : AccSet :=
  { a with
    s0 := a.s0 + x
    q := a.q + x.natAbs * x.natAbs
    cosSums := Vector.ofFn fun i => a.cosSums[i] + x * cosT ((i.val + 1) * k)
    sinSums := Vector.ofFn fun i => a.sinSums[i] + x * sinT ((i.val + 1) * k)
    marks := addMarks a.marks sources }

/-- The V set keeps its extremes besides (R42). -/
def AccSet.addWithExtremes (a : AccSet) (k : Nat) (x : Int) (sources : List Sample) : AccSet :=
  { a.add k x sources with
    largest := some (match a.largest with
      | some y => max x y
      | none => x)
    smallest := some (match a.smallest with
      | some y => min x y
      | none => x) }

def GroupSets.add (a : GroupSets) (k : Nat) (v ia ib : Sample) : GroupSets :=
  { v := a.v.addWithExtremes k v.value [v]
    ia := a.ia.add k ia.value [ia]
    ib := a.ib.add k ib.value [ib]
    ig := a.ig.add k (ia.value + ib.value) [ia, ib] }

/-- The IP sample: IG of the pair's first group plus IG of its second (R42), with the marks of all six channels (R44). -/
def pairAdd (a : AccSet) (k : Nat) (v₁ ia₁ ib₁ v₂ ia₂ ib₂ : Sample) : AccSet :=
  a.add k ((ia₁.value + ib₁.value) + (ia₂.value + ib₂.value)) [v₁, ia₁, ib₁, v₂, ia₂, ib₂]

def AccSet.setDegraded (a : AccSet) : AccSet := { a with degraded := true }

def GroupSets.setDegraded (a : GroupSets) : GroupSets :=
  { v := a.v.setDegraded, ia := a.ia.setDegraded, ib := a.ib.setDegraded, ig := a.ig.setDegraded }

/-! ### Figures (R60 to R77) -/

/-- The unit span of a channel (R5, R6). -/
def spanV : Nat := 32768
def spanI : Nat := 262144

/-- The largest amplitude of a series (R64). -/
def amplitudeSpanV : Nat := 32767
def amplitudeSpanI : Nat := 262143
def amplitudeSpanIG : Nat := 524287
def amplitudeSpanIP : Nat := 1048575

/-- A value in extended units brought to engineering units (R6). -/
def toEngineering (x : Int) (fs span : Nat) : Int := roundDivInt (x * fs) span

def toEngineeringNat (x fs span : Nat) : Nat := roundDiv (x * fs) span

/-- M = S0 / L (R61). -/
def AccSet.mean (a : AccSet) (samples : Nat) : Int := roundDivInt a.s0 samples

/-- isqrt((L × Q − S0²) / L²) (R62). -/
def AccSet.ripple (a : AccSet) (samples : Nat) : Nat :=
  isqrt ((samples * a.q - a.s0.natAbs * a.s0.natAbs) / (samples * samples))

/-- The largest sample minus the smallest (R63). -/
def AccSet.peak (a : AccSet) : Nat := (a.largest.getD 0 - a.smallest.getD 0).toNat

/-- A_h before its clamp (R64). -/
def rawAmplitude (c s : Int) (samples : Nat) : Nat :=
  roundDiv (2 * isqrt (c.natAbs * c.natAbs + s.natAbs * s.natAbs)) (samples * 32767)

/-- The fifty amplitudes before their clamps. -/
def AccSet.rawAmplitudes (a : AccSet) (samples : Nat) : Lines :=
  Vector.ofFn fun i => rawAmplitude a.cosSums[i] a.sinSums[i] samples

/-- The amplitudes clamped to the span of the series (R64). -/
def clampLines (span : Nat) (v : Lines) : Lines := tableMap (min · span) v

/-- Some line lies beyond a bound, so that a clamp acts. -/
def exceeds (bound : Nat) (v : Lines) : Bool := v.toList.any fun x => decide (bound < x)

/-- A ratio in 0.01 % before its clamp: x × 10,000 / |M|, rounded to nearest (R69, R70, R72, R77). -/
def rawRatio (x : Nat) (m : Int) : Nat := roundDiv (x * 10000) m.natAbs

/-- The clamp of a ratio. -/
def clampRatio (x : Nat) : Nat := min x 65535

/-- Lines in engineering units (R66). -/
def Lines.toEngineering (v : Lines) (fs span : Nat) : Lines := tableMap (fun x => toEngineeringNat x fs span) v

/-- J before its clamp: round(isqrt(the sum of (w_h × A_h)²) / 1,024) (R75). -/
def rawInterference (weights : Vector Nat 50) (lines : Lines) : Nat :=
  roundDiv (isqrt ((tableZip (fun w x => (w * x) * (w * x)) weights lines).toList.sum)) 1024

/-- The share deviation before its clamp (R71). -/
def rawShare (mA mB : Int) : Nat := (roundDivInt (mA * 10000) (mA + mB).natAbs - 5000).natAbs

/-- isqrt(A_1² + A_2²) of a bridge (R72). -/
def armRoot (lines : Lines) : Nat := isqrt (lines[0] * lines[0] + lines[1] * lines[1])

/-- A figure that may be absent, with whether its clamp to 65,535 acts. -/
def clampedRatio (present : Bool) (x : Nat) : Option Nat × Bool :=
  if present then (some (clampRatio x), decide (65535 < x)) else (none, false)

/-- The CLIP and HELD flags that any of the sets carries for a channel (R53). -/
def Marks.or (a b : Marks) : Marks := { clip := a.clip || b.clip, held := a.held || b.held }

def AccSet.mark (a : AccSet) (k : Nat) : Marks := a.marks.getD k { clip := false, held := false }

/-- The record of a group job (R53, R58, R61 to R75). IG's figures and JG are converted with the FS that the snapshot holds for IA, which
R7 makes the FS of both currents; for a group whose IA and IB differ in FS, as only a loaded image can make them, that is the model's
choice (log entry 28). -/
def GroupJob.record (g : GroupId) (j : GroupJob) : GroupRecord :=
  let n := j.head.length.samples
  let sn := j.head.snapshot
  let mV := j.sets.v.mean n
  let mA := j.sets.ia.mean n
  let mB := j.sets.ib.mean n
  let mG := j.sets.ig.mean n
  let engV := toEngineering mV sn.fsV spanV
  let engA := toEngineering mA sn.fsIA spanI
  let engB := toEngineering mB sn.fsIB spanI
  let engG := toEngineering mG sn.fsIA spanI
  let ripple := j.sets.v.ripple n
  let peak := j.sets.v.peak
  let rawV := j.sets.v.rawAmplitudes n
  let rawA := j.sets.ia.rawAmplitudes n
  let rawB := j.sets.ib.rawAmplitudes n
  let rawG := j.sets.ig.rawAmplitudes n
  let aV := clampLines amplitudeSpanV rawV
  let aA := clampLines amplitudeSpanI rawA
  let aB := clampLines amplitudeSpanI rawB
  let aG := clampLines amplitudeSpanIG rawG
  let base := decide (mV ≠ 0) && decide (sn.baseMin ≤ engV.natAbs)
  let rf := clampedRatio base (rawRatio ripple mV)
  let ppr := clampedRatio base (rawRatio peak mV)
  let ratios := tableMap (fun x => rawRatio x mV) aV
  let sd := clampedRatio (decide ((sn.lightLoad : Int) ≤ engG) && decide (0 < mA + mB)) (rawShare mA mB)
  let ka := clampedRatio (decide ((sn.lightLoad : Int) ≤ engA) && decide (mA ≠ 0)) (rawRatio (armRoot aA) mA)
  let kb := clampedRatio (decide ((sn.lightLoad : Int) ≤ engB) && decide (mB ≠ 0)) (rawRatio (armRoot aB) mB)
  let jRaw := rawInterference sn.weights aG
  { group := g, window := j.head.window, firstCycle := j.head.firstCycle, length := j.head.length
    degraded := j.sets.v.degraded || j.sets.ia.degraded || j.sets.ib.degraded || j.sets.ig.degraded
    noBase := !base
    clamped := exceeds amplitudeSpanV rawV || exceeds amplitudeSpanI rawA || exceeds amplitudeSpanI rawB ||
      exceeds amplitudeSpanIG rawG || rf.2 || ppr.2 || (base && exceeds 65535 ratios) || sd.2 || ka.2 || kb.2 ||
      decide (amplitudeSpanIG < jRaw)
    marksV := j.sets.v.mark 0
    marksIA := (j.sets.ia.mark 0).or (j.sets.ig.mark 0)
    marksIB := (j.sets.ib.mark 0).or (j.sets.ig.mark 1)
    meanV := engV, meanIA := engA, meanIB := engB, meanIG := engG
    rippleV := toEngineeringNat ripple sn.fsV spanV
    peakV := toEngineeringNat peak sn.fsV spanV
    rf := rf.1, ppr := ppr.1
    rippleIG := toEngineeringNat (j.sets.ig.ripple n) sn.fsIA spanI
    sd := sd.1, ka := ka.1, kb := kb.1
    jg := toEngineeringNat (min jRaw amplitudeSpanIG) sn.fsIA spanI
    linesV := aV.toEngineering sn.fsV spanV
    ratiosV := if base then some (tableMap clampRatio ratios) else none
    linesIA := aA.toEngineering sn.fsIA spanI
    linesIB := aB.toEngineering sn.fsIB spanI
    linesIG := aG.toEngineering sn.fsIA spanI }

/-- The record of a pair job (R54, R58, R61, R64, R75 to R77). IP's figures are converted with the FS of IA of the pair's first group
(log entry 28). -/
def PairJob.record (p : PairId) (j : PairJob) : PairRecord :=
  let n := j.head.length.samples
  let sn := j.head.snapshot
  let m := j.set.mean n
  let eng := toEngineering m sn.fsIA spanI
  let raw := j.set.rawAmplitudes n
  let a := clampLines amplitudeSpanIP raw
  let base := decide (m ≠ 0) && decide (2 * sn.lightLoad ≤ eng.natAbs)
  let ratios := tableMap (fun x => rawRatio x m) a
  let jRaw := rawInterference sn.weights a
  { pair := p, window := j.head.window, firstCycle := j.head.firstCycle, length := j.head.length
    degraded := j.set.degraded
    noBase := !base
    clamped := exceeds amplitudeSpanIP raw || (base && exceeds 65535 ratios) || decide (amplitudeSpanIP < jRaw)
    marks := j.set.marks
    meanIP := eng
    jp := toEngineeringNat (min jRaw amplitudeSpanIP) sn.fsIA spanI
    linesIP := a.toEngineering sn.fsIA spanI
    ratiosIP := if base then some (tableMap clampRatio ratios) else none }

end Sys2Proof.Machine
end

