-- ==== Sys2Proof/Machine/Engine.lean ====
section
/-! DEFINITION. AE: accumulation at a sample event, the window clock at a cycle boundary, the hand-over, the openings, and the
finishing jobs (R38 to R55). -/

namespace Sys2Proof.Machine

/-! ### Sample events (R43) -/

/-- Every open set takes the samples of the event, `k` being its index within the cycle. While the clock is STOPPED no set is
open. -/
def AnalysisEngine.addSamples (a : AnalysisEngine) (ys : PerChannel Sample) (k : Nat) : AnalysisEngine :=
  { a with
    groupSets := Quad.ofFn fun g =>
      (a.groupSets.get g).map fun x => x.add k (ys.v.get g) (ys.ia.get g) (ys.ib.get g)
    pairSets := Duo.ofFn fun p => (a.pairSets.get p).map fun x =>
      pairAdd x k (ys.v.get p.first) (ys.ia.get p.first) (ys.ib.get p.first)
        (ys.v.get p.second) (ys.ia.get p.second) (ys.ib.get p.second) }

/-! ### Cycle boundaries -/

/-- The clock is STOPPED (R38). -/
def AnalysisEngine.stopped (a : AnalysisEngine) : Bool := a.clock.isNone

/-- The cycle that ends completes the window in progress (R40). -/
def AnalysisEngine.completes (a : AnalysisEngine) : Bool :=
  match a.clock with
  | some w => decide (w.length.cycles ≤ w.completed + 1)
  | none => false

/-- The DEGRADED flag of every open set (R44). -/
def AnalysisEngine.degrade (a : AnalysisEngine) : AnalysisEngine :=
  { a with
    groupSets := a.groupSets.map fun x => x.map GroupSets.setDegraded
    pairSets := a.pairSets.map fun x => x.map AccSet.setDegraded }

/-- The window in progress is discarded and the clock stops (R41). -/
def AnalysisEngine.discardWindow (a : AnalysisEngine) : AnalysisEngine :=
  { a with clock := none, groupSets := Quad.fill none, pairSets := Duo.fill none }

/-- The sets of leaving groups, and of the pairs that they break, are discarded (R45). -/
def AnalysisEngine.discardLeaving (a : AnalysisEngine) (leaving : Quad Bool) : AnalysisEngine :=
  { a with
    groupSets := Quad.ofFn fun g => if leaving.get g then none else a.groupSets.get g
    pairSets := Duo.ofFn fun p => if leaving.get p.first || leaving.get p.second then none else a.pairSets.get p }

/-- One more completed cycle of the window in progress (R40). -/
def AnalysisEngine.countCycle (a : AnalysisEngine) : AnalysisEngine :=
  { a with clock := a.clock.map fun w => { w with completed := w.completed + 1 } }

/-- The discard counters of the groups whose open set is discarded (R153). -/
def Statistics.countDiscards (s : Statistics) (sets : Quad (Option GroupSets)) (gone : Quad Bool) : Statistics :=
  GroupId.all.foldl (fun s g => if gone.get g && (sets.get g).isSome then s.bumpGroup g 11 else s) s

/-! ### The hand-over (R46) -/

def JobSlot.isEmpty : JobSlot α → Bool
  | .empty => true
  | _ => false

def JobSlot.isRunning : JobSlot α → Bool
  | .running _ => true
  | _ => false

/-- The settings snapshot of a group's job; a pair's job takes that of its first group (R46, R66; log entry 28). -/
def Settings.snapshot (x : Settings) (g : GroupId) : Snapshot :=
  { fsV := (x.channels.v.get g).fs, fsIA := (x.channels.ia.get g).fs, fsIB := (x.channels.ib.get g).fs,
    baseMin := x.analysis.baseMin, lightLoad := x.analysis.lightLoad, weights := x.weights }

def jobHead (order : Nat) (w : WindowClock) (sn : Snapshot) : JobHead :=
  { order := order, window := w.window, firstCycle := w.firstCycle, length := w.length, snapshot := sn }

/-- The outcome of a unit at the hand-over: nothing was open, the slot was busy, or a job is made (R46, R52). -/
def handOverOutcome (set : Option α) (slot : JobSlot β) : WindowOutcome γ :=
  match set with
  | none => .none
  | some _ => if slot.isEmpty then .awaited else .skipped

/-- The slot after the hand-over. -/
def slotAfter (set : Option α) (slot : JobSlot β) (job : α → β) : JobSlot β :=
  match set with
  | none => slot
  | some x => if slot.isEmpty then .waiting (job x) else slot

/-- A unit's window is skipped: its set is open and its slot busy (R46). -/
def skips (set : Option α) (slot : JobSlot β) : Bool := set.isSome && !slot.isEmpty

/-- Step 1 at a window boundary: the open sets enter the empty slots, the others are skipped, and the window's pass is raised
(R46, R52). -/
def AnalysisEngine.handOver (a : AnalysisEngine) (x : Settings) (w : WindowClock) : AnalysisEngine :=
  { a with
    groupSets := Quad.fill none
    pairSets := Duo.fill none
    groupSlots := Quad.ofFn fun g => slotAfter (a.groupSets.get g) (a.groupSlots.get g) fun sets =>
      { head := jobHead a.handovers w (x.snapshot g), sets := sets }
    pairSlots := Duo.ofFn fun p => slotAfter (a.pairSets.get p) (a.pairSlots.get p) fun set =>
      { head := jobHead a.handovers w (x.snapshot p.first), set := set }
    passes := a.passes ++
      [{ order := a.handovers, window := w.window
         groups := Quad.ofFn fun g => handOverOutcome (a.groupSets.get g) (a.groupSlots.get g)
         pairs := Duo.ofFn fun p => handOverOutcome (a.pairSets.get p) (a.pairSlots.get p) }]
    handovers := a.handovers + 1 }

def AnalysisEngine.skippedGroups (a : AnalysisEngine) : Quad Bool :=
  Quad.ofFn fun g => skips (a.groupSets.get g) (a.groupSlots.get g)

def AnalysisEngine.anySkip (a : AnalysisEngine) : Bool :=
  a.skippedGroups.any || skips a.pairSets.fst a.pairSlots.fst || skips a.pairSets.snd a.pairSlots.snd

/-- The skip counters of groups; pairs have none (R153). -/
def Statistics.countSkips (s : Statistics) (skipped : Quad Bool) : Statistics :=
  GroupId.all.foldl (fun s g => if skipped.get g then s.bumpGroup g 10 else s) s

/-! ### The opening (R39, R45, R48) -/

/-- A window opens with the cycle `cycle`: it takes the next number, and the sets of monitored groups and intact pairs open. -/
def AnalysisEngine.openWindow (a : AnalysisEngine) (length : WindowLen) (cycle : Word) (gm : Monitors) : AnalysisEngine :=
  { a with
    counter := a.counter + 1
    clock := some { window := a.counter + 1, firstCycle := cycle, length := length, completed := 0 }
    groupSets := gm.groups.map fun m => if m.state = .monitor then some .opened else none
    pairSets := gm.pairs.map fun p => if p = .intact then some (AccSet.opened 6) else none }

/-! ### Finishing jobs (R49 to R52) -/

/-- The units in the order the arithmetic unit takes jobs of one window (R50). -/
def jobOrder : List UnitId := GroupId.all.map .group ++ PairId.all.map .pair

/-- The hand-over ordinal of a WAITING job of a unit. -/
def AnalysisEngine.waitingOrder (a : AnalysisEngine) : UnitId → Option Nat
  | .group g =>
    match a.groupSlots.get g with
    | .waiting j => some j.head.order
    | _ => none
  | .pair p =>
    match a.pairSlots.get p with
    | .waiting j => some j.head.order
    | _ => none

/-- The arithmetic unit is running a job (R50). -/
def AnalysisEngine.unitBusy (a : AnalysisEngine) : Bool :=
  (a.groupSlots.map JobSlot.isRunning).any || a.pairSlots.fst.isRunning || a.pairSlots.snd.isRunning

/-- The better of two candidates: the one handed over earlier, the first of equals. -/
def earlier (best : Option (UnitId × Nat)) (c : UnitId × Nat) : Option (UnitId × Nat) :=
  match best with
  | none => some c
  | some b => if c.2 < b.2 then some c else some b

/-- The job the arithmetic unit takes next: of the earliest window, in the order of R50. -/
def AnalysisEngine.nextJob (a : AnalysisEngine) : Option UnitId :=
  ((jobOrder.filterMap fun u => (a.waitingOrder u).map fun n => (u, n)).foldl earlier none).map Prod.fst

def JobSlot.start : JobSlot α → JobSlot α
  | .waiting j => .running j
  | s => s

/-- The slot of a unit becomes RUNNING (R50). -/
def AnalysisEngine.startJob (a : AnalysisEngine) : UnitId → AnalysisEngine
  | .group g => { a with groupSlots := a.groupSlots.set g (a.groupSlots.get g).start }
  | .pair p => { a with pairSlots := a.pairSlots.set p (a.pairSlots.get p).start }

/-- The record becomes latest, and the one that was latest previous (R51). -/
def RecordStore.push (s : RecordStore α) (r : α) : RecordStore α := { latest := some r, previous := s.latest }

/-- The pass of the hand-over `order` receives a record. -/
def passesWithGroup (order : Nat) (g : GroupId) (r : GroupRecord) (ps : List Pass) : List Pass :=
  ps.map fun p => if p.order = order then { p with groups := p.groups.set g (.record r) } else p

def passesWithPair (order : Nat) (q : PairId) (r : PairRecord) (ps : List Pass) : List Pass :=
  ps.map fun p => if p.order = order then { p with pairs := p.pairs.set q (.record r) } else p

/-- A group job completes: its record is stored, its slot emptied, its pass given the record (R51, R52). -/
def AnalysisEngine.completeGroup (a : AnalysisEngine) (g : GroupId) (j : GroupJob) : AnalysisEngine :=
  { a with
    groupSlots := a.groupSlots.set g .empty
    groupStore := a.groupStore.set g ((a.groupStore.get g).push (j.record g))
    passes := passesWithGroup j.head.order g (j.record g) a.passes }

def AnalysisEngine.completePair (a : AnalysisEngine) (p : PairId) (j : PairJob) : AnalysisEngine :=
  { a with
    pairSlots := a.pairSlots.set p .empty
    pairStore := a.pairStore.set p ((a.pairStore.get p).push (j.record p))
    passes := passesWithPair j.head.order p (j.record p) a.passes }

/-- The job that is RUNNING (at most one is, R50). -/
inductive RunningJob
  | none
  | group (g : GroupId) (j : GroupJob)
  | pair (p : PairId) (j : PairJob)
deriving DecidableEq, Repr

def AnalysisEngine.running (a : AnalysisEngine) : RunningJob :=
  match a.groupSlots.g0, a.groupSlots.g1, a.groupSlots.g2, a.groupSlots.g3, a.pairSlots.fst, a.pairSlots.snd with
  | .running j, _, _, _, _, _ => .group .g0 j
  | _, .running j, _, _, _, _ => .group .g1 j
  | _, _, .running j, _, _, _ => .group .g2 j
  | _, _, _, .running j, _, _ => .group .g3 j
  | _, _, _, _, .running j, _ => .pair .p0 j
  | _, _, _, _, _, .running j => .pair .p1 j
  | _, _, _, _, _, _ => .none

def WindowOutcome.done : WindowOutcome α → Bool
  | .awaited => false
  | _ => true

/-- Every job of the pass's window has completed (R52). -/
def Pass.ready (p : Pass) : Bool := (p.groups.map WindowOutcome.done).all && p.pairs.fst.done && p.pairs.snd.done

/-- The pass handed over next: the first awaiting, once its jobs have completed (R52). -/
def AnalysisEngine.nextPass (a : AnalysisEngine) : Option Pass :=
  match a.passes with
  | p :: _ => if p.ready then some p else none
  | [] => none

/-! ### What a completion leads to (R151, R152, R166) -/

/-- The RF bin of a record (R152). -/
def rfBin (rf : Nat) : Nat :=
  if rf ≤ 24 then 0 else if rf ≤ 49 then 1 else if rf ≤ 99 then 2 else if rf ≤ 199 then 3
  else if rf ≤ 399 then 4 else if rf ≤ 799 then 5 else 6

/-- The counts of a stored group record (R151): windows analysed, with RF, its bin, degraded. -/
def Statistics.countRecord (s : Statistics) (g : GroupId) (r : GroupRecord) : Statistics :=
  let s := s.bumpGroup g 7
  let s := match r.rf with
    | some x => (s.bumpGroup g 8).bumpGroup g (rfBin x)
    | none => s
  if r.degraded then s.bumpGroup g 9 else s

/-- A group record offered to LC for its digest (R166). -/
def State.offerDigest (s : State) (g : GroupId) (r : GroupRecord) : State :=
  let n := s.ss.working.analysis.digest
  if n = 0 then s
  else if n ≤ s.lc.digests.get g + 1 then
    (s.setLc { s.lc with digests := s.lc.digests.set g 0 }).post
      [.report (.windowDigest g r.window r.meanV r.rf r.jg (s.le.verdicts.get g))]
  else s.setLc { s.lc with digests := s.lc.digests.set g (s.lc.digests.get g + 1) }

/-- The running job completes (R51). -/
def State.completeJob (s : State) : State :=
  match s.ae.running with
  | .none => s
  | .group g j =>
    let r := j.record g
    ((s.setAe (s.ae.completeGroup g j)).setSt (s.st.countRecord g r)).offerDigest g r
  | .pair p j => (s.setAe (s.ae.completePair p j)).setSt (s.st.bumpPair p)

end Sys2Proof.Machine
end

