-- ==== Sys2Proof/Machine/Limits.lean ====
section
/-! DEFINITION. LE: the value an entry judges, availability, persistence, verdicts, limit edits and the evaluation pass (R97 to
R116). -/

namespace Sys2Proof.Machine

/-! ### The value judged (R98) -/

/-- The largest line among the entry's orders (R98). -/
def largestLine (e : LimitEntry) (v : Lines) : Nat :=
  ((List.range 50).filter fun i => decide (e.first.toNat ≤ i + 1) && decide (i + 1 ≤ e.last.toNat)).foldl
    (fun m i => max m (v.toList.getD i 0)) 0

def LimitEntry.bridgeOf (e : LimitEntry) : Bridge := (Bridge.ofCode? e.bridge.toNat).getD .either

/-- The larger where both are present, the one present where only one is (R98, ARM_K on EITHER). -/
def eitherIndex : Option Nat → Option Nat → Option Nat
  | some a, some b => some (max a b)
  | some a, none => some a
  | none, b => b

/-- The value an entry draws from a group record; none where it is absent. -/
def LimitEntry.groupValue (e : LimitEntry) (r : GroupRecord) : Option Int :=
  match e.quantity with
  | .vRf => r.rf.map Int.ofNat
  | .vPpr => r.ppr.map Int.ofNat
  | .vHarm => r.ratiosV.map fun v => (largestLine e v : Int)
  | .iHarm =>
    match e.bridgeOf with
    | .a => some (largestLine e r.linesIA)
    | .b => some (largestLine e r.linesIB)
    | .either => some (max (largestLine e r.linesIA) (largestLine e r.linesIB) : Nat)
  | .armK =>
    match e.bridgeOf with
    | .a => r.ka.map Int.ofNat
    | .b => r.kb.map Int.ofNat
    | .either => (eitherIndex r.ka r.kb).map Int.ofNat
  | .shareDev => r.sd.map Int.ofNat
  | .iMean => some r.meanIG
  | .jg => some r.jg
  | .pHarm => none
  | .jp => none

def LimitEntry.pairValue (e : LimitEntry) (r : PairRecord) : Option Int :=
  match e.quantity with
  | .pHarm => r.ratiosIP.map fun v => (largestLine e v : Int)
  | .jp => some r.jp
  | _ => none

/-- The flags of the source channels of a group quantity (R98). -/
def LimitEntry.groupSources (e : LimitEntry) (r : GroupRecord) : List Marks :=
  match e.quantity with
  | .vRf => [r.marksV]
  | .vPpr => [r.marksV]
  | .vHarm => [r.marksV]
  | .iHarm =>
    match e.bridgeOf with
    | .a => [r.marksIA]
    | .b => [r.marksIB]
    | .either => [r.marksIA, r.marksIB]
  | .armK =>
    match e.bridgeOf with
    | .a => [r.marksIA]
    | .b => [r.marksIB]
    | .either => [r.marksIA, r.marksIB]
  | _ => [r.marksIA, r.marksIB]

/-- The flags of IA and IB of both groups of the pair: a pair record's flags less those of its voltage channels (R98). -/
def PairRecord.sources (r : PairRecord) : List Marks :=
  (r.marks.drop 1).take 2 ++ (r.marks.drop 4).take 2

/-- R105: the record holds back no trust that the entry's severity asks for. -/
def trusted (severity : Severity) (degraded : Bool) (sources : List Marks) : Bool :=
  !(sources.any Marks.clip) && (decide (severity ≠ .trip) || (!degraded && !(sources.any Marks.held)))

/-- The available value of a unit in a pass, or none (R105). -/
def Pass.value (p : Pass) (e : LimitEntry) : UnitId → Option Int
  | .group g =>
    match p.groups.get g with
    | .record r => if trusted e.severity r.degraded (e.groupSources r) then e.groupValue r else none
    | _ => none
  | .pair q =>
    match p.pairs.get q with
    | .record r => if trusted e.severity r.degraded r.sources then e.pairValue r else none
    | _ => none

/-! ### Persistence and hysteresis (R106) -/

def LimitEntry.over (e : LimitEntry) (x : Int) : Bool :=
  match e.sense with
  | .above => decide (e.limit < x)
  | .below => decide (x < e.limit)

def LimitEntry.isClear (e : LimitEntry) (x : Int) : Bool :=
  match e.sense with
  | .above => decide (x ≤ e.release)
  | .below => decide (e.release ≤ x)

/-- One more window in a row over the limit, `n` being how many that makes. -/
def CondRecord.towardActive (on n : Nat) : CondRecord :=
  if on ≤ n then { state := .active, count := 0 } else { state := .pendingOn, count := n }

/-- One more window in a row clear. -/
def CondRecord.towardClear (off n : Nat) : CondRecord :=
  if off ≤ n then { state := .clear, count := 0 } else { state := .pendingOff, count := n }

/-- The table of R106. -/
def CondRecord.judge (e : LimitEntry) (x : Int) (r : CondRecord) : CondRecord :=
  match r.state with
  | .clear => if e.over x then CondRecord.towardActive e.onCount 1 else r
  | .pendingOn => if e.over x then CondRecord.towardActive e.onCount (r.count + 1) else CondRecord.clear
  | .active => if e.isClear x then CondRecord.towardClear e.offCount 1 else r
  | .pendingOff =>
    if e.isClear x then CondRecord.towardClear e.offCount (r.count + 1) else { state := .active, count := 0 }

/-- ACTIVE and PENDING_OFF (R104). -/
def CondRecord.standing (r : CondRecord) : Bool :=
  match r.state with
  | .active => true
  | .pendingOff => true
  | _ => false

/-- A LIMIT_EVENT is enqueued when a record starts or ceases to stand by judgement (R107). -/
def limitEventKind (before after : CondRecord) : Option LimitEventKind :=
  if !before.standing && after.standing then some .active
  else if before.standing && !after.standing then some .cleared
  else none

/-- A group in MONITOR or a pair INTACT is judged, when its outcome is not NONE; a SKIPPED one has no available value
(R108). -/
def Monitors.judges (m : Monitors) : UnitId → Bool
  | .group g => decide ((m.groups.get g).state = .monitor)
  | .pair p => decide (m.pairs.get p = .intact)

/-- The value a record is to judge in a pass; none leaves it as it is. -/
def judgedValue (m : Monitors) (p : Pass) (e : LimitEntry) (u : UnitId) : Option Int :=
  if m.judges u then p.value e u else none

/-- One record through a pass. -/
def judgeRecord (m : Monitors) (p : Pass) (e : LimitEntry) (ur : UnitId × CondRecord) : UnitId × CondRecord :=
  match judgedValue m p e ur.1 with
  | some x => (ur.1, ur.2.judge e x)
  | none => ur

/-- The LIMIT_EVENT of one record in a pass (R107). -/
def judgeNotice (m : Monitors) (p : Pass) (k : Nat) (e : LimitEntry) (ur : UnitId × CondRecord) : Option Notice :=
  match judgedValue m p e ur.1 with
  | some x =>
    (limitEventKind ur.2 (ur.2.judge e x)).map fun ev =>
      .report (.limitEvent k ur.1 ev e.severity p.window (some x))
  | none => none

def judgeSlot (m : Monitors) (p : Pass) : Option LimitEntry → List (UnitId × CondRecord) → List (UnitId × CondRecord)
  | some e, rs => rs.map (judgeRecord m p e)
  | none, rs => rs

/-- Step 2 of a pass on the records (R108). -/
def judgeTable (m : Monitors) (p : Pass) (limits : Vector (Option LimitEntry) 48)
    (records : Vector (List (UnitId × CondRecord)) 48) : Vector (List (UnitId × CondRecord)) 48 :=
  tableZip (judgeSlot m p) limits records

/-- The LIMIT_EVENTs of step 2, by entry number and within an entry in the order of its scope (R108, R109). -/
def judgeNotices (m : Monitors) (p : Pass) (limits : Vector (Option LimitEntry) 48)
    (records : Vector (List (UnitId × CondRecord)) 48) : List Notice :=
  (List.finRange 48).flatMap fun k =>
    match limits[k] with
    | some e => records[k].filterMap (judgeNotice m p k.val e)
    | none => []

/-! ### Verdicts (R111, R112) -/

/-- A unit's records apply to a group: its own, and its pair's (R111). -/
def unitAppliesTo (g : GroupId) : UnitId → Bool
  | .group h => decide (h = g)
  | .pair p => decide (g.pair = p)

/-- A standing record applying to a group: its entry number, severity, and whether it is of pair scope. -/
structure Standing where
  entry : Nat
  severity : Severity
  ofPair : Bool
deriving DecidableEq, Repr

def standingIn (k : Nat) (e : LimitEntry) (g : GroupId) (rs : List (UnitId × CondRecord)) : List Standing :=
  (rs.filter fun ur => unitAppliesTo g ur.1 && ur.2.standing).map fun ur =>
    { entry := k, severity := e.severity, ofPair := decide (ur.1.kindCode = 1) }

/-- The standing records applying to a group, by entry number (R111). -/
def standingFor (limits : Vector (Option LimitEntry) 48) (records : Vector (List (UnitId × CondRecord)) 48)
    (g : GroupId) : List Standing :=
  (List.finRange 48).flatMap fun k =>
    match limits[k] with
    | some e => standingIn k.val e g records[k]
    | none => []

def Severity.verdict : Severity → Verdict
  | .watch => .watch
  | .alarm => .alarm
  | .trip => .trip

/-- The higher of two verdicts, in the order NORMAL, WATCH, ALARM, TRIP (R111). -/
def Verdict.max (a b : Verdict) : Verdict := if a.code < b.code then b else a

/-- The verdict that the standing records of a group give (R111). -/
def verdictOf (ss : List Standing) : Verdict := ss.foldl (fun v s => v.max s.severity.verdict) .normal

/-- The lowest-numbered entry of the highest severity (R112). -/
def holderOf (ss : List Standing) : Option (Nat × Bool) :=
  (ss.find? fun s => decide (s.severity.verdict = verdictOf ss)).map fun s => (s.entry, s.ofPair)

def State.standing (s : State) (g : GroupId) : List Standing := standingFor s.ss.working.limits s.le.records g

/-- A group's verdict becomes `v`: a change enqueues one VERDICT_CHANGE, and the alert line follows (R112, R116). -/
def State.setVerdict (s : State) (g : GroupId) (v : Verdict) (holder : Option (Nat × Bool)) (cause : VerdictCause)
    (window : Word) : State :=
  let old := s.le.verdicts.get g
  if v = old then s
  else
    (s.setLe (LimitEvaluator.refreshAlert { s.le with verdicts := s.le.verdicts.set g v } s.mode)).post
      [.report (.verdictChange g old v cause window holder)]

/-- The verdict of a group recomputed from the standing records (R111). -/
def State.recompute (cause : VerdictCause) (window : Word) (s : State) (g : GroupId) : State :=
  s.setVerdict g (verdictOf (s.standing g)) (holderOf (s.standing g)) cause window

/-- The verdicts of all four groups recomputed, in group order. -/
def State.recomputeAll (s : State) (cause : VerdictCause) (window : Word) : State :=
  GroupId.all.foldl (State.recompute cause window) s

/-! ### Limit edits (R102, R103) -/

/-- The WITHDRAWN events of one edited slot (R103). -/
def withdrawn (k : Nat) (window : Word) (edit : Option LimitEdit) (old : Option LimitEntry)
    (rs : List (UnitId × CondRecord)) : List Notice :=
  match edit, old with
  | some _, some e =>
    (rs.filter fun ur => ur.2.standing).map fun ur => .report (.limitEvent k ur.1 .withdrawn e.severity window none)
  | _, _ => []

/-- The records of a slot after an edit: those of the new entry, CLEAR, or as they were without an edit (R103). -/
def recordsAfterEdit (edit : Option LimitEdit) (rs : List (UnitId × CondRecord)) : List (UnitId × CondRecord) :=
  match edit with
  | none => rs
  | some (.replace e) => freshRecords (some e)
  | some .delete => []

def editNotices (s : State) (window : Word) : List Notice :=
  (List.finRange 48).flatMap fun k =>
    withdrawn k.val window s.ss.staged.limits[k] s.ss.working.limits[k] s.le.records[k]

/-- A class of the SYNC_POINT in flight closes, and the reply is made READY when both have (R162). -/
def syncFields (analysis limit : Option Word) : List Byte :=
  word4 (analysis.getD 0) ++ byte1 (if analysis.isSome then 0 else 1) ++ word4 (limit.getD 0) ++
    byte1 (if limit.isSome then 0 else 1)

/-- The SYNC_POINT with both classes closed is answered. -/
def LinkController.syncReady (l : LinkController) : LinkController :=
  match l.sync with
  | some { analysis := some a, limit := some b } =>
    LinkController.replyDeferred { l with sync := none } 0x18 0 (syncFields a b)
  | _ => l

/-- The limit class closes at its first application point (R162). -/
def LinkController.closeLimit (l : LinkController) (point : Option Word) : LinkController :=
  match l.sync with
  | some w => LinkController.syncReady
      { l with sync := some { w with limit := match w.limit with
                                              | some x => some x
                                              | none => some point } }
  | none => l

/-- The analysis class closes at its first application point (R162). -/
def LinkController.closeAnalysis (l : LinkController) (point : Option Word) : LinkController :=
  match l.sync with
  | some w => LinkController.syncReady
      { l with sync := some { w with analysis := match w.analysis with
                                                 | some x => some x
                                                 | none => some point } }
  | none => l

/-- The table, its records and the staging area after every staged edit has been applied (R102, R103). -/
def State.editTable (s : State) : State :=
  (s.setLe { s.le with records := tableZip recordsAfterEdit s.ss.staged.limits s.le.records }).setSs
    { s.ss with working := s.ss.working.applyLimits s.ss.staged, staged := s.ss.staged.withoutLimits }

/-- An application point of limit edits: `point` is the window of the pass that begins with it, or none at a cycle boundary
(R102, R103, R162). -/
def State.applyLimitEdits (s : State) (point : Option Word) : State :=
  let window := point.getD 0
  let t := ((s.editTable).post (editNotices s window)).recomputeAll .limitEdit window
  t.setLc (t.lc.closeLimit point)

/-! ### Clearing by GM (R85, R89) -/

def clearUnit (u : UnitId) (rs : List (UnitId × CondRecord)) : List (UnitId × CondRecord) :=
  rs.map fun ur => if ur.1 = u then (ur.1, CondRecord.clear) else ur

/-- Every condition record of a unit set to CLEAR with count 0, without a LIMIT_EVENT (R85, R89). -/
def LimitEvaluator.clearUnit (l : LimitEvaluator) (u : UnitId) : LimitEvaluator :=
  { l with records := tableMap (Sys2Proof.Machine.clearUnit u) l.records }

/-- Some record of a unit stands. -/
def LimitEvaluator.stands (l : LimitEvaluator) (u : UnitId) : Bool :=
  l.records.toList.any fun rs => rs.any fun ur => decide (ur.1 = u) && ur.2.standing

/-! ### The evaluation pass (R108 to R110) -/

/-- Step 4: the latch of each group whose verdict rose to TRIP (R113). -/
def State.tripRisen (before : Quad Verdict) (s : State) (g : GroupId) : State :=
  if s.le.verdicts.get g = .trip ∧ before.get g ≠ .trip then s.setLe (s.le.setLatch s.mode g true) else s

/-- Step 5: the freeze trigger of each group whose verdict step 3 changed to ALARM or TRIP (R110). -/
def State.offerVerdict (before : Quad Verdict) (window : Word) (s : State) (g : GroupId) : State :=
  let offer (cause : FreezeCause) : State :=
    s.offerTrigger { cause := cause, group := some g, comparator := none, window := some window, cycle := s.ct.cycle }
  if s.le.verdicts.get g = before.get g then s
  else
    match s.le.verdicts.get g with
    | .alarm => offer .verdictAlarm
    | .trip => offer .verdictTrip
    | _ => s

/-- Step 2: the records judged and their LIMIT_EVENTs enqueued. -/
def State.judgeRecords (s : State) (p : Pass) : State :=
  (s.setLe { s.le with records := judgeTable s.gm p s.ss.working.limits s.le.records }).post
    (judgeNotices s.gm p s.ss.working.limits s.le.records)

/-- An evaluation pass, its five steps in order (R108). -/
def State.evaluate (s : State) (p : Pass) : State :=
  let s₁ := s.applyLimitEdits (some p.window)
  let s₃ := (s₁.judgeRecords p).recomputeAll .evaluation p.window
  let s₄ := GroupId.all.foldl (State.tripRisen s₁.le.verdicts) s₃
  GroupId.all.foldl (State.offerVerdict s₁.le.verdicts p.window) s₄

end Sys2Proof.Machine
end

