-- ==== Sys2Proof/Machine/Groups.lean ====
section
/-! DEFINITION. GM: debounce, monitor states, pair states, and what their changes do (R80 to R94). -/

namespace Sys2Proof.Machine

def levelOf (closed : Bool) : Level := if closed then .closed else .opened

/-- A change of level is accepted at this boundary: the second differing sample in a row (R80). -/
def GroupMonitor.accepts (m : GroupMonitor) (closed : Bool) : Bool :=
  decide (levelOf closed ≠ m.accepted) && decide (1 ≤ m.debounce)

/-- The accepted level and debounce count after the sample (R80). -/
def GroupMonitor.debounced (m : GroupMonitor) (closed : Bool) : GroupMonitor :=
  if levelOf closed = m.accepted then { m with debounce := 0 }
  else if m.debounce = 0 then { m with debounce := 1 }
  else { m with accepted := levelOf closed, debounce := 0 }

/-- OPEN is accepted for a group that is not OUT: it leaves (R84). -/
def GroupMonitor.leaves (m : GroupMonitor) (closed : Bool) : Bool :=
  m.accepts closed && !closed && decide (m.state ≠ .out)

/-- The group after the boundary: R81 and R94 into SETTLING, R82 and R83 toward MONITOR, R84 into OUT. `opens` says that AE
opens a window here. -/
def GroupMonitor.boundary (m : GroupMonitor) (mode : Mode) (settle : Nat) (opens closed : Bool) : GroupMonitor :=
  let d := m.debounced closed
  if m.leaves closed then { d with state := .out, settle := 0 }
  else
    match m.state with
    | .out => if mode = .normal ∧ d.accepted = .closed then { d with state := .settling, settle := settle } else d
    | .settling => if m.settle - 1 = 0 ∧ opens = true then { d with state := .monitor, settle := 0 }
                   else { d with settle := m.settle - 1 }
    | .monitor => d

/-- The cause of a change of monitor state (R91). -/
def monitorCause : MonitorState → GroupCause
  | .out => .inputOpen
  | .settling => .inputClosed
  | .monitor => .settled

/-- The window number a GROUP_EVENT carries: of the window that opens, for a group entering MONITOR (R91). -/
def monitorWindow (new : MonitorState) (opening : Word) : Word :=
  match new with
  | .monitor => opening
  | _ => 0

/-- What R85 does for a group that enters OUT: its records cleared, its verdict NORMAL. -/
def State.groupOut (s : State) (g : GroupId) : State :=
  (s.setLe (s.le.clearUnit (.group g))).setVerdict g .normal none .out 0

/-- What GM needs at a boundary beside its own state. -/
structure GroupContext where
  inputs : Quad Bool
  opens : Bool
  /-- the number of the window that opens, or 0 -/
  opening : Word
deriving DecidableEq, Repr

/-- One group at a boundary, with its GROUP_EVENT and the VERDICT_CHANGE of R85 (R91). -/
def State.groupStep (cx : GroupContext) (s : State) (g : GroupId) : State :=
  let m := s.gm.groups.get g
  let n := m.boundary s.mode s.ss.working.analysis.settle cx.opens (cx.inputs.get g)
  let t := s.setGm { s.gm with groups := s.gm.groups.set g n }
  if n.state = m.state then t
  else
    let t := t.post [.report (.groupEvent g m.state n.state (monitorCause n.state) (monitorWindow n.state cx.opening))]
    if n.state = .out then t.groupOut g else t

/-- A pair is INTACT while it is paired in the working pairing and both its groups are in MONITOR (R88). -/
def State.pairNow (s : State) (p : PairId) : PairState :=
  if s.ss.working.analysis.pairing.paired p = true ∧ (s.gm.groups.get p.first).state = .monitor ∧
      (s.gm.groups.get p.second).state = .monitor then .intact else .broken

/-- The cause and window of a pair's GROUP_EVENT; `before` are the groups' states before the boundary (R89 to R91). -/
def pairCause (before : Quad GroupMonitor) (s : State) (p : PairId) : PairState → GroupCause
  | .broken =>
    if ((before.get p.first).state ≠ .out ∧ (s.gm.groups.get p.first).state = .out) ∨
        ((before.get p.second).state ≠ .out ∧ (s.gm.groups.get p.second).state = .out) then .groupOut else .pairing
  | .intact =>
    if (before.get p.first).state = .monitor ∧ (before.get p.second).state = .monitor then .pairing else .groupsMonitored

/-- A group's verdict recomputed after its pair broke, unless it entered OUT at this boundary (R89). -/
def State.pairRecompute (before : Quad GroupMonitor) (s : State) (g : GroupId) : State :=
  if (before.get g).state ≠ .out ∧ (s.gm.groups.get g).state = .out then s else s.recompute .pairBroken 0 g

/-- What R89 does for a pair that goes BROKEN: its records cleared, and its groups' verdicts recomputed if one stood. -/
def State.pairBroken (before : Quad GroupMonitor) (s : State) (p : PairId) : State :=
  let stood := s.le.stands (.pair p)
  let t := s.setLe (s.le.clearUnit (.pair p))
  if stood then State.pairRecompute before (State.pairRecompute before t p.first) p.second else t

/-- One pair at a boundary (R88 to R91). -/
def State.pairStep (cx : GroupContext) (before : Quad GroupMonitor) (s : State) (p : PairId) : State :=
  let old := s.gm.pairs.get p
  let new := s.pairNow p
  if new = old then s
  else
    let t := (s.setGm { s.gm with pairs := s.gm.pairs.set p new }).post
      [.report (.pairEvent p old new (pairCause before s p new) (if new = .intact ∧ cx.opens = true then cx.opening else 0))]
    if new = .broken then t.pairBroken before p else t

/-- GM at a cycle boundary: the groups in order, then the pairs (R91). -/
def State.monitorStep (s : State) (cx : GroupContext) : State :=
  PairId.all.foldl (State.pairStep cx s.gm.groups) (GroupId.all.foldl (State.groupStep cx) s)

end Sys2Proof.Machine
end

