-- ==== Sys2Proof/Machine/Ring.lean ====
section
/-! DEFINITION. CR: writing samples, the advance of the ring, and the freeze states at a boundary (R134 to R144). -/

namespace Sys2Proof.Machine

/-- A channel's part of the current slot takes the sample of the next index, with its marks (R134). -/
def SlotChannel.write (c : SlotChannel) (y : Sample) : SlotChannel :=
  { samples := c.samples ++ [y.value], marks := { clip := c.marks.clip || y.clipped, held := c.marks.held || y.held } }

def RingSlot.write (r : RingSlot) (ys : PerChannel Sample) : RingSlot :=
  { r with channels := PerChannel.ofFn fun c => (r.channels.get c).write (ys.get c) }

def CaptureRing.currentSlot (c : CaptureRing) : RingSlot := c.slots[c.current]

/-- The samples of one event written into the current slot, unless FROZEN (R134). -/
def CaptureRing.write (c : CaptureRing) (ys : PerChannel Sample) : CaptureRing :=
  match c.state with
  | .frozen => c
  | _ => { c with slots := c.slots.set c.current (c.currentSlot.write ys) }

/-- The slot after one in the circular order. -/
def nextSlot (k : Fin 16) : Fin 16 := k + 1

/-- The next slot becomes the current slot, emptied and tagged with the cycle that begins (R135). -/
def CaptureRing.advance (c : CaptureRing) (cycle : Word) : CaptureRing :=
  { c with slots := c.slots.set (nextSlot c.current) (RingSlot.fresh (some cycle)), current := nextSlot c.current }

/-- The tag of the oldest tagged slot, looking from the slot after the current one. -/
def CaptureRing.oldest (c : CaptureRing) : Option Word :=
  ((List.range 16).filterMap fun k => (c.slots[(c.current + 1 + Fin.ofNat 16 k : Fin 16)]).tag).head?

/-- The oldest and newest cycle numbers held (R142). -/
def CaptureRing.span (c : CaptureRing) : Option (Word × Word) :=
  match c.oldest, c.currentSlot.tag with
  | some a, some b => some (a, b)
  | _, _ => none

/-- R138: POST, its count at 0 and no release pending, so that the ring enters FROZEN at the boundary. -/
def CaptureRing.freezes (c : CaptureRing) : Bool :=
  decide (c.state = .post) && decide (c.postCount = 0) && !c.releasePending

/-- CR at a cycle boundary, `cycle` being the number of the cycle that begins (R135, R138, R141). -/
def CaptureRing.boundary (c : CaptureRing) (cycle : Word) : CaptureRing × List Notice :=
  match c.state with
  | .running => (c.advance cycle, [])
  | _ =>
    if c.releasePending then
      (CaptureRing.advance { c with state := .running, trigger := none, ignored := 0, postCount := 0,
                                    releasePending := false } cycle, [])
    else if c.freezes then
      ({ c with state := .frozen },
        match c.trigger with
        | some r => [.report (.freezeEvent true r 0 c.span c.ignored)]
        | none => [])
    else if c.state = .post then (CaptureRing.advance { c with postCount := c.postCount - 1 } cycle, [])
    else (c, [])

/-- The slot tagged with a cycle number (R144). Where two slots carry one number, as after a freeze that outlasts the wrap of the cycle
counter, the lowest-numbered slot answers, which is the model's choice (log entry 34). -/
def CaptureRing.find (c : CaptureRing) (cycle : Word) : Option RingSlot :=
  c.slots.toList.find? fun r => decide (r.tag = some cycle)

end Sys2Proof.Machine
end

