-- ==== Sys2Proof/Machine/Tracker.lean ====
section
/-! DEFINITION. CT: the crossing detector, the tracker's transitions, the miss timer and the phase correction (R21 to R33). -/

namespace Sys2Proof.Machine

/-- The reported frequency in mHz; 0 when no period has been accepted (R32). -/
def CycleTracker.frequency (c : CycleTracker) : Nat :=
  match c.accepted with
  | some p => roundDiv 10000000000 p
  | none => 0

/-- 151,516 ≤ P ≤ 238,095 (R22). -/
def inRangePeriod (p : Nat) : Bool := decide (Config.periodMin ≤ p) && decide (p ≤ Config.periodMax)

/-- Within 0.5 % of the period before (R24, R28). -/
def isSteady (p prev : Nat) : Bool := decide (((p : Int) - prev).natAbs * 200 ≤ prev)

/-- Within 2 % of the accepted period (R25). -/
def isAcceptable (p acc : Nat) : Bool := inRangePeriod p && decide (((p : Int) - acc).natAbs * 50 ≤ acc)

/-- What a crossing's period is judged to be, by the state it is issued in (R22 to R25, R28). -/
inductive Judgement
  /-- no crossing came before it: nothing is measured -/
  | unmeasured
  /-- SEEK or FREE, out of range -/
  | ignored
  /-- SEEK or FREE, in range: a LOCKING run begins -/
  | begins
  /-- LOCKING, steady but not yet the fourth -/
  | steady
  /-- LOCKING, the fourth steady period -/
  | locks
  /-- LOCKING, in range but unsteady -/
  | unsteady
  /-- LOCKING, out of range: back to the origin -/
  | returns
  /-- LOCKED, accepted -/
  | accepted
  /-- LOCKED, rejected, not yet the third miss -/
  | rejected
  /-- LOCKED, rejected as the third miss -/
  | loses
  /-- HOLDOVER, steady but not yet the fourth -/
  | holdoverSteady
  /-- HOLDOVER, the fourth steady period -/
  | relocks
  /-- HOLDOVER, in range: the run begins again at 1 -/
  | holdoverUnsteady
  /-- HOLDOVER, out of range -/
  | holdoverOut
deriving DecidableEq, Repr

/-- Whether a crossing is steady against the last in-range period. -/
def CycleTracker.steadyAgainst (c : CycleTracker) (p : Nat) : Bool :=
  match c.lastInRange with
  | some prev => isSteady p prev
  | none => false

def CycleTracker.acceptable (c : CycleTracker) (p : Nat) : Bool :=
  match c.accepted with
  | some acc => isAcceptable p acc
  | none => false

/-- The period a crossing measures: its stamp minus the stamp before (R22). -/
def CycleTracker.period (c : CycleTracker) (stamp : Count) : Option Nat := c.previous.map fun prev => countsFrom prev stamp

/-- The judgement of a crossing with this stamp. -/
def CycleTracker.judge (c : CycleTracker) (stamp : Count) : Judgement :=
  match c.period stamp with
  | none => .unmeasured
  | some p =>
    match c.tracker with
    | .seek => if inRangePeriod p then .begins else .ignored
    | .free => if inRangePeriod p then .begins else .ignored
    | .locking =>
      if !inRangePeriod p then .returns
      else if c.steadyAgainst p then (if Config.steadyLimit ≤ c.runCount + 1 then .locks else .steady)
      else .unsteady
    | .locked =>
      if c.acceptable p then .accepted
      else if Config.missLimit ≤ c.missCount + 1 then .loses else .rejected
    | .holdover =>
      if !inRangePeriod p then .holdoverOut
      else if decide (c.runCount = 0) || !c.steadyAgainst p then .holdoverUnsteady
      else if Config.steadyLimit ≤ c.runCount + 1 then .relocks else .holdoverSteady

/-- floor(3 × P_acc / 2), the counts of the miss timer (R26). -/
def missCounts (acc : Option Nat) : Nat := 3 * acc.getD 0 / 2

/-- The miss timer started at a moment, with P_acc as it then stands (R26). -/
def CycleTracker.startMissTimer (c : CycleTracker) (since : Count) : CycleTracker :=
  { c with missTimer := some (since + BitVec.ofNat 64 (missCounts c.accepted)) }

/-- Entry into LOCKED, from LOCKING or HOLDOVER (R24, R28). The timer counts from the crossing's stamp (log entry 9). -/
def CycleTracker.enterLocked (c : CycleTracker) (stamp : Count) (p : Nat) : CycleTracker :=
  CycleTracker.startMissTimer
    { c with tracker := .locked, accepted := some p, lastInRange := some p, missCount := 0, runCount := 0,
             steering := some stamp } stamp

/-- Entry into HOLDOVER (R25); the cycle in progress takes the holdover mark (R30). -/
def CycleTracker.enterHoldover (c : CycleTracker) : CycleTracker :=
  { c with tracker := .holdover, missCount := 0, runCount := 0, holdoverCycles := 0, missTimer := none,
           holdoverMark := true }

def Origin.tracker : Origin → Tracker
  | .seek => .seek
  | .free => .free

/-- SEEK or FREE as the origin of a run that begins there (R23). -/
def Tracker.asOrigin : Tracker → Origin
  | .free => .free
  | _ => .seek

/-- The tracker's own effect of a crossing (R22 to R28). -/
def CycleTracker.crossing (c : CycleTracker) (stamp : Count) : CycleTracker :=
  let j := c.judge stamp
  let p := (c.period stamp).getD 0
  let c := { c with previous := some stamp }
  match j with
  | .unmeasured => c
  | .ignored => c
  | .begins => { c with tracker := .locking, origin := c.tracker.asOrigin, runCount := 1, lastInRange := some p }
  | .steady => { c with runCount := c.runCount + 1, lastInRange := some p }
  | .locks => c.enterLocked stamp p
  | .unsteady => { c with runCount := 1, lastInRange := some p }
  | .returns => { c with runCount := 0, tracker := c.origin.tracker }
  | .accepted =>
    CycleTracker.startMissTimer { c with accepted := some p, missCount := 0, steering := some stamp } stamp
  | .rejected => CycleTracker.startMissTimer { c with missCount := c.missCount + 1 } stamp
  | .loses => c.enterHoldover
  | .holdoverSteady => { c with runCount := c.runCount + 1, lastInRange := some p }
  | .relocks => { c.enterLocked stamp p with holdoverCycles := 0 }
  | .holdoverUnsteady => { c with runCount := 1, lastInRange := some p }
  | .holdoverOut => { c with runCount := 0 }

/-- The sticky flag that entry into a state sets (R33). -/
def Tracker.entryFlag : Tracker → List Notice
  | .holdover => [.flag .syncHoldover]
  | .free => [.flag .syncFree]
  | _ => []

/-- The SYNC_EVENT of a change of tracker state, with the flag its entry sets (R33); nothing for a change within a state. -/
def syncNotices (before after : CycleTracker) (cause : SyncCause) (period : Nat) : List Notice :=
  if before.tracker = after.tracker then []
  else .report (.syncEvent before.tracker after.tracker cause period after.frequency) :: after.tracker.entryFlag

/-- The confirmation of a candidate (R21): its polarity is confirmed, and a change from NEGATIVE to POSITIVE issues a
crossing. -/
def CycleTracker.issues (c : CycleTracker) : Option Count :=
  match c.candidate with
  | some k => if k.polarity = .positive ∧ c.confirmed = some .negative then some k.stamp else none
  | none => none

def CycleTracker.confirm (c : CycleTracker) : CycleTracker × List Notice :=
  match c.candidate with
  | none => (c, [])
  | some k =>
    let c' := { c.reach (k.stamp + BitVec.ofNat 64 Config.confirmCounts) with
                confirmed := some k.polarity, candidate := none }
    match c.issues with
    | some stamp =>
      let c'' := c'.crossing stamp
      (c'', syncNotices c' c'' .crossing ((c'.period stamp).getD 0))
    | none => (c', [])

/-- What the crossing that the confirmation would issue is judged to be. -/
def CycleTracker.pendingJudgement (c : CycleTracker) : Option Judgement := c.issues.map c.judge

/-- A candidate has lasted 2,000 counts by now without having been confirmed. -/
def CycleTracker.overdue (c : CycleTracker) : Bool :=
  match c.candidate with
  | some k => decide (Config.confirmCounts ≤ countsFrom k.stamp c.timebase)
  | none => false

/-- The comparator output takes a polarity at the present count (R21): a candidate begins or is replaced, or the output has
returned to the confirmed polarity and the candidate is discarded. -/
def CycleTracker.newPolarity (c : CycleTracker) (p : Polarity) : CycleTracker :=
  { c with
    reference := p
    candidate := if c.confirmed = some p then none else some { polarity := p, stamp := c.timebase } }

/-- The miss timer's expiry (R26): a miss, and HOLDOVER at the third. -/
def CycleTracker.expire (c : CycleTracker) (due : Count) : CycleTracker :=
  let c := c.reach due
  if Config.missLimit ≤ c.missCount + 1 then c.enterHoldover
  else CycleTracker.startMissTimer { c with missCount := c.missCount + 1 } due

/-! ### Cycle length (R27, R29) -/

/-- The offset e of an accepted crossing in a cycle: d, or d − L when 2d exceeds L. -/
def phaseOffset (start : Count) (length : Nat) (stamp : Count) : Int :=
  let d := (stamp - start).toInt
  if 2 * d ≤ length then d else d - length

/-- The correction c: e / 2 truncated toward zero, limited to a hundredth of P_acc. -/
def phaseCorrection (acc : Nat) (e : Int) : Int := clampInt (-(acc / 100 : Nat)) (acc / 100 : Nat) (e.tdiv 2)

/-- The length of the cycle that begins, by the tracker state at the boundary (R27). -/
def nextLength (t : Tracker) (acc : Option Nat) (nominal : Nominal) (e : Option Int) : Nat :=
  match t with
  | .locked => ((acc.getD 0 : Int) + (e.map (phaseCorrection (acc.getD 0))).getD 0).toNat
  | .holdover => acc.getD 0
  | _ => nominal.period

/-- The count at which sample event `n` of the cycle falls: start + n × q + min n r (R29). -/
def CycleTracker.sampleCount (c : CycleTracker) (n : Nat) : Count :=
  c.start + BitVec.ofNat 64 (n * (c.length / Config.samplesPerCycle) + min n (c.length % Config.samplesPerCycle))

/-- The end of interval 119, the start of the next cycle (R29). -/
def CycleTracker.endCount (c : CycleTracker) : Count := c.start + BitVec.ofNat 64 c.length

end Sys2Proof.Machine
end

