-- ==== Sys2Proof/Machine/Boundary.lean ====
section
/-! DEFINITION. The two events that pass through every block: the sample event and the cycle boundary. -/

namespace Sys2Proof.Machine

/-! ### The sample event (R1) -/

/-- The cycle in progress still has a sample event to issue (R29). -/
def State.sampleDue (s : State) : Bool := decide (s.ct.issued < Config.samplesPerCycle)

/-- The samples of the next event. -/
def State.samplesOf (s : State) (raw : RawCodes) : PerChannel Sample := s.fe.samples s.ss.working raw

/-- The sample event: CT issues it, FE delivers to CR, AE and FC, and a clipped mark sets CLIP (R1, R13, R43, R122, R134). The order
of the CLIP notice and FC's is the model's (log entry 12). -/
def State.sampleStep (s : State) (raw : RawCodes) : State :=
  let k := s.ct.issued
  let ys := s.samplesOf raw
  let s := s.setCt { s.ct.reach (s.ct.sampleCount k) with issued := k + 1 }
  let s := s.setFe (s.fe.afterSample s.ss.working raw)
  let s := if anyClipped ys then s.post [.flag .clip] else s
  let s := s.setCr (s.cr.write ys)
  let s := s.setAe (s.ae.addSamples ys k)
  s.judgeComparators ys k

/-! ### The cycle boundary (R30) -/

/-- Every sample event of the cycle has been issued, so that its boundary comes next (R29). -/
def State.boundaryDue (s : State) : Bool := decide (s.ct.issued = Config.samplesPerCycle)

/-- The tracker enters FREE at this boundary (R28). -/
def State.entersFree (s : State) : Bool :=
  decide (s.ct.tracker = .holdover) && decide (Config.holdoverLimit ≤ s.ct.holdoverCycles + 1)

/-- The boundary is a window boundary: the window's cycles are complete, and the tracker does not enter FREE (R40, R41). -/
def State.endsWindow (s : State) : Bool := s.ae.completes && !s.entersFree

/-- The boundary is an application point of analysis settings: a window boundary, or the clock was STOPPED (R47). -/
def State.appliesHere (s : State) : Bool := s.ae.stopped || s.endsWindow

/-- A window opens at this boundary: a window boundary, or the clock starts (R38, R48). -/
def State.opensWindow (s : State) : Bool :=
  s.endsWindow || (s.ae.stopped && decide (s.mode = .normal) && decide (s.ct.tracker = .locked))

/-- The number of the window that opens, or 0 (R39). -/
def State.openingNumber (s : State) : Word := if s.opensWindow then s.ae.counter + 1 else 0

/-- The groups that GM takes to OUT here (R84). -/
def State.leaving (s : State) (inputs : InputLevels) : Quad Bool :=
  Quad.ofFn fun g => (s.gm.groups.get g).leaves (inputs.get g)

/-- CT closes the cycle: the holdover count, FREE at the 50th, and the number of the cycle that begins (R28, R30). -/
def CycleTracker.closeCycle (c : CycleTracker) (free : Bool) : CycleTracker :=
  let c := { c.reach c.endCount with cycle := c.cycle + 1 }
  match c.tracker with
  | .holdover =>
    if free then
      { c with tracker := .free, holdoverCycles := c.holdoverCycles + 1, runCount := 0, lastInRange := none }
    else { c with holdoverCycles := c.holdoverCycles + 1 }
  | _ => c

def State.closeCycle (s : State) : State :=
  let c := s.ct.closeCycle s.entersFree
  (s.setCt c).post (syncNotices s.ct c .holdoverLimit 0)

/-- FE's up-switch test, at every test point: all but the boundaries inside a window (R9). -/
def State.testUpSwitch (s : State) (isTestPoint : Bool) : State :=
  if isTestPoint then s.setFe (s.fe.testPoint s.ss.working) else s

/-- AE's part of step 1: DEGRADED, the discards, the cycle count and the hand-over, by the table "What a boundary sees in each
tracker state". -/
def State.closeWindowCycle (s : State) (mark free ends : Bool) (leaving : Quad Bool) : State :=
  match s.ae.clock with
  | none => s
  | some w =>
    let a := if mark then s.ae.degrade else s.ae
    if free then
      (s.setSt (s.st.countDiscards a.groupSets (Quad.fill true))).setAe a.discardWindow
    else
      let s := s.setSt (s.st.countDiscards a.groupSets leaving)
      let a := (a.discardLeaving leaving).countCycle
      if ends then
        let s := (s.setSt (s.st.countSkips a.skippedGroups)).setAe (a.handOver s.ss.working w)
        if a.anySkip then s.post [.flag .windowSkipped] else s
      else s.setAe a

/-- Every staged analysis-class value applied: SS, FE by R16, and the digest counts of LC (R15, R47, R166). -/
def State.applyAnalysis (s : State) : State :=
  let st := s.ss.staged
  let s := s.setFe (s.fe.applyStaged st)
  let s := if st.analysis.isSome then s.setLc { s.lc with digests := Quad.fill 0 } else s
  s.setSs { s.ss with working := s.ss.working.applyAnalysis st, staged := st.withoutAnalysis }

/-- AE opens a window with the working W and pairing (R48). -/
def State.openWindow (s : State) : State :=
  s.setAe (s.ae.openWindow s.ss.working.analysis.window s.ct.cycle s.gm)

/-- CR at the boundary. -/
def State.ringStep (s : State) : State :=
  let a := s.cr.boundary s.ct.cycle
  (s.setCr a.1).post a.2

/-- The report hold count falls by 1 (R165). -/
def State.holdStep (s : State) : State := s.setLc { s.lc with holdCount := s.lc.holdCount - 1 }

/-- CT begins the next cycle: its length from the state, its start, no sample issued (R27, R29, R30). `ended` is CT before the
boundary. -/
def State.beginCycle (s : State) (ended : CycleTracker) : State :=
  let c := s.ct
  s.setCt { c with
    start := ended.endCount
    length := nextLength c.tracker c.accepted s.ss.working.analysis.nominal
      (ended.steering.map (phaseOffset ended.start ended.length))
    issued := 0
    holdoverMark := decide (c.tracker = .holdover)
    steering := none }

/-- The cycle boundary, through the blocks in this order: CT closes the cycle; FE tests; AE counts, discards and hands over; the
analysis class is applied, and with the clock STOPPED the limit edits; GM; the opening; the analysis class of a SYNC_POINT; CR;
the report hold; CT begins the next cycle. Where no rule gives the order of two blocks it is the model's (log entry 12). -/
def State.boundaryStep (s₀ : State) (inputs : InputLevels) : State :=
  let stopped := s₀.ae.stopped
  let free := s₀.entersFree
  let ends := s₀.endsWindow
  let applies := s₀.appliesHere
  let opens := s₀.opensWindow
  let s := s₀.closeCycle
  let s := s.testUpSwitch (stopped || ends || free)
  let s := s.closeWindowCycle s₀.ct.holdoverMark free ends (s₀.leaving inputs)
  let s := if applies then s.applyAnalysis else s
  let s := if stopped then s.applyLimitEdits none else s
  let s := s.monitorStep { inputs := inputs, opens := opens, opening := s₀.openingNumber }
  let s := if opens then s.openWindow else s
  let s := if applies then s.setLc (s.lc.closeAnalysis (if opens then some s₀.openingNumber else none)) else s
  let s := s.ringStep
  let s := s.holdStep
  s.beginCycle s₀.ct

end Sys2Proof.Machine
end

