-- ==== Sys2Proof/Machine/Link.lean ====
section
/-! DEFINITION. LC's receiver, its hand-on of good frames, and the transmitter with its arbiter (R157 to R163, R171). -/

namespace Sys2Proof.Machine

/-! ### The receiver (R158) -/

/-- The gap timer has run past 1.0 ms when a character ends at `now`: its start bit came more than 10,000 counts after the stop bit
before it (R158). -/
def LinkController.gapExceeded (l : LinkController) (now : Count) : Bool :=
  match l.gapFrom with
  | some t => decide (Config.gapCounts + Config.characterCounts < countsFrom t now)
  | none => false

/-- The frame is abandoned on a gap timeout (R158). -/
def LinkController.abandon (cycle : Word) (l : LinkController) : LinkController :=
  LinkController.raise cycle (LinkController.bump { l with receiver := .hunt, gapFrom := none } 4) .linkGap

/-- A good frame enters the pending list at its tail, or finds it full (R159). -/
def LinkController.handOn (cycle : Word) (l : LinkController) (f : Frame) : LinkController :=
  if l.entries.length < Config.pendingMax then { l with entries := l.entries ++ [{ request := f, stage := .waiting }] }
  else (l.bump 5).raise cycle .requestOverflow

/-- The frame a body holds: kind, tag and payload. -/
def frameOfBody (got : List Byte) : Frame :=
  { kind := got.getD 0 0, tag := got.getD 1 0, payload := got.drop 2 }

/-- The check of a received frame: the length byte and the body against the two check characters (R157, R158). -/
def checkMatches (n : Nat) (got : List Byte) (high low : Byte) : Bool :=
  decide (beBytes 2 (crc16 (BitVec.ofNat 8 n :: got)).toNat = [high, low])

/-- The receiver goes to a state in which the gap timer runs from `now`, or to HUNT in which it does not. -/
def LinkController.receive (l : LinkController) (r : Receiver) (now : Count) : LinkController :=
  { l with receiver := r, gapFrom := if r = .hunt then none else some now }

/-- One received character, by the receiver's state (R158). -/
def LinkController.character (cycle : Word) (now : Count) (l : LinkController) (b : Byte) : LinkController :=
  match l.receiver with
  | .hunt => if b = 0xA5 then l.receive .length now else l
  | .length =>
    if b.toNat < 2 then ((l.receive .hunt now).bump 2).raise cycle .linkRunt
    else if 250 < b.toNat then ((l.receive .hunt now).bump 3).raise cycle .linkOverlong
    else l.receive (.body b.toNat []) now
  | .body n got =>
    if n ≤ got.length + 1 then l.receive (.check n (got ++ [b]) none) now else l.receive (.body n (got ++ [b])) now
  | .check n got none => l.receive (.check n got (some b)) now
  | .check n got (some high) =>
    if checkMatches n got high b then ((l.receive .hunt now).bump 0).handOn cycle (frameOfBody got)
    else ((l.receive .hunt now).bump 1).raise cycle .linkCheck

/-- A character whose stop bit ends `elapsed` counts after the last timed event. One that comes after the gap timeout is dealt
with in HUNT; a missing stop bit changes nothing here (R158). -/
def State.receiveCharacter (s : State) (elapsed : Nat) (b : Byte) : State :=
  let ct := s.ct.elapse elapsed
  let l := if s.lc.gapExceeded ct.timebase then s.lc.abandon s.ct.cycle else s.lc
  (s.setCt ct).setLc (l.character s.ct.cycle ct.timebase b)

/-- The character completes a good frame: the receiver waits for the second check character, within the gap, and the check
matches (R158). -/
def State.completesFrame (s : State) (elapsed : Nat) (b : Byte) : Bool :=
  !(s.lc.gapExceeded (s.ct.elapse elapsed).timebase) &&
    (match s.lc.receiver with
     | .check n got (some high) => checkMatches n got high b
     | _ => false)

/-- A frame is being collected, so that the gap timer runs (R158). -/
def LinkController.collecting (l : LinkController) : Bool := decide (l.receiver ≠ .hunt)

/-- The count at which the gap timer passes 10,000. -/
def LinkController.gapDue (l : LinkController) (now : Count) : Count :=
  match l.gapFrom with
  | some t => t + BitVec.ofNat 64 (Config.gapCounts + 1)
  | none => now

/-- The gap timeout at its count. -/
def State.gapStep (s : State) : State :=
  (s.setCt (s.ct.reach (s.lc.gapDue s.ct.timebase))).setLc (s.lc.abandon s.ct.cycle)

/-! ### The transmitter (R163) -/

/-- The ordinal at which an entry became READY, with its reply. -/
def Entry.readyReply (e : Entry) : Option (Nat × Frame) :=
  match e.stage with
  | .ready n r => some (n, r)
  | _ => none

/-- The earlier of two READY replies. -/
def earlierReply (best : Option (Nat × Frame)) (c : Nat × Frame) : Option (Nat × Frame) :=
  match best with
  | none => some c
  | some b => if c.1 < b.1 then some c else some b

/-- The reply of the entry that became READY earliest (R163). -/
def LinkController.nextReply (l : LinkController) : Option (Nat × Frame) :=
  (l.entries.filterMap Entry.readyReply).foldl earlierReply none

def Entry.readyAt (n : Nat) (e : Entry) : Bool :=
  match e.stage with
  | .ready m _ => decide (m = n)
  | _ => false

/-- The transmitter is idle and the arbiter may choose: not between a RESTART reply and its restart (R163, R171). -/
def LinkController.mayTransmit (l : LinkController) : Bool := l.sending.isNone && !l.restartDue

/-- The arbiter has a frame to send: a READY reply, or a report with no hold in force (R163, R165). -/
def LinkController.hasFrame (l : LinkController) : Bool :=
  l.nextReply.isSome || (decide (l.holdCount = 0) && !l.queue.isEmpty)

/-- The arbiter's choice (R163). -/
def LinkController.transmit (l : LinkController) : LinkController :=
  match l.nextReply with
  | some (n, reply) =>
    { l with entries := restage (Entry.readyAt n) .sending l.entries, sending := some { isReply := true, frame := reply } }
  | none =>
    match l.queue with
    | r :: rs => if l.holdCount = 0 then { l with queue := rs, sending := some { isReply := false, frame := r.frame } } else l
    | [] => l

def Entry.isSending (e : Entry) : Bool := decide (e.stage = .sending)

/-- The last character of the frame has been sent: a reply's entry leaves the list, and after a RESTART reply the restart is due
(R160, R171). -/
def LinkController.sent (l : LinkController) : LinkController :=
  match l.sending with
  | none => l
  | some t =>
    if t.isReply then
      { l with sending := none, entries := l.entries.filter fun e => !e.isSending,
               restartDue := l.restartDue || (t.frame.kind == restartReplyKind) }
    else { l with sending := none }

end Sys2Proof.Machine
end

