-- ==== Sys2Proof/Machine/Store.lean ====
section
/-! DEFINITION. SS: the stored image, reset, reset release and the carrying out of a restart (R180 to R185, R171). -/

namespace Sys2Proof.Machine

/-! ### The stored image (R180) -/

/-- The CRC-32 over the image's copy of the settings, in the order of fields that the manual does not give (log entry 2). -/
def imageCrc (x : Settings) : Word := crc32 (Config.imageLayout x)

/-- The image that a store of a snapshot writes (R181). -/
def imageOf (x : Settings) : StoredImage := .whole x (imageCrc x)

/-- The working settings that a loadable image gives; none when it is not loadable (R180). -/
def StoredImage.load : StoredImage → Option Settings
  | .whole copy stored => if imageCrc copy = stored ∧ copy.inRange = true then some copy.asLoaded else none
  | _ => none

/-- The two CRCs that a check of the image reports (R182), the same at every check of one image; for an erased or half-written image
they are free values that do not match, the `n`th pair of them (log entry 3). -/
def StoredImage.crcs (n : Nat) : StoredImage → Word × Word
  | .torn =>
    (if Config.tornComputed n = Config.tornStored n then ~~~(Config.tornComputed n) else Config.tornComputed n,
      Config.tornStored n)
  | .foreign computed stored => (computed, stored)
  | .whole copy stored => (imageCrc copy, stored)

def State.storing (s : State) : Bool :=
  match s.ss.flight with
  | some (.store _) => true
  | _ => false

/-- The free value that is next once the store in flight, if one is, has ended: the image it leaves is another image, and takes CRCs of
its own if it is torn (log entry 3). -/
def State.freeAfterWrite (s : State) : Nat := if s.storing then s.freeNext + 1 else s.freeNext

/-- A store in flight whose completion gives the snapshot's CRC, OK or FAILED (R181). The comparison of stage 3 takes in the stored CRC: a
read-back with the snapshot's copy and another CRC fails, which is the model's reading (log entry 36). -/
def State.completeStore (s : State) (readBack : StoredImage) : State :=
  match s.ss.flight with
  | some (.store snapshot) =>
    let ok := decide (readBack = imageOf snapshot)
    let s := (s.setSs { s.ss with image := readBack, flight := none }).setFreeNext s.freeAfterWrite
    let s := if ok then s else s.post [.flag .storeFailed]
    s.setLc (s.lc.replyDeferred 0x19 (if ok then 0 else 1) (word4 (imageCrc snapshot)))
  | _ => s

def State.checking (s : State) : Bool :=
  match s.ss.flight with
  | some .check => true
  | _ => false

/-- A check in flight finishes: the CRCs, whether they match, and whether the image is loadable (R182). -/
def State.completeCheck (s : State) : State :=
  let c := s.ss.image.crcs s.freeNext
  let s := s.setSs { s.ss with flight := none }
  s.setLc (s.lc.replyDeferred 0x1A 0
    (word4 c.1 ++ word4 c.2 ++ [boolByte (decide (c.1 = c.2)), boolByte s.ss.image.load.isSome]))

/-! ### Reset (R20, R37, R119, R181) -/

/-- What the image memory holds after a reset: as it was, or as a store in flight left it. During the erase or the write it is
not loadable; during the read-back it holds what was written (R181). -/
def State.imageAfterReset (s : State) (written : Option StoredImage) : StoredImage :=
  match s.ss.flight with
  | some (.store _) => written.getD .torn
  | _ => s.ss.image

/-- The part held in reset: nothing of any block survives but the image (R20, R37, R119). The working settings are lost; the
fields stand at the values of a release with the factory defaults until a release loads them (log entry 7). -/
def State.heldInReset (s : State) (written : Option StoredImage) : State :=
  { State.released Settings.factory .normal s.ct.reference (s.imageAfterReset written) with
    pending := s.pending, inReset := true, freeNext := s.freeAfterWrite }

/-! ### Reset release (R183) -/

/-- Start-up from the strap and the image: the working settings, the mode, and whether SETTINGS_DEFAULTED is set (R183). -/
def startUp (strap : Bool) (image : StoredImage) : Settings × Mode × Bool :=
  if strap then (Settings.factory, .maintenance, false)
  else
    match image.load with
    | some x => (x, .normal, false)
    | none => (Settings.factory, .normal, true)

/-- Reset release: every block takes its reset-release state from the settings loaded. -/
def State.release (s : State) (strap : Bool) (reference : Polarity) : State :=
  let u := startUp strap s.ss.image
  let t : State :=
    { State.released u.1 u.2.1 reference s.ss.image with pending := s.pending, freeNext := s.freeNext }
  if u.2.2 then t.post [.flag .settingsDefaulted] else t

/-! ### Restart (R185) -/

/-- LE at a restart: every record of the resulting table CLEAR, every verdict NORMAL, the latches kept (R120). -/
def LimitEvaluator.restarted (l : LimitEvaluator) (x : Settings) (m : Mode) : LimitEvaluator :=
  LimitEvaluator.refreshAlert
    { l with records := tableMap freshRecords x.limits, verdicts := Quad.fill .normal } m

/-- LC at a restart: the list and the queue emptied, the hold and digest counts 0; flags, masks, lost count, counters and receiver
kept (R171). -/
def LinkController.restarted (l : LinkController) : LinkController :=
  { l with entries := [], queue := [], sending := none, holdCount := 0, digests := Quad.fill 0, sync := none,
           restartDue := false }

/-- The restart is carried out: every staged value is applied, then each block takes its restart state (R185). R57 drops the passes not yet
handed over to LE; a pass that is handed over but not yet carried out is dropped with them, which is the model's choice (log entry 38). -/
def State.restartStep (s : State) : State :=
  let x := s.ss.working.prospective s.ss.staged
  { s with
    fe := FrontEnd.fresh x
    ct := CycleTracker.fresh x s.ct.timebase s.ct.reference
    ae := AnalysisEngine.fresh
    gm := Monitors.fresh
    le := s.le.restarted x s.mode
    fc := Comparators.fresh
    cr := CaptureRing.fresh
    lc := s.lc.restarted
    ss := { s.ss with working := x, staged := Staging.empty } }

end Sys2Proof.Machine
end

