-- ==== Sys2Proof/Machine/Events.lean ====
section
/-! DEFINITION. The meanings of the commands that no request brings: reset, the reference comparator and the tracker, the
sample event, the cycle boundary, the finishing jobs and the evaluation pass. -/

namespace Sys2Proof.Machine

/-! ### Reset and release -/

/-- RESET (R20, R37, R119): taken at any time. -/
def execReset (written : Option StoredImage) (s : State) : Result := .next (s.heldInReset written)

/-- RESET_RELEASE (R183): the one command that a part held in reset takes beside RESET. -/
def execResetRelease (strap : Bool) (reference : Polarity) (s : State) : Result :=
  .next (if s.inReset then s.release strap reference else s)

/-! ### The reference comparator and the tracker -/

/-- A candidate is confirmed, with the SYNC_EVENT and flag of a change of tracker state (R21, R33). -/
def State.confirmStep (s : State) : State :=
  let a := s.ct.confirm
  (s.setCt a.1).post a.2

/-- The polarity change itself, `elapsed` counts after the last timed event: a candidate that has by then lasted 2,000 counts is
confirmed first (log entry 10). -/
def State.polarityStep (s : State) (elapsed : Nat) (polarity : Polarity) : State :=
  let s := s.setCt (s.ct.elapse elapsed)
  let s := if s.ct.overdue then s.confirmStep else s
  s.setCt (s.ct.newPolarity polarity)

/-- REFERENCE_POLARITY_CHANGE (R21). -/
def execReferencePolarityChange (elapsed : Nat) (polarity : Polarity) (s : State) : Result :=
  whenDue s (decide (polarity ≠ s.ct.reference)) (s.polarityStep elapsed polarity)

/-- POLARITY_CONFIRMED (R21). -/
def execPolarityConfirmed (s : State) : Result := whenDue s s.ct.candidate.isSome s.confirmStep

/-- LOCK_ACHIEVED: the confirmation that issues the fourth steady crossing of LOCKING (R24). -/
def execLockAchieved (s : State) : Result :=
  whenDue s (decide (s.ct.pendingJudgement = some .locks)) s.confirmStep

/-- RELOCK: the confirmation that issues the fourth steady crossing of HOLDOVER (R28). -/
def execRelock (s : State) : Result :=
  whenDue s (decide (s.ct.pendingJudgement = some .relocks)) s.confirmStep

/-- The expiry of the miss timer, which runs in LOCKED alone (R26). -/
def State.missStep (s : State) : State :=
  match s.ct.missTimer with
  | some due =>
    let c := s.ct.expire due
    (s.setCt c).post (syncNotices s.ct c .missTimer 0)
  | none => s

/-- The miss timer is running, in LOCKED. -/
def CycleTracker.missDue (c : CycleTracker) : Bool := decide (c.tracker = .locked) && c.missTimer.isSome

/-- The next miss is the third (R25). -/
def CycleTracker.lastMiss (c : CycleTracker) : Bool := decide (Config.missLimit ≤ c.missCount + 1)

/-- MISS_TIMER (R26). -/
def execMissTimer (s : State) : Result := whenDue s s.ct.missDue s.missStep

/-- HOLDOVER_ENTRY: the third miss, by a rejected crossing or by the miss timer (R25, R26). -/
def execHoldoverEntry (kind : MissKind) (s : State) : Result :=
  match kind with
  | .crossing => whenDue s (decide (s.ct.pendingJudgement = some .loses)) s.confirmStep
  | .missTimer => whenDue s (s.ct.missDue && s.ct.lastMiss) s.missStep

/-! ### The sample event -/

/-- SAMPLE_EVENT (R1). -/
def execSampleEvent (raw : RawCodes) (s : State) : Result := whenDue s s.sampleDue (s.sampleStep raw)

/-- The hold count of a current channel; 0 for the channels that have none (R8). -/
def FrontEnd.holdOf (f : FrontEnd) : ChannelId → Nat
  | .ia g => (f.ia.get g).hold
  | .ib g => (f.ib.get g).hold
  | _ => 0

/-- HOLD_END: the sample event that brings a hold count to 0 (R12). -/
def execHoldEnd (c : ChannelId) (raw : RawCodes) (s : State) : Result :=
  whenDue s (s.sampleDue && decide (s.fe.holdOf c = 1)) (s.sampleStep raw)

/-- The filtered output of a comparator changes at the sample event of these codes (R123). -/
def State.outputChanges (s : State) (g : GroupId) (c : CompId) (raw : RawCodes) : Bool :=
  let x := s.ss.working.comparator g c
  decide (s.mode = .normal) && (s.fc.get g c).changes x (sourceSample (s.samplesOf raw) g x.source)

/-- FILTERED_OUTPUT_CHANGE: the sample event at which a filtered output changes (R123). -/
def execFilteredOutputChange (g : GroupId) (c : CompId) (raw : RawCodes) (s : State) : Result :=
  whenDue s (s.sampleDue && s.outputChanges g c raw) (s.sampleStep raw)

/-! ### The cycle boundary -/

/-- CYCLE_BOUNDARY (R30). -/
def execCycleBoundary (inputs : InputLevels) (s : State) : Result := whenDue s s.boundaryDue (s.boundaryStep inputs)

/-- HOLDOVER_LIMIT: the boundary at which the tracker enters FREE (R28). -/
def execHoldoverLimit (inputs : InputLevels) (s : State) : Result :=
  whenDue s (s.boundaryDue && s.entersFree) (s.boundaryStep inputs)

/-- WINDOW_BOUNDARY: the boundary that completes the window in progress (R40, R46). -/
def execWindowBoundary (inputs : InputLevels) (s : State) : Result :=
  whenDue s (s.boundaryDue && s.endsWindow) (s.boundaryStep inputs)

/-- The boundary accepts the level `closed` for a group (R80). -/
def State.acceptsLevel (s : State) (g : GroupId) (closed : Bool) (inputs : InputLevels) : Bool :=
  decide (inputs.get g = closed) && (s.gm.groups.get g).accepts closed

/-- INPUT_CLOSED (R80, R81). -/
def execInputClosed (g : GroupId) (inputs : InputLevels) (s : State) : Result :=
  whenDue s (s.boundaryDue && s.acceptsLevel g true inputs) (s.boundaryStep inputs)

/-- INPUT_OPEN (R80, R84). -/
def execInputOpen (g : GroupId) (inputs : InputLevels) (s : State) : Result :=
  whenDue s (s.boundaryDue && s.acceptsLevel g false inputs) (s.boundaryStep inputs)

/-- The settle count of a group falls to 0 at this boundary (R82); a group that leaves here has no settle count left to fall. -/
def State.settleExpires (s : State) (g : GroupId) (inputs : InputLevels) : Bool :=
  let m := s.gm.groups.get g
  decide (m.state = .settling) && decide (m.settle = 1) && !m.leaves (inputs.get g)

/-- SETTLE_COUNT_EXPIRY (R82). -/
def execSettleCountExpiry (g : GroupId) (inputs : InputLevels) (s : State) : Result :=
  whenDue s (s.boundaryDue && s.settleExpires g inputs) (s.boundaryStep inputs)

/-- RING_FROZEN: the boundary at which the ring enters FROZEN (R138). -/
def execRingFrozen (inputs : InputLevels) (s : State) : Result :=
  whenDue s (s.boundaryDue && s.cr.freezes) (s.boundaryStep inputs)

/-- REPORT_HOLD_END: the boundary that brings the report hold count to 0 (R165). -/
def execReportHoldEnd (inputs : InputLevels) (s : State) : Result :=
  whenDue s (s.boundaryDue && decide (s.lc.holdCount = 1)) (s.boundaryStep inputs)

/-! ### Finishing jobs and the evaluation pass -/

/-- The arithmetic unit takes the job chosen by R50. -/
def State.startNext (s : State) : State :=
  match s.ae.nextJob with
  | some u => s.setAe (s.ae.startJob u)
  | none => s

/-- JOB_START (R50). -/
def execJobStart (s : State) : Result := whenDue s (!s.ae.unitBusy && s.ae.nextJob.isSome) s.startNext

/-- JOB_COMPLETION (R51). -/
def execJobCompletion (s : State) : Result := whenDue s s.ae.unitBusy s.completeJob

/-- The pass handed over next is taken off and evaluated (R52, R108). -/
def State.passStep (s : State) : State :=
  match s.ae.nextPass with
  | some p => (s.setAe { s.ae with passes := s.ae.passes.drop 1 }).evaluate p
  | none => s

/-- EVALUATION_PASS (R108). -/
def execEvaluationPass (s : State) : Result := whenDue s s.ae.nextPass.isSome s.passStep

end Sys2Proof.Machine
end

