-- ==== Sys2Proof/Machine/Operands.lean ====
section
/-! DEFINITION. Operand forms: the payload fields of each request, read at the places of R172 and R173 by the codes of R177.
Every reading is none where a field lies outside the values its rule examines, and the request is then refused with
BAD_VALUE. -/

namespace Sys2Proof.Machine

/-- The byte of a payload at an offset, as a number. -/
def u8 (p : List Byte) (i : Nat) : Nat := (p.getD i 0).toNat
/-- The bytes of a payload from an offset. -/
def slice (p : List Byte) (i n : Nat) : List Byte := (p.drop i).take n
def u16 (p : List Byte) (i : Nat) : Nat := beNat (slice p i 2)
def u32 (p : List Byte) (i : Nat) : Nat := beNat (slice p i 4)
def i16 (p : List Byte) (i : Nat) : Int := beInt (slice p i 2)
def i32 (p : List Byte) (i : Nat) : Int := beInt (slice p i 4)
/-- A field that is no or yes. -/
def flagField (p : List Byte) (i : Nat) : Option Bool := byteBool? (p.getD i 0)

/-- A set of flags: numbers 12 to 15 are refused (R168). -/
def flagSetField (p : List Byte) : Option FlagSet :=
  if u16 p 0 < 4096 then some (BitVec.ofNat 12 (u16 p 0)) else none

/-- LATEST or PREVIOUS (R146). -/
inductive RecordChoice
  | latest | previous
deriving DecidableEq, Repr

def RecordChoice.ofCode? : Nat → Option RecordChoice
  | 0 => some .latest
  | 1 => some .previous
  | _ => none

/-- A unit named by kind and index (R146). -/
def unitOf? (kind index : Nat) : Option UnitId :=
  match kind with
  | 0 => (GroupId.ofNat? index).map .group
  | 1 => (PairId.ofNat? index).map .pair
  | _ => none

/-- The unit and record of GET_WINDOW, GET_LINES and SCAN_LINES (R146). -/
def recordField (p : List Byte) : Option (UnitId × RecordChoice) := do
  let u ← unitOf? (u8 p 0) (u8 p 1)
  let r ← RecordChoice.ofCode? (u8 p 2)
  return (u, r)

/-- The series of GET_LINES (R148). -/
inductive Series
  | v | ia | ib | ig | ip
deriving DecidableEq, Repr

def Series.ofCode? : Nat → Option Series
  | 0 => some .v
  | 1 => some .ia
  | 2 => some .ib
  | 3 => some .ig
  | 4 => some .ip
  | _ => none

/-- V, IA, IB and IG belong to a group, IP to a pair (R148). -/
def Series.fits : Series → UnitId → Bool
  | .ip, .pair _ => true
  | .ip, .group _ => false
  | _, .group _ => true
  | _, .pair _ => false

structure LinesRequest where
  unit : UnitId
  record : RecordChoice
  series : Series
  first : Nat
  count : Nat
deriving DecidableEq, Repr

/-- GET_LINES: unit, index, record, series, first order, count (R148). -/
def linesField (p : List Byte) : Option LinesRequest := do
  let (u, r) ← recordField p
  let s ← Series.ofCode? (u8 p 3)
  if s.fits u && decide (1 ≤ u8 p 4) && decide (u8 p 4 ≤ 50) && decide (1 ≤ u8 p 5) then
    return { unit := u, record := r, series := s, first := u8 p 4, count := u8 p 5 }
  else none

/-- The target of SCAN_LINES (R149). -/
inductive Target
  | vAmp | vRatio | iaAmp | ibAmp | igAmp | ipAmp | ipRatio
deriving DecidableEq, Repr

def Target.ofCode? : Nat → Option Target
  | 0 => some .vAmp
  | 1 => some .vRatio
  | 2 => some .iaAmp
  | 3 => some .ibAmp
  | 4 => some .igAmp
  | 5 => some .ipAmp
  | 6 => some .ipRatio
  | _ => none

def Target.fits : Target → UnitId → Bool
  | .ipAmp, .pair _ => true
  | .ipRatio, .pair _ => true
  | .ipAmp, .group _ => false
  | .ipRatio, .group _ => false
  | _, .group _ => true
  | _, .pair _ => false

inductive Direction
  | up | down
deriving DecidableEq, Repr

def Direction.ofCode? : Nat → Option Direction
  | 0 => some .up
  | 1 => some .down
  | _ => none

structure ScanRequest where
  unit : UnitId
  record : RecordChoice
  target : Target
  start : Nat
  direction : Direction
  count : Nat
  sense : Sense
  value : Nat
deriving DecidableEq, Repr

/-- SCAN_LINES: unit, index, record, target, start, direction, count, sense, value (R149). -/
def scanField (p : List Byte) : Option ScanRequest := do
  let (u, r) ← recordField p
  let t ← Target.ofCode? (u8 p 3)
  let d ← Direction.ofCode? (u8 p 5)
  let s ← Sense.ofCode? (u8 p 7)
  if t.fits u && decide (1 ≤ u8 p 4) && decide (u8 p 4 ≤ 50) && decide (1 ≤ u8 p 6) && decide (u8 p 6 ≤ 50) then
    return { unit := u, record := r, target := t, start := u8 p 4, direction := d, count := u8 p 6, sense := s,
             value := u32 p 8 }
  else none

structure SamplesRequest where
  channel : ChannelId
  cycle : Word
  first : Nat
  count : Nat
deriving DecidableEq, Repr

/-- READ_SAMPLES: channel, cycle number, first index, count (R144). -/
def samplesField (p : List Byte) : Option SamplesRequest := do
  let c ← ChannelId.ofNat? (u8 p 0)
  if decide (u8 p 5 ≤ 119) && decide (1 ≤ u8 p 6) then
    return { channel := c, cycle := BitVec.ofNat 32 (u32 p 1), first := u8 p 5, count := u8 p 6 }
  else none

/-- SET_FREEZE: post_cycles clamped to 15, and the three source flags (R136). -/
def freezeField (p : List Byte) : Option FreezeSetup := do
  let a ← flagField p 2
  let t ← flagField p 3
  let c ← flagField p 4
  return { postCycles := min (u16 p 0) 15, verdictAlarm := a, verdictTrip := t, comparator := c }

/-- The scope of SET_LIMIT: a scope kind with a set of group flags or a pair index (R99). R99's list of refusals does not name a scope
kind that is neither GROUPS nor PAIR; the model refuses it with BAD_VALUE (log entry 33). -/
def scopeField (kind value : Nat) : Option Scope :=
  match kind with
  | 0 =>
    if value < 16 then
      some (.groups ⟨value.testBit 0, value.testBit 1, value.testBit 2, value.testBit 3⟩)
    else none
  | 1 => (PairId.ofNat? value).map .pair
  | _ => none

/-- SET_LIMIT: entry number, scope kind, scope, quantity, bridge, first, last, sense, limit, release, on_count, off_count,
severity, with every test of R99. -/
def limitField (p : List Byte) : Option (Fin 48 × LimitEntry) := do
  let scope ← scopeField (u8 p 1) (u8 p 2)
  let q ← Quantity.ofCode? (u8 p 3)
  let sense ← Sense.ofCode? (u8 p 7)
  let sev ← Severity.ofCode? (u8 p 18)
  let e : LimitEntry :=
    { scope := scope, quantity := q, bridge := p.getD 4 0, first := p.getD 5 0, last := p.getD 6 0, sense := sense,
      limit := i32 p 8, release := i32 p 12, onCount := u8 p 16, offCount := u8 p 17, severity := sev }
  if h : u8 p 0 < 48 then
    if e.valid then return (⟨u8 p 0, h⟩, e) else none
  else none

/-- The entry number of GET_LIMIT and DELETE_LIMIT (R100, R101). -/
def slotField (p : List Byte) : Option (Fin 48) :=
  if h : u8 p 0 < 48 then some ⟨u8 p 0, h⟩ else none

structure ChannelRequest where
  channel : ChannelId
  settings : ChannelSettings
deriving DecidableEq, Repr

/-- SET_CHANNEL: channel, fs, offset_low, gain_low, offset_high, gain_high, range_mode, hold (R14). For a channel without a HIGH
range the last four are not examined, and read as the fixed values. -/
def channelField (p : List Byte) : Option ChannelRequest := do
  let c ← ChannelId.ofNat? (u8 p 0)
  let m ← if c.isCurrent then RangeMode.ofCode? (u8 p 11) else some .auto
  let x : ChannelSettings :=
    { fs := u16 p 1, offsetLow := i16 p 3, gainLow := u16 p 5, offsetHigh := i16 p 7, gainHigh := u16 p 9, rangeMode := m,
      hold := u8 p 12 }
  if x.inRange c then return { channel := c, settings := x.fixUnused c } else none

structure ComparatorRequest where
  group : GroupId
  comparator : CompId
  settings : CompSettings
deriving DecidableEq, Repr

/-- SET_COMPARATOR: group, comparator, source, mode, level, filter, trip_armed, freeze_trigger, report; a filter of 0 is taken
as 1 (R129). -/
def comparatorField (p : List Byte) : Option ComparatorRequest := do
  let g ← GroupId.ofNat? (u8 p 0)
  let c ← CompId.ofNat? (u8 p 1)
  let s ← CompSource.ofCode? (u8 p 2)
  let m ← CompMode.ofCode? (u8 p 3)
  let a ← flagField p 6
  let f ← flagField p 7
  let r ← flagField p 8
  return { group := g, comparator := c,
           settings := { source := s, mode := m, level := u8 p 4, filter := max (u8 p 5) 1, tripArmed := a,
                         freezeTrigger := f, report := r } }

/-- SET_ANALYSIS: W, nominal frequency, base minimum, light-load threshold, settle, pairing, digest; settle is clamped to
1,000 (R178, R86). -/
def analysisField (p : List Byte) : Option AnalysisSettings := do
  let w ← WindowLen.ofCycles? (u8 p 0)
  let n ← Nominal.ofHertz? (u8 p 1)
  let g ← Pairing.ofCode? (u8 p 8)
  let x : AnalysisSettings :=
    { window := w, nominal := n, baseMin := u16 p 2, lightLoad := u16 p 4, settle := min (u16 p 6) 1000, pairing := g,
      digest := u8 p 9 }
  if x.inRange then return x else none

/-- A settings group of GET_SETTINGS with its index (R179). -/
inductive SettingsGroup
  | channel (c : ChannelId)
  | analysis
  | weights
  | comparator (g : GroupId) (c : CompId)
  | freeze
  | flagMask
deriving DecidableEq, Repr

def settingsField (p : List Byte) : Option SettingsGroup :=
  match u8 p 0, u8 p 1 with
  | 0, i => (ChannelId.ofNat? i).map .channel
  | 1, 0 => some .analysis
  | 2, 0 => some .weights
  | 3, i => do
    let g ← GroupId.ofNat? (i / 2)
    let c ← CompId.ofNat? (i % 2)
    return .comparator g c
  | 4, 0 => some .freeze
  | 5, 0 => some .flagMask
  | _, _ => none

/-- A counter named by unit kind, index and number (R155). -/
inductive CounterName
  | group (g : GroupId) (k : Fin 12)
  | pair (p : PairId)
  | link (k : Fin 6)
deriving DecidableEq, Repr

def counterField (p : List Byte) : Option CounterName :=
  match u8 p 0 with
  | 0 => do
    let g ← GroupId.ofNat? (u8 p 1)
    if h : u8 p 2 < 12 then return .group g ⟨u8 p 2, h⟩ else none
  | 1 => do
    let q ← PairId.ofNat? (u8 p 1)
    if u8 p 2 = 0 then return .pair q else none
  | 2 => if u8 p 1 = 0 then (if h : u8 p 2 < 6 then some (.link ⟨u8 p 2, h⟩) else none) else none
  | _ => none

end Sys2Proof.Machine
end

