-- ==== Sys2Proof/Machine/RequestRules.lean ====
section
/-! DEFINITION. The rule of each request: what it answers, over the payload and the state at the moment it is handled (R161, test 4
and the chapters' own rules). -/

namespace Sys2Proof.Machine

/-! ### Identity, status and flags (R168, R170) -/

/-- Part code 2480, revision letter B, four groups, thirteen channels (R170). -/
def identifyRule (_ : List Byte) (s : State) : Answer := .replied s 0 (byte2 2480 ++ byte1 0x42 ++ byte1 4 ++ byte1 13)

/-- The trigger record: every field may be absent, and all are when it is empty (R137, R172). -/
def triggerFields (t : Option TriggerRecord) : List Byte :=
  optBytes 1 (t.map fun r => byte1 r.cause.code) ++
    optBytes 1 ((t.bind TriggerRecord.group).map fun g => byte1 g.toNat) ++
    optBytes 1 ((t.bind TriggerRecord.comparator).map fun c => byte1 c.toNat) ++
    optBytes 4 ((t.bind TriggerRecord.window).map word4) ++ optBytes 4 (t.map fun r => word4 r.cycle)

def groupStatus (s : State) (g : GroupId) : List Byte :=
  byte1 (s.gm.groups.get g).state.code ++ byte1 (s.le.verdicts.get g).code ++ [boolByte (s.le.latches.get g)]

/-- The fields of GET_STATUS in the order of R170, those of CR by R143. -/
def statusFields (s : State) : List Byte :=
  byte1 s.mode.code ++ byte1 s.ct.tracker.code ++ byte4 s.ct.frequency ++ word4 s.ct.cycle ++
    GroupId.all.flatMap (groupStatus s) ++
    byte1 s.cr.state.code ++ [boolByte s.cr.releasePending] ++ byte1 s.cr.postCount ++ triggerFields s.cr.trigger ++
    byte2 s.cr.ignored ++ byte2 s.lc.holdCount ++ byte2 s.lc.lost ++ flagBytes s.lc.flags

def getStatusRule (_ : List Byte) (s : State) : Answer := .replied s 0 (statusFields s)

/-- R168: the flags named are cleared, and with REPORT_LOST the lost-report count. -/
def clearFlagsRule (p : List Byte) (s : State) : Answer :=
  match flagSetField p with
  | none => .refused .badValue
  | some set =>
    .replied (s.setLc { s.lc with flags := s.lc.flags &&& ~~~set,
                                  lost := if flagOf set .reportLost then 0 else s.lc.lost })
      0 (flagBytes s.lc.flags)

def setFlagMaskRule (p : List Byte) (s : State) : Answer :=
  match flagSetField p with
  | none => .refused .badValue
  | some set => .replied (s.setLc { s.lc with masks := set }) 0 []

/-! ### Records (R146 to R150) -/

def RecordStore.choose (st : RecordStore α) : RecordChoice → Option α
  | .latest => st.latest
  | .previous => st.previous

/-- The named record, as it stands in its store (R146). -/
inductive AnyRecord
  | group (r : GroupRecord)
  | pair (r : PairRecord)
deriving DecidableEq, Repr

def State.recordOf (s : State) : UnitId → RecordChoice → Option AnyRecord
  | .group g, c => ((s.ae.groupStore.get g).choose c).map .group
  | .pair p, c => ((s.ae.pairStore.get p).choose c).map .pair

def AnyRecord.window : AnyRecord → Word
  | .group r => r.window
  | .pair r => r.window

def AnyRecord.summary : AnyRecord → List Byte
  | .group r => r.summary
  | .pair r => r.summary

def getWindowRule (p : List Byte) (s : State) : Answer :=
  match recordField p with
  | none => .refused .badValue
  | some (u, c) =>
    match s.recordOf u c with
    | none => .refused .notAvailable
    | some r => .replied s 0 r.summary

/-- The amplitudes of a series of a record, and its ratios where they are present (R148). -/
def AnyRecord.series : AnyRecord → Series → Lines × Option Lines
  | .group r, .v => (r.linesV, r.ratiosV)
  | .group r, .ia => (r.linesIA, none)
  | .group r, .ib => (r.linesIB, none)
  | .group r, _ => (r.linesIG, none)
  | .pair r, _ => (r.linesIP, r.ratiosIP)

/-- The count of GET_LINES after its clamps: to 40, then to 51 minus the first order (R148). -/
def linesCount (first count : Nat) : Nat := min (min count 40) (51 - first)

def lineEntries (x : Lines × Option Lines) (first count : Nat) : List Byte :=
  (List.range count).flatMap fun i => lineEntry (atOrder x.1 (first + i)) (x.2.map fun v => atOrder v (first + i))

def getLinesRule (p : List Byte) (s : State) : Answer :=
  match linesField p with
  | none => .refused .badValue
  | some q =>
    match s.recordOf q.unit q.record with
    | none => .refused .notAvailable
    | some r =>
      let x := r.series q.series
      let n := linesCount q.first q.count
      .replied s 0 (word4 r.window ++ byte1 q.first ++ byte1 n ++ [boolByte x.2.isSome] ++ lineEntries x q.first n)

/-- The figures a scan walks over; none where the ratios are absent (R149). -/
def AnyRecord.figures : AnyRecord → Target → Option Lines
  | .group r, .vAmp => some r.linesV
  | .group r, .vRatio => r.ratiosV
  | .group r, .iaAmp => some r.linesIA
  | .group r, .ibAmp => some r.linesIB
  | .group r, .igAmp => some r.linesIG
  | .pair r, .ipAmp => some r.linesIP
  | .pair r, .ipRatio => r.ratiosIP
  | _, _ => none

/-- The truncated count of a scan (R149). -/
def scanCount (d : Direction) (start count : Nat) : Nat :=
  match d with
  | .up => min count (51 - start)
  | .down => min count start

/-- The orders examined, in the order of the walk (R150). -/
def scanOrders (d : Direction) (start count : Nat) : List Nat :=
  match d with
  | .up => (List.range count).map fun i => start + i
  | .down => (List.range count).map fun i => start - i

def scanMeets (sense : Sense) (value figure : Nat) : Bool :=
  match sense with
  | .above => decide (value < figure)
  | .below => decide (figure < value)

/-- The last order examined by a scan that finds nothing (R150). -/
def scanLast (d : Direction) (start count : Nat) : Nat :=
  match d with
  | .up => start + count - 1
  | .down => start + 1 - count

/-- The reply of a scan over figures: FOUND with the order and its figure, or NONE with the number examined and the last order
(R150). The figure takes 4 bytes for every target (log entry 35). -/
def scanReply (window : Word) (v : Lines) (q : ScanRequest) : List Byte :=
  let n := scanCount q.direction q.start q.count
  match (scanOrders q.direction q.start n).find? fun o => scanMeets q.sense q.value (atOrder v o) with
  | some o => byte1 1 ++ word4 window ++ byte1 o ++ byte4 (atOrder v o)
  | none => byte1 0 ++ word4 window ++ byte1 n ++ byte1 (scanLast q.direction q.start n)

def scanLinesRule (p : List Byte) (s : State) : Answer :=
  match scanField p with
  | none => .refused .badValue
  | some q =>
    match s.recordOf q.unit q.record with
    | none => .refused .notAvailable
    | some r =>
      match r.figures q.target with
      | none => .refused .notAvailable
      | some v => .replied s 0 (scanReply r.window v q)

/-! ### The capture ring (R136, R140, R141, R144) -/

/-- The count of READ_SAMPLES after its clamps: to 56, to 120 minus the first index, to the samples written (R144). -/
def samplesCount (written first count : Nat) : Nat := min (min (min count 56) (120 - first)) (written - first)

/-- READ_SAMPLES (R144). A sample takes 4 bytes on every channel, those whose span would fit 2 bytes too, which is the model's reading of
R172 (log entry 35). -/
def readSamplesRule (p : List Byte) (s : State) : Answer :=
  match samplesField p with
  | none => .refused .badValue
  | some q =>
    match s.cr.find q.cycle with
    | none => .refused .notAvailable
    | some slot =>
      let c := slot.channels.get q.channel
      if c.samples.length ≤ q.first then .refused .notAvailable
      else
        let n := samplesCount c.samples.length q.first q.count
        .replied s 0 (byte1 q.channel.toNat ++ word4 q.cycle ++ byte1 q.first ++ byte1 n ++ [boolByte c.marks.clip] ++
          [boolByte c.marks.held] ++ ((c.samples.drop q.first).take n).flatMap signed4)

def setFreezeRule (p : List Byte) (s : State) : Answer :=
  match freezeField p with
  | none => .refused .badValue
  | some f =>
    .replied (s.setSs { s.ss with working := { s.ss.working with freeze := f } }) 0 (byte1 f.postCycles)

def forceFreezeRule (_ : List Byte) (s : State) : Answer :=
  .replied (s.offerTrigger { cause := .force, group := none, comparator := none, window := none, cycle := s.ct.cycle })
    0 (byte1 (if s.cr.state = .running then 0 else 1))

def releaseFreezeRule (_ : List Byte) (s : State) : Answer :=
  .replied (if s.cr.state = .running then s else s.setCr { s.cr with releasePending := true })
    0 (triggerFields s.cr.trigger ++ byte2 s.cr.ignored)

/-! ### The limit table (R99 to R101) -/

def State.stageLimit (s : State) (k : Fin 48) (e : LimitEdit) : State :=
  s.setSs { s.ss with staged := { s.ss.staged with limits := s.ss.staged.limits.set k (some e) } }

def setLimitRule (p : List Byte) (s : State) : Answer :=
  match limitField p with
  | none => .refused .badValue
  | some (k, e) => .replied (s.stageLimit k (.replace e)) 0 []

/-- The slot in the prospective table (R100). -/
def State.prospectiveSlot (s : State) (k : Fin 48) : Option LimitEntry :=
  LimitEdit.apply s.ss.staged.limits[k] s.ss.working.limits[k]

def deleteLimitRule (p : List Byte) (s : State) : Answer :=
  match slotField p with
  | none => .refused .badValue
  | some k => if (s.prospectiveSlot k).isNone then .refused .notAvailable else .replied (s.stageLimit k .delete) 0 []

/-- The fields of an entry, each with its presence byte, all absent for an empty slot (R101, R172). -/
def entryFields (e : Option LimitEntry) : List Byte :=
  optBytes 1 (e.map fun x => byte1 x.scope.kindCode) ++ optBytes 1 (e.map fun x => byte1 x.scope.valueCode) ++
    optBytes 1 (e.map fun x => byte1 x.quantity.code) ++ optBytes 1 (e.map fun x => [x.bridge]) ++
    optBytes 1 (e.map fun x => [x.first]) ++ optBytes 1 (e.map fun x => [x.last]) ++
    optBytes 1 (e.map fun x => byte1 x.sense.code) ++ optBytes 4 (e.map fun x => signed4 x.limit) ++
    optBytes 4 (e.map fun x => signed4 x.release) ++ optBytes 1 (e.map fun x => byte1 x.onCount) ++
    optBytes 1 (e.map fun x => byte1 x.offCount) ++ optBytes 1 (e.map fun x => byte1 x.severity.code)

/-- The staged edit of a slot: NONE 0, REPLACE 1, DELETE 2 (R177). -/
def editCode : Option LimitEdit → Nat
  | none => 0
  | some (.replace _) => 1
  | some .delete => 2

def recordFields (ur : UnitId × CondRecord) : List Byte := byte1 ur.2.state.code ++ byte1 ur.2.count

def getLimitRule (p : List Byte) (s : State) : Answer :=
  match slotField p with
  | none => .refused .badValue
  | some k =>
    let e := s.ss.working.limits[k]
    .replied s 0 ([boolByte e.isSome] ++ entryFields e ++ byte1 (editCode s.ss.staged.limits[k]) ++
      (if e.isSome then s.le.records[k].flatMap recordFields else []))

/-! ### Staged settings (R7, R14, R74, R178) -/

/-- The block of SET_WEIGHTS: each weight with its order's index, before the clamp (R74). -/
def weightAt (p : List Byte) (first count : Nat) (i : Nat) : Option Nat :=
  if first ≤ i + 1 ∧ i + 1 < first + count then some (u16 p (2 + 2 * (i + 1 - first))) else none

def clampedCount (p : List Byte) (count : Nat) : Nat :=
  ((List.range count).filter fun i => decide (1024 < u16 p (2 + 2 * i))).length

def setWeightsRule (p : List Byte) (s : State) : Answer :=
  let first := u8 p 0
  let count := u8 p 1
  if first < 1 ∨ 50 < first ∨ count < 1 ∨ 50 < count ∨ 50 < first + count - 1 then .refused .badValue
  else if (p.length - 2) / 2 ≠ count then .refused .badLength
  else
    .replied
      (s.setSs { s.ss with staged := { s.ss.staged with
        weights := Vector.ofFn fun i => match weightAt p first count i.val with
          | some w => some (min w 1024)
          | none => s.ss.staged.weights[i] } })
      0 (byte1 (clampedCount p count))

/-- The prospective FS of a channel (R7). -/
def SettingsStore.prospectiveFs (x : SettingsStore) (c : ChannelId) : Nat :=
  (x.staged.channels.get c).fs.getD (x.working.channels.get c).fs

/-- The prospective pairing setting (R7). -/
def SettingsStore.prospectivePairing (x : SettingsStore) : Pairing :=
  (x.staged.analysis.getD x.working.analysis).pairing

/-- The channels that take the FS written for one channel (R7). -/
def SettingsStore.sharesFs (x : SettingsStore) (named c : ChannelId) : Bool :=
  let together (g h : GroupId) : Bool := decide (g = h) || (decide (g.pair = h.pair) && x.prospectivePairing.paired g.pair)
  match named, c with
  | .ia g, .ia h => together g h
  | .ia g, .ib h => together g h
  | .ib g, .ia h => together g h
  | .ib g, .ib h => together g h
  | _, _ => decide (named = c)

/-- Every field of SET_CHANNEL staged for the named channel: for one without a HIGH range, only those R14 examines. -/
def stageFields (c : ChannelId) (x : ChannelSettings) (old : StagedChannel) : StagedChannel :=
  if c.isCurrent then
    { fs := some x.fs, offsetLow := some x.offsetLow, gainLow := some x.gainLow, offsetHigh := some x.offsetHigh,
      gainHigh := some x.gainHigh, rangeMode := some x.rangeMode, hold := some x.hold }
  else { old with fs := some x.fs, offsetLow := some x.offsetLow, gainLow := some x.gainLow }

/-- The staging of SET_CHANNEL (R7, R14). -/
def SettingsStore.stageChannel (x : SettingsStore) (q : ChannelRequest) : SettingsStore :=
  { x with staged := { x.staged with
      channels := PerChannel.ofFn fun c =>
        let old := x.staged.channels.get c
        if c = q.channel then stageFields c q.settings old
        else if x.sharesFs q.channel c then { old with fs := some q.settings.fs } else old } }

def setChannelRule (p : List Byte) (s : State) : Answer :=
  match channelField p with
  | none => .refused .badValue
  | some q => .replied (s.setSs (s.ss.stageChannel q)) 0 []

/-- The current channels of the pair share one prospective FS (R7). -/
def SettingsStore.pairFsAgrees (x : SettingsStore) (p : PairId) : Bool :=
  [ChannelId.ib p.first, .ia p.second, .ib p.second].all fun c =>
    decide (x.prospectiveFs c = x.prospectiveFs (.ia p.first))

/-- SET_ANALYSIS (R178), refused when it would make a pair paired whose prospective current FS differ (R7, R87). Every pair that is paired under
the pairing sent is tested, one that is paired already too, which is the model's choice (log entry 39). -/
def setAnalysisRule (p : List Byte) (s : State) : Answer :=
  match analysisField p with
  | none => .refused .badValue
  | some x =>
    if PairId.all.any fun q => x.pairing.paired q && !s.ss.pairFsAgrees q then .refused .badValue
    else
      .replied (s.setSs { s.ss with staged := { s.ss.staged with analysis := some x } }) 0 (byte2 x.settle)

/-! ### Comparators (R129, R130) -/

def setComparatorRule (p : List Byte) (s : State) : Answer :=
  match comparatorField p with
  | none => .refused .badValue
  | some q =>
    let was := (s.fc.get q.group q.comparator).active
    let cs := s.ss.working.comparators
    .replied
      ((s.setSs { s.ss with working := { s.ss.working with
          comparators := cs.set q.group ((cs.get q.group).setComp q.comparator q.settings) } }).setFc
        (s.fc.set q.group q.comparator { active := false, run := 0 }))
      0 [boolByte was]

/-! ### Reading settings (R17, R131, R179) -/

def rangeFields (s : State) : ChannelId → List Byte
  | .ia g => byte1 (s.fe.ia.get g).range.code ++ byte1 (s.fe.ia.get g).hold
  | .ib g => byte1 (s.fe.ib.get g).range.code ++ byte1 (s.fe.ib.get g).hold
  | _ => []

def channelFields (c : ChannelId) (x : ChannelSettings) : List Byte :=
  byte1 c.toNat ++ byte2 x.fs ++ beBytesInt 2 x.offsetLow ++ byte2 x.gainLow ++ beBytesInt 2 x.offsetHigh ++
    byte2 x.gainHigh ++ byte1 x.rangeMode.code ++ byte1 x.hold

def analysisFields (x : AnalysisSettings) : List Byte :=
  byte1 x.window.cycles ++ byte1 x.nominal.hertz ++ byte2 x.baseMin ++ byte2 x.lightLoad ++ byte2 x.settle ++
    byte1 x.pairing.code ++ byte1 x.digest

def comparatorFields (g : GroupId) (c : CompId) (x : CompSettings) : List Byte :=
  byte1 g.toNat ++ byte1 c.toNat ++ byte1 x.source.code ++ byte1 x.mode.code ++ byte1 x.level ++ byte1 x.filter ++
    [boolByte x.tripArmed, boolByte x.freezeTrigger, boolByte x.report]

def freezeFields (x : FreezeSetup) : List Byte :=
  byte2 x.postCycles ++ [boolByte x.verdictAlarm, boolByte x.verdictTrip, boolByte x.comparator]

/-- The pending flag and the fields of a settings group (R179), with what R17 and R131 add. -/
def settingsFields (s : State) : SettingsGroup → Bool × List Byte
  | .channel c => (!(s.ss.staged.channels.get c).isEmpty, channelFields c (s.ss.working.channels.get c) ++ rangeFields s c)
  | .analysis => (s.ss.staged.analysis.isSome, analysisFields s.ss.working.analysis)
  | .weights => (s.ss.staged.weights.toList.any Option.isSome, s.ss.working.weights.toList.flatMap byte2)
  | .comparator g c =>
    (false, comparatorFields g c (s.ss.working.comparator g c) ++ [boolByte (s.fc.get g c).active] ++
      byte1 (s.fc.get g c).run)
  | .freeze => (false, freezeFields s.ss.working.freeze)
  | .flagMask => (false, flagBytes s.lc.masks)

def getSettingsRule (p : List Byte) (s : State) : Answer :=
  match settingsField p with
  | none => .refused .badValue
  | some q =>
    let a := settingsFields s q
    .replied s 0 (p.take 2 ++ [boolByte a.1] ++ a.2)

/-! ### Counters (R154, R155) -/

/-- Every counter of the part, in the order of R154. -/
def counterFields (s : State) : List Byte :=
  GroupId.all.flatMap (fun g => (s.st.groups.get g).toList.flatMap word4) ++ word4 s.st.pairs.fst ++ word4 s.st.pairs.snd ++
    s.lc.counters.toList.flatMap word4

def getCountersRule (_ : List Byte) (s : State) : Answer := .replied s 0 (counterFields s)

def State.counter (s : State) : CounterName → Word
  | .group g k => (s.st.groups.get g)[k]
  | .pair p => s.st.pairs.get p
  | .link k => s.lc.counters[k]

def State.setCounter (s : State) (w : Word) : CounterName → State
  | .group g k => s.setSt { s.st with groups := s.st.groups.set g ((s.st.groups.get g).set k w) }
  | .pair p => s.setSt { s.st with pairs := s.st.pairs.set p w }
  | .link k => s.setLc { s.lc with counters := s.lc.counters.set k w }

def setCounterRule (p : List Byte) (s : State) : Answer :=
  match counterField p with
  | none => .refused .badValue
  | some c => .replied (s.setCounter (BitVec.ofNat 32 (u32 p 3)) c) 0 (word4 (s.counter c))

/-! ### CLEAR_TRIP (R115) -/

/-- A standing record of TRIP severity applies to the group (R115). -/
def State.tripStands (s : State) (g : GroupId) : Bool := (s.standing g).any fun x => decide (x.severity = .trip)

/-- A comparator of the group that is armed for tripping has its filtered output active (R115). -/
def State.armedActive (s : State) (g : GroupId) : Bool :=
  CompId.all.any fun c => (s.ss.working.comparator g c).tripArmed && (s.fc.get g c).active

def clearTripRule (p : List Byte) (s : State) : Answer :=
  match GroupId.ofNat? (u8 p 0) with
  | none => .refused .badValue
  | some g =>
    if s.tripStands g || s.armedActive g then .refused .causePresent
    else .replied (s.setLe (s.le.setLatch s.mode g false)) 0 []

/-! ### Holds, sync points, store, restart, maintenance (R162, R165, R181, R182, R184, R185) -/

def holdReportsRule (p : List Byte) (s : State) : Answer :=
  .replied (s.setLc { s.lc with holdCount := u16 p 0 }) 0 (byte2 s.lc.holdCount)

def syncPointRule (_ : List Byte) (s : State) : Answer :=
  if s.lc.sync.isSome then .refused .busy
  else .deferred (s.setLc { s.lc with sync := some { analysis := none, limit := none } })

/-- The snapshot is taken and the erase begins, so the image is not loadable (R181). -/
def storeSettingsRule (_ : List Byte) (s : State) : Answer :=
  if s.ss.flight.isSome then .refused .busy
  else .deferred (s.setSs { s.ss with image := .torn, flight := some (.store (s.ss.working.prospective s.ss.staged)) })

def checkSettingsRule (_ : List Byte) (s : State) : Answer :=
  if s.ss.flight.isSome then .refused .busy
  else .deferred (s.setSs { s.ss with flight := some .check })

def restartRule (_ : List Byte) (s : State) : Answer :=
  if s.ss.flight.isSome then .refused .busy else .replied s 0 []

def leaveMaintenanceRule (_ : List Byte) (s : State) : Answer := .replied (s.setMode .normal) 0 []

end Sys2Proof.Machine
end

