-- ==== Sys2Proof/Machine/Requests.lean ====
section
/-! DEFINITION. The meanings of the service link's commands: characters, the gap timer, the transmitter, the requests, the
completions of SS and the carrying out of a restart. -/

namespace Sys2Proof.Machine

/-! ### The line -/

/-- LINK_CHARACTER (R158). A missing stop bit changes nothing in the handling of its character. -/
def execLinkCharacter (elapsed : Nat) (character : Byte) (_stopBit : Bool) (s : State) : Result :=
  whenRunning s (s.receiveCharacter elapsed character)

/-- GAP_TIMEOUT (R158). -/
def execGapTimeout (s : State) : Result := whenDue s s.lc.collecting s.gapStep

/-- FRAME_ACCEPTED: the character that completes a good frame (R158, R159). -/
def execFrameAccepted (elapsed : Nat) (character : Byte) (_stopBit : Bool) (s : State) : Result :=
  whenDue s (s.completesFrame elapsed character) (s.receiveCharacter elapsed character)

/-- NON_REQUEST_KIND: the handling of an entry whose kind is no request kind (R161, test 1). -/
def execNonRequestKind (s : State) : Result :=
  match s.nextRequest with
  | some request => whenDue s (!isRequestKind request.kind) (s.answer request (.refused .unknownKind))
  | none => .next s

/-- TRANSMIT_START (R163). -/
def execTransmitStart (s : State) : Result :=
  whenDue s (s.lc.mayTransmit && s.lc.hasFrame) (s.setLc s.lc.transmit)

/-- FRAME_SENT (R160, R171). -/
def execFrameSent (s : State) : Result := whenDue s s.lc.sending.isSome (s.setLc s.lc.sent)

/-! ### The requests -/

/-- IDENTIFY (R170). -/
def execIdentify (s : State) : Result := handle 0x01 identifyRule s
/-- GET_STATUS (R170). -/
def execGetStatus (s : State) : Result := handle 0x02 getStatusRule s
/-- CLEAR_FLAGS (R168). -/
def execClearFlags (s : State) : Result := handle 0x03 clearFlagsRule s
/-- SET_FLAG_MASK (R168). -/
def execSetFlagMask (s : State) : Result := handle 0x04 setFlagMaskRule s
/-- GET_WINDOW (R147). -/
def execGetWindow (s : State) : Result := handle 0x05 getWindowRule s
/-- GET_LINES (R148). -/
def execGetLines (s : State) : Result := handle 0x06 getLinesRule s
/-- SCAN_LINES (R149, R150). -/
def execScanLines (s : State) : Result := handle 0x07 scanLinesRule s
/-- READ_SAMPLES (R144). -/
def execReadSamples (s : State) : Result := handle 0x08 readSamplesRule s
/-- SET_FREEZE (R136). -/
def execSetFreeze (s : State) : Result := handle 0x09 setFreezeRule s
/-- FORCE_FREEZE (R140). -/
def execForceFreeze (s : State) : Result := handle 0x0A forceFreezeRule s
/-- RELEASE_FREEZE (R141). -/
def execReleaseFreeze (s : State) : Result := handle 0x0B releaseFreezeRule s
/-- SET_LIMIT (R99). -/
def execSetLimit (s : State) : Result := handle 0x0C setLimitRule s
/-- GET_LIMIT (R101). -/
def execGetLimit (s : State) : Result := handle 0x0D getLimitRule s
/-- DELETE_LIMIT (R100). -/
def execDeleteLimit (s : State) : Result := handle 0x0E deleteLimitRule s
/-- SET_WEIGHTS (R74). -/
def execSetWeights (s : State) : Result := handle 0x0F setWeightsRule s
/-- SET_CHANNEL (R14). -/
def execSetChannel (s : State) : Result := handle 0x10 setChannelRule s
/-- SET_COMPARATOR (R129). -/
def execSetComparator (s : State) : Result := handle 0x11 setComparatorRule s
/-- SET_ANALYSIS (R178). -/
def execSetAnalysis (s : State) : Result := handle 0x12 setAnalysisRule s
/-- GET_SETTINGS (R179). -/
def execGetSettings (s : State) : Result := handle 0x13 getSettingsRule s
/-- GET_COUNTERS (R154). -/
def execGetCounters (s : State) : Result := handle 0x14 getCountersRule s
/-- SET_COUNTER (R155). -/
def execSetCounter (s : State) : Result := handle 0x15 setCounterRule s
/-- CLEAR_TRIP (R115). -/
def execClearTrip (s : State) : Result := handle 0x16 clearTripRule s
/-- HOLD_REPORTS (R165). -/
def execHoldReports (s : State) : Result := handle 0x17 holdReportsRule s
/-- SYNC_POINT (R162). -/
def execSyncPoint (s : State) : Result := handle 0x18 syncPointRule s
/-- STORE_SETTINGS (R181). -/
def execStoreSettings (s : State) : Result := handle 0x19 storeSettingsRule s
/-- CHECK_SETTINGS (R182). -/
def execCheckSettings (s : State) : Result := handle 0x1A checkSettingsRule s
/-- RESTART (R171, R185). -/
def execRestart (s : State) : Result := handle 0x1B restartRule s
/-- LEAVE_MAINTENANCE (R184). -/
def execLeaveMaintenance (s : State) : Result := handle 0x1C leaveMaintenanceRule s

/-! ### Completions and the restart -/

/-- STORE_COMPLETION (R181). -/
def execStoreCompletion (readBack : StoredImage) (s : State) : Result := whenDue s s.storing (s.completeStore readBack)

/-- CHECK_COMPLETION (R182). -/
def execCheckCompletion (s : State) : Result := whenDue s s.checking s.completeCheck

/-- RESTART_EXECUTION (R171, R185). -/
def execRestartExecution (s : State) : Result := whenDue s s.lc.restartDue s.restartStep

end Sys2Proof.Machine
end

