-- ==== Sys2Proof/Machine/Dispatch.lean ====
section
/-! DEFINITION. The one dispatch of commands to their meanings. -/

namespace Sys2Proof.Machine

def exec (i : Instr) (s : State) : Host.Outcome State Fault Refusal :=
  match i with
  | .reset written => Sys2Proof.Machine.execReset written s
  | .resetRelease strap reference => Sys2Proof.Machine.execResetRelease strap reference s
  | .referencePolarityChange elapsed polarity => Sys2Proof.Machine.execReferencePolarityChange elapsed polarity s
  | .polarityConfirmed => Sys2Proof.Machine.execPolarityConfirmed s
  | .lockAchieved => Sys2Proof.Machine.execLockAchieved s
  | .missTimer => Sys2Proof.Machine.execMissTimer s
  | .holdoverEntry kind => Sys2Proof.Machine.execHoldoverEntry kind s
  | .relock => Sys2Proof.Machine.execRelock s
  | .holdoverLimit inputs => Sys2Proof.Machine.execHoldoverLimit inputs s
  | .sampleEvent raw => Sys2Proof.Machine.execSampleEvent raw s
  | .holdEnd c raw => Sys2Proof.Machine.execHoldEnd c raw s
  | .filteredOutputChange g c raw => Sys2Proof.Machine.execFilteredOutputChange g c raw s
  | .cycleBoundary inputs => Sys2Proof.Machine.execCycleBoundary inputs s
  | .inputClosed g inputs => Sys2Proof.Machine.execInputClosed g inputs s
  | .inputOpen g inputs => Sys2Proof.Machine.execInputOpen g inputs s
  | .settleCountExpiry g inputs => Sys2Proof.Machine.execSettleCountExpiry g inputs s
  | .ringFrozen inputs => Sys2Proof.Machine.execRingFrozen inputs s
  | .reportHoldEnd inputs => Sys2Proof.Machine.execReportHoldEnd inputs s
  | .windowBoundary inputs => Sys2Proof.Machine.execWindowBoundary inputs s
  | .jobStart => Sys2Proof.Machine.execJobStart s
  | .jobCompletion => Sys2Proof.Machine.execJobCompletion s
  | .evaluationPass => Sys2Proof.Machine.execEvaluationPass s
  | .linkCharacter elapsed character stopBit => Sys2Proof.Machine.execLinkCharacter elapsed character stopBit s
  | .gapTimeout => Sys2Proof.Machine.execGapTimeout s
  | .frameAccepted elapsed character stopBit => Sys2Proof.Machine.execFrameAccepted elapsed character stopBit s
  | .nonRequestKind => Sys2Proof.Machine.execNonRequestKind s
  | .transmitStart => Sys2Proof.Machine.execTransmitStart s
  | .frameSent => Sys2Proof.Machine.execFrameSent s
  | .identify => Sys2Proof.Machine.execIdentify s
  | .getStatus => Sys2Proof.Machine.execGetStatus s
  | .clearFlags => Sys2Proof.Machine.execClearFlags s
  | .setFlagMask => Sys2Proof.Machine.execSetFlagMask s
  | .getWindow => Sys2Proof.Machine.execGetWindow s
  | .getLines => Sys2Proof.Machine.execGetLines s
  | .scanLines => Sys2Proof.Machine.execScanLines s
  | .readSamples => Sys2Proof.Machine.execReadSamples s
  | .setFreeze => Sys2Proof.Machine.execSetFreeze s
  | .forceFreeze => Sys2Proof.Machine.execForceFreeze s
  | .releaseFreeze => Sys2Proof.Machine.execReleaseFreeze s
  | .setLimit => Sys2Proof.Machine.execSetLimit s
  | .getLimit => Sys2Proof.Machine.execGetLimit s
  | .deleteLimit => Sys2Proof.Machine.execDeleteLimit s
  | .setWeights => Sys2Proof.Machine.execSetWeights s
  | .setChannel => Sys2Proof.Machine.execSetChannel s
  | .setComparator => Sys2Proof.Machine.execSetComparator s
  | .setAnalysis => Sys2Proof.Machine.execSetAnalysis s
  | .getSettings => Sys2Proof.Machine.execGetSettings s
  | .getCounters => Sys2Proof.Machine.execGetCounters s
  | .setCounter => Sys2Proof.Machine.execSetCounter s
  | .clearTrip => Sys2Proof.Machine.execClearTrip s
  | .holdReports => Sys2Proof.Machine.execHoldReports s
  | .syncPoint => Sys2Proof.Machine.execSyncPoint s
  | .storeSettings => Sys2Proof.Machine.execStoreSettings s
  | .storeCompletion readBack => Sys2Proof.Machine.execStoreCompletion readBack s
  | .checkSettings => Sys2Proof.Machine.execCheckSettings s
  | .checkCompletion => Sys2Proof.Machine.execCheckCompletion s
  | .restart => Sys2Proof.Machine.execRestart s
  | .restartExecution => Sys2Proof.Machine.execRestartExecution s
  | .leaveMaintenance => Sys2Proof.Machine.execLeaveMaintenance s

end Sys2Proof.Machine
end

