-- ==== Sys2Proof/Safety.lean ====
section
/-! DEFINITION. What holds of the part in every state a run reaches: the invariants that the statements about every step use. Each
is written in the manual's terms, beside the rule it comes from. -/

namespace Sys2Proof.Safety

open Sys2Proof.Machine

/-! ### Discrete lines -/

/-- A trip line is active exactly while its latch is set (R114), and the alert line is the line of R116. -/
structure OutputsFollow (s : State) : Prop where
  tripLine : ∀ g, s.le.tripLines.get g = s.le.latches.get g
  alert : s.le.alert = true ↔
    s.mode = .normal ∧
      ((∃ g, s.le.verdicts.get g = .alarm ∨ s.le.verdicts.get g = .trip) ∨ ∃ g, s.le.latches.get g = true)

/-! ### Maintenance -/

/-- What R38, R94, R118, R132 and R145 hold still while the part is in MAINTENANCE. -/
structure Quiet (s : State) : Prop where
  clock : s.ae.clock = none
  groupSets : ∀ g, s.ae.groupSets.get g = none
  pairSets : ∀ p, s.ae.pairSets.get p = none
  groupSlots : ∀ g, s.ae.groupSlots.get g = .empty
  pairSlots : ∀ p, s.ae.pairSlots.get p = .empty
  passes : s.ae.passes = []
  groups : ∀ g, (s.gm.groups.get g).state = .out
  pairs : ∀ p, s.gm.pairs.get p = .broken
  records : ∀ (k : Fin 48), ∀ ur ∈ s.le.records[k], ur.2 = CondRecord.clear
  verdicts : ∀ g, s.le.verdicts.get g = .normal
  latches : ∀ g, s.le.latches.get g = false
  comparators : ∀ g c, s.fc.get g c = { active := false, run := 0 }
  freeze : s.cr.state = .running
  trigger : s.cr.trigger = none
  ignored : s.cr.ignored = 0
  release : s.cr.releasePending = false

/-- A part in MAINTENANCE is quiet. -/
def MaintenanceQuiet (s : State) : Prop := s.mode = .maintenance → Quiet s

/-! ### Verdicts and condition records -/

/-- A unit is judged: a group in MONITOR, a pair INTACT (R93). -/
def Watched (s : State) : UnitId → Prop
  | .group g => (s.gm.groups.get g).state = .monitor
  | .pair p => s.gm.pairs.get p = .intact

/-- The records of a unit apply to a group: its own, and its pair's (R111). -/
def AppliesTo (g : GroupId) : UnitId → Prop
  | .group h => h = g
  | .pair p => p = g.pair

/-- A standing record of an entry of this severity applies to the group (R104, R111). -/
def StandsFor (s : State) (g : GroupId) (severity : Severity) : Prop :=
  ∃ (k : Fin 48) (e : LimitEntry) (u : UnitId) (r : CondRecord),
    s.ss.working.limits[k] = some e ∧ (u, r) ∈ s.le.records[k] ∧ AppliesTo g u ∧
      (r.state = .active ∨ r.state = .pendingOff) ∧ e.severity = severity

/-- A record's count by its state (R104). -/
def CountFits (e : LimitEntry) (r : CondRecord) : Prop :=
  match r.state with
  | .clear => r.count = 0
  | .pendingOn => 1 ≤ r.count ∧ r.count + 1 ≤ e.onCount
  | .active => r.count = 0
  | .pendingOff => 1 ≤ r.count ∧ r.count + 1 ≤ e.offCount

/-- The records stand in the shape of their table, a unit that is not watched has only CLEAR records, and each verdict is the highest
severity that stands for its group (R104, R111). -/
structure VerdictsSupported (s : State) : Prop where
  units : ∀ (k : Fin 48), s.le.records[k].map Prod.fst =
    (match s.ss.working.limits[k] with
     | some e => e.scope.units
     | none => [])
  counts : ∀ (k : Fin 48) (e : LimitEntry), s.ss.working.limits[k] = some e → ∀ ur ∈ s.le.records[k], CountFits e ur.2
  unwatched : ∀ (k : Fin 48), ∀ ur ∈ s.le.records[k], ¬ Watched s ur.1 → ur.2 = CondRecord.clear
  pairs : ∀ p, s.gm.pairs.get p = .intact ↔
    s.ss.working.analysis.pairing.paired p = true ∧ (s.gm.groups.get p.first).state = .monitor ∧
      (s.gm.groups.get p.second).state = .monitor
  verdict : ∀ g severity, s.le.verdicts.get g = Severity.verdict severity ↔
    StandsFor s g severity ∧ ∀ other, StandsFor s g other → other.code ≤ severity.code
  normal : ∀ g, s.le.verdicts.get g = .normal ↔ ∀ severity, ¬ StandsFor s g severity

/-- A group whose verdict is TRIP has its latch set (R113, the note that follows it). -/
def TripLatched (s : State) : Prop := ∀ g, s.le.verdicts.get g = .trip → s.le.latches.get g = true

/-- The four judged together: what every step keeps of LE and of the outputs. -/
structure Judged (s : State) : Prop where
  outputs : OutputsFollow s
  quiet : MaintenanceQuiet s
  verdicts : VerdictsSupported s
  latched : TripLatched s

/-! ### Cycle tracker -/

/-- The tracker's counts and the length of the cycle in progress (R22, R25, R26, R28, R29). -/
structure TrackerInBounds (s : State) : Prop where
  issued : s.ct.issued ≤ 120
  shortest : 150001 ≤ s.ct.length
  longest : s.ct.length ≤ 240475
  misses : s.ct.missCount ≤ 2
  runs : s.ct.runCount ≤ 3
  holdover : s.ct.holdoverCycles ≤ 50
  holdoverBelow : s.ct.tracker = .holdover → s.ct.holdoverCycles ≤ 49
  accepted : ∀ p, s.ct.accepted = some p → 151516 ≤ p ∧ p ≤ 238095
  known : s.ct.tracker = .locked ∨ s.ct.tracker = .holdover → s.ct.accepted.isSome = true
  timer : s.ct.missTimer.isSome = true ↔ s.ct.tracker = .locked

/-! ### Windows, sets and jobs -/

/-- The finishing slots that are RUNNING (R49, R50). -/
def runningSlots (a : AnalysisEngine) : Nat :=
  ([a.groupSlots.g0, a.groupSlots.g1, a.groupSlots.g2, a.groupSlots.g3].filter JobSlot.isRunning).length +
    ([a.pairSlots.fst, a.pairSlots.snd].filter JobSlot.isRunning).length

/-- Sets are open only for watched units and only while the clock runs, a window in progress has cycles left, and the arithmetic unit runs
at most one job (R38, R40, R45, R50). -/
structure EngineConsistent (s : State) : Prop where
  groupSets : ∀ g, (s.ae.groupSets.get g).isSome = true →
    s.ae.clock.isSome = true ∧ (s.gm.groups.get g).state = .monitor
  pairSets : ∀ p, (s.ae.pairSets.get p).isSome = true → s.ae.clock.isSome = true ∧ s.gm.pairs.get p = .intact
  completed : ∀ w, s.ae.clock = some w → w.completed + 1 ≤ w.length.cycles
  number : ∀ w, s.ae.clock = some w → w.window = s.ae.counter
  pairs : ∀ p, s.gm.pairs.get p = .intact →
    s.ss.working.analysis.pairing.paired p = true ∧ (s.gm.groups.get p.first).state = .monitor ∧
      (s.gm.groups.get p.second).state = .monitor
  unit : runningSlots s.ae ≤ 1

/-! ### Capture ring -/

/-- Unless FROZEN, the current slot is tagged with the cycle in progress and holds one sample of each channel for each sample event issued
(R134, R135); the POST count and the ignored count keep their ranges (R136, R139). -/
structure RingFollows (s : State) : Prop where
  issued : s.ct.issued ≤ 120
  tag : s.cr.state ≠ .frozen → s.cr.slots[s.cr.current].tag = some s.ct.cycle
  written : s.cr.state ≠ .frozen →
    ∀ c, ((s.cr.slots[s.cr.current].channels.get c).samples).length = s.ct.issued
  post : s.cr.postCount ≤ 15
  ignored : s.cr.ignored ≤ 65535
  trigger : s.cr.state = .running ↔ s.cr.trigger = none
  setup : s.ss.working.freeze.postCycles ≤ 15

/-! ### Link -/

/-- The pending list, the report queue and the counts of LC keep their sizes (R158, R160, R164, R165). -/
structure LinkInBounds (s : State) : Prop where
  entries : s.lc.entries.length ≤ 4
  queue : s.lc.queue.length ≤ 64
  hold : s.lc.holdCount ≤ 65535
  lost : s.lc.lost ≤ 65535
  body : ∀ n got, s.lc.receiver = .body n got → 2 ≤ n ∧ n ≤ 250 ∧ got.length + 1 ≤ n
  check : ∀ n got high, s.lc.receiver = .check n got high → 2 ≤ n ∧ n ≤ 250 ∧ got.length = n
  gap : s.lc.gapFrom.isSome = true ↔ s.lc.receiver ≠ .hunt

/-! ### Settings -/

/-- The staged values of one channel lie in the ranges that R14 examines; one without a HIGH range has none of the last four staged. -/
structure StagedInRange (c : ChannelId) (x : StagedChannel) : Prop where
  fs : ∀ v, x.fs = some v → 1000 ≤ v ∧ v ≤ 65535
  low : ∀ v, x.offsetLow = some v → -2048 ≤ v ∧ v ≤ 2047
  gainLow : ∀ v, x.gainLow = some v → 16384 ≤ v ∧ v ≤ 49151
  high : ∀ v, x.offsetHigh = some v → c.isCurrent = true ∧ -2048 ≤ v ∧ v ≤ 2047
  gainHigh : ∀ v, x.gainHigh = some v → c.isCurrent = true ∧ 16384 ≤ v ∧ v ≤ 49151
  mode : ∀ v, x.rangeMode = some v → c.isCurrent = true ∧ v.known = true
  hold : ∀ v, x.hold = some v → c.isCurrent = true ∧ 1 ≤ v ∧ v ≤ 60

/-- The working settings lie in their working ranges (R180), everything staged would keep them there, and the counts that run against a
setting stay within it (R8, R121). -/
structure SettingsInRange (s : State) : Prop where
  working : s.ss.working.inRange = true
  channels : ∀ c, StagedInRange c (s.ss.staged.channels.get c)
  analysis : ∀ x, s.ss.staged.analysis = some x → x.inRange = true
  weights : ∀ (i : Fin 50) w, s.ss.staged.weights[i] = some w → w ≤ 1024
  limits : ∀ (k : Fin 48) e, s.ss.staged.limits[k] = some (.replace e) → e.valid = true ∧ e.fits = true
  filters : ∀ g c, (s.fc.get g c).run + 1 ≤ (s.ss.working.comparator g c).filter
  holds : ∀ g, (s.fe.ia.get g).hold ≤ 60 ∧ (s.fe.ib.get g).hold ≤ 60

/-- The current channels that R7 ties share one FS, under these FS values and this pairing. -/
def FsShared (fs : ChannelId → Nat) (pairing : Pairing) : Prop :=
  (∀ g, fs (.ia g) = fs (.ib g)) ∧ ∀ p, pairing.paired p = true → fs (.ia p.first) = fs (.ia p.second)

/-- R7's closing sentence: the tied channels agree in the working settings and in the prospective ones. -/
structure FsAgrees (s : State) : Prop where
  working : FsShared (fun c => (s.ss.working.channels.get c).fs) s.ss.working.analysis.pairing
  prospective : FsShared s.ss.prospectiveFs s.ss.prospectivePairing

/-! ### Statistics -/

/-- The seven RF bins of a group sum to its windows-with-RF counter modulo 2^32 (R152). -/
def BinsAgree (s : State) (g : GroupId) : Prop :=
  let n := s.st.groups.get g
  n[0] + n[1] + n[2] + n[3] + n[4] + n[5] + n[6] = n[8]

/-! ### What a statement about one command says of the state before it and after it -/

/-- The handler takes `request` next: none of the entries before it is WAITING, and no RESTART holds the handler (R160, R171). -/
structure HandlerTakes (s : State) (before after : List Entry) (request : Frame) : Prop where
  running : s.inReset = false
  free : s.lc.handlerHeld = false
  entries : s.lc.entries = before ++ { request := request, stage := .waiting } :: after
  earliest : ∀ e ∈ before, e.stage ≠ .waiting

/-- `l` with the entry of `request` READY with `reply`, and every other entry as it was (R160). The ordinal of its becoming READY is the model's
own (log entry 22). -/
def answered (l : LinkController) (before after : List Entry) (request reply : Frame) : LinkController :=
  { l with
    entries := before ++ { request := request, stage := .ready l.readied reply } :: after
    readied := l.readied + 1 }

/-- `l` with the entry of `request` DEFERRED, and every other entry as it was (R160). -/
def putOff (l : LinkController) (before after : List Entry) (request : Frame) : LinkController :=
  { l with entries := before ++ { request := request, stage := .deferred } :: after }

/-- The reply to a request of this kind: kind plus 0x40, its tag, the status byte and the fields (R173). -/
def okReply (request : Frame) (fields : List Byte) : Frame :=
  { kind := request.kind + 0x40, tag := request.tag, payload := 0 :: fields }

/-- The REFUSED frame (R161, R173). -/
def refusal (request : Frame) (reason : Byte) : Frame :=
  { kind := 0x7F, tag := request.tag, payload := [request.kind, reason] }

/-- The detector is about to issue a positive-going crossing stamped `stamp` (R21). -/
structure CrossingAt (s : State) (stamp : Count) : Prop where
  running : s.inReset = false
  candidate : s.ct.candidate = some { polarity := .positive, stamp := stamp }
  confirmed : s.ct.confirmed = some .negative

/-- Only CT and LC differ. -/
def OnlyTracker (s t : State) : Prop := t = { s with ct := t.ct, lc := t.lc }

/-- The boundary that ends the cycle in progress is the next event (R29). -/
structure AtBoundary (s : State) : Prop where
  running : s.inReset = false
  issued : s.ct.issued = 120

/-- What no cycle boundary touches, whatever else happens at it: the mode, the latches with their lines, the comparators, the working
settings but for the staged classes, the image, the pending commands and what GET_COUNTERS reads of the pairs. -/
structure BoundaryKeeps (s t : State) : Prop where
  pending : t.pending = s.pending
  running : t.inReset = s.inReset
  mode : t.mode = s.mode
  latches : t.le.latches = s.le.latches
  tripLines : t.le.tripLines = s.le.tripLines
  comparators : t.fc = s.fc
  image : t.ss.image = s.ss.image
  flight : t.ss.flight = s.ss.flight
  comparatorSettings : t.ss.working.comparators = s.ss.working.comparators
  freezeSetup : t.ss.working.freeze = s.ss.working.freeze
  pairCounters : t.st.pairs = s.st.pairs
  groupStore : t.ae.groupStore = s.ae.groupStore
  pairStore : t.ae.pairStore = s.ae.pairStore
  receiver : t.lc.receiver = s.lc.receiver
  sending : t.lc.sending = s.lc.sending
  masks : t.lc.masks = s.lc.masks
  linkCounters : t.lc.counters = s.lc.counters
  free : t.freeNext = s.freeNext

/-- The tracker enters FREE at the boundary that ends the cycle in progress (R28). -/
def EntersFree (s : State) : Prop := s.ct.tracker = .holdover ∧ 50 ≤ s.ct.holdoverCycles + 1

/-- That boundary is a window boundary (R40, R41). -/
def EndsWindow (s : State) : Prop :=
  (∃ w, s.ae.clock = some w ∧ w.length.cycles ≤ w.completed + 1) ∧ ¬ EntersFree s

/-- The window clock starts at that boundary (R38). -/
def StartsClock (s : State) : Prop := s.ae.clock = none ∧ s.mode = .normal ∧ s.ct.tracker = .locked

/-- A group leaves MONITOR or SETTLING at that boundary, by a second OPEN sample in a row (R80, R84). -/
def Leaves (s : State) (inputs : InputLevels) (g : GroupId) : Prop :=
  inputs.get g = false ∧ (s.gm.groups.get g).accepted = .closed ∧ 1 ≤ (s.gm.groups.get g).debounce ∧
    (s.gm.groups.get g).state ≠ .out

/-- LC after the notices `ns`, in this order, under the cycle number `cycle`: what LC's queue, flags and lost count become when the
reports are enqueued and the flags raised (R164, R168). -/
structure Posted (l m : LinkController) (cycle : Word) (ns : List Notice) : Prop where
  queue : m.queue = (l.post cycle ns).queue
  flags : m.flags = (l.post cycle ns).flags
  lost : m.lost = (l.post cycle ns).lost

/-- `m` has the SYNC_POINT watch and the pending list of `l` (R160, R162). -/
structure SameRequests (l m : LinkController) : Prop where
  sync : m.sync = l.sync
  entries : m.entries = l.entries
  readied : m.readied = l.readied

/-- The verdict of a group is the highest severity that stands for it, NORMAL if none does (R111). -/
structure VerdictFollows (s : State) (g : GroupId) : Prop where
  severity : ∀ v, s.le.verdicts.get g = Severity.verdict v ↔
    StandsFor s g v ∧ ∀ other, StandsFor s g other → other.code ≤ v.code
  normal : s.le.verdicts.get g = .normal ↔ ∀ v, ¬ StandsFor s g v

/-- A condition record that stands: ACTIVE or PENDING_OFF (R104). -/
abbrev Stands (r : CondRecord) : Prop := r.state = .active ∨ r.state = .pendingOff

/-- The condition records after the staged limit edits (R103), and the verdict they give a group (R111). -/
def editedRecords (s : State) : Vector (List (UnitId × CondRecord)) 48 :=
  tableZip recordsAfterEdit s.ss.staged.limits s.le.records

def editedVerdict (s : State) (g : GroupId) : Verdict :=
  verdictOf (standingFor (s.ss.working.applyLimits s.ss.staged).limits (editedRecords s) g)

/-- The entry that a VERDICT_CHANGE names, by a table and its records (R112). -/
def holder (limits : Vector (Option LimitEntry) 48) (records : Vector (List (UnitId × CondRecord)) 48) (g : GroupId) :
    Option (Nat × Bool) :=
  holderOf (standingFor limits records g)

/-- The LIMIT_EVENTs with the event WITHDRAWN that the staged edits enqueue: by entry number, and within an entry in the order of its records,
which is that of its scope (R103, R107; `VerdictsSupported.units`). -/
def withdrawals (s : State) (window : Word) : List Notice :=
  (List.finRange 48).flatMap fun k =>
    match s.ss.staged.limits[k], s.ss.working.limits[k] with
    | some _, some e => (s.le.records[k].filter fun ur => decide (Stands ur.2)).map fun ur =>
        .report (.limitEvent k.val ur.1 .withdrawn e.severity window none)
    | _, _ => []

/-- The LIMIT_EVENTs of a pass's judgements: one for each record that starts or ceases to stand, by entry number and within an entry in the
order of its records (R107, R108, R109). -/
def judgements (m : Monitors) (p : Pass) (limits : Vector (Option LimitEntry) 48)
    (records : Vector (List (UnitId × CondRecord)) 48) : List Notice :=
  (List.finRange 48).flatMap fun k =>
    match limits[k] with
    | none => []
    | some e => records[k].filterMap fun ur => (judgedValue m p e ur.1).bind fun x =>
        let after := ur.2.judge e x
        let moved := fun event => Notice.report (.limitEvent k.val ur.1 event e.severity p.window (some x))
        if ¬ Stands ur.2 ∧ Stands after then some (moved .active)
        else if Stands ur.2 ∧ ¬ Stands after then some (moved .cleared)
        else none

/-- One VERDICT_CHANGE for each group whose verdict differs, in group order (R103, R109, R112). -/
def verdictChanges (old new : GroupId → Verdict) (cause : VerdictCause) (window : Word)
    (entry : GroupId → Option (Nat × Bool)) : List Notice :=
  GroupId.all.flatMap fun g =>
    if old g = new g then [] else [.report (.verdictChange g (old g) (new g) cause window (entry g))]

/-- A report of GM: a GROUP_EVENT, or a VERDICT_CHANGE with the cause OUT or PAIR_BROKEN (R91). -/
def ofMonitors : Notice → Bool
  | .report (.groupEvent ..) => true
  | .report (.pairEvent ..) => true
  | .report (.verdictChange _ _ _ cause _ _) => decide (cause = .out ∨ cause = .pairBroken)
  | _ => false

/-- A report of LE's limit edits: a LIMIT_EVENT, or a VERDICT_CHANGE with the cause LIMIT_EDIT (R103). -/
def ofEdits : Notice → Bool
  | .report (.limitEvent ..) => true
  | .report (.verdictChange _ _ _ cause _ _) => decide (cause = .limitEdit)
  | _ => false

/-- A report of a kind (R173). -/
def ofKind (kind : Byte) : Notice → Bool
  | .report b => decide (b.kind = kind)
  | .flag _ => false

/-! ### The arithmetic of a record, by its rules -/

/-- `y` is `x` divided by `d`, rounded to nearest: by its magnitude, a tie away from 0, its sign kept (00_scope, R6). -/
structure Rounds (x : Int) (d : Nat) (y : Int) : Prop where
  least : 2 * d * y.natAbs ≤ 2 * x.natAbs + d
  greatest : 2 * x.natAbs + d < 2 * d * (y.natAbs + 1)
  sign : (0 ≤ x → 0 ≤ y) ∧ (x ≤ 0 → y ≤ 0)

/-- `r` is the root of `n` rounded down (00_scope, "isqrt"). -/
structure IsRoot (n r : Nat) : Prop where
  least : r * r ≤ n
  greatest : n < (r + 1) * (r + 1)

/-- The amplitude of a set's order before its clamp, over `n` samples (R64). -/
def RawLine (a : AccSet) (n : Nat) (i : Fin 50) (raw : Nat) : Prop :=
  ∃ root, IsRoot (a.cosSums[i].natAbs ^ 2 + a.sinSums[i].natAbs ^ 2) root ∧ Rounds (2 * root : Nat) (n * 32767) raw

/-- The ripple RMS of a set over `n` samples, in extended units (R62). -/
def RippleRms (a : AccSet) (n r : Nat) : Prop := IsRoot ((n * a.q - a.s0.natAbs ^ 2) / n ^ 2) r

/-- The arm index of a bridge before its clamp, of the amplitudes of its orders 1 and 2 and its mean (R72). -/
def RawArmIndex (a₁ a₂ : Nat) (m : Int) (raw : Nat) : Prop :=
  ∃ root, IsRoot (a₁ ^ 2 + a₂ ^ 2) root ∧ Rounds (root * 10000 : Nat) m.natAbs raw

/-- The interference sum before its clamp (R75). -/
def RawInterference (weights : Vector Nat 50) (amplitude : Fin 50 → Nat) (raw : Nat) : Prop :=
  ∃ root, IsRoot (((List.finRange 50).map fun i => (weights[i] * amplitude i) ^ 2).sum) root ∧ Rounds root 1024 raw

/-- The characters of a frame received one after the other, each `gap` counts after the one before. -/
def feed (gap : Nat) : List Byte → State → Host.Outcome State Fault Refusal
  | [], s => .next s
  | b :: bs, s =>
    match exec (.linkCharacter gap b true) s with
    | .next t => feed gap bs t
    | .fault r => .fault r
    | .refused r => .refused r

/-! ### Applied settings, and a report's bytes -/

/-- What is staged for a value becomes the working value, and with nothing staged the working value stays (R15, R47, R73). -/
structure Applied (staged : Option α) (old new : α) : Prop where
  taken : ∀ v, staged = some v → new = v
  kept : staged = none → new = old

/-- A report of this body has this kind, and these bytes after the cycle number (R173, R174). -/
structure IsReport (body : ReportBody) (kind : Byte) (fields : List Byte) : Prop where
  kind : body.kind = kind
  fields : body.fields = fields

/-! ### The kind table and the payloads of the writing requests -/

/-- A row of the kind table: the request's kind, the command that handles it, its payload length (none where it depends on a count),
and whether MAINTENANCE refuses it (R173). -/
structure RequestRow where
  kind : Nat
  command : Instr
  length : Option Nat
  refusedInMaintenance : Bool
deriving DecidableEq, Repr

/-- The kind table (R173). -/
def requestTable : List RequestRow :=
  [⟨0x01, .identify, some 0, false⟩, ⟨0x02, .getStatus, some 0, false⟩, ⟨0x03, .clearFlags, some 2, false⟩,
   ⟨0x04, .setFlagMask, some 2, false⟩, ⟨0x05, .getWindow, some 3, true⟩, ⟨0x06, .getLines, some 6, true⟩,
   ⟨0x07, .scanLines, some 12, true⟩, ⟨0x08, .readSamples, some 7, false⟩, ⟨0x09, .setFreeze, some 5, false⟩,
   ⟨0x0A, .forceFreeze, some 0, true⟩, ⟨0x0B, .releaseFreeze, some 0, true⟩, ⟨0x0C, .setLimit, some 19, false⟩,
   ⟨0x0D, .getLimit, some 1, false⟩, ⟨0x0E, .deleteLimit, some 1, false⟩, ⟨0x0F, .setWeights, none, false⟩,
   ⟨0x10, .setChannel, some 13, false⟩, ⟨0x11, .setComparator, some 9, false⟩, ⟨0x12, .setAnalysis, some 10, false⟩,
   ⟨0x13, .getSettings, some 2, false⟩, ⟨0x14, .getCounters, some 0, false⟩, ⟨0x15, .setCounter, some 7, false⟩,
   ⟨0x16, .clearTrip, some 1, true⟩, ⟨0x17, .holdReports, some 2, false⟩, ⟨0x18, .syncPoint, some 0, false⟩,
   ⟨0x19, .storeSettings, some 0, false⟩, ⟨0x1A, .checkSettings, some 0, false⟩, ⟨0x1B, .restart, some 0, false⟩,
   ⟨0x1C, .leaveMaintenance, some 0, false⟩]

/-- A ratio in a record layout: two bytes, 0xFFFF when absent (R175, R176). -/
def ratio2 : Option Nat → List Byte
  | some x => beBytes 2 x
  | none => [0xFF, 0xFF]

/-- One byte that carries a small number. -/
def one (n : Nat) : Byte := BitVec.ofNat 8 n

/-- The tests of R99 on an entry whose codes are already among their values. -/
structure EntryAccepted (e : LimitEntry) : Prop where
  scope : (∃ p, e.scope = .pair p) ∨ ∃ m g, e.scope = .groups m ∧ m.get g = true
  quantity : (e.quantity = .pHarm ∨ e.quantity = .jp) ↔ ∃ p, e.scope = .pair p
  bridge : e.quantity = .iHarm ∨ e.quantity = .armK → e.bridge.toNat ≤ 2
  orders : e.quantity = .vHarm ∨ e.quantity = .iHarm ∨ e.quantity = .pHarm →
    1 ≤ e.first.toNat ∧ e.first.toNat ≤ e.last.toNat ∧ e.last.toNat ≤ 50
  sign : e.quantity ≠ .iMean → 0 ≤ e.limit ∧ 0 ≤ e.release
  above : e.sense = .above → e.release ≤ e.limit
  below : e.sense = .below → e.limit ≤ e.release
  onCount : 1 ≤ e.onCount ∧ e.onCount ≤ 255
  offCount : 1 ≤ e.offCount ∧ e.offCount ≤ 255
  limit : -2147483648 ≤ e.limit ∧ e.limit ≤ 2147483647
  release : -2147483648 ≤ e.release ∧ e.release ≤ 2147483647

/-- The payload of the SET_LIMIT that writes an entry into a slot (R97, R99, R172, R177). -/
def entryPayload (k : Nat) (e : LimitEntry) : List Byte :=
  [one k, one e.scope.kindCode, one e.scope.valueCode, one e.quantity.code, e.bridge, e.first, e.last, one e.sense.code] ++
    beBytesInt 4 e.limit ++ beBytesInt 4 e.release ++ [one e.onCount, one e.offCount, one e.severity.code]

/-- The channels beside the named one that SET_CHANNEL gives the same FS (R7). -/
def SharesFs (pairing : Pairing) (named other : ChannelId) : Prop :=
  ∃ g, (named = .ia g ∨ named = .ib g) ∧
    (other = .ia g ∨ other = .ib g ∨
      (pairing.paired g.pair = true ∧ (other = .ia g.partner ∨ other = .ib g.partner)))

/-- The range of the fields of SET_CHANNEL that R14 examines for a current channel. -/
structure CurrentFieldsInRange (x : ChannelSettings) : Prop where
  fs : 1000 ≤ x.fs ∧ x.fs ≤ 65535
  offsetLow : -2048 ≤ x.offsetLow ∧ x.offsetLow ≤ 2047
  gainLow : 16384 ≤ x.gainLow ∧ x.gainLow ≤ 49151
  offsetHigh : -2048 ≤ x.offsetHigh ∧ x.offsetHigh ≤ 2047
  gainHigh : 16384 ≤ x.gainHigh ∧ x.gainHigh ≤ 49151
  mode : x.rangeMode = .auto ∨ x.rangeMode = .fixedLow ∨ x.rangeMode = .fixedHigh
  hold : 1 ≤ x.hold ∧ x.hold ≤ 60

end Sys2Proof.Safety
end

