-- ==== Sys2Proof/Certificates/Slice0/Obligations.lean ====
section
/-! DEFINITION. The statements for the provers. -/

open Sys2Proof Sys2Proof.Machine Sys2Proof.Safety

/-! ### The queue, reset and release -/

/-- A step runs the command at the front of the queue on the state with the queue's rest. That an empty queue idles is the model's
choice (log entry 11). -/
def Obligations.StepRunsTheFrontCommand : Prop :=
  (∀ (c : Instr) (rest : List Instr) (s : State),
    step { s with pending := c :: rest } = exec c { s with pending := rest }) ∧
  ∀ s : State, s.pending = [] → step s = .next s

/-- RESET: nothing of any block survives but the image, and every latch and line falls (R20, R37, R56, R119, R156, R181). The values the
fields stand at until release, those of a release with the factory defaults, are the model's (log entry 7), and so is the free value
that an image left torn reads as (log entry 3) and the number of the ring's current slot (log entry 37). -/
def Obligations.ResetLeavesOnlyTheImage : Prop :=
  ∀ (written : Option StoredImage) (s : State), ∃ t, exec (.reset written) s = .next t ∧
    t.inReset = true ∧ t.pending = s.pending ∧
    t.ss.image = (match s.ss.flight with
      | some (.store _) => written.getD .torn
      | some .check => s.ss.image
      | none => s.ss.image) ∧
    t.ss.flight = none ∧ t.ss.staged = Staging.empty ∧
    (∀ g, t.le.latches.get g = false ∧ t.le.tripLines.get g = false ∧ t.le.verdicts.get g = .normal) ∧
    t.le.alert = false ∧
    t.ct.tracker = .seek ∧ t.ct.accepted = none ∧ t.ct.confirmed = none ∧ t.ct.cycle = 0 ∧
    t.ae = AnalysisEngine.fresh ∧ t.gm = Monitors.fresh ∧ t.fc = Comparators.fresh ∧ t.cr = CaptureRing.fresh ∧
    t.st = Statistics.fresh ∧ t.lc = LinkController.fresh ∧
    t.fe = FrontEnd.fresh Settings.factory ∧ t.ct = CycleTracker.fresh Settings.factory 0 s.ct.reference ∧
    t.le = LimitEvaluator.fresh Settings.factory ∧ t.mode = .normal ∧ t.ss.working = Settings.factory ∧
    t.freeNext = (match s.ss.flight with
      | some (.store _) => s.freeNext + 1
      | some .check => s.freeNext
      | none => s.freeNext)

/-- RESET_RELEASE: the strap and the image decide the working settings, the mode and SETTINGS_DEFAULTED, and every block takes its
reset-release state from the settings loaded (R183, R35, R56, R95, R119, R133, R145, R156, R171). With the strap off, an image that is not
loadable and the comparator negative, the part stands at `State.reset` (log entry 1). CT's state has a candidate of the comparator's polarity
begun at the release, as R21 says, where R35's table has it absent (log entry 17, DEDUCED); the value last delivered of each current channel is
0, and the ring's current slot is slot 0, both the model's choice (log entries 1 and 37). -/
def Obligations.ReleaseLoadsTheSettings : Prop :=
  ∀ (strap : Bool) (reference : Polarity) (s : State), s.inReset = true →
    ∃ t, exec (.resetRelease strap reference) s = .next t ∧
      t.inReset = false ∧ t.pending = s.pending ∧ t.ss.image = s.ss.image ∧ t.ss.flight = none ∧
      t.ss.staged = Staging.empty ∧ t.fe = FrontEnd.fresh t.ss.working ∧
      t.ct = CycleTracker.fresh t.ss.working 0 reference ∧ t.ae = AnalysisEngine.fresh ∧ t.gm = Monitors.fresh ∧
      t.le = LimitEvaluator.fresh t.ss.working ∧ t.fc = Comparators.fresh ∧ t.cr = CaptureRing.fresh ∧
      t.st = Statistics.fresh ∧
      (strap = true → t.mode = .maintenance ∧ t.ss.working = Settings.factory ∧ t.lc = LinkController.fresh) ∧
      (∀ copy, strap = false → s.ss.image = .whole copy (imageCrc copy) → copy.inRange = true →
        t.mode = .normal ∧ t.ss.working = copy.asLoaded ∧ t.lc = LinkController.fresh) ∧
      (strap = false → (∀ copy, s.ss.image = .whole copy (imageCrc copy) → copy.inRange = false) →
        t.mode = .normal ∧ t.ss.working = Settings.factory ∧
        t.lc = { LinkController.fresh with
          flags := 0x400#12
          queue := [{ cycle := 0, body := .flagEvent .settingsDefaulted 0x400#12 }] }) ∧
      (strap = false → reference = .negative → s.ss.image = .torn →
        t = { State.reset with pending := s.pending, freeNext := s.freeNext })

/-- A part held in reset takes no command but RESET and RESET_RELEASE; a running part takes no release, and a command whose occurrence
has not arisen changes nothing. The model's reading of the commands (log entries 6 and 7). -/
def Obligations.CommandsThatAreNotDue : Prop :=
  (∀ (c : Instr) (s : State), s.inReset = true → (∀ w, c ≠ .reset w) → (∀ x p, c ≠ .resetRelease x p) →
    exec c s = .next s) ∧
  ∀ (s : State), s.inReset = false →
    (∀ x p, exec (.resetRelease x p) s = .next s) ∧
    (∀ n, exec (.referencePolarityChange n s.ct.reference) s = .next s) ∧
    (s.ct.candidate = none → exec .polarityConfirmed s = .next s) ∧
    (s.ct.missTimer = none → exec .missTimer s = .next s) ∧
    (∀ raw, s.ct.issued = 120 → exec (.sampleEvent raw) s = .next s) ∧
    (∀ inputs, s.ct.issued < 120 → exec (.cycleBoundary inputs) s = .next s) ∧
    (s.lc.receiver = .hunt → exec .gapTimeout s = .next s) ∧
    (s.lc.sending = none → exec .frameSent s = .next s) ∧
    (s.ss.flight = none → (∀ image, exec (.storeCompletion image) s = .next s) ∧ exec .checkCompletion s = .next s) ∧
    (s.lc.restartDue = false → exec .restartExecution s = .next s)

/-! ### The crossing detector and the tracker -/

/-- R21: a change of the comparator output begins, replaces or discards a candidate; a confirmation that is not NEGATIVE to POSITIVE
issues no crossing; and the first crossing measures no period (R22). Nothing else of the part changes. A change that finds a candidate 2,000
counts old confirms it first (log entry 10, DEDUCED). That a confirmation moves the timebase to 2,000 counts after the stamp, and leaves it
where it is when already past that, is the model's choice (log entry 8). -/
def Obligations.CandidatesAndConfirmations : Prop :=
  (∀ (s : State) (elapsed : Nat) (p : Polarity),
    let now := s.ct.timebase + BitVec.ofNat 64 elapsed
    s.inReset = false → p ≠ s.ct.reference →
    (∀ k, s.ct.candidate = some k → (now - k.stamp).toNat < 2000) →
    exec (.referencePolarityChange elapsed p) s = .next { s with
      ct := { s.ct with
        timebase := now
        reference := p
        candidate := if s.ct.confirmed = some p then none else some { polarity := p, stamp := now } } }) ∧
  (∀ (s : State) (elapsed : Nat) (p : Polarity) (k : Candidate),
    let now := s.ct.timebase + BitVec.ofNat 64 elapsed
    s.inReset = false → p ≠ s.ct.reference → s.ct.candidate = some k → 2000 ≤ (now - k.stamp).toNat →
    ∃ u, exec .polarityConfirmed { s with ct := { s.ct with timebase := now } } = .next u ∧
      exec (.referencePolarityChange elapsed p) s = .next { u with
        ct := { u.ct with
          reference := p
          candidate := if u.ct.confirmed = some p then none else some { polarity := p, stamp := u.ct.timebase } } }) ∧
  (∀ (s : State) (k : Candidate), s.inReset = false → s.ct.candidate = some k →
    ¬ (k.polarity = .positive ∧ s.ct.confirmed = some .negative) →
    exec .polarityConfirmed s = .next { s with
      ct := { s.ct.reach (k.stamp + 2000#64) with confirmed := some k.polarity, candidate := none } }) ∧
  ∀ (s : State) (stamp : Count), CrossingAt s stamp → s.ct.previous = none →
    exec .polarityConfirmed s = .next { s with
      ct := { s.ct.reach (stamp + 2000#64) with
        confirmed := some .positive, candidate := none, previous := some stamp } }

/-- A crossing in SEEK, FREE or LOCKING (R22, R23, R24, R33). That the SYNC_EVENT of a return to FREE comes before its flag is the model's
choice (log entry 12). -/
def Obligations.CrossingWhileSearching : Prop :=
  ∀ (s : State) (prev stamp : Count), CrossingAt s stamp → s.ct.previous = some prev →
    let P := (stamp - prev).toNat
    ∃ t, exec .polarityConfirmed s = .next t ∧ OnlyTracker s t ∧ t.ct.previous = some stamp ∧
      t.ct.confirmed = some .positive ∧ t.ct.candidate = none ∧ t.ct.cycle = s.ct.cycle ∧ t.ct.length = s.ct.length ∧
      (s.ct.tracker = .seek ∨ s.ct.tracker = .free → 151516 ≤ P → P ≤ 238095 →
        t.ct.tracker = .locking ∧ t.ct.runCount = 1 ∧ t.ct.lastInRange = some P ∧
        t.ct.origin.tracker = s.ct.tracker ∧ t.ct.accepted = s.ct.accepted ∧
        t.lc = s.lc.post s.ct.cycle [.report (.syncEvent s.ct.tracker .locking .crossing P s.ct.frequency)]) ∧
      (s.ct.tracker = .seek ∨ s.ct.tracker = .free → P < 151516 ∨ 238095 < P →
        t.ct.tracker = s.ct.tracker ∧ t.ct.runCount = s.ct.runCount ∧ t.ct.lastInRange = s.ct.lastInRange ∧
        t.lc = s.lc) ∧
      (∀ q, s.ct.tracker = .locking → s.ct.lastInRange = some q → 151516 ≤ P → P ≤ 238095 →
        ((P : Int) - q).natAbs * 200 ≤ q → s.ct.runCount + 1 < 4 →
        t.ct.tracker = .locking ∧ t.ct.runCount = s.ct.runCount + 1 ∧ t.ct.lastInRange = some P ∧ t.lc = s.lc) ∧
      (∀ q, s.ct.tracker = .locking → s.ct.lastInRange = some q → 151516 ≤ P → P ≤ 238095 →
        q < ((P : Int) - q).natAbs * 200 →
        t.ct.tracker = .locking ∧ t.ct.runCount = 1 ∧ t.ct.lastInRange = some P ∧ t.lc = s.lc) ∧
      (s.ct.tracker = .locking → P < 151516 ∨ 238095 < P →
        t.ct.tracker = s.ct.origin.tracker ∧ t.ct.runCount = 0 ∧
        t.lc = s.lc.post s.ct.cycle
          (.report (.syncEvent .locking s.ct.origin.tracker .crossing P s.ct.frequency) ::
            (if s.ct.origin = .free then [.flag .syncFree] else [])))

/-- A crossing in LOCKED or HOLDOVER that changes no state (R22, R25, R26, R28). -/
def Obligations.CrossingWhileTracking : Prop :=
  ∀ (s : State) (prev stamp : Count) (a : Nat), CrossingAt s stamp → s.ct.previous = some prev →
    s.ct.accepted = some a →
    let P := (stamp - prev).toNat
    ∃ t, exec .polarityConfirmed s = .next t ∧ OnlyTracker s t ∧ t.ct.previous = some stamp ∧
      t.ct.confirmed = some .positive ∧ t.ct.candidate = none ∧
      (s.ct.tracker = .locked → 151516 ≤ P → P ≤ 238095 → ((P : Int) - a).natAbs * 50 ≤ a →
        t.ct.tracker = .locked ∧ t.ct.accepted = some P ∧ t.ct.missCount = 0 ∧ t.ct.steering = some stamp ∧
        t.ct.missTimer = some (stamp + BitVec.ofNat 64 (3 * P / 2)) ∧ t.lc = s.lc) ∧
      (s.ct.tracker = .locked → P < 151516 ∨ 238095 < P ∨ a < ((P : Int) - a).natAbs * 50 → s.ct.missCount + 1 < 3 →
        t.ct.tracker = .locked ∧ t.ct.accepted = some a ∧ t.ct.missCount = s.ct.missCount + 1 ∧
        t.ct.steering = s.ct.steering ∧ t.ct.missTimer = some (stamp + BitVec.ofNat 64 (3 * a / 2)) ∧ t.lc = s.lc) ∧
      (s.ct.tracker = .holdover → P < 151516 ∨ 238095 < P →
        t.ct.tracker = .holdover ∧ t.ct.runCount = 0 ∧ t.ct.lastInRange = s.ct.lastInRange ∧ t.lc = s.lc) ∧
      (s.ct.tracker = .holdover → 151516 ≤ P → P ≤ 238095 → s.ct.runCount = 0 →
        t.ct.tracker = .holdover ∧ t.ct.runCount = 1 ∧ t.ct.lastInRange = some P ∧ t.lc = s.lc) ∧
      (∀ q, s.ct.tracker = .holdover → s.ct.lastInRange = some q → 151516 ≤ P → P ≤ 238095 →
        q < ((P : Int) - q).natAbs * 200 →
        t.ct.tracker = .holdover ∧ t.ct.runCount = 1 ∧ t.ct.lastInRange = some P ∧ t.lc = s.lc) ∧
      (∀ q, s.ct.tracker = .holdover → s.ct.lastInRange = some q → 151516 ≤ P → P ≤ 238095 →
        ((P : Int) - q).natAbs * 200 ≤ q → 0 < s.ct.runCount → s.ct.runCount + 1 < 4 →
        t.ct.tracker = .holdover ∧ t.ct.runCount = s.ct.runCount + 1 ∧ t.ct.lastInRange = some P ∧ t.lc = s.lc)

/-- LOCK_ACHIEVED and RELOCK: the fourth steady period enters LOCKED, from LOCKING and from HOLDOVER (R24, R26, R28, R32, R33); the timer
counts from the crossing's stamp (log entry 9). That each of the two rows is the whole confirmation that issues the crossing is log entry 6
(DEDUCED). -/
def Obligations.FourthSteadyPeriodLocks : Prop :=
  ∀ (s : State) (prev stamp : Count) (q : Nat), CrossingAt s stamp → s.ct.previous = some prev →
    s.ct.lastInRange = some q → s.ct.runCount = 3 →
    let P := (stamp - prev).toNat
    151516 ≤ P → P ≤ 238095 → ((P : Int) - q).natAbs * 200 ≤ q →
    (s.ct.tracker = .locking → ∃ t, exec .lockAchieved s = .next t ∧ OnlyTracker s t ∧ t.ct.previous = some stamp ∧
      t.ct.confirmed = some .positive ∧ t.ct.candidate = none ∧
      t.ct.tracker = .locked ∧ t.ct.accepted = some P ∧ t.ct.missCount = 0 ∧ t.ct.runCount = 0 ∧
      t.ct.missTimer = some (stamp + BitVec.ofNat 64 (3 * P / 2)) ∧ t.ct.steering = some stamp ∧
      t.lc = s.lc.post s.ct.cycle [.report (.syncEvent .locking .locked .crossing P (roundDiv 10000000000 P))]) ∧
    (s.ct.tracker = .holdover → ∃ t, exec .relock s = .next t ∧ OnlyTracker s t ∧ t.ct.previous = some stamp ∧
      t.ct.confirmed = some .positive ∧ t.ct.candidate = none ∧
      t.ct.tracker = .locked ∧ t.ct.accepted = some P ∧ t.ct.missCount = 0 ∧ t.ct.runCount = 0 ∧
      t.ct.holdoverCycles = 0 ∧
      t.ct.missTimer = some (stamp + BitVec.ofNat 64 (3 * P / 2)) ∧ t.ct.steering = some stamp ∧
      t.lc = s.lc.post s.ct.cycle [.report (.syncEvent .holdover .locked .crossing P (roundDiv 10000000000 P))])

/-- MISS_TIMER and HOLDOVER_ENTRY: an expiry counts a miss and restarts the timer; the third miss, by the timer or by a rejected crossing,
enters HOLDOVER (R25, R26, R30, R33). That its SYNC_EVENT is enqueued before the flag SYNC_HOLDOVER is raised is the model's choice (log
entry 12), and so is that an expiry moves the timebase to its count, and leaves it where it is when already past that (log entry 8); the timer
counts from the expiry or from the crossing's stamp (log entry 9, DEDUCED). That HOLDOVER_ENTRY is the whole step at which it arises, so that
MISS_TIMER answers the same state at the third miss, is log entry 6 (DEDUCED). -/
def Obligations.MissesLeadToHoldover : Prop :=
  (∀ (s : State) (due : Count) (a : Nat), s.inReset = false → s.ct.tracker = .locked → s.ct.missTimer = some due →
    s.ct.accepted = some a →
    (s.ct.missCount + 1 < 3 →
      exec .missTimer s = .next { s with
        ct := { s.ct.reach due with
          missCount := s.ct.missCount + 1
          missTimer := some (due + BitVec.ofNat 64 (3 * a / 2)) } }) ∧
    (3 ≤ s.ct.missCount + 1 → ∃ t, exec .missTimer s = .next t ∧ exec (.holdoverEntry .missTimer) s = .next t ∧
      OnlyTracker s t ∧ t.ct.tracker = .holdover ∧ t.ct.accepted = some a ∧ t.ct.missCount = 0 ∧ t.ct.runCount = 0 ∧
      t.ct.holdoverCycles = 0 ∧ t.ct.missTimer = none ∧ t.ct.holdoverMark = true ∧
      t.lc = s.lc.post s.ct.cycle
        [.report (.syncEvent .locked .holdover .missTimer 0 (roundDiv 10000000000 a)), .flag .syncHoldover])) ∧
  ∀ (s : State) (prev stamp : Count) (a : Nat), CrossingAt s stamp → s.ct.previous = some prev →
    s.ct.tracker = .locked → s.ct.accepted = some a → s.ct.missCount = 2 →
    let P := (stamp - prev).toNat
    P < 151516 ∨ 238095 < P ∨ a < ((P : Int) - a).natAbs * 50 →
    ∃ t, exec (.holdoverEntry .crossing) s = .next t ∧ OnlyTracker s t ∧ t.ct.previous = some stamp ∧
      t.ct.confirmed = some .positive ∧ t.ct.candidate = none ∧
      t.ct.tracker = .holdover ∧ t.ct.accepted = some a ∧ t.ct.missCount = 0 ∧ t.ct.runCount = 0 ∧
      t.ct.holdoverCycles = 0 ∧ t.ct.missTimer = none ∧ t.ct.holdoverMark = true ∧
      t.lc = s.lc.post s.ct.cycle
        [.report (.syncEvent .locked .holdover .crossing P (roundDiv 10000000000 a)), .flag .syncHoldover]

/-! ### The front end and the sample event -/

/-- R12: the four rows of its table, for a current channel. `c` is this event's own conversion in the present range (R3 to R5). -/
def Obligations.SampleTable : Prop :=
  ∀ (x : ChannelSettings) (r : RangeState) (raw : RawCode),
    let c := rangeConversion x r.range raw
    let down := x.rangeMode = .auto ∧ r.range = .high ∧ c.clipped = true
    let y := currentSample x r raw
    let after := r.afterSample x raw
    after.last = y.value ∧
    (0 < r.hold → y.value = r.last ∧ y.held = true ∧ y.clipped = c.clipped ∧ y.judged = false ∧
      after.hold = r.hold - 1 ∧ after.range = r.range) ∧
    (r.hold = 0 → down → y.value = c.code ∧ y.held = true ∧ y.clipped = false ∧ y.judged = true ∧
      after.hold = x.hold ∧ after.range = .low) ∧
    (r.hold = 0 → ¬ down → y.value = c.code ∧ y.held = false ∧ y.clipped = c.clipped ∧ y.judged = true ∧
      after.hold = 0 ∧ after.range = r.range)

/-- R3, R4, R5: the corrected code is the exact quotient rounded down and clamped, an end code or the clamp clips, a neutral pair gives
the raw code back; each range uses its own calibration pair, a sample formed in LOW is 8 times the corrected code, and a sample formed in
either range lies in the range of R5. R9, R10, R16: what a sample leaves of the up-switch test, and a current channel's present range, hold
and test at every cycle boundary, where the test comes first and a staged range mode after it. -/
def Obligations.CalibrationAndSpans : Prop :=
  (∀ (offset : Int) (gain : Nat) (raw : RawCode),
    let exact := (raw.toInt - offset) * gain + 16384
    let c := convert offset gain raw
    (∀ q : Int, q * 32768 ≤ exact → exact < (q + 1) * 32768 →
      c.code = (if q < -32768 then -32768 else if 32767 < q then 32767 else q) ∧
      (c.clipped = true ↔ raw.toInt = -32768 ∨ raw.toInt = 32767 ∨ q < -32768 ∨ 32767 < q)) ∧
    -32768 ≤ c.code ∧ c.code ≤ 32767 ∧
    (offset = 0 → gain = 32768 → c.code = raw.toInt) ∧
    ∀ x : ChannelSettings,
      (plainSample x raw).value ≤ 32767 ∧ -32768 ≤ (plainSample x raw).value ∧
      (rangeConversion x .high raw).code ≤ 32767 ∧ -32768 ≤ (rangeConversion x .high raw).code ∧
      (rangeConversion x .low raw).code ≤ 262136 ∧ -262144 ≤ (rangeConversion x .low raw).code ∧
      8 ∣ (rangeConversion x .low raw).code ∧
      plainSample x raw =
        { value := (convert x.offsetLow x.gainLow raw).code, held := false,
          clipped := (convert x.offsetLow x.gainLow raw).clipped, judged := true } ∧
      (rangeConversion x .low raw).code = (convert x.offsetLow x.gainLow raw).code * 8 ∧
      (rangeConversion x .low raw).clipped = (convert x.offsetLow x.gainLow raw).clipped ∧
      rangeConversion x .high raw = convert x.offsetHigh x.gainHigh raw) ∧
  (∀ (x : ChannelSettings) (r : RangeState) (raw : RawCode),
    let y := currentSample x r raw
    ((r.afterSample x raw).steady = true ↔
      r.steady = true ∧ x.rangeMode = .auto ∧ r.range = .low ∧ -24000 ≤ y.value ∧ y.value ≤ 24000 ∧ y.clipped = false ∧
        y.held = false)) ∧
  ∀ (s : State) (inputs : InputLevels), AtBoundary s → ∃ t, exec (.cycleBoundary inputs) s = .next t ∧
    let testPoint := s.ae.clock = none ∨ EndsWindow s ∨ EntersFree s
    let applies := s.ae.clock = none ∨ EndsWindow s
    ∀ (x : ChannelSettings) (before after : RangeState) (staged : Option RangeMode),
      (∃ g, (x = s.ss.working.channels.ia.get g ∧ before = s.fe.ia.get g ∧ after = t.fe.ia.get g ∧
          staged = (s.ss.staged.channels.ia.get g).rangeMode) ∨
        (x = s.ss.working.channels.ib.get g ∧ before = s.fe.ib.get g ∧ after = t.fe.ib.get g ∧
          staged = (s.ss.staged.channels.ib.get g).rangeMode)) →
      let passes := testPoint ∧ x.rangeMode = .auto ∧ before.range = .low ∧ before.steady = true
      after.last = before.last ∧ (testPoint → after.steady = true) ∧ (¬ testPoint → after.steady = before.steady) ∧
      (applies → staged = some .fixedLow → after.range = .low ∧ after.hold = before.hold) ∧
      (applies → staged = some .fixedHigh → after.range = .high ∧ after.hold = 0) ∧
      (¬ applies ∨ (staged ≠ some .fixedLow ∧ staged ≠ some .fixedHigh) →
        after.hold = before.hold ∧ (passes → after.range = .high) ∧ (¬ passes → after.range = before.range))

/-- SAMPLE_EVENT: FE delivers to CR, AE and FC (R1, R13, R29, R43, R44, R132, R134): the ring's current slot takes the samples, every open
set of a group and of a pair the sample of its series with the marks of its channels, and a clipped sample on any channel raises CLIP, once; what
no sample event touches stays as it was. The first part says what adding a sample to a set does (R42 to R44). Which notices FC posts beside
CLIP is `Obligations.ComparatorJudgement`'s matter, and where CLIP stands among them the model's choice (log entry 12). That the timebase moves
to the sample's count, and stays where it is when already past that, is the model's choice too (log entry 8). -/
def Obligations.SampleEventDelivers : Prop :=
  (∀ (a : AccSet) (k : Nat) (x : Int) (sources : List Sample),
    let b := a.add k x sources
    let e := a.addWithExtremes k x sources
    b.s0 = a.s0 + x ∧ (b.q : Int) = a.q + x * x ∧
    (∀ i : Fin 50, b.cosSums[i] = a.cosSums[i] + x * cosT ((i.val + 1) * k) ∧
      b.sinSums[i] = a.sinSums[i] + x * sinT ((i.val + 1) * k)) ∧
    b.largest = a.largest ∧ b.smallest = a.smallest ∧ b.degraded = a.degraded ∧
    (∀ (j : Nat) (m : Marks) (y : Sample), a.marks[j]? = some m → sources[j]? = some y →
      b.marks[j]? = some { clip := m.clip || y.clipped, held := m.held || y.held }) ∧
    e = { b with largest := e.largest, smallest := e.smallest } ∧
    (a.largest = none → e.largest = some x) ∧ (∀ y, a.largest = some y → e.largest = some (if y < x then x else y)) ∧
    (a.smallest = none → e.smallest = some x) ∧
    (∀ y, a.smallest = some y → e.smallest = some (if x < y then x else y))) ∧
  ∀ (s : State) (raw : RawCodes), s.inReset = false → s.ct.issued < 120 →
    let ys := s.samplesOf raw
    let n := s.ct.issued
    let current := fun (g : GroupId) => (ys.ia.get g).value + (ys.ib.get g).value
    ∃ t ns, exec (.sampleEvent raw) s = .next t ∧
      t.ct = { s.ct.reach (s.ct.start + BitVec.ofNat 64 (n * (s.ct.length / 120) + min n (s.ct.length % 120))) with
        issued := n + 1 } ∧
      t.fe = s.fe.afterSample s.ss.working raw ∧
      t.cr.current = s.cr.current ∧
      (s.cr.state = .frozen → t.cr.slots = s.cr.slots) ∧
      (s.cr.state ≠ .frozen →
        (∀ k, k ≠ s.cr.current → t.cr.slots[k] = s.cr.slots[k]) ∧
        t.cr.slots[s.cr.current].tag = s.cr.slots[s.cr.current].tag ∧
        ∀ c, let old := s.cr.slots[s.cr.current].channels.get c
          let new := t.cr.slots[s.cr.current].channels.get c
          new.samples = old.samples ++ [(ys.get c).value] ∧
          new.marks.clip = (old.marks.clip || (ys.get c).clipped) ∧
          new.marks.held = (old.marks.held || (ys.get c).held)) ∧
      (∀ g, t.ae.groupSets.get g = (s.ae.groupSets.get g).map fun x =>
        { v := x.v.addWithExtremes n (ys.v.get g).value [ys.v.get g]
          ia := x.ia.add n (ys.ia.get g).value [ys.ia.get g]
          ib := x.ib.add n (ys.ib.get g).value [ys.ib.get g]
          ig := x.ig.add n (current g) [ys.ia.get g, ys.ib.get g] }) ∧
      (∀ p, t.ae.pairSets.get p = (s.ae.pairSets.get p).map fun x =>
        x.add n (current p.first + current p.second)
          [ys.v.get p.first, ys.ia.get p.first, ys.ib.get p.first,
           ys.v.get p.second, ys.ia.get p.second, ys.ib.get p.second]) ∧
      t.ae.clock = s.ae.clock ∧ t.ae.counter = s.ae.counter ∧ t.ae.groupSlots = s.ae.groupSlots ∧
      t.ae.pairSlots = s.ae.pairSlots ∧ t.ae.groupStore = s.ae.groupStore ∧ t.ae.pairStore = s.ae.pairStore ∧
      t.ae.passes = s.ae.passes ∧
      Posted s.lc t.lc s.ct.cycle ns ∧ (Notice.flag .clip ∈ ns ↔ ∃ c, (ys.get c).clipped = true) ∧
      (ns.filter fun n => decide (n = .flag .clip)).length ≤ 1 ∧
      (∀ f, f ≠ .clip → Notice.flag f ∉ ns) ∧
      ((∃ c, (ys.get c).clipped = true) → flagOf t.lc.flags .clip = true) ∧
      (s.mode = .maintenance → t.fc = Comparators.fresh ∧ t.le = s.le ∧ ∀ n ∈ ns, n = .flag .clip) ∧
      t.le.records = s.le.records ∧ t.le.verdicts = s.le.verdicts ∧
      t.gm = s.gm ∧ t.st = s.st ∧ t.ss = s.ss ∧ t.mode = s.mode ∧ t.pending = s.pending ∧ t.inReset = false ∧
      t.freeNext = s.freeNext ∧ t.lc.entries = s.lc.entries ∧ t.lc.receiver = s.lc.receiver ∧
      t.lc.sending = s.lc.sending ∧ t.lc.counters = s.lc.counters ∧ t.lc.masks = s.lc.masks ∧
      t.lc.holdCount = s.lc.holdCount ∧ t.lc.digests = s.lc.digests ∧ SameRequests s.lc t.lc

/-- HOLD_END and FILTERED_OUTPUT_CHANGE are the sample event at which they arise: a hold count of 1 falls to 0 on a held sample (R12); a
filtered output that has disagreed F judged samples in a row turns, and an armed one turning ACTIVE on a group in service latches its trip
(R123, R126). That each of the two rows is the whole sample event is log entry 6 (DEDUCED). -/
def Obligations.SpecialSampleEvents : Prop :=
  (∀ (s : State) (raw : RawCodes) (g : GroupId), s.inReset = false → s.ct.issued < 120 →
    ((s.fe.ia.get g).hold = 1 → ∃ t, exec (.holdEnd (.ia g) raw) s = .next t ∧ exec (.sampleEvent raw) s = .next t ∧
      (t.fe.ia.get g).hold = 0 ∧ (t.fe.ia.get g).last = (s.fe.ia.get g).last) ∧
    ((s.fe.ib.get g).hold = 1 → ∃ t, exec (.holdEnd (.ib g) raw) s = .next t ∧ exec (.sampleEvent raw) s = .next t ∧
      (t.fe.ib.get g).hold = 0 ∧ (t.fe.ib.get g).last = (s.fe.ib.get g).last)) ∧
  ∀ (s : State) (raw : RawCodes) (g : GroupId) (c : CompId), s.inReset = false → s.ct.issued < 120 →
    s.mode = .normal →
    let x := s.ss.working.comparator g c
    let y := sourceSample (s.samplesOf raw) g x.source
    y.judged = true → x.rawOutput y.value = !(s.fc.get g c).active → (s.fc.get g c).run + 1 = x.filter →
    ∃ t, exec (.filteredOutputChange g c raw) s = .next t ∧ exec (.sampleEvent raw) s = .next t ∧
      t.fc.get g c = { active := !(s.fc.get g c).active, run := 0 } ∧
      ((s.fc.get g c).active = false → x.tripArmed = true → (s.gm.groups.get g).state ≠ .out →
        t.le.latches.get g = true ∧ t.le.tripLines.get g = true ∧ t.le.alert = true)

/-- R122, R123, R124: the threshold, the raw output on a value with negatives taken as 0, the filter's run, and the samples of a hold,
which are not judged. R125 to R128, R137, R139, R142: FC at a sample event in NORMAL: every filter, the latches, the FAST_EVENT of every
output that changes and reports, and what the freeze triggers of those that turn active do to CR, the first of them in the order of R125
being the one taken. Beside CLIP exactly these reports are enqueued, each once, comparator by comparator in the order of R125, the FREEZE_EVENT
of a trigger taken before the FAST_EVENT of its comparator. -/
def Obligations.ComparatorJudgement : Prop :=
  (∀ (x : CompSettings) (c : CompState) (y : Sample),
    let step : Int := if x.source = .v then 128 else 1024
    let compared : Int := if y.value < 0 then 0 else y.value
    let raw := x.rawOutput y.value
    (x.mode = .high → (raw = true ↔ (x.level + 1) * step ≤ compared)) ∧
    (x.mode = .low → (raw = true ↔ compared < x.level * step)) ∧
    (y.judged = false → c.afterSample x y = c ∧ c.changes x y = false) ∧
    (y.judged = true → raw = c.active →
      c.afterSample x y = { active := c.active, run := 0 } ∧ c.changes x y = false) ∧
    (y.judged = true → raw ≠ c.active → c.run + 1 = x.filter →
      c.afterSample x y = { active := raw, run := 0 } ∧ c.changes x y = true) ∧
    (y.judged = true → raw ≠ c.active → c.run + 1 ≠ x.filter →
      c.afterSample x y = { active := c.active, run := c.run + 1 } ∧ c.changes x y = false)) ∧
  ∀ (s : State) (raw : RawCodes), s.inReset = false → s.ct.issued < 120 → s.mode = .normal →
    let setting := fun (gc : GroupId × CompId) => s.ss.working.comparator gc.1 gc.2
    let sample := fun (gc : GroupId × CompId) => sourceSample (s.samplesOf raw) gc.1 (setting gc).source
    let changes := fun (gc : GroupId × CompId) => (s.fc.get gc.1 gc.2).changes (setting gc) (sample gc)
    let turnsActive := fun (gc : GroupId × CompId) => changes gc && !(s.fc.get gc.1 gc.2).active
    let trips := fun (gc : GroupId × CompId) =>
      turnsActive gc && (setting gc).tripArmed && decide ((s.gm.groups.get gc.1).state ≠ .out)
    let order := [(GroupId.g0, CompId.c0), (.g0, .c1), (.g1, .c0), (.g1, .c1), (.g2, .c0), (.g2, .c1), (.g3, .c0), (.g3, .c1)]
    let offering := order.filter fun gc => turnsActive gc && (setting gc).freezeTrigger && s.ss.working.freeze.comparator
    let sameFreeze := fun (c : CaptureRing) =>
      c.state = s.cr.state ∧ c.trigger = s.cr.trigger ∧ c.postCount = s.cr.postCount
    let record := fun (gc : GroupId × CompId) => ({ cause := .comparator, group := some gc.1, comparator := some gc.2,
                                                    window := none, cycle := s.ct.cycle } : TriggerRecord)
    ∃ t ns, exec (.sampleEvent raw) s = .next t ∧ Posted s.lc t.lc s.ct.cycle ns ∧
      (∀ g c, t.fc.get g c = (s.fc.get g c).afterSample (setting (g, c)) (sample (g, c))) ∧
      (∀ g, (t.le.latches.get g = true ↔ s.le.latches.get g = true ∨ ∃ c, trips (g, c) = true) ∧
        ((∃ c, trips (g, c) = true) → t.le.tripLines.get g = true ∧ t.le.alert = true) ∧
        ((∀ c, trips (g, c) = false) → t.le.tripLines.get g = s.le.tripLines.get g)) ∧
      (offering = [] → sameFreeze t.cr ∧ t.cr.ignored = s.cr.ignored) ∧
      (s.cr.state ≠ .running → sameFreeze t.cr ∧
        (s.cr.ignored ≤ 65535 → t.cr.ignored = min (s.cr.ignored + offering.length) 65535)) ∧
      (∀ gc rest, offering = gc :: rest → s.cr.state = .running →
        t.cr.state = .post ∧ t.cr.postCount = s.ss.working.freeze.postCycles ∧ t.cr.trigger = some (record gc) ∧
        (s.cr.ignored ≤ 65535 → t.cr.ignored = min (s.cr.ignored + rest.length) 65535)) ∧
      ns.filter (fun n => decide (n ≠ .flag .clip)) = order.flatMap fun gc =>
        (if s.cr.state = .running ∧ offering.head? = some gc then
          [.report (.freezeEvent false (record gc) s.ss.working.freeze.postCycles none s.cr.ignored)] else []) ++
        (if changes gc = true ∧ (setting gc).report = true then
          [.report (.fastEvent gc.1 gc.2 (setting gc).source (setting gc).mode (!(s.fc.get gc.1 gc.2).active)
            (sample gc).value s.ct.issued (trips gc))] else [])

/-! ### The cycle boundary -/

/-- CYCLE_BOUNDARY: CT's cycle number, start, length and marks (R27, R28, R29, R30), the report hold (R165), and all that no boundary
touches. The length is read from the working nominal frequency after application (R31). With the window clock STOPPED, the boundary applies
everything staged, the limit edits included, and in NORMAL and LOCKED the clock starts and the first window opens (R15, R38, R39, R45, R47,
R102, R103, R166). A boundary within a window counts the cycle, marks the open sets DEGRADED when the cycle ran in HOLDOVER, discards those of
the groups that leave and of their pairs, and applies nothing (R40, R44, R45, R47, R153). -/
def Obligations.BoundaryBeginsTheNextCycle : Prop :=
  (∀ (s : State) (inputs : InputLevels), AtBoundary s →
    ∃ t, exec (.cycleBoundary inputs) s = .next t ∧ BoundaryKeeps s t ∧
      t.ct.cycle = s.ct.cycle + 1 ∧ t.ct.start = s.ct.start + BitVec.ofNat 64 s.ct.length ∧ t.ct.issued = 0 ∧
      t.ct.steering = none ∧ t.ct.accepted = s.ct.accepted ∧ t.ct.reference = s.ct.reference ∧
      t.ct.confirmed = s.ct.confirmed ∧ t.ct.candidate = s.ct.candidate ∧ t.ct.previous = s.ct.previous ∧
      t.ct.missTimer = s.ct.missTimer ∧ t.ct.missCount = s.ct.missCount ∧
      t.lc.holdCount = s.lc.holdCount - 1 ∧
      (s.ct.tracker ≠ .holdover → t.ct.tracker = s.ct.tracker ∧ t.ct.holdoverMark = false ∧
        t.ct.holdoverCycles = s.ct.holdoverCycles) ∧
      (s.ct.tracker = .holdover → s.ct.holdoverCycles + 1 < 50 →
        t.ct.tracker = .holdover ∧ t.ct.holdoverMark = true ∧ t.ct.holdoverCycles = s.ct.holdoverCycles + 1 ∧
        t.ct.length = s.ct.accepted.getD 0) ∧
      (t.ct.tracker ≠ .locked → t.ct.tracker ≠ .holdover → t.ct.length = t.ss.working.analysis.nominal.period) ∧
      (∀ a, s.ct.tracker = .locked → s.ct.accepted = some a → s.ct.steering = none → t.ct.length = a) ∧
      (∀ a stamp, s.ct.tracker = .locked → s.ct.accepted = some a → s.ct.steering = some stamp →
        let d := (stamp - s.ct.start).toInt
        let e := if 2 * d ≤ s.ct.length then d else d - s.ct.length
        let bound : Int := (a / 100 : Nat)
        let half := e.tdiv 2
        let c := if half < -bound then -bound else if bound < half then bound else half
        t.ct.length = ((a : Int) + c).toNat)) ∧
  (∀ (s : State) (inputs : InputLevels), AtBoundary s → s.ae.clock = none →
    ∃ t, exec (.cycleBoundary inputs) s = .next t ∧ BoundaryKeeps s t ∧
      t.ss.working = (s.ss.working.applyAnalysis s.ss.staged).applyLimits s.ss.staged ∧ t.ss.staged = Staging.empty ∧
      t.lc.digests = (if s.ss.staged.analysis.isSome then Quad.fill 0 else s.lc.digests) ∧
      (∀ (k : Fin 48) e, s.ss.staged.limits[k] = some (.replace e) →
        t.le.records[k] = e.scope.units.map fun u => (u, { state := .clear, count := 0 })) ∧
      (∀ (k : Fin 48), s.ss.staged.limits[k] = some .delete → t.le.records[k] = []) ∧
      (∀ (k : Fin 48), s.ss.staged.limits[k] = none →
        t.le.records[k].map Prod.fst = s.le.records[k].map Prod.fst ∧
        ∀ ur ∈ t.le.records[k], ur ∈ s.le.records[k] ∨ ur.2 = CondRecord.clear) ∧
      t.ae.groupSlots = s.ae.groupSlots ∧ t.ae.pairSlots = s.ae.pairSlots ∧ t.ae.passes = s.ae.passes ∧
      t.st = s.st ∧
      (StartsClock s →
        t.ae.counter = s.ae.counter + 1 ∧
        t.ae.clock = some { window := s.ae.counter + 1, firstCycle := s.ct.cycle + 1,
                            length := t.ss.working.analysis.window, completed := 0 } ∧
        (∀ g, t.ae.groupSets.get g =
          (if (t.gm.groups.get g).state = .monitor then some GroupSets.opened else none)) ∧
        ∀ p, t.ae.pairSets.get p = (if t.gm.pairs.get p = .intact then some (AccSet.opened 6) else none)) ∧
      (¬ StartsClock s → t.ae = s.ae)) ∧
  ∀ (s : State) (inputs : InputLevels) (w : WindowClock), AtBoundary s → s.ae.clock = some w →
    w.completed + 1 < w.length.cycles → ¬ EntersFree s →
    let degraded := fun (a : AccSet) => { a with degraded := a.degraded || s.ct.holdoverMark }
    ∃ t, exec (.cycleBoundary inputs) s = .next t ∧ BoundaryKeeps s t ∧ t.ss = s.ss ∧
      t.ae.clock = some { window := w.window, firstCycle := w.firstCycle, length := w.length, completed := w.completed + 1 } ∧
      t.ae.counter = s.ae.counter ∧ t.ae.groupSlots = s.ae.groupSlots ∧ t.ae.pairSlots = s.ae.pairSlots ∧
      t.ae.passes = s.ae.passes ∧ t.ae.handovers = s.ae.handovers ∧
      (∀ g, (Leaves s inputs g → t.ae.groupSets.get g = none) ∧
        (¬ Leaves s inputs g → t.ae.groupSets.get g = (s.ae.groupSets.get g).map fun x =>
          { v := degraded x.v, ia := degraded x.ia, ib := degraded x.ib, ig := degraded x.ig })) ∧
      (∀ p, (Leaves s inputs p.first ∨ Leaves s inputs p.second → t.ae.pairSets.get p = none) ∧
        (¬ Leaves s inputs p.first → ¬ Leaves s inputs p.second →
          t.ae.pairSets.get p = (s.ae.pairSets.get p).map degraded)) ∧
      (∀ g, (Leaves s inputs g →
          (t.st.groups.get g)[11] = (s.st.groups.get g)[11] + (if (s.ae.groupSets.get g).isSome then 1 else 0)) ∧
        (¬ Leaves s inputs g → (t.st.groups.get g)[11] = (s.st.groups.get g)[11]) ∧
        ∀ k : Fin 12, k.val ≠ 11 → (t.st.groups.get g)[k] = (s.st.groups.get g)[k]) ∧
      t.lc.digests = s.lc.digests ∧ SameRequests s.lc t.lc

/-- R80 to R84 and R94: the debounce of every input and the step of every group at a boundary, in NORMAL and in MAINTENANCE; that a group
in OUT whose accepted level is CLOSED enters SETTLING at any boundary in NORMAL is log entry 20 (DEDUCED). R88, R89, R90: the pairs, and what a
pair's breaking does to its records and to the verdicts of its groups. R91, R103, R112, R142: the reports that a boundary enqueues, each
with its fields, and the order within each block: GM's reports in group order and then in pair order, each VERDICT_CHANGE behind its change
(R91); those of the limit edits by entry number and then in group order (R103). The cause of a pair's report where both occasions fall on one
boundary is log entry 18 (DESIGN CHOICE). The order of the reports of different blocks is left to log entry 12. That the staged settings, and with
the clock STOPPED the limit edits, are applied before GM takes its step is log entry 12 too (DESIGN CHOICE): the verdicts and records from which
GM's changes start (`before`, `held`), the old verdict of an OUT change, and the settle count of a group that enters SETTLING rest on it. -/
def Obligations.BoundaryMovesTheGroups : Prop :=
  (∀ (s : State) (inputs : InputLevels) (g : GroupId), AtBoundary s →
    let m := s.gm.groups.get g
    let level : Level := if inputs.get g then .closed else .opened
    let changed := level ≠ m.accepted ∧ 1 ≤ m.debounce
    let left := changed ∧ level = .opened ∧ m.state ≠ .out
    ∃ t, exec (.cycleBoundary inputs) s = .next t ∧
      let n := t.gm.groups.get g
      (level = m.accepted → n.accepted = m.accepted ∧ n.debounce = 0) ∧
      (level ≠ m.accepted → m.debounce = 0 → n.accepted = m.accepted ∧ n.debounce = 1) ∧
      (changed → n.accepted = level ∧ n.debounce = 0) ∧
      (left → n.state = .out ∧ n.settle = 0) ∧
      (m.state = .out → s.mode = .normal → n.accepted = .closed →
        n.state = .settling ∧ n.settle = t.ss.working.analysis.settle) ∧
      (m.state = .out → s.mode = .maintenance ∨ n.accepted = .opened → n.state = .out ∧ n.settle = m.settle) ∧
      (m.state = .settling → ¬ left → m.settle ≤ 1 → s.opensWindow = true → n.state = .monitor ∧ n.settle = 0) ∧
      (m.state = .settling → ¬ left → 1 < m.settle ∨ s.opensWindow = false →
        n.state = .settling ∧ n.settle = m.settle - 1) ∧
      (m.state = .monitor → ¬ left → n.state = .monitor ∧ n.settle = m.settle)) ∧
  (∀ (s : State) (a b : Word), s.cr.span = some (a, b) ↔
    s.cr.slots[s.cr.current].tag = some b ∧ ∃ j : Fin 16, s.cr.slots[s.cr.current + 1 + j].tag = some a ∧
      ∀ i : Fin 16, i < j → s.cr.slots[s.cr.current + 1 + i].tag = none) ∧
  ∀ (s : State) (inputs : InputLevels), AtBoundary s →
    let edits := s.ae.clock = none
    let opens := EndsWindow s ∨ StartsClock s
    let before := fun g => if edits then editedVerdict s g else s.le.verdicts.get g
    let held := if edits then editedRecords s else s.le.records
    ∃ t ns opening, ∃ broke cleared : UnitId → Bool, exec (.cycleBoundary inputs) s = .next t ∧
      Posted s.lc t.lc (s.ct.cycle + 1) ns ∧ (opens → opening = s.ae.counter + 1) ∧ (¬ opens → opening = 0) ∧
      let left := fun g => (s.gm.groups.get g).state ≠ .out ∧ (t.gm.groups.get g).state = .out
      let unsupported := fun (p : PairId) => s.gm.pairs.get p = .intact ∧ t.gm.pairs.get p = .broken ∧
        ∃ (k : Fin 48) (r : CondRecord), (UnitId.pair p, r) ∈ held[k] ∧ Stands r
      (∀ p, broke (.pair p) = true ↔ unsupported p) ∧
      (∀ g, cleared (.group g) = true ↔ left g) ∧
      (∀ p, cleared (.pair p) = true ↔ s.gm.pairs.get p = .intact ∧ t.gm.pairs.get p = .broken) ∧
      (∀ k : Fin 48, t.le.records[k] = held[k].map fun ur => if cleared ur.1 then (ur.1, CondRecord.clear) else ur) ∧
      (∀ p, t.gm.pairs.get p = .intact ↔ t.ss.working.analysis.pairing.paired p = true ∧
        (t.gm.groups.get p.first).state = .monitor ∧ (t.gm.groups.get p.second).state = .monitor) ∧
      (∀ g, left g → t.le.verdicts.get g = .normal) ∧
      (∀ g, ¬ left g → unsupported g.pair → VerdictFollows t g) ∧
      (∀ g, ¬ left g → ¬ unsupported g.pair → t.le.verdicts.get g = before g) ∧
      ns.filter ofMonitors =
        (GroupId.all.flatMap fun g =>
          let old := (s.gm.groups.get g).state
          let new := (t.gm.groups.get g).state
          let cause := match new with
            | .out => GroupCause.inputOpen
            | .settling => .inputClosed
            | .monitor => .settled
          if old = new then []
          else Notice.report (.groupEvent g old new cause (if new = .monitor then s.ae.counter + 1 else 0)) ::
            (if left g ∧ before g ≠ .normal then [Notice.report (.verdictChange g (before g) .normal .out 0 none)] else [])) ++
        (PairId.all.flatMap fun p =>
          let old := s.gm.pairs.get p
          let new := t.gm.pairs.get p
          let cause := match new with
            | .broken => if left p.first ∨ left p.second then GroupCause.groupOut else .pairing
            | .intact => if (s.gm.groups.get p.first).state = .monitor ∧ (s.gm.groups.get p.second).state = .monitor
                then .pairing else .groupsMonitored
          if old = new then []
          else Notice.report (.pairEvent p old new cause (if new = .intact then opening else 0)) ::
            (if broke (.pair p) then [p.first, p.second].flatMap fun g =>
                if left g ∨ before g = t.le.verdicts.get g then []
                else [Notice.report (.verdictChange g (before g) (t.le.verdicts.get g) .pairBroken 0
                  (holder t.ss.working.limits t.le.records g))]
              else [])) ∧
      ns.filter ofEdits = (if edits then
          withdrawals s 0 ++
            verdictChanges (fun g => s.le.verdicts.get g) before .limitEdit 0 (holder t.ss.working.limits held)
        else []) ∧
      ns.filter (ofKind 0x86) = (match s.cr.trigger with
        | some record =>
          if s.cr.state = .post ∧ s.cr.postCount = 0 ∧ s.cr.releasePending = false then
            [.report (.freezeEvent true record 0 s.cr.span s.cr.ignored)]
          else []
        | none => []) ∧
      (EntersFree s → ns.filter (ofKind 0x84) =
        [.report (.syncEvent .holdover .free .holdoverLimit 0 s.ct.frequency)]) ∧
      (¬ EntersFree s → ns.filter (ofKind 0x84) = []) ∧
      (∀ b, Notice.report b ∈ ns → ofMonitors (.report b) = true ∨ ofEdits (.report b) = true ∨ b.kind = 0x86 ∨ b.kind = 0x84) ∧
      ∀ f, Notice.flag f ∈ ns → f = .syncFree ∨ f = .windowSkipped

/-- INPUT_CLOSED and INPUT_OPEN: a group in OUT enters SETTLING with the working settle count (R81, R86); a group that leaves has its open
sets discarded and counted once, its records cleared, its verdict NORMAL and its latch kept (R45, R84, R85, R153). That each of the two rows is
the whole cycle boundary is log entry 6 (DEDUCED); that the settle count is the one working after that boundary's application is log entry 12
(DESIGN CHOICE). -/
def Obligations.AcceptedInputs : Prop :=
  (∀ (s : State) (inputs : InputLevels) (g : GroupId), AtBoundary s → s.mode = .normal → inputs.get g = true →
    (s.gm.groups.get g).accepted = .opened → (s.gm.groups.get g).debounce = 1 → (s.gm.groups.get g).state = .out →
    ∃ t, exec (.inputClosed g inputs) s = .next t ∧ exec (.cycleBoundary inputs) s = .next t ∧ BoundaryKeeps s t ∧
      t.gm.groups.get g =
        { accepted := .closed, debounce := 0, state := .settling, settle := t.ss.working.analysis.settle }) ∧
  ∀ (s : State) (inputs : InputLevels) (g : GroupId), AtBoundary s → inputs.get g = false →
    (s.gm.groups.get g).accepted = .closed → (s.gm.groups.get g).debounce = 1 → (s.gm.groups.get g).state ≠ .out →
    (s.ae.clock = none → s.ae.groupSets.get g = none) →
    ∃ t, exec (.inputOpen g inputs) s = .next t ∧ exec (.cycleBoundary inputs) s = .next t ∧ BoundaryKeeps s t ∧
      t.gm.groups.get g = { accepted := .opened, debounce := 0, state := .out, settle := 0 } ∧
      t.ae.groupSets.get g = none ∧ t.ae.groupSlots.get g = s.ae.groupSlots.get g ∧
      (t.st.groups.get g)[11] = (s.st.groups.get g)[11] + (if (s.ae.groupSets.get g).isSome then 1 else 0) ∧
      (∀ (k : Fin 48), ∀ ur ∈ t.le.records[k], ur.1 = .group g → ur.2 = CondRecord.clear) ∧
      t.le.verdicts.get g = .normal

/-- SETTLE_COUNT_EXPIRY, RING_FROZEN and REPORT_HOLD_END are the boundary at which they arise (R82, R83, R138, R165); that each is that whole
boundary is log entry 6 (DEDUCED). -/
def Obligations.SpecialBoundaries : Prop :=
  ∀ (s : State) (inputs : InputLevels), AtBoundary s →
    (∀ g, (s.gm.groups.get g).state = .settling → (s.gm.groups.get g).settle = 1 →
      ¬ Leaves s inputs g →
      ∃ t, exec (.settleCountExpiry g inputs) s = .next t ∧ exec (.cycleBoundary inputs) s = .next t ∧
        (t.gm.groups.get g).settle = 0 ∧
        (t.gm.groups.get g).state = (if s.opensWindow then .monitor else .settling)) ∧
    (s.cr.state = .post → s.cr.postCount = 0 → s.cr.releasePending = false →
      ∃ t, exec (.ringFrozen inputs) s = .next t ∧ exec (.cycleBoundary inputs) s = .next t ∧
        t.cr = { s.cr with state := .frozen }) ∧
    (s.lc.holdCount = 1 →
      ∃ t, exec (.reportHoldEnd inputs) s = .next t ∧ exec (.cycleBoundary inputs) s = .next t ∧
        t.lc.holdCount = 0)

/-- R135, R138, R141: CR at a cycle boundary in each freeze state, with and without a release pending. -/
def Obligations.BoundaryAdvancesTheRing : Prop :=
  ∀ (s : State) (inputs : InputLevels), AtBoundary s → ∃ t, exec (.cycleBoundary inputs) s = .next t ∧
    let next := s.cr.current + 1
    let advanced : Prop := t.cr.current = next ∧ (∀ k, k ≠ next → t.cr.slots[k] = s.cr.slots[k]) ∧
      t.cr.slots[next].tag = some (s.ct.cycle + 1) ∧
      ∀ c, t.cr.slots[next].channels.get c = { samples := [], marks := { clip := false, held := false } }
    (s.cr.state = .running → advanced ∧ t.cr.state = .running ∧ t.cr.trigger = s.cr.trigger) ∧
    (s.cr.state ≠ .running → s.cr.releasePending = true →
      advanced ∧ t.cr.state = .running ∧ t.cr.trigger = none ∧ t.cr.ignored = 0 ∧ t.cr.postCount = 0 ∧
      t.cr.releasePending = false) ∧
    (s.cr.state = .post → s.cr.releasePending = false → 0 < s.cr.postCount →
      advanced ∧ t.cr.state = .post ∧ t.cr.postCount = s.cr.postCount - 1 ∧ t.cr.trigger = s.cr.trigger ∧
      t.cr.ignored = s.cr.ignored) ∧
    (s.cr.state = .post → s.cr.releasePending = false → s.cr.postCount = 0 →
      t.cr = { s.cr with state := .frozen }) ∧
    (s.cr.state = .frozen → s.cr.releasePending = false → t.cr = s.cr)

/-- HOLDOVER_LIMIT: the 50th holdover boundary enters FREE, discards the window in progress and counts the discards, and stops the clock
(R28, R33, R41, R153). That HOLDOVER_LIMIT is the whole cycle boundary at which it arises is log entry 6 (DEDUCED). -/
def Obligations.FiftiethHoldoverBoundary : Prop :=
  ∀ (s : State) (inputs : InputLevels), AtBoundary s → s.ct.tracker = .holdover → s.ct.holdoverCycles = 49 →
    ∃ t, exec (.holdoverLimit inputs) s = .next t ∧ exec (.cycleBoundary inputs) s = .next t ∧ BoundaryKeeps s t ∧
      t.ct.tracker = .free ∧ t.ct.runCount = 0 ∧ t.ct.lastInRange = none ∧ t.ct.accepted = s.ct.accepted ∧
      t.ct.length = t.ss.working.analysis.nominal.period ∧
      flagOf t.lc.flags .syncFree = true ∧
      (∃ ns, Posted s.lc t.lc (s.ct.cycle + 1) ns ∧ Notice.flag .syncFree ∈ ns ∧
        Notice.report (.syncEvent .holdover .free .holdoverLimit 0
          (match s.ct.accepted with
           | some p => roundDiv 10000000000 p
           | none => 0)) ∈ ns) ∧
      t.ae.clock = none ∧ t.ae.counter = s.ae.counter ∧ t.ae.groupSlots = s.ae.groupSlots ∧
      t.ae.pairSlots = s.ae.pairSlots ∧ t.ae.passes = s.ae.passes ∧
      (s.ae.clock.isSome = true →
        (∀ g, t.ae.groupSets.get g = none ∧
          (t.st.groups.get g)[11] = (s.st.groups.get g)[11] + (if (s.ae.groupSets.get g).isSome then 1 else 0)) ∧
        (∀ p, t.ae.pairSets.get p = none) ∧ t.ss.working = s.ss.working ∧ t.ss.staged = s.ss.staged)

/-- The first two parts say what applying the staged settings does, value by value (R15, R47, R73, R102), and what a job's snapshot holds (R46).
WINDOW_BOUNDARY: the hand-over, the skip or the discard of every open set of a group and of a pair, the outcomes that the window's pass
will carry, the application of the staged analysis class, the opening of the next window, and the analysis class of a SYNC_POINT in flight
(R40, R45 to R48, R52, R153, R162, R166). That WINDOW_BOUNDARY is the whole cycle boundary at which the window ends is log entry 6 (DEDUCED). A
job and its window's pass carry one ordinal, the model's own (log entry 22); a pair's job takes the snapshot of its first group (log entry 28). -/
def Obligations.WindowBoundaryProtocol : Prop :=
  (∀ (st : Staging) (x : Settings),
    let y := x.applyAnalysis st
    let z := x.applyLimits st
    Applied st.analysis x.analysis y.analysis ∧ (∀ i : Fin 50, Applied st.weights[i] x.weights[i] y.weights[i]) ∧
    (∀ c, let staged := st.channels.get c
      let old := x.channels.get c
      let new := y.channels.get c
      Applied staged.fs old.fs new.fs ∧ Applied staged.offsetLow old.offsetLow new.offsetLow ∧
      Applied staged.gainLow old.gainLow new.gainLow ∧ Applied staged.offsetHigh old.offsetHigh new.offsetHigh ∧
      Applied staged.gainHigh old.gainHigh new.gainHigh ∧ Applied staged.rangeMode old.rangeMode new.rangeMode ∧
      Applied staged.hold old.hold new.hold) ∧
    y = { x with channels := y.channels, analysis := y.analysis, weights := y.weights } ∧
    (∀ k : Fin 48, (st.limits[k] = none → z.limits[k] = x.limits[k]) ∧
      (∀ e, st.limits[k] = some (.replace e) → z.limits[k] = some e) ∧
      (st.limits[k] = some .delete → z.limits[k] = none)) ∧
    z = { x with limits := z.limits }) ∧
  (∀ (x : Settings) (g : GroupId), x.snapshot g =
    { fsV := (x.channels.get (.v g)).fs, fsIA := (x.channels.get (.ia g)).fs, fsIB := (x.channels.get (.ib g)).fs,
      baseMin := x.analysis.baseMin, lightLoad := x.analysis.lightLoad, weights := x.weights }) ∧
  ∀ (s : State) (inputs : InputLevels) (w : WindowClock), AtBoundary s → s.ae.clock = some w →
    w.length.cycles = w.completed + 1 → (s.ct.tracker = .holdover → s.ct.holdoverCycles + 1 < 50) →
    ∃ t, exec (.windowBoundary inputs) s = .next t ∧ exec (.cycleBoundary inputs) s = .next t ∧ BoundaryKeeps s t ∧
      t.ss.working = s.ss.working.applyAnalysis s.ss.staged ∧ t.ss.staged.analysis = none ∧
      (∀ c, t.ss.staged.channels.get c = StagedChannel.empty) ∧ (∀ i : Fin 50, t.ss.staged.weights[i] = none) ∧
      t.ss.staged.limits = s.ss.staged.limits ∧
      t.ae.counter = s.ae.counter + 1 ∧
      t.ae.clock = some { window := s.ae.counter + 1, firstCycle := s.ct.cycle + 1,
                          length := t.ss.working.analysis.window, completed := 0 } ∧
      (∀ g, t.ae.groupSets.get g =
        (if (t.gm.groups.get g).state = .monitor then some GroupSets.opened else none)) ∧
      (∀ p, t.ae.pairSets.get p = (if t.gm.pairs.get p = .intact then some (AccSet.opened 6) else none)) ∧
      SameRequests (s.lc.closeAnalysis (some (s.ae.counter + 1))) t.lc ∧
      t.lc.digests = (if s.ss.staged.analysis.isSome then Quad.fill 0 else s.lc.digests) ∧
      (∃ pass : Pass, t.ae.passes = s.ae.passes ++ [pass] ∧ pass.window = w.window ∧ pass.order = s.ae.handovers ∧
        t.ae.handovers = s.ae.handovers + 1 ∧
        (∀ p,
          let breaks := Leaves s inputs p.first ∨ Leaves s inputs p.second
          (breaks ∨ s.ae.pairSets.get p = none →
            t.ae.pairSlots.get p = s.ae.pairSlots.get p ∧ pass.pairs.get p = .none) ∧
          (∀ set, ¬ breaks → s.ae.pairSets.get p = some set → s.ae.pairSlots.get p = .empty →
            pass.pairs.get p = .awaited ∧
            ∃ job : PairJob, t.ae.pairSlots.get p = .waiting job ∧ job.head.order = pass.order ∧
              job.head.window = w.window ∧ job.head.firstCycle = w.firstCycle ∧ job.head.length = w.length ∧
              job.head.snapshot = s.ss.working.snapshot p.first ∧
              job.set = (if s.ct.holdoverMark then set.setDegraded else set)) ∧
          (∀ set, ¬ breaks → s.ae.pairSets.get p = some set → s.ae.pairSlots.get p ≠ .empty →
            t.ae.pairSlots.get p = s.ae.pairSlots.get p ∧ pass.pairs.get p = .skipped ∧
            flagOf t.lc.flags .windowSkipped = true)) ∧
        ∀ g,
          let leaves := (s.gm.groups.get g).leaves (inputs.get g)
          (leaves = true ∨ s.ae.groupSets.get g = none →
            t.ae.groupSlots.get g = s.ae.groupSlots.get g ∧ pass.groups.get g = .none ∧
            (t.st.groups.get g)[10] = (s.st.groups.get g)[10]) ∧
          (∀ sets, leaves = false → s.ae.groupSets.get g = some sets → s.ae.groupSlots.get g = .empty →
            pass.groups.get g = .awaited ∧ (t.st.groups.get g)[10] = (s.st.groups.get g)[10] ∧
            ∃ job : GroupJob, t.ae.groupSlots.get g = .waiting job ∧ job.head.order = pass.order ∧
              job.head.window = w.window ∧
              job.head.firstCycle = w.firstCycle ∧ job.head.length = w.length ∧
              job.head.snapshot = s.ss.working.snapshot g ∧
              job.sets = (if s.ct.holdoverMark then sets.setDegraded else sets)) ∧
          (∀ sets, leaves = false → s.ae.groupSets.get g = some sets → s.ae.groupSlots.get g ≠ .empty →
            t.ae.groupSlots.get g = s.ae.groupSlots.get g ∧ pass.groups.get g = .skipped ∧
            (t.st.groups.get g)[10] = (s.st.groups.get g)[10] + 1 ∧ flagOf t.lc.flags .windowSkipped = true))

/-! ### Finishing jobs and the evaluation pass -/

/-- JOB_START: with the arithmetic unit idle, the WAITING job of the earliest hand-over becomes RUNNING, groups before pairs and lower
numbers first (R50); nothing else changes. While a job runs none starts. The earliest hand-over is the one with the lowest ordinal, which the
model counts itself (log entry 22, DEDUCED). -/
def Obligations.EarliestJobStarts : Prop :=
  ∀ s : State, s.inReset = false →
    (0 < runningSlots s.ae → exec .jobStart s = .next s) ∧
    (∀ g job, runningSlots s.ae = 0 → s.ae.groupSlots.get g = .waiting job →
      (∀ h other, s.ae.groupSlots.get h = .waiting other →
        job.head.order < other.head.order ∨ (job.head.order = other.head.order ∧ g.toNat ≤ h.toNat)) →
      (∀ p other, s.ae.pairSlots.get p = .waiting other → job.head.order ≤ other.head.order) →
      exec .jobStart s = .next { s with ae := { s.ae with groupSlots := s.ae.groupSlots.set g (.running job) } }) ∧
    ∀ p job, runningSlots s.ae = 0 → s.ae.pairSlots.get p = .waiting job →
      (∀ g other, s.ae.groupSlots.get g = .waiting other → job.head.order < other.head.order) →
      (∀ r other, s.ae.pairSlots.get r = .waiting other →
        job.head.order < other.head.order ∨ (job.head.order = other.head.order ∧ p.toNat ≤ r.toNat)) →
      exec .jobStart s = .next { s with ae := { s.ae with pairSlots := s.ae.pairSlots.set p (.running job) } }

/-- JOB_COMPLETION: the record becomes latest and latest previous, the slot empties, the window's pass receives the record, ST counts it
and, for a group, LC may send its digest; nothing else changes (R51, R52, R151, R152, R166). The window's pass is found by the ordinal that it
and the job carry, the model's own (log entry 22, DEDUCED). -/
def Obligations.JobCompletionStores : Prop :=
  (∀ (s : State) (g : GroupId) (job : GroupJob), s.inReset = false → runningSlots s.ae = 1 →
    s.ae.groupSlots.get g = .running job →
    let r := job.record g
    let N := s.ss.working.analysis.digest
    let before := s.st.groups.get g
    ∃ t, exec .jobCompletion s = .next t ∧
      t = { s with ae := t.ae, st := t.st, lc := t.lc } ∧
      t.ae = { s.ae with
        groupSlots := s.ae.groupSlots.set g .empty
        groupStore := s.ae.groupStore.set g { latest := some r, previous := (s.ae.groupStore.get g).latest }
        passes := s.ae.passes.map fun p =>
          if p.order = job.head.order then { p with groups := p.groups.set g (.record r) } else p } ∧
      t.st.pairs = s.st.pairs ∧ (∀ h, h ≠ g → t.st.groups.get h = s.st.groups.get h) ∧
      (t.st.groups.get g)[7] = before[7] + 1 ∧
      (t.st.groups.get g)[8] = before[8] + (if r.rf.isSome then 1 else 0) ∧
      (t.st.groups.get g)[9] = before[9] + (if r.degraded then 1 else 0) ∧
      (t.st.groups.get g)[10] = before[10] ∧ (t.st.groups.get g)[11] = before[11] ∧
      (∀ x, r.rf = some x → x ≤ 65535 ∧ ∀ b : Fin 12, b.val < 7 →
        (t.st.groups.get g)[b] = before[b] +
          (if [0, 25, 50, 100, 200, 400, 800].getD b.val 0 ≤ x ∧ x ≤ [24, 49, 99, 199, 399, 799, 65535].getD b.val 0
           then 1 else 0)) ∧
      (r.rf = none → ∀ b : Fin 12, b.val < 7 → (t.st.groups.get g)[b] = before[b]) ∧
      (N = 0 → t.lc = s.lc) ∧
      (s.lc.digests.get g + 1 < N →
        t.lc = { s.lc with digests := s.lc.digests.set g (s.lc.digests.get g + 1) }) ∧
      (0 < N → N ≤ s.lc.digests.get g + 1 →
        t.lc = LinkController.post s.ct.cycle { s.lc with digests := s.lc.digests.set g 0 }
          [.report (.windowDigest g r.window r.meanV r.rf r.jg (s.le.verdicts.get g))])) ∧
  ∀ (s : State) (p : PairId) (job : PairJob), s.inReset = false → runningSlots s.ae = 1 →
    s.ae.pairSlots.get p = .running job →
    let r := job.record p
    exec .jobCompletion s = .next { s with
      ae := { s.ae with
        pairSlots := s.ae.pairSlots.set p .empty
        pairStore := s.ae.pairStore.set p { latest := some r, previous := (s.ae.pairStore.get p).latest }
        passes := s.ae.passes.map fun pass =>
          if pass.order = job.head.order then { pass with pairs := pass.pairs.set p (.record r) } else pass }
      st := { s.st with pairs := s.st.pairs.set p (s.st.pairs.get p + 1) } }

/-- EVALUATION_PASS: the limit edits, the judgements, the verdicts, the latches and the freeze triggers, with every report of the pass and the
limit class of a SYNC_POINT in flight (R102, R103, R107, R108, R109, R110, R111, R112, R113, R137, R139, R162). `edited` is the verdict that
the edits of step 1 leave. The reports are given one after the other, each once, in the order of R103, R109 and R142. Every verdict that step
3 moves to ALARM or TRIP offers a trigger, a fall from TRIP to ALARM among them, which is log entry 19 (DEDUCED). The last part says which
entry a VERDICT_CHANGE names. -/
def Obligations.EvaluationPassSteps : Prop :=
  (∀ (s : State) (p : Pass) (rest : List Pass), s.inReset = false → s.ae.passes = p :: rest → p.ready = true →
    let edited := editedVerdict s
    let judged := fun (e : LimitEntry) (ur : UnitId × CondRecord) =>
      match judgedValue s.gm p e ur.1 with
      | some x => (ur.1, ur.2.judge e x)
      | none => ur
    let sameFreeze := fun (c : CaptureRing) =>
      c.state = s.cr.state ∧ c.trigger = s.cr.trigger ∧ c.postCount = s.cr.postCount
    ∃ t, exec .evaluationPass s = .next t ∧
      t = { s with ae := t.ae, le := t.le, cr := t.cr, lc := t.lc, ss := t.ss } ∧
      t.ae = { s.ae with passes := rest } ∧
      t.ss = { s.ss with
        working := s.ss.working.applyLimits s.ss.staged
        staged := { s.ss.staged with limits := Vector.replicate 48 none } } ∧
      (∀ (k : Fin 48) e, s.ss.staged.limits[k] = none → s.ss.working.limits[k] = some e →
        t.le.records[k] = s.le.records[k].map (judged e)) ∧
      (∀ (k : Fin 48) e, s.ss.staged.limits[k] = some (.replace e) →
        t.le.records[k] = (e.scope.units.map fun u => (u, { state := .clear, count := 0 })).map (judged e)) ∧
      (∀ (k : Fin 48), s.ss.staged.limits[k] = some .delete → t.le.records[k] = []) ∧
      (∀ g, VerdictFollows t g) ∧
      (∀ g, t.le.latches.get g = true ↔
        s.le.latches.get g = true ∨ (t.le.verdicts.get g = .trip ∧ edited g ≠ .trip)) ∧
      (∀ g, t.le.verdicts.get g = .trip → edited g ≠ .trip → t.le.tripLines.get g = true) ∧
      t.cr = { s.cr with state := t.cr.state, trigger := t.cr.trigger, postCount := t.cr.postCount,
                         ignored := t.cr.ignored } ∧
      t.lc.receiver = s.lc.receiver ∧ t.lc.sending = s.lc.sending ∧ t.lc.masks = s.lc.masks ∧
      t.lc.counters = s.lc.counters ∧ t.lc.holdCount = s.lc.holdCount ∧
      SameRequests (s.lc.closeLimit (some p.window)) t.lc ∧
      let offering := [GroupId.g0, .g1, .g2, .g3].filter fun g => decide (t.le.verdicts.get g ≠ edited g) &&
        ((decide (t.le.verdicts.get g = .alarm) && s.ss.working.freeze.verdictAlarm) ||
         (decide (t.le.verdicts.get g = .trip) && s.ss.working.freeze.verdictTrip))
      let record := fun g => ({ cause := if t.le.verdicts.get g = .trip then .verdictTrip else .verdictAlarm, group := some g,
                                comparator := none, window := some p.window, cycle := s.ct.cycle } : TriggerRecord)
      (offering = [] → sameFreeze t.cr ∧ t.cr.ignored = s.cr.ignored) ∧
      (s.cr.state ≠ .running → sameFreeze t.cr ∧
        (s.cr.ignored ≤ 65535 → t.cr.ignored = min (s.cr.ignored + offering.length) 65535)) ∧
      (∀ g more, offering = g :: more → s.cr.state = .running →
        t.cr.state = .post ∧ t.cr.postCount = s.ss.working.freeze.postCycles ∧
        (s.cr.ignored ≤ 65535 → t.cr.ignored = min (s.cr.ignored + more.length) 65535) ∧
        t.cr.trigger = some (record g)) ∧
      Posted s.lc t.lc s.ct.cycle
        (withdrawals s p.window ++
          verdictChanges (fun g => s.le.verdicts.get g) edited .limitEdit p.window
            (holder t.ss.working.limits (editedRecords s)) ++
          judgements s.gm p t.ss.working.limits (editedRecords s) ++
          verdictChanges edited (fun g => t.le.verdicts.get g) .evaluation p.window
            (holder t.ss.working.limits t.le.records) ++
          (if s.cr.state = .running then offering.head?.toList else []).map fun g =>
            .report (.freezeEvent false (record g) s.ss.working.freeze.postCycles none s.cr.ignored))) ∧
  ∀ (limits : Vector (Option LimitEntry) 48) (records : Vector (List (UnitId × CondRecord)) 48) (g : GroupId),
    let stands := fun (k : Nat) (severity : Severity) (u : UnitId) =>
      ∃ (i : Fin 48) (e : LimitEntry) (r : CondRecord), i.val = k ∧ limits[i] = some e ∧ (u, r) ∈ records[i] ∧
        AppliesTo g u ∧ Stands r ∧ e.severity = severity
    (holder limits records g = none ↔ ∀ k severity u, ¬ stands k severity u) ∧
    ∀ k ofPair, holder limits records g = some (k, ofPair) →
      ∃ severity u, stands k severity u ∧ (ofPair = true ↔ ∃ p, u = .pair p) ∧
        ∀ k' severity' u', stands k' severity' u' →
          severity'.code ≤ severity.code ∧ (severity' = severity → k ≤ k')

/-- R106: over and clear by the sense, the table of moves, and the record that an unavailable value leaves as it is. R98, R105, R108: the
value that a record is to judge: of a watched unit whose outcome is a record, the figure that the entry's quantity draws from it, unless the
record's flags hold it back. -/
def Obligations.PersistenceTable : Prop :=
  (∀ (e : LimitEntry) (x : Int) (r : CondRecord), 1 ≤ e.onCount → 1 ≤ e.offCount → CountFits e r →
    let isOver : Prop := match e.sense with
      | .above => e.limit < x
      | .below => x < e.limit
    let isCleared : Prop := match e.sense with
      | .above => x ≤ e.release
      | .below => e.release ≤ x
    let after := r.judge e x
    (r.state = .clear → isOver → e.onCount = 1 → after = { state := .active, count := 0 }) ∧
    (r.state = .clear → isOver → e.onCount ≠ 1 → after = { state := .pendingOn, count := 1 }) ∧
    (r.state = .clear → ¬ isOver → after = r) ∧
    (r.state = .pendingOn → isOver → r.count + 1 = e.onCount → after = { state := .active, count := 0 }) ∧
    (r.state = .pendingOn → isOver → r.count + 1 ≠ e.onCount → after = { state := .pendingOn, count := r.count + 1 }) ∧
    (r.state = .pendingOn → ¬ isOver → after = { state := .clear, count := 0 }) ∧
    (r.state = .active → isCleared → e.offCount = 1 → after = { state := .clear, count := 0 }) ∧
    (r.state = .active → isCleared → e.offCount ≠ 1 → after = { state := .pendingOff, count := 1 }) ∧
    (r.state = .active → ¬ isCleared → after = r) ∧
    (r.state = .pendingOff → isCleared → r.count + 1 = e.offCount → after = { state := .clear, count := 0 }) ∧
    (r.state = .pendingOff → isCleared → r.count + 1 ≠ e.offCount →
      after = { state := .pendingOff, count := r.count + 1 }) ∧
    (r.state = .pendingOff → ¬ isCleared → after = { state := .active, count := 0 }) ∧
    CountFits e after) ∧
  (∀ (m : Monitors) (p : Pass) (e : LimitEntry) (ur : UnitId × CondRecord),
    (p.value e ur.1 = none → judgeRecord m p e ur = ur)) ∧
  (∀ (m : Monitors) (p : Pass) (e : LimitEntry),
    (∀ g, (m.groups.get g).state ≠ .monitor ∨ (∀ r, p.groups.get g ≠ .record r) → judgedValue m p e (.group g) = none) ∧
    ∀ q, m.pairs.get q ≠ .intact ∨ (∀ r, p.pairs.get q ≠ .record r) → judgedValue m p e (.pair q) = none) ∧
  ∀ (e : LimitEntry), ∃ largest : Lines → Nat,
    (1 ≤ e.first.toNat → e.first.toNat ≤ e.last.toNat → e.last.toNat ≤ 50 → ∀ v : Lines,
      (∃ i : Fin 50, e.first.toNat ≤ i.val + 1 ∧ i.val + 1 ≤ e.last.toNat ∧ v[i] = largest v) ∧
      ∀ i : Fin 50, e.first.toNat ≤ i.val + 1 → i.val + 1 ≤ e.last.toNat → v[i] ≤ largest v) ∧
    (∀ (m : Monitors) (p : Pass) (g : GroupId) (r : GroupRecord), (m.groups.get g).state = .monitor →
      p.groups.get g = .record r →
      let judges := fun (sources : List Marks) (value : Option Nat) => judgedValue m p e (.group g) =
        if sources.any Marks.clip || (decide (e.severity = .trip) && (r.degraded || sources.any Marks.held)) then none
        else value.map Int.ofNat
      (e.quantity = .vRf → judges [r.marksV] r.rf) ∧
      (e.quantity = .vPpr → judges [r.marksV] r.ppr) ∧
      (e.quantity = .vHarm → judges [r.marksV] (r.ratiosV.map largest)) ∧
      (e.quantity = .iHarm → e.bridge = 0 → judges [r.marksIA] (some (largest r.linesIA))) ∧
      (e.quantity = .iHarm → e.bridge = 1 → judges [r.marksIB] (some (largest r.linesIB))) ∧
      (e.quantity = .iHarm → e.bridge = 2 →
        judges [r.marksIA, r.marksIB] (some (max (largest r.linesIA) (largest r.linesIB)))) ∧
      (e.quantity = .armK → e.bridge = 0 → judges [r.marksIA] r.ka) ∧
      (e.quantity = .armK → e.bridge = 1 → judges [r.marksIB] r.kb) ∧
      (e.quantity = .armK → e.bridge = 2 → judges [r.marksIA, r.marksIB]
        (match r.ka, r.kb with
         | some a, some b => some (max a b)
         | some a, none => some a
         | none, b => b)) ∧
      (e.quantity = .shareDev → judges [r.marksIA, r.marksIB] r.sd) ∧
      (e.quantity = .iMean → judgedValue m p e (.group g) =
        if [r.marksIA, r.marksIB].any Marks.clip ||
            (decide (e.severity = .trip) && (r.degraded || [r.marksIA, r.marksIB].any Marks.held)) then none
        else some r.meanIG) ∧
      (e.quantity = .jg → judges [r.marksIA, r.marksIB] (some r.jg)) ∧
      (e.quantity = .pHarm ∨ e.quantity = .jp → judgedValue m p e (.group g) = none)) ∧
    ∀ (m : Monitors) (p : Pass) (q : PairId) (r : PairRecord) (v₁ a₁ b₁ v₂ a₂ b₂ : Marks), m.pairs.get q = .intact →
      p.pairs.get q = .record r → r.marks = [v₁, a₁, b₁, v₂, a₂, b₂] →
      let judges := fun (value : Option Nat) => judgedValue m p e (.pair q) =
        if [a₁, b₁, a₂, b₂].any Marks.clip ||
            (decide (e.severity = .trip) && (r.degraded || [a₁, b₁, a₂, b₂].any Marks.held)) then none
        else value.map Int.ofNat
      (e.quantity = .pHarm → judges (r.ratiosIP.map largest)) ∧
      (e.quantity = .jp → judges (some r.jp)) ∧
      (e.quantity ≠ .pHarm → e.quantity ≠ .jp → judgedValue m p e (.pair q) = none)

/-! ### The arithmetic of a record -/

/-- isqrt rounds the root down (00_scope); a set keeps the plain sums of its samples, so that the ripple is the root of an exact
variance that is never negative (R43, R61, R62). The first two parts pin the tables: entries 0 to 30 as tabulated, the symmetries, and the
sine as the shifted cosine (R59). -/
def Obligations.SumsAndRoots : Prop :=
  (List.range 31).map cosT =
    [32767, 32722, 32587, 32364, 32051, 31650, 31163, 30591, 29934, 29196, 28377,
     27481, 26509, 25465, 24351, 23170, 21925, 20621, 19260, 17846, 16384, 14876,
     13328, 11743, 10126, 8481, 6813, 5126, 3425, 1715, 0] ∧
  (∀ k, (31 ≤ k → k ≤ 60 → cosT k = -cosT (60 - k)) ∧ (61 ≤ k → k ≤ 119 → cosT k = cosT (120 - k)) ∧
    cosT k = cosT (k % 120) ∧ sinT k = cosT ((k + 90) % 120)) ∧
  (∀ n, isqrt n * isqrt n ≤ n ∧ n < (isqrt n + 1) * (isqrt n + 1)) ∧
  ∀ (channels : Nat) (xs : List (Nat × Int × List Sample)),
    let a := xs.foldl (fun a x => a.addWithExtremes x.1 x.2.1 x.2.2) (AccSet.opened channels)
    let values := xs.map fun x => x.2.1
    a.s0 = values.sum ∧ (a.q : Int) = (values.map fun x => x * x).sum ∧
      a.s0 * a.s0 ≤ xs.length * a.q ∧
      (∀ y, a.largest = some y ↔ y ∈ values ∧ ∀ x ∈ values, x ≤ y) ∧
      (∀ y, a.smallest = some y ↔ y ∈ values ∧ ∀ x ∈ values, y ≤ x) ∧
      ∀ i : Fin 50,
        a.cosSums[i] = (xs.map fun x => x.2.1 * cosT ((i.val + 1) * x.1)).sum ∧
        a.sinSums[i] = (xs.map fun x => x.2.1 * sinT ((i.val + 1) * x.1)).sum

/-- Every figure of a group record and of a pair record by its formula, the raw figures before their clamps being named: the means (R61), the
ripple (R62) and the peak to peak (R63), the lines (R64), their conversion (R66), the base condition with RF, PPR and the line ratios (R68,
R69, R70), SD, KA and KB (R71, R72), JG and JP (R75), the pair's base and ratios (R77), and the flags (R53, R54, R58), with the bounds of R66.
That IG and JG take the FS of IA, and a pair that of its first group's IA, is log entry 28. -/
def Obligations.FiguresOfARecord : Prop :=
  (∀ (g : GroupId) (job : GroupJob),
    let n := job.head.length.samples
    let sn := job.head.snapshot
    let V := job.sets.v
    let A := job.sets.ia
    let B := job.sets.ib
    let G := job.sets.ig
    let r := job.record g
    ∃ (mV mA mB mG share : Int) (ripple rippleG peak rf ppr ka kb j : Nat) (rawV rawA rawB rawG ratio : Fin 50 → Nat),
      let aV := fun i => min (rawV i) 32767
      let aA := fun i => min (rawA i) 262143
      let aB := fun i => min (rawB i) 262143
      let aG := fun i => min (rawG i) 524287
      let shared := (sn.lightLoad : Int) ≤ r.meanIG ∧ 0 < mA + mB
      let armA := (sn.lightLoad : Int) ≤ r.meanIA ∧ mA ≠ 0
      let armB := (sn.lightLoad : Int) ≤ r.meanIB ∧ mB ≠ 0
      r.group = g ∧ r.window = job.head.window ∧ r.firstCycle = job.head.firstCycle ∧ r.length = job.head.length ∧
      Rounds V.s0 n mV ∧ Rounds A.s0 n mA ∧ Rounds B.s0 n mB ∧ Rounds G.s0 n mG ∧
      Rounds (mV * sn.fsV) 32768 r.meanV ∧ Rounds (mA * sn.fsIA) 262144 r.meanIA ∧
      Rounds (mB * sn.fsIB) 262144 r.meanIB ∧ Rounds (mG * sn.fsIA) 262144 r.meanIG ∧
      RippleRms V n ripple ∧ Rounds (ripple * sn.fsV : Nat) 32768 r.rippleV ∧
      RippleRms G n rippleG ∧ Rounds (rippleG * sn.fsIA : Nat) 262144 r.rippleIG ∧
      (∀ a b, V.largest = some a → V.smallest = some b → b ≤ a → (peak : Int) = a - b) ∧
      Rounds (peak * sn.fsV : Nat) 32768 r.peakV ∧
      (∀ i, RawLine V n i (rawV i) ∧ RawLine A n i (rawA i) ∧ RawLine B n i (rawB i) ∧ RawLine G n i (rawG i)) ∧
      (∀ i : Fin 50, Rounds (aV i * sn.fsV : Nat) 32768 r.linesV[i] ∧ Rounds (aA i * sn.fsIA : Nat) 262144 r.linesIA[i] ∧
        Rounds (aB i * sn.fsIB : Nat) 262144 r.linesIB[i] ∧ Rounds (aG i * sn.fsIA : Nat) 262144 r.linesIG[i]) ∧
      (r.noBase = false ↔ mV ≠ 0 ∧ sn.baseMin ≤ r.meanV.natAbs) ∧
      (mV ≠ 0 → Rounds (ripple * 10000 : Nat) mV.natAbs rf ∧ Rounds (peak * 10000 : Nat) mV.natAbs ppr ∧
        ∀ i, Rounds (aV i * 10000 : Nat) mV.natAbs (ratio i)) ∧
      r.rf = (if r.noBase then none else some (min rf 65535)) ∧
      r.ppr = (if r.noBase then none else some (min ppr 65535)) ∧
      (r.noBase = true → r.ratiosV = none) ∧
      (r.noBase = false → ∃ v, r.ratiosV = some v ∧ ∀ i : Fin 50, v[i] = min (ratio i) 65535) ∧
      (0 < mA + mB → Rounds (mA * 10000) (mA + mB).natAbs share) ∧
      r.sd = (if shared then some (min (share - 5000).natAbs 65535) else none) ∧
      (mA ≠ 0 → RawArmIndex (aA 0) (aA 1) mA ka) ∧ r.ka = (if armA then some (min ka 65535) else none) ∧
      (mB ≠ 0 → RawArmIndex (aB 0) (aB 1) mB kb) ∧ r.kb = (if armB then some (min kb 65535) else none) ∧
      RawInterference sn.weights aG j ∧ Rounds (min j 524287 * sn.fsIA : Nat) 262144 r.jg ∧
      (r.clamped = true ↔
        (∃ i, 32767 < rawV i ∨ 262143 < rawA i ∨ 262143 < rawB i ∨ 524287 < rawG i) ∨
        (r.noBase = false ∧ (65535 < rf ∨ 65535 < ppr ∨ ∃ i, 65535 < ratio i)) ∨
        (shared ∧ 65535 < (share - 5000).natAbs) ∨ (armA ∧ 65535 < ka) ∨ (armB ∧ 65535 < kb) ∨ 524287 < j) ∧
      (r.degraded = true ↔ V.degraded = true ∨ A.degraded = true ∨ B.degraded = true ∨ G.degraded = true) ∧
      (∀ v a b gA gB, V.marks = [v] → A.marks = [a] → B.marks = [b] → G.marks = [gA, gB] →
        r.marksV = v ∧ r.marksIA = { clip := a.clip || gA.clip, held := a.held || gA.held } ∧
        r.marksIB = { clip := b.clip || gB.clip, held := b.held || gB.held }) ∧
      (sn.fsV ≤ 65535 → ∀ i : Fin 50, r.linesV[i] ≤ 65533) ∧
      (sn.fsIA ≤ 65535 → r.jg ≤ 131070)) ∧
  ∀ (p : PairId) (job : PairJob),
    let n := job.head.length.samples
    let sn := job.head.snapshot
    let r := job.record p
    ∃ (m : Int) (j : Nat) (raw ratio : Fin 50 → Nat),
      let a := fun i => min (raw i) 1048575
      r.pair = p ∧ r.window = job.head.window ∧ r.firstCycle = job.head.firstCycle ∧ r.length = job.head.length ∧
      r.marks = job.set.marks ∧ r.degraded = job.set.degraded ∧
      Rounds job.set.s0 n m ∧ Rounds (m * sn.fsIA) 262144 r.meanIP ∧
      (∀ i, RawLine job.set n i (raw i)) ∧ (∀ i : Fin 50, Rounds (a i * sn.fsIA : Nat) 262144 r.linesIP[i]) ∧
      (r.noBase = false ↔ m ≠ 0 ∧ 2 * sn.lightLoad ≤ r.meanIP.natAbs) ∧
      (m ≠ 0 → ∀ i, Rounds (a i * 10000 : Nat) m.natAbs (ratio i)) ∧
      (r.noBase = true → r.ratiosIP = none) ∧
      (r.noBase = false → ∃ v, r.ratiosIP = some v ∧ ∀ i : Fin 50, v[i] = min (ratio i) 65535) ∧
      RawInterference sn.weights a j ∧ Rounds (min j 1048575 * sn.fsIA : Nat) 262144 r.jp ∧
      (r.clamped = true ↔ (∃ i, 1048575 < raw i) ∨ (r.noBase = false ∧ ∃ i, 65535 < ratio i) ∨ 1048575 < j)

/-! ### The line, the pending list, the transmitter and the report queue -/

/-- A frame laid out by R157 and received character by character, each within the gap, enters the pending list whole and is counted
(R157, R158, R159); nothing but the time and LC changes. `gap` counts from stop bit to stop bit, of which 217 are the character's own. -/
def Obligations.FrameOnTheWireIsReceived : Prop :=
  ∀ (s : State) (f : Frame) (gap : Nat), s.inReset = false → f.payload.length ≤ 248 → gap ≤ 10217 →
    s.lc.receiver = .hunt → s.lc.gapFrom = none → s.lc.entries.length < 4 →
    feed gap f.wire s = .next { s with
      ct := { s.ct with timebase := s.ct.timebase + BitVec.ofNat 64 (gap * f.wire.length) }
      lc := { s.lc with
        entries := s.lc.entries ++ [{ request := f, stage := .waiting }]
        counters := s.lc.counters.set 0 (s.lc.counters[0] + 1) } }

/-- LINK_CHARACTER, GAP_TIMEOUT and FRAME_ACCEPTED: the receiver's four states, the discards with their counters and flags, the gap timer,
and the hand-on of a good frame, whatever its kind, to the pending list or to the overflow (R158, R159). The character time of 217 counts
within the gap is the model's (log entry 13); that GAP_TIMEOUT moves the timebase to the count at which the gap is passed, and leaves it where
it is when already past that, is the model's choice (log entry 8); a character that comes after an untaken timeout finds the frame abandoned
(log entry 10, DEDUCED). That FRAME_ACCEPTED is the whole LINK_CHARACTER that completes the frame is log entry 6 (DEDUCED). -/
def Obligations.ReceiverStates : Prop :=
  (∀ (s : State) (elapsed : Nat) (b : Byte) (stop : Bool), s.inReset = false →
    let now := s.ct.timebase + BitVec.ofNat 64 elapsed
    (∀ u, s.lc.gapFrom = some u → (now - u).toNat ≤ 10217) →
    ∃ l, exec (.linkCharacter elapsed b stop) s = .next { s with ct := { s.ct with timebase := now }, lc := l } ∧
      let counted := fun k => { s.lc with receiver := .hunt, gapFrom := none, counters := bumpAt s.lc.counters k }
      (s.lc.receiver = .hunt → b ≠ 0xA5 → l = s.lc) ∧
      (s.lc.receiver = .hunt → b = 0xA5 → l = { s.lc with receiver := .length, gapFrom := some now }) ∧
      (s.lc.receiver = .length → b.toNat < 2 → l = LinkController.raise s.ct.cycle (counted 2) .linkRunt) ∧
      (s.lc.receiver = .length → 250 < b.toNat → l = LinkController.raise s.ct.cycle (counted 3) .linkOverlong) ∧
      (s.lc.receiver = .length → 2 ≤ b.toNat → b.toNat ≤ 250 →
        l = { s.lc with receiver := .body b.toNat [], gapFrom := some now }) ∧
      (∀ n got, s.lc.receiver = .body n got → got.length + 1 < n →
        l = { s.lc with receiver := .body n (got ++ [b]), gapFrom := some now }) ∧
      (∀ n got, s.lc.receiver = .body n got → got.length + 1 = n →
        l = { s.lc with receiver := .check n (got ++ [b]) none, gapFrom := some now }) ∧
      (∀ n got, s.lc.receiver = .check n got none →
        l = { s.lc with receiver := .check n got (some b), gapFrom := some now }) ∧
      (∀ n got high, s.lc.receiver = .check n got (some high) →
        (crc16 (one n :: got)).toNat ≠ high.toNat * 256 + b.toNat →
        l = LinkController.raise s.ct.cycle (counted 1) .linkCheck)) ∧
  (∀ (s : State) (u : Count), s.inReset = false → s.lc.receiver ≠ .hunt → s.lc.gapFrom = some u →
    exec .gapTimeout s = .next { s with
      ct := s.ct.reach (u + 10001#64)
      lc := LinkController.raise s.ct.cycle
        { s.lc with receiver := .hunt, gapFrom := none, counters := bumpAt s.lc.counters 4 } .linkGap }) ∧
  (∀ (s : State) (u : Count) (elapsed : Nat) (b : Byte) (stop : Bool), s.inReset = false → s.lc.gapFrom = some u →
    let now := s.ct.timebase + BitVec.ofNat 64 elapsed
    10217 < (now - u).toNat →
    let abandoned := LinkController.raise s.ct.cycle
      { s.lc with receiver := .hunt, gapFrom := none, counters := bumpAt s.lc.counters 4 } .linkGap
    exec (.linkCharacter elapsed b stop) s = .next { s with
      ct := { s.ct with timebase := now }
      lc := if b = 0xA5 then { abandoned with receiver := .length, gapFrom := some now } else abandoned }) ∧
  ∀ (s : State) (elapsed : Nat) (b high : Byte) (stop : Bool) (n : Nat) (kind tag : Byte) (payload : List Byte),
    s.inReset = false → s.lc.receiver = .check n (kind :: tag :: payload) (some high) →
    (crc16 (one n :: kind :: tag :: payload)).toNat = high.toNat * 256 + b.toNat →
    let now := s.ct.timebase + BitVec.ofNat 64 elapsed
    (∀ u, s.lc.gapFrom = some u → (now - u).toNat ≤ 10217) →
    let free := { s.lc with receiver := .hunt, gapFrom := none, counters := bumpAt s.lc.counters 0 }
    let after : State := { s with
      ct := { s.ct with timebase := now }
      lc := if s.lc.entries.length < 4 then
          { free with
            entries := s.lc.entries ++ [{ request := { kind := kind, tag := tag, payload := payload }, stage := .waiting }] }
        else
          LinkController.raise s.ct.cycle { free with counters := bumpAt free.counters 5 } .requestOverflow }
    exec (.frameAccepted elapsed b stop) s = .next after ∧ exec (.linkCharacter elapsed b stop) s = .next after

/-- Tests 1 to 3 of R161 against the kind table of R173: UNKNOWN_KIND, BAD_LENGTH and MODE, each changing nothing but the entry; and a
command whose kind is not that of the request taken next has no effect (log entry 6). -/
def Obligations.FirstThreeTests : Prop :=
  ∀ (s : State) (before after : List Entry) (q : Frame), HandlerTakes s before after q →
    let refusedWith := fun reason => { s with lc := answered s.lc before after q (refusal q reason) }
    (q.kind.toNat = 0 ∨ 0x1C < q.kind.toNat → exec .nonRequestKind s = .next (refusedWith 1)) ∧
    ∀ row ∈ requestTable,
      (q.kind.toNat ≠ row.kind → exec row.command s = .next s) ∧
      (∀ n, q.kind.toNat = row.kind → row.length = some n → q.payload.length ≠ n →
        exec row.command s = .next (refusedWith 2)) ∧
      (q.kind.toNat = row.kind → row.length = none → q.payload.length < 2 ∨ q.payload.length % 2 = 1 →
        exec row.command s = .next (refusedWith 2)) ∧
      (q.kind.toNat = row.kind → row.length = some q.payload.length → s.mode = .maintenance →
        row.refusedInMaintenance = true → exec row.command s = .next (refusedWith 7))

/-- TRANSMIT_START and FRAME_SENT: the reply READY earliest goes first, then, with no hold in force, the head of the report queue; the
entry leaves the list when its reply has been sent, and after a RESTART reply the restart is due (R160, R163, R171). READY earliest is the lowest
ordinal, which the model counts itself (log entry 22, DEDUCED). The last parts give the
bytes of a report: multi-byte fields, signed fields and presence bytes (R172), the codes (R177), the kind (R173) and the fields of each kind in
the order of its rule (R33, R91, R107, R112, R128, R142, R166, R168, R174). A value of a LIMIT_EVENT or FAST_EVENT takes 4 bytes (log entry 35,
DEDUCED), and so does a period, which fits them unless it reaches 2^32, when the bytes are free (log entry 4). -/
def Obligations.TransmitterAndArbiter : Prop :=
  (∀ (s : State) (before after : List Entry) (q r : Frame) (n : Nat), s.inReset = false → s.lc.sending = none →
    s.lc.restartDue = false → s.lc.entries = before ++ { request := q, stage := .ready n r } :: after →
    (∀ e ∈ before ++ after, ∀ m f, e.stage = .ready m f → n < m) →
    exec .transmitStart s = .next { s with lc := { s.lc with
      entries := before ++ { request := q, stage := .sending } :: after
      sending := some { isReply := true, frame := r } } }) ∧
  (∀ (s : State) (r : Report) (rest : List Report), s.inReset = false → s.lc.sending = none →
    s.lc.restartDue = false → (∀ e ∈ s.lc.entries, ∀ m f, e.stage ≠ .ready m f) → s.lc.queue = r :: rest →
    (s.lc.holdCount = 0 → exec .transmitStart s = .next { s with lc := { s.lc with
      queue := rest
      sending := some { isReply := false,
                        frame := { kind := r.body.kind, tag := 0, payload := word4 r.cycle ++ r.body.fields } } } }) ∧
    (0 < s.lc.holdCount → exec .transmitStart s = .next s)) ∧
  (∀ (s : State) (before after : List Entry) (q r : Frame), s.inReset = false →
    s.lc.sending = some { isReply := true, frame := r } →
    s.lc.entries = before ++ { request := q, stage := .sending } :: after →
    (∀ e ∈ before ++ after, e.stage ≠ .sending) →
    exec .frameSent s = .next { s with lc := { s.lc with
      entries := before ++ after
      sending := none
      restartDue := s.lc.restartDue || decide (r.kind = 0x5B) } }) ∧
  (∀ (s : State) (r : Frame), s.inReset = false → s.lc.sending = some { isReply := false, frame := r } →
    exec .frameSent s = .next { s with lc := { s.lc with sending := none } }) ∧
  (∀ n x : Nat, (beBytes n x).length = n ∧
    (∀ i, i < n → (beBytes n x)[i]? = some (one (x / 256 ^ (n - 1 - i)))) ∧
    ∀ y : Int, -(256 ^ n : Nat) ≤ 2 * y → 2 * y < (256 ^ n : Nat) →
      beBytesInt n y = beBytes n (if 0 ≤ y then y.toNat else 256 ^ n - y.natAbs)) ∧
  (∀ (n : Nat) (bs : List Byte), optBytes n (some bs) = 1 :: bs ∧ optBytes n none = 0 :: List.replicate n 0) ∧
  ([Verdict.normal, .watch, .alarm, .trip].map Verdict.code = [0, 1, 2, 3] ∧
    [Severity.watch, .alarm, .trip].map Severity.code = [1, 2, 3] ∧
    [VerdictCause.evaluation, .limitEdit, .out, .pairBroken].map VerdictCause.code = [0, 1, 2, 3] ∧
    [LimitEventKind.active, .cleared, .withdrawn].map LimitEventKind.code = [0, 1, 2] ∧
    [CompSource.v, .ia, .ib].map CompSource.code = [0, 1, 2] ∧ [CompMode.high, .low].map CompMode.code = [0, 1] ∧
    [Tracker.seek, .locking, .locked, .holdover, .free].map Tracker.code = [0, 1, 2, 3, 4] ∧
    [SyncCause.crossing, .missTimer, .holdoverLimit].map SyncCause.code = [0, 1, 2] ∧
    [MonitorState.out, .settling, .monitor].map MonitorState.code = [0, 1, 2] ∧
    [PairState.broken, .intact].map PairState.code = [0, 1] ∧
    [GroupCause.inputClosed, .settled, .inputOpen, .groupsMonitored, .groupOut, .pairing].map GroupCause.code =
      [0, 1, 2, 3, 4, 5] ∧
    [FreezeCause.verdictAlarm, .verdictTrip, .comparator, .force].map FreezeCause.code = [0, 1, 2, 3] ∧
    [Flag.linkCheck, .linkRunt, .linkOverlong, .linkGap, .requestOverflow, .reportLost, .syncHoldover, .syncFree, .clip,
      .windowSkipped, .settingsDefaulted, .storeFailed].map Flag.number = List.range 12 ∧
    GroupId.all.map GroupId.toNat = [0, 1, 2, 3] ∧ PairId.all.map PairId.toNat = [0, 1] ∧
    [CompId.c0, .c1].map CompId.toNat = [0, 1]) ∧
  (∀ (g : GroupId) (old new : Verdict) (cause : VerdictCause) (window : Word) (entry : Option (Nat × Bool)),
    IsReport (.verdictChange g old new cause window entry) 0x81
      ([one g.toNat, one old.code, one new.code, one cause.code] ++ beBytes 4 window.toNat ++
        (match entry with
         | some (k, pair) => [1, one k, if pair then 1 else 0]
         | none => [0, 0, 0]))) ∧
  (∀ (k : Nat) (u : UnitId) (event : LimitEventKind) (severity : Severity) (window : Word) (value : Option Int),
    IsReport (.limitEvent k u event severity window value) 0x82
      (one k :: (match u with
         | .group g => [0, one g.toNat]
         | .pair p => [1, one p.toNat]) ++ [one event.code, one severity.code] ++ beBytes 4 window.toNat ++
        (match value with
         | some x => 1 :: beBytesInt 4 x
         | none => [0, 0, 0, 0, 0]))) ∧
  (∀ (g : GroupId) (c : CompId) (source : CompSource) (mode : CompMode) (active : Bool) (value : Int) (index : Nat)
      (tripped : Bool), IsReport (.fastEvent g c source mode active value index tripped) 0x83
    ([one g.toNat, one c.toNat, one source.code, one mode.code, if active then 1 else 0] ++ beBytesInt 4 value ++
      [one index, if tripped then 1 else 0])) ∧
  (∀ (old new : Tracker) (cause : SyncCause) (period frequency : Nat), ∃ bytes : List Byte, bytes.length = 4 ∧
    (period < 2 ^ 32 → bytes = beBytes 4 period) ∧
    IsReport (.syncEvent old new cause period frequency) 0x84
      ([one old.code, one new.code, one cause.code] ++ bytes ++ beBytes 4 frequency)) ∧
  (∀ (g : GroupId) (old new : MonitorState) (cause : GroupCause) (window : Word),
    IsReport (.groupEvent g old new cause window) 0x85
      ([0, one g.toNat, one old.code, one new.code, one cause.code] ++ beBytes 4 window.toNat)) ∧
  (∀ (p : PairId) (old new : PairState) (cause : GroupCause) (window : Word),
    IsReport (.pairEvent p old new cause window) 0x85
      ([1, one p.toNat, one old.code, one new.code, one cause.code] ++ beBytes 4 window.toNat)) ∧
  (∀ (frozen : Bool) (r : TriggerRecord) (post : Nat) (span : Option (Word × Word)) (ignored : Nat),
    IsReport (.freezeEvent frozen r post span ignored) 0x86
      ([if frozen then 2 else 1, one r.cause.code] ++ optBytes 1 (r.group.map fun g => [one g.toNat]) ++
        optBytes 1 (r.comparator.map fun c => [one c.toNat]) ++ optBytes 4 (r.window.map fun w => beBytes 4 w.toNat) ++
        beBytes 4 r.cycle.toNat ++ [one post] ++
        (match span with
         | some (oldest, newest) => 1 :: beBytes 4 oldest.toNat ++ 1 :: beBytes 4 newest.toNat
         | none => List.replicate 10 0) ++ beBytes 2 ignored)) ∧
  (∀ (f : Flag) (flags : FlagSet), IsReport (.flagEvent f flags) 0x87 (one f.number :: beBytes 2 flags.toNat)) ∧
  ∀ (g : GroupId) (window : Word) (mean : Int) (rf : Option Nat) (jg : Nat) (verdict : Verdict),
    IsReport (.windowDigest g window mean rf jg verdict) 0x88
      (one g.toNat :: beBytes 4 window.toNat ++ beBytesInt 4 mean ++
        (match rf with
         | some x => 1 :: beBytes 2 x
         | none => [0, 0xFF, 0xFF]) ++ beBytes 4 jg ++ [one verdict.code])

/-- The full-queue policy: a record joins the tail of a queue with room; into a full queue a trip record displaces the oldest non-trip
record, and anything else is lost; a loss is counted, and sets REPORT_LOST with a FLAG_EVENT under the same policy (R164, R168). The last two
parts: the cause of a flag sets a clear one and, with its mask on, enqueues one FLAG_EVENT with its number and the twelve flags after the
change, and finds a set one without effect (R168); and the notices of one event are taken one after the other. -/
def Obligations.FullQueuePolicy : Prop :=
  (∀ (l : LinkController) (cycle : Word) (b : ReportBody), l.lost ≤ 65535 →
    let new : Report := { cycle := cycle, body := b }
    (l.queue.length < 64 → l.enqueue cycle b = { l with queue := l.queue ++ [new] }) ∧
    (l.queue.length = 64 → flagOf l.flags .reportLost = true → b.isTrip = false →
      l.enqueue cycle b = { l with lost := min (l.lost + 1) 65535 }) ∧
    (∀ older r newer, l.queue.length = 64 → flagOf l.flags .reportLost = true → b.isTrip = true →
      l.queue = older ++ r :: newer → (∀ x ∈ older, x.body.isTrip = true) → r.body.isTrip = false →
      l.enqueue cycle b = { l with queue := older ++ newer ++ [new], lost := min (l.lost + 1) 65535 }) ∧
    (l.queue.length = 64 → flagOf l.flags .reportLost = true → b.isTrip = true →
      (∀ x ∈ l.queue, x.body.isTrip = true) → l.enqueue cycle b = { l with lost := min (l.lost + 1) 65535 }) ∧
    (l.queue.length = 64 → flagOf l.flags .reportLost = false → b.isTrip = false →
      l.enqueue cycle b = { l with
        flags := l.flags ||| 0x020#12
        lost := if flagOf l.masks .reportLost then min (l.lost + 2) 65535 else min (l.lost + 1) 65535 }) ∧
    (∀ older r newer, l.queue.length = 64 → flagOf l.flags .reportLost = false → b.isTrip = true →
      l.queue = older ++ r :: newer → (∀ x ∈ older, x.body.isTrip = true) → r.body.isTrip = false →
      l.enqueue cycle b = { l with
        queue := older ++ newer ++ [new]
        flags := l.flags ||| 0x020#12
        lost := if flagOf l.masks .reportLost then min (l.lost + 2) 65535 else min (l.lost + 1) 65535 }) ∧
    (l.queue.length = 64 → flagOf l.flags .reportLost = false → b.isTrip = true →
      (∀ x ∈ l.queue, x.body.isTrip = true) →
      l.enqueue cycle b = { l with
        flags := l.flags ||| 0x020#12
        lost := if flagOf l.masks .reportLost then min (l.lost + 2) 65535 else min (l.lost + 1) 65535 })) ∧
  (∀ (l : LinkController) (cycle : Word) (f : Flag), ∃ after : FlagSet,
    (∀ k, after.getLsbD k = true ↔ l.flags.getLsbD k = true ∨ k = f.number) ∧
    (l.flags.getLsbD f.number = true → l.raise cycle f = l) ∧
    (l.flags.getLsbD f.number = false → l.masks.getLsbD f.number = false → l.raise cycle f = { l with flags := after }) ∧
    (l.flags.getLsbD f.number = false → l.masks.getLsbD f.number = true →
      l.raise cycle f = LinkController.enqueue cycle { l with flags := after } (.flagEvent f after) ∧
      (l.queue.length < 64 → l.raise cycle f = { l with
        flags := after
        queue := l.queue ++ [{ cycle := cycle, body := .flagEvent f after }] }))) ∧
  ∀ (l : LinkController) (cycle : Word) (b : ReportBody) (f : Flag) (ns : List Notice),
    l.post cycle [] = l ∧ l.post cycle (.report b :: ns) = (l.enqueue cycle b).post cycle ns ∧
    l.post cycle (.flag f :: ns) = (l.raise cycle f).post cycle ns

/-- A request keeps its place in the pending list, and no command but FRAME_SENT, RESET, RESET_RELEASE and RESTART_EXECUTION removes one:
the requests held before are the first of those held after, with at most one more at the tail (R159, R160). -/
def Obligations.RequestsKeepTheirPlace : Prop :=
  ∀ (c : Instr) (s t : State), (∀ w, c ≠ .reset w) → (∀ x p, c ≠ .resetRelease x p) → c ≠ .frameSent →
    c ≠ .restartExecution → exec c s = .next t →
    ∃ more : List Frame, more.length ≤ 1 ∧
      t.lc.entries.map Entry.request = s.lc.entries.map Entry.request ++ more ∧
      (more ≠ [] → ∃ n b stop, c = .linkCharacter n b stop ∨ c = .frameAccepted n b stop)

/-! ### Requests that read -/

/-- IDENTIFY, GET_STATUS and GET_COUNTERS: the bytes of the reply, and no other change (R143, R154, R155, R170, R172). The 49 bytes of
GET_STATUS and the places of the trigger record's fields in it rest on log entry 14 (DEDUCED): each of them carries a presence byte. -/
def Obligations.StatusAndCountersAreRead : Prop :=
  ∀ (s : State) (before after : List Entry) (q : Frame), HandlerTakes s before after q → q.payload = [] →
    let replied := fun fields => { s with lc := answered s.lc before after q (okReply q fields) }
    (q.kind = 0x01 → exec .identify s = .next (replied [0x09, 0xB0, 0x42, 4, 13])) ∧
    (q.kind = 0x02 → ∃ fields, exec .getStatus s = .next (replied fields) ∧ fields.length = 49 ∧
      fields.take 10 = [one s.mode.code, one s.ct.tracker.code] ++
        beBytes 4 (match s.ct.accepted with
          | some p => (2 * 10000000000 + p) / (2 * p)
          | none => 0) ++ beBytes 4 s.ct.cycle.toNat ∧
      (∀ g : GroupId, (fields.drop (10 + 3 * g.toNat)).take 3 =
        [one (s.gm.groups.get g).state.code, one (s.le.verdicts.get g).code, if s.le.latches.get g then 1 else 0]) ∧
      (fields.drop 22).take 3 =
        [one s.cr.state.code, if s.cr.releasePending then 1 else 0, one s.cr.postCount] ∧
      (s.cr.trigger = none → (fields.drop 25).take 16 = List.replicate 16 0) ∧
      (∀ r, s.cr.trigger = some r → (fields.drop 25).take 16 =
        [1, one r.cause.code] ++ optBytes 1 (r.group.map fun g => [one g.toNat]) ++
          optBytes 1 (r.comparator.map fun c => [one c.toNat]) ++ optBytes 4 (r.window.map fun w => beBytes 4 w.toNat) ++
          1 :: beBytes 4 r.cycle.toNat) ∧
      fields.drop 41 = beBytes 2 s.cr.ignored ++ beBytes 2 s.lc.holdCount ++ beBytes 2 s.lc.lost ++
        beBytes 2 s.lc.flags.toNat) ∧
    (q.kind = 0x14 → ∃ fields, exec .getCounters s = .next (replied fields) ∧ fields.length = 224 ∧
      (∀ (g : GroupId) (k : Fin 12),
        (fields.drop (48 * g.toNat + 4 * k.val)).take 4 = beBytes 4 ((s.st.groups.get g)[k]).toNat) ∧
      (∀ p : PairId, (fields.drop (192 + 4 * p.toNat)).take 4 = beBytes 4 (s.st.pairs.get p).toNat) ∧
      ∀ k : Fin 6, (fields.drop (200 + 4 * k.val)).take 4 = beBytes 4 (s.lc.counters[k]).toNat)

/-- GET_WINDOW in NORMAL: the summary of the record named, byte by byte (R175), NOT_AVAILABLE when the store does not hold it, BAD_VALUE for
a unit, index or record outside its values (R55, R146, R147). -/
def Obligations.WindowIsRead : Prop :=
  ∀ (s : State) (before after : List Entry) (q : Frame), HandlerTakes s before after q → s.mode = .normal →
    q.kind = 0x05 →
    let replied := fun fields => { s with lc := answered s.lc before after q (okReply q fields) }
    let refusedWith := fun reason => { s with lc := answered s.lc before after q (refusal q reason) }
    (∀ (g : GroupId) (which : RecordChoice) (r : GroupRecord),
      q.payload = [0, one g.toNat, if which = .latest then 0 else 1] →
      (if which = .latest then (s.ae.groupStore.get g).latest else (s.ae.groupStore.get g).previous) = some r →
      exec .getWindow s = .next (replied
        ([0, one r.group.toNat] ++ beBytes 4 r.window.toNat ++ beBytes 4 r.firstCycle.toNat ++ [one r.length.cycles] ++
          beBytes 2 ((if r.degraded then 1 else 0) + (if r.noBase then 2 else 0) + (if r.clamped then 4 else 0) +
            (if r.marksV.clip then 8 else 0) + (if r.marksV.held then 16 else 0) +
            (if r.marksIA.clip then 32 else 0) + (if r.marksIA.held then 64 else 0) +
            (if r.marksIB.clip then 128 else 0) + (if r.marksIB.held then 256 else 0)) ++
          [one ((if r.rf.isSome then 1 else 0) + (if r.ppr.isSome then 2 else 0) + (if r.sd.isSome then 4 else 0) +
            (if r.ka.isSome then 8 else 0) + (if r.kb.isSome then 16 else 0))] ++
          beBytesInt 4 r.meanV ++ beBytesInt 4 r.meanIA ++ beBytesInt 4 r.meanIB ++ beBytesInt 4 r.meanIG ++
          beBytes 4 r.rippleV ++ beBytes 4 r.peakV ++ ratio2 r.rf ++ ratio2 r.ppr ++ beBytes 4 r.rippleIG ++
          ratio2 r.sd ++ ratio2 r.ka ++ ratio2 r.kb ++ beBytes 4 r.jg))) ∧
    (∀ (p : PairId) (which : RecordChoice) (r : PairRecord) (m₁ m₂ m₃ m₄ m₅ m₆ : Marks),
      q.payload = [1, one p.toNat, if which = .latest then 0 else 1] →
      (if which = .latest then (s.ae.pairStore.get p).latest else (s.ae.pairStore.get p).previous) = some r →
      r.marks = [m₁, m₂, m₃, m₄, m₅, m₆] →
      exec .getWindow s = .next (replied
        ([1, one r.pair.toNat] ++ beBytes 4 r.window.toNat ++ beBytes 4 r.firstCycle.toNat ++ [one r.length.cycles] ++
          beBytes 2 ((if r.degraded then 1 else 0) + (if r.noBase then 2 else 0) + (if r.clamped then 4 else 0) +
            (if m₁.clip then 8 else 0) + (if m₁.held then 16 else 0) + (if m₂.clip then 32 else 0) +
            (if m₂.held then 64 else 0) + (if m₃.clip then 128 else 0) + (if m₃.held then 256 else 0) +
            (if m₄.clip then 512 else 0) + (if m₄.held then 1024 else 0) + (if m₅.clip then 2048 else 0) +
            (if m₅.held then 4096 else 0) + (if m₆.clip then 8192 else 0) + (if m₆.held then 16384 else 0)) ++
          [if r.ratiosIP.isSome then 1 else 0] ++ beBytesInt 4 r.meanIP ++ beBytes 4 r.jp))) ∧
    (∀ (u : UnitId) (which : RecordChoice),
      q.payload = [one u.kindCode, one u.index, if which = .latest then 0 else 1] → s.recordOf u which = none →
      exec .getWindow s = .next (refusedWith 5)) ∧
    ∀ unit index which : Byte, q.payload = [unit, index, which] →
      1 < unit.toNat ∨ (unit = 0 ∧ 3 < index.toNat) ∨ (unit = 1 ∧ 1 < index.toNat) ∨ 1 < which.toNat →
      exec .getWindow s = .next (refusedWith 3)

/-- GET_LINES in NORMAL: the count clamped to 40 and to the end of the table, the presence byte and the entries of the series (R148,
R176); BAD_VALUE for a series of the other unit, a first order outside 1 to 50, a count of 0, or a unit, index or record outside its values;
NOT_AVAILABLE for a record that the store does not hold (R146). -/
def Obligations.LinesAreRead : Prop :=
  ∀ (s : State) (before after : List Entry) (q : Frame) (which : RecordChoice) (first count : Nat),
    HandlerTakes s before after q → s.mode = .normal → q.kind = 0x06 → first < 256 → count < 256 →
    let code : Byte := if which = .latest then 0 else 1
    let n := min (min count 40) (51 - first)
    let reply := fun (window : Word) (amplitudes : Lines) (ratios : Option Lines) =>
      { s with lc := answered s.lc before after q (okReply q
          (beBytes 4 window.toNat ++ [one first, one n, if ratios.isSome then 1 else 0] ++
            (List.range n).flatMap fun j => beBytes 4 (amplitudes.toList.getD (first + j - 1) 0) ++
              ratio2 (ratios.map fun v => v.toList.getD (first + j - 1) 0))) }
    (∀ (g : GroupId) (r : GroupRecord) (series : Fin 4),
      q.payload = [0, one g.toNat, code, one series.val, one first, one count] →
      s.recordOf (.group g) which = some (.group r) → 1 ≤ first → first ≤ 50 → 1 ≤ count →
      exec .getLines s = .next (reply r.window
        (match series with
          | 0 => r.linesV
          | 1 => r.linesIA
          | 2 => r.linesIB
          | 3 => r.linesIG) (if series = 0 then r.ratiosV else none))) ∧
    (∀ (p : PairId) (r : PairRecord), q.payload = [1, one p.toNat, code, 4, one first, one count] →
      s.recordOf (.pair p) which = some (.pair r) → 1 ≤ first → first ≤ 50 → 1 ≤ count →
      exec .getLines s = .next (reply r.window r.linesIP r.ratiosIP)) ∧
    (∀ (u : UnitId) (series : Byte), q.payload = [one u.kindCode, one u.index, code, series, one first, one count] →
      (series.toNat = 4 ↔ u.kindCode = 0) ∨ 4 < series.toNat ∨ first = 0 ∨ 50 < first ∨ count = 0 →
      exec .getLines s = .next { s with lc := answered s.lc before after q (refusal q 3) }) ∧
    (∀ (u : UnitId) (series : Byte), q.payload = [one u.kindCode, one u.index, code, series, one first, one count] →
      series.toNat ≤ 4 → (series.toNat = 4 ↔ u.kindCode = 1) → 1 ≤ first → first ≤ 50 → 1 ≤ count →
      s.recordOf u which = none →
      exec .getLines s = .next { s with lc := answered s.lc before after q (refusal q 5) }) ∧
    ∀ unit index choice series : Byte, q.payload = [unit, index, choice, series, one first, one count] →
      1 < unit.toNat ∨ (unit = 0 ∧ 3 < index.toNat) ∨ (unit = 1 ∧ 1 < index.toNat) ∨ 1 < choice.toNat →
      exec .getLines s = .next { s with lc := answered s.lc before after q (refusal q 3) }

/-- SCAN_LINES in NORMAL: the walk examines the truncated count of orders, up or down, stops at the first line strictly above or below the
value, and otherwise reports how far it came (R149, R150); NOT_AVAILABLE for absent ratios and for a record that the store does not hold;
BAD_VALUE for every field outside its values, a target of the other unit among them (R146, R149). That the figure of a FOUND reply takes 4
bytes for every target is log entry 35 (DEDUCED). -/
def Obligations.ScanWalksTheLines : Prop :=
  (∀ (s : State) (before after : List Entry) (q : Frame) (u : UnitId) (which : RecordChoice) (record : AnyRecord)
    (target : Target) (start count value : Nat) (up above : Bool),
    HandlerTakes s before after q → s.mode = .normal → q.kind = 0x07 → value < 4294967296 →
    1 ≤ start → start ≤ 50 → 1 ≤ count → count ≤ 50 → s.recordOf u which = some record →
    let targetCode : Byte := match target with
      | .vAmp => 0
      | .vRatio => 1
      | .iaAmp => 2
      | .ibAmp => 3
      | .igAmp => 4
      | .ipAmp => 5
      | .ipRatio => 6
    q.payload = [one u.kindCode, one u.index, if which = .latest then 0 else 1, targetCode, one start,
        if up then 0 else 1, one count, if above then 0 else 1] ++ beBytes 4 value →
    let n := if up then min count (51 - start) else min count start
    let order := fun i => if up then start + i else start - i
    let replied := fun fields => { s with lc := answered s.lc before after q (okReply q fields) }
    ∀ figures : Option Lines,
      ((∃ r : GroupRecord, record = .group r ∧
          ((target = .vAmp ∧ figures = some r.linesV) ∨ (target = .vRatio ∧ figures = r.ratiosV) ∨
           (target = .iaAmp ∧ figures = some r.linesIA) ∨ (target = .ibAmp ∧ figures = some r.linesIB) ∨
           (target = .igAmp ∧ figures = some r.linesIG))) ∨
       ∃ r : PairRecord, record = .pair r ∧
          ((target = .ipAmp ∧ figures = some r.linesIP) ∨ (target = .ipRatio ∧ figures = r.ratiosIP))) →
      (figures = none →
        exec .scanLines s = .next { s with lc := answered s.lc before after q (refusal q 5) }) ∧
      ∀ v, figures = some v →
        let figure := fun i => v.toList.getD (order i - 1) 0
        let meets := fun i => if above then value < figure i else figure i < value
        (∀ i, i < n → meets i → (∀ j, j < i → ¬ meets j) →
          exec .scanLines s = .next (replied
            (1 :: beBytes 4 record.window.toNat ++ one (order i) :: beBytes 4 (figure i)))) ∧
        ((∀ i, i < n → ¬ meets i) →
          exec .scanLines s = .next (replied
            (0 :: beBytes 4 record.window.toNat ++ [one n, one (order (n - 1))])))) ∧
  ∀ (s : State) (before after : List Entry) (q : Frame) (unit index which target start direction count sense : Byte)
    (value : List Byte),
    HandlerTakes s before after q → s.mode = .normal → q.kind = 0x07 → value.length = 4 →
    q.payload = [unit, index, which, target, start, direction, count, sense] ++ value →
    let outside := 1 < unit.toNat ∨ (unit = 0 ∧ 3 < index.toNat) ∨ (unit = 1 ∧ 1 < index.toNat) ∨ 1 < which.toNat ∨
      (unit = 0 ∧ 4 < target.toNat) ∨ (unit = 1 ∧ (target.toNat < 5 ∨ 6 < target.toNat)) ∨
      start = 0 ∨ 50 < start.toNat ∨ 1 < direction.toNat ∨ count = 0 ∨ 50 < count.toNat ∨ 1 < sense.toNat
    (outside → exec .scanLines s = .next { s with lc := answered s.lc before after q (refusal q 3) }) ∧
    ∀ (u : UnitId) (choice : RecordChoice), ¬ outside → unit = one u.kindCode → index = one u.index →
      which = (if choice = .latest then 0 else 1) → s.recordOf u choice = none →
      exec .scanLines s = .next { s with lc := answered s.lc before after q (refusal q 5) }

/-- READ_SAMPLES: the samples of the slot tagged with the cycle, the count clamped to 56, to the end of the cycle and to what is written;
NOT_AVAILABLE where no slot has the tag or nothing is written from the first index on; BAD_VALUE for a channel above 12, a first index above
119 or a count of 0 (R144). Of two slots with one tag the lower-numbered answers, which is log entry 34 (DESIGN CHOICE); that a sample
takes 4 bytes on every channel is log entry 35 (DEDUCED). -/
def Obligations.SamplesAreRead : Prop :=
  ∀ (s : State) (before after : List Entry) (q : Frame), HandlerTakes s before after q → q.kind = 0x08 →
    let refusedWith := fun reason => { s with lc := answered s.lc before after q (refusal q reason) }
    (∀ channel c₃ c₂ c₁ c₀ first count : Byte, q.payload = [channel, c₃, c₂, c₁, c₀, first, count] →
      12 < channel.toNat ∨ 119 < first.toNat ∨ count = 0 → exec .readSamples s = .next (refusedWith 3)) ∧
    ∀ (c : ChannelId) (cycle : Word) (first count : Nat), first ≤ 119 → 1 ≤ count → count ≤ 255 →
      q.payload = one c.toNat :: beBytes 4 cycle.toNat ++ [one first, one count] →
      ((∀ k : Fin 16, s.cr.slots[k].tag ≠ some cycle) → exec .readSamples s = .next (refusedWith 5)) ∧
      ∀ k : Fin 16, s.cr.slots[k].tag = some cycle → (∀ j : Fin 16, j < k → s.cr.slots[j].tag ≠ some cycle) →
        let held := s.cr.slots[k].channels.get c
        let n := min (min (min count 56) (120 - first)) (held.samples.length - first)
        (held.samples.length ≤ first → exec .readSamples s = .next (refusedWith 5)) ∧
        (first < held.samples.length →
          exec .readSamples s = .next { s with lc := answered s.lc before after q (okReply q
            (one c.toNat :: beBytes 4 cycle.toNat ++ [one first, one n, if held.marks.clip then 1 else 0,
              if held.marks.held then 1 else 0] ++ ((held.samples.drop first).take n).flatMap (beBytesInt 4))) })

/-- GET_LIMIT: the working entry with its staged edit and its records, or an empty slot with every field absent (R101, R172); BAD_VALUE
above slot 47. One presence byte before each field is the model's reading of R172 (log entry 14). -/
def Obligations.LimitIsRead : Prop :=
  ∀ (s : State) (before after : List Entry) (q : Frame) (n : Byte), HandlerTakes s before after q →
    q.kind = 0x0D → q.payload = [n] →
    let replied := fun fields => { s with lc := answered s.lc before after q (okReply q fields) }
    (47 < n.toNat → exec .getLimit s = .next { s with lc := answered s.lc before after q (refusal q 3) }) ∧
    ∀ k : Fin 48, n.toNat = k.val →
      let edit : Byte := match s.ss.staged.limits[k] with
        | none => 0
        | some (.replace _) => 1
        | some .delete => 2
      (s.ss.working.limits[k] = none →
        exec .getLimit s = .next (replied (0 :: List.replicate 30 0 ++ [edit]))) ∧
      ∀ e, s.ss.working.limits[k] = some e →
        exec .getLimit s = .next (replied
          ([1, 1, one e.scope.kindCode, 1, one e.scope.valueCode, 1, one e.quantity.code, 1, e.bridge, 1, e.first, 1,
            e.last, 1, one e.sense.code, 1] ++ beBytesInt 4 e.limit ++ 1 :: beBytesInt 4 e.release ++
            [1, one e.onCount, 1, one e.offCount, 1, one e.severity.code, edit] ++
            s.le.records[k].flatMap fun ur => [one ur.2.state.code, one ur.2.count]))

/-- GET_SETTINGS: group code, index, pending flag and the working values of each settings group, with the range and hold of a current
channel and the output and run of a comparator (R17, R131, R179); BAD_VALUE for a code or index outside the table. -/
def Obligations.SettingsAreRead : Prop :=
  ∀ (s : State) (before after : List Entry) (q : Frame), HandlerTakes s before after q → q.kind = 0x13 →
    let w := s.ss.working
    let flag := fun (b : Bool) => (if b then 1 else 0 : Byte)
    let replied := fun fields => { s with lc := answered s.lc before after q (okReply q fields) }
    let channel := fun (c : ChannelId) =>
      [0, one c.toNat, if s.ss.staged.channels.get c = StagedChannel.empty then 0 else 1, one c.toNat] ++
        beBytes 2 (w.channels.get c).fs ++ beBytesInt 2 (w.channels.get c).offsetLow ++
        beBytes 2 (w.channels.get c).gainLow ++ beBytesInt 2 (w.channels.get c).offsetHigh ++
        beBytes 2 (w.channels.get c).gainHigh ++
        [one (w.channels.get c).rangeMode.code, one (w.channels.get c).hold]
    (∀ g, q.payload = [0, one (ChannelId.v g).toNat] → exec .getSettings s = .next (replied (channel (.v g)))) ∧
    (q.payload = [0, 12] → exec .getSettings s = .next (replied (channel .acref))) ∧
    (∀ g, q.payload = [0, one (ChannelId.ia g).toNat] → exec .getSettings s = .next (replied (channel (.ia g) ++
      [if (s.fe.ia.get g).range = .low then 0 else 1, one (s.fe.ia.get g).hold]))) ∧
    (∀ g, q.payload = [0, one (ChannelId.ib g).toNat] → exec .getSettings s = .next (replied (channel (.ib g) ++
      [if (s.fe.ib.get g).range = .low then 0 else 1, one (s.fe.ib.get g).hold]))) ∧
    (q.payload = [1, 0] → exec .getSettings s = .next (replied
      ([1, 0, flag s.ss.staged.analysis.isSome, one w.analysis.window.cycles, one w.analysis.nominal.hertz] ++
        beBytes 2 w.analysis.baseMin ++ beBytes 2 w.analysis.lightLoad ++ beBytes 2 w.analysis.settle ++
        [one w.analysis.pairing.code, one w.analysis.digest]))) ∧
    (∀ pending, (pending = true ↔ ∃ i : Fin 50, s.ss.staged.weights[i] ≠ none) → q.payload = [2, 0] →
      exec .getSettings s = .next (replied ([2, 0, flag pending] ++ w.weights.toList.flatMap (beBytes 2)))) ∧
    (∀ g c, q.payload = [3, one (2 * g.toNat + c.toNat)] →
      let x := w.comparator g c
      exec .getSettings s = .next (replied
        [3, one (2 * g.toNat + c.toNat), 0, one g.toNat, one c.toNat, one x.source.code, one x.mode.code, one x.level,
          one x.filter, flag x.tripArmed, flag x.freezeTrigger, flag x.report, flag (s.fc.get g c).active,
          one (s.fc.get g c).run])) ∧
    (q.payload = [4, 0] → exec .getSettings s = .next (replied ([4, 0, 0] ++ beBytes 2 w.freeze.postCycles ++
      [flag w.freeze.verdictAlarm, flag w.freeze.verdictTrip, flag w.freeze.comparator]))) ∧
    (q.payload = [5, 0] → exec .getSettings s = .next (replied ([5, 0, 0] ++ beBytes 2 s.lc.masks.toNat))) ∧
    ∀ code index : Byte, q.payload = [code, index] →
      (code = 0 ∧ 12 < index.toNat) ∨ (code = 3 ∧ 7 < index.toNat) ∨ 5 < code.toNat ∨
        (code ≠ 0 ∧ code ≠ 3 ∧ index ≠ 0) →
      exec .getSettings s = .next { s with lc := answered s.lc before after q (refusal q 3) }

/-! ### Requests that write -/

/-- CLEAR_FLAGS, SET_FLAG_MASK, HOLD_REPORTS and SET_COUNTER: what each writes, the value before in the reply, and BAD_VALUE for flag
numbers 12 to 15 and for a counter outside the table (R155, R165, R168). -/
def Obligations.FlagsHoldAndCountersAreWritten : Prop :=
  (∀ (s : State) (before after : List Entry) (q : Frame) (v : Nat), HandlerTakes s before after q → v < 65536 →
    q.payload = beBytes 2 v →
    (q.kind = 0x03 → v < 4096 → exec .clearFlags s = .next { s with
      lc := answered { s.lc with
          flags := s.lc.flags &&& ~~~(BitVec.ofNat 12 v)
          lost := if v.testBit 5 then 0 else s.lc.lost }
        before after q (okReply q (beBytes 2 s.lc.flags.toNat)) }) ∧
    (q.kind = 0x04 → v < 4096 → exec .setFlagMask s = .next { s with
      lc := answered { s.lc with masks := BitVec.ofNat 12 v } before after q (okReply q []) }) ∧
    (q.kind = 0x03 → 4096 ≤ v → exec .clearFlags s = .next { s with
      lc := answered s.lc before after q (refusal q 3) }) ∧
    (q.kind = 0x04 → 4096 ≤ v → exec .setFlagMask s = .next { s with
      lc := answered s.lc before after q (refusal q 3) }) ∧
    (q.kind = 0x17 → exec .holdReports s = .next { s with
      lc := answered { s.lc with holdCount := v } before after q (okReply q (beBytes 2 s.lc.holdCount)) })) ∧
  ∀ (s : State) (before after : List Entry) (q : Frame) (unit index number : Byte) (v : Word),
    HandlerTakes s before after q → q.kind = 0x15 →
    q.payload = [unit, index, number] ++ beBytes 4 v.toNat →
    (∀ (g : GroupId) (k : Fin 12), unit = 0 → index = one g.toNat → number = one k.val →
      exec .setCounter s = .next { s with
        st := { s.st with groups := s.st.groups.set g ((s.st.groups.get g).set k v) }
        lc := answered s.lc before after q (okReply q (beBytes 4 ((s.st.groups.get g)[k]).toNat)) }) ∧
    (∀ p : PairId, unit = 1 → index = one p.toNat → number = 0 →
      exec .setCounter s = .next { s with
        st := { s.st with pairs := s.st.pairs.set p v }
        lc := answered s.lc before after q (okReply q (beBytes 4 (s.st.pairs.get p).toNat)) }) ∧
    (∀ k : Fin 6, unit = 2 → index = 0 → number = one k.val →
      exec .setCounter s = .next { s with
        lc := answered { s.lc with counters := s.lc.counters.set k v } before after q
          (okReply q (beBytes 4 (s.lc.counters[k]).toNat)) }) ∧
    (2 < unit.toNat ∨ (unit = 0 ∧ (3 < index.toNat ∨ 11 < number.toNat)) ∨
        (unit = 1 ∧ (1 < index.toNat ∨ number ≠ 0)) ∨ (unit = 2 ∧ (index ≠ 0 ∨ 5 < number.toNat)) →
      exec .setCounter s = .next { s with lc := answered s.lc before after q (refusal q 3) })

/-- SET_FREEZE, FORCE_FREEZE and RELEASE_FREEZE (R136, R137, R139, R140, R141, R172). The presence bytes of the RELEASE_FREEZE reply, before
the trigger record's cause and cycle too, and its 16 zero bytes for an empty record are log entry 14's reading of R172, the 2 bytes of the
post-trigger count in SET_FREEZE and the 1 in its reply log entry 16's (both DEDUCED). -/
def Obligations.FreezeControls : Prop :=
  ∀ (s : State) (before after : List Entry) (q : Frame), HandlerTakes s before after q →
    (∀ (n : Nat) (a t c : Bool), q.kind = 0x09 → n < 65536 →
      q.payload = beBytes 2 n ++ [if a then 1 else 0, if t then 1 else 0, if c then 1 else 0] →
      exec .setFreeze s = .next { s with
        ss := { s.ss with working := { s.ss.working with
          freeze := { postCycles := min n 15, verdictAlarm := a, verdictTrip := t, comparator := c } } }
        lc := answered s.lc before after q (okReply q [one (min n 15)]) }) ∧
    (∀ hi lo a t c : Byte, q.kind = 0x09 → q.payload = [hi, lo, a, t, c] →
      1 < a.toNat ∨ 1 < t.toNat ∨ 1 < c.toNat →
      exec .setFreeze s = .next { s with lc := answered s.lc before after q (refusal q 3) }) ∧
    (q.kind = 0x0A → q.payload = [] → s.mode = .normal → s.cr.state = .running → ∃ l,
      l = s.lc.post s.ct.cycle [.report (.freezeEvent false
        { cause := .force, group := none, comparator := none, window := none, cycle := s.ct.cycle }
        s.ss.working.freeze.postCycles none s.cr.ignored)] ∧
      l.entries = s.lc.entries ∧
      exec .forceFreeze s = .next { s with
        cr := { s.cr with
          state := .post
          postCount := s.ss.working.freeze.postCycles
          trigger := some { cause := .force, group := none, comparator := none, window := none, cycle := s.ct.cycle } }
        lc := answered l before after q (okReply q [0]) }) ∧
    (q.kind = 0x0A → q.payload = [] → s.mode = .normal → s.cr.state ≠ .running →
      exec .forceFreeze s = .next { s with
        cr := { s.cr with ignored := if s.cr.ignored < 65535 then s.cr.ignored + 1 else s.cr.ignored }
        lc := answered s.lc before after q (okReply q [1]) }) ∧
    (q.kind = 0x0B → q.payload = [] → s.mode = .normal → s.cr.state ≠ .running →
      ∀ r, s.cr.trigger = some r → exec .releaseFreeze s = .next { s with
        cr := { s.cr with releasePending := true }
        lc := answered s.lc before after q (okReply q
          ([1, one r.cause.code] ++ optBytes 1 (r.group.map fun g => [one g.toNat]) ++
            optBytes 1 (r.comparator.map fun c => [one c.toNat]) ++
            optBytes 4 (r.window.map fun w => beBytes 4 w.toNat) ++ 1 :: beBytes 4 r.cycle.toNat ++
            beBytes 2 s.cr.ignored)) }) ∧
    (q.kind = 0x0B → q.payload = [] → s.mode = .normal → s.cr.state = .running → s.cr.trigger = none →
      exec .releaseFreeze s = .next { s with
        lc := answered s.lc before after q (okReply q (List.replicate 16 0 ++ beBytes 2 s.cr.ignored)) })

/-- SET_LIMIT and DELETE_LIMIT: an entry that passes the tests of R99 is staged as it was written, everything else is refused with
BAD_VALUE, one with an unknown scope kind too (log entry 33, DEDUCED); a deletion is staged unless the prospective slot is empty (R99,
R100). -/
def Obligations.LimitEditsAreStaged : Prop :=
  ∀ (s : State) (before after : List Entry) (q : Frame), HandlerTakes s before after q →
    let staged := fun (k : Fin 48) (edit : LimitEdit) => { s with
      ss := { s.ss with staged := { s.ss.staged with limits := s.ss.staged.limits.set k (some edit) } }
      lc := answered s.lc before after q (okReply q []) }
    let refusedWith := fun reason => { s with lc := answered s.lc before after q (refusal q reason) }
    (∀ (k : Fin 48) (e : LimitEntry), q.kind = 0x0C → EntryAccepted e → q.payload = entryPayload k e →
      exec .setLimit s = .next (staged k (.replace e))) ∧
    (q.kind = 0x0C → q.payload.length = 19 →
      (∀ (k : Fin 48) (e : LimitEntry), EntryAccepted e → q.payload ≠ entryPayload k e) →
      exec .setLimit s = .next (refusedWith 3)) ∧
    ∀ n : Byte, q.kind = 0x0E → q.payload = [n] →
      (47 < n.toNat → exec .deleteLimit s = .next (refusedWith 3)) ∧
      ∀ k : Fin 48, n.toNat = k.val →
        (s.ss.staged.limits[k] = some .delete ∨ (s.ss.staged.limits[k] = none ∧ s.ss.working.limits[k] = none) →
          exec .deleteLimit s = .next (refusedWith 5)) ∧
        ((∃ e, s.ss.staged.limits[k] = some (.replace e)) ∨
            (s.ss.staged.limits[k] = none ∧ s.ss.working.limits[k] ≠ none) →
          exec .deleteLimit s = .next (staged k .delete))

/-- SET_WEIGHTS: each weight of the block staged for its order after its clamp, the number clamped in the reply, and the refusals of R74 in
their order. -/
def Obligations.WeightsAreStaged : Prop :=
  ∀ (s : State) (before after : List Entry) (q : Frame) (first count : Nat) (ws : List Nat),
    HandlerTakes s before after q → q.kind = 0x0F → first < 256 → count < 256 → (∀ w ∈ ws, w < 65536) →
    q.payload = [one first, one count] ++ ws.flatMap (beBytes 2) →
    let refusedWith := fun reason => { s with lc := answered s.lc before after q (refusal q reason) }
    (first = 0 ∨ 50 < first ∨ count = 0 ∨ 50 < count ∨ 51 < first + count →
      exec .setWeights s = .next (refusedWith 3)) ∧
    (1 ≤ first → 1 ≤ count → first + count ≤ 51 → ws.length ≠ count → exec .setWeights s = .next (refusedWith 2)) ∧
    (1 ≤ first → 1 ≤ count → first + count ≤ 51 → ws.length = count →
      ∃ table : Vector (Option Nat) 50,
        (∀ i : Fin 50, first ≤ i.val + 1 → i.val + 1 < first + count →
          table[i] = some (min (ws.getD (i.val + 1 - first) 0) 1024)) ∧
        (∀ i : Fin 50, i.val + 1 < first ∨ first + count ≤ i.val + 1 → table[i] = s.ss.staged.weights[i]) ∧
        exec .setWeights s = .next { s with
          ss := { s.ss with staged := { s.ss.staged with weights := table } }
          lc := answered s.lc before after q (okReply q [one ((ws.filter fun w => decide (1024 < w)).length)]) })

/-- SET_CHANNEL: a current channel takes every field and its FS goes to the channels that share it (R7, R14); a channel without a HIGH
range takes only the fields examined for it; a field out of its range, a channel above 12 and a range mode outside its three codes (`x` ranges
over every byte of that field) are refused with BAD_VALUE. -/
def Obligations.ChannelIsStaged : Prop :=
  (∀ (s : State) (before after : List Entry) (q : Frame) (channel : Byte) (fields : List Byte),
    HandlerTakes s before after q → q.kind = 0x10 → q.payload = channel :: fields → fields.length = 12 →
    12 < channel.toNat →
    exec .setChannel s = .next { s with lc := answered s.lc before after q (refusal q 3) }) ∧
  ∀ (s : State) (before after : List Entry) (q : Frame) (c : ChannelId) (x : ChannelSettings) (rest : List Byte),
    HandlerTakes s before after q → q.kind = 0x10 → x.fs < 65536 → x.gainLow < 65536 → x.gainHigh < 65536 →
    x.hold < 256 → -32768 ≤ x.offsetLow → x.offsetLow ≤ 32767 → -32768 ≤ x.offsetHigh → x.offsetHigh ≤ 32767 →
    q.payload = one c.toNat :: beBytes 2 x.fs ++ beBytesInt 2 x.offsetLow ++ beBytes 2 x.gainLow ++ rest →
    let high := beBytesInt 2 x.offsetHigh ++ beBytes 2 x.gainHigh ++ [one x.rangeMode.code, one x.hold]
    let lowInRange := 1000 ≤ x.fs ∧ -2048 ≤ x.offsetLow ∧ x.offsetLow ≤ 2047 ∧ 16384 ≤ x.gainLow ∧ x.gainLow ≤ 49151
    let staged := fun table => { s with
      ss := { s.ss with staged := { s.ss.staged with channels := table } }
      lc := answered s.lc before after q (okReply q []) }
    let refused := { s with lc := answered s.lc before after q (refusal q 3) }
    (c.isCurrent = true → rest = high → CurrentFieldsInRange x →
      ∃ table : PerChannel StagedChannel, exec .setChannel s = .next (staged table) ∧
        table.get c = { fs := some x.fs, offsetLow := some x.offsetLow, gainLow := some x.gainLow,
                        offsetHigh := some x.offsetHigh, gainHigh := some x.gainHigh, rangeMode := some x.rangeMode,
                        hold := some x.hold } ∧
        ∀ d, d ≠ c →
          (SharesFs s.ss.prospectivePairing c d →
            table.get d = { s.ss.staged.channels.get d with fs := some x.fs }) ∧
          (¬ SharesFs s.ss.prospectivePairing c d → table.get d = s.ss.staged.channels.get d)) ∧
    (c.isCurrent = true → rest = high → ¬ CurrentFieldsInRange x → exec .setChannel s = .next refused) ∧
    (c.isCurrent = false → rest.length = 6 → lowInRange →
      exec .setChannel s = .next (staged (s.ss.staged.channels.set c { s.ss.staged.channels.get c with
        fs := some x.fs, offsetLow := some x.offsetLow, gainLow := some x.gainLow }))) ∧
    (c.isCurrent = false → rest.length = 6 → ¬ lowInRange → exec .setChannel s = .next refused)

/-- SET_COMPARATOR: the settings take effect at once, a filter of 0 as 1, the filtered output falls to INACTIVE with a run of 0, no latch
and no report changes, and the reply carries the output as it was (R129, R130). -/
def Obligations.ComparatorIsWritten : Prop :=
  ∀ (s : State) (before after : List Entry) (q : Frame), HandlerTakes s before after q → q.kind = 0x11 →
    (∀ (g : GroupId) (c : CompId) (x : CompSettings) (filter : Nat), x.level < 256 → filter < 256 →
      x.filter = max filter 1 →
      q.payload = [one g.toNat, one c.toNat, one x.source.code, one x.mode.code, one x.level, one filter,
        if x.tripArmed then 1 else 0, if x.freezeTrigger then 1 else 0, if x.report then 1 else 0] →
      let table := s.ss.working.comparators
      exec .setComparator s = .next { s with
        ss := { s.ss with working := { s.ss.working with comparators := table.set g ((table.get g).setComp c x) } }
        fc := { comps := s.fc.comps.set g ((s.fc.comps.get g).setComp c { active := false, run := 0 }) }
        lc := answered s.lc before after q (okReply q [if (s.fc.get g c).active then 1 else 0]) }) ∧
    ∀ g c source mode level filter a f r : Byte, q.payload = [g, c, source, mode, level, filter, a, f, r] →
      3 < g.toNat ∨ 1 < c.toNat ∨ 2 < source.toNat ∨ 1 < mode.toNat ∨ 1 < a.toNat ∨ 1 < f.toNat ∨ 1 < r.toNat →
      exec .setComparator s = .next { s with lc := answered s.lc before after q (refusal q 3) }

/-- SET_ANALYSIS: the seven fields are staged together, settle after its clamp to 1,000, unless one is refused or a pair would be paired
whose prospective current FS differ (R7, R31, R40, R67, R86, R87, R178); a W, nominal frequency or pairing outside its values is refused.
That a pair paired already is tested like one newly paired is log entry 39 (DESIGN CHOICE). -/
def Obligations.AnalysisIsStaged : Prop :=
  (∀ (s : State) (before after : List Entry) (q : Frame) (w nominal pairing digest : Byte) (fields : List Byte),
    HandlerTakes s before after q → q.kind = 0x12 → q.payload = w :: nominal :: fields ++ [pairing, digest] →
    fields.length = 6 →
    (w.toNat ≠ 1 ∧ w.toNat ≠ 2 ∧ w.toNat ≠ 4 ∧ w.toNat ≠ 8) ∨ (nominal.toNat ≠ 50 ∧ nominal.toNat ≠ 60) ∨
      3 < pairing.toNat →
    exec .setAnalysis s = .next { s with lc := answered s.lc before after q (refusal q 3) }) ∧
  ∀ (s : State) (before after : List Entry) (q : Frame) (x : AnalysisSettings),
    HandlerTakes s before after q → q.kind = 0x12 → x.baseMin < 65536 → x.lightLoad < 65536 → x.settle < 65536 →
    x.digest < 256 →
    q.payload = [one x.window.cycles, one x.nominal.hertz] ++ beBytes 2 x.baseMin ++ beBytes 2 x.lightLoad ++
      beBytes 2 x.settle ++ [one x.pairing.code, one x.digest] →
    let agree := ∀ p, x.pairing.paired p = true →
      s.ss.prospectiveFs (.ib p.first) = s.ss.prospectiveFs (.ia p.first) ∧
      s.ss.prospectiveFs (.ia p.second) = s.ss.prospectiveFs (.ia p.first) ∧
      s.ss.prospectiveFs (.ib p.second) = s.ss.prospectiveFs (.ia p.first)
    (x.baseMin ≤ 40000 → x.lightLoad ≤ 40000 → 1 ≤ x.settle → agree →
      exec .setAnalysis s = .next { s with
        ss := { s.ss with staged := { s.ss.staged with analysis := some { x with settle := min x.settle 1000 } } }
        lc := answered s.lc before after q (okReply q (beBytes 2 (min x.settle 1000))) }) ∧
    (40000 < x.baseMin ∨ 40000 < x.lightLoad ∨ x.settle = 0 ∨ ¬ agree →
      exec .setAnalysis s = .next { s with lc := answered s.lc before after q (refusal q 3) })

/-- CLEAR_TRIP in NORMAL: CAUSE_PRESENT while a standing TRIP record applies or an armed comparator is active; otherwise the latch, its
trip line and, when nothing else holds it, the alert line fall (R114, R115, R116). -/
def Obligations.TripIsCleared : Prop :=
  ∀ (s : State) (before after : List Entry) (q : Frame) (n : Byte), HandlerTakes s before after q → q.kind = 0x16 →
    s.mode = .normal → q.payload = [n] →
    let refusedWith := fun reason => { s with lc := answered s.lc before after q (refusal q reason) }
    (3 < n.toNat → exec .clearTrip s = .next (refusedWith 3)) ∧
    ∀ g : GroupId, n.toNat = g.toNat →
      let present := StandsFor s g .trip ∨
        ∃ c, (s.ss.working.comparator g c).tripArmed = true ∧ (s.fc.get g c).active = true
      (present → exec .clearTrip s = .next (refusedWith 6)) ∧
      (¬ present → ∃ alert : Bool,
        (alert = true ↔ (∃ h, s.le.verdicts.get h = .alarm ∨ s.le.verdicts.get h = .trip) ∨
          ∃ h, h ≠ g ∧ s.le.latches.get h = true) ∧
        exec .clearTrip s = .next { s with
          le := { s.le with
            latches := s.le.latches.set g false
            tripLines := s.le.tripLines.set g false
            alert := alert }
          lc := answered s.lc before after q (okReply q []) })

/-- SYNC_POINT, STORE_SETTINGS, CHECK_SETTINGS, RESTART and LEAVE_MAINTENANCE: the deferrals with what they put in flight, BUSY while
something is in flight, and the mode (R162, R181, R182, R184, R185). -/
def Obligations.DeferredAndModeRequests : Prop :=
  ∀ (s : State) (before after : List Entry) (q : Frame), HandlerTakes s before after q → q.payload = [] →
    let busy := { s with lc := answered s.lc before after q (refusal q 4) }
    (q.kind = 0x18 → s.lc.sync = none → exec .syncPoint s = .next { s with
      lc := putOff { s.lc with sync := some { analysis := none, limit := none } } before after q }) ∧
    (q.kind = 0x18 → s.lc.sync ≠ none → exec .syncPoint s = .next busy) ∧
    (q.kind = 0x19 → s.ss.flight = none → exec .storeSettings s = .next { s with
      ss := { s.ss with
        image := .torn
        flight := some (.store ((s.ss.working.applyAnalysis s.ss.staged).applyLimits s.ss.staged)) }
      lc := putOff s.lc before after q }) ∧
    (q.kind = 0x19 → s.ss.flight ≠ none → exec .storeSettings s = .next busy) ∧
    (q.kind = 0x1A → s.ss.flight = none → exec .checkSettings s = .next { s with
      ss := { s.ss with flight := some .check }
      lc := putOff s.lc before after q }) ∧
    (q.kind = 0x1A → s.ss.flight ≠ none → exec .checkSettings s = .next busy) ∧
    (q.kind = 0x1B → s.ss.flight = none → ∃ t, exec .restart s = .next t ∧
      t = { s with lc := answered s.lc before after q (okReply q []) } ∧ t.lc.handlerHeld = true) ∧
    (q.kind = 0x1B → s.ss.flight ≠ none → exec .restart s = .next busy) ∧
    (q.kind = 0x1C → exec .leaveMaintenance s = .next { s with
      mode := .normal
      lc := answered s.lc before after q (okReply q []) })

/-- STORE_COMPLETION and CHECK_COMPLETION make their deferred reply READY (R181, R182). Each class of a SYNC_POINT closes once, at its first
application point: the analysis class at a window boundary and at a cycle boundary with the clock STOPPED, the limit class at that boundary
and at the start of an evaluation pass; when both have closed the reply is READY (R162). The CRCs of a torn image are free, and one image has one
pair of them, which a store that ends moves on (log entry 3); that they do not match is R181's. An image that holds a code outside the values
of an examined field is never loadable (log entry 23). That a read-back with the snapshot's copy and another CRC is FAILED is log entry 36
(DEDUCED). That WINDOW_BOUNDARY is the whole cycle boundary at which the window ends is log entry 6 (DEDUCED), and the ordinal at which a reply
becomes READY is the model's own (log entry 22, DEDUCED). -/
def Obligations.DeferredRepliesAreFormed : Prop :=
  (∀ (s : State) (before after : List Entry) (q : Frame) (snapshot : Settings) (readBack : StoredImage),
    s.inReset = false → s.ss.flight = some (.store snapshot) →
    s.lc.entries = before ++ { request := q, stage := .deferred } :: after → q.kind = 0x19 →
    (∀ e ∈ before, e.stage = .deferred → e.request.kind ≠ 0x19) →
    let crc := imageCrc snapshot
    let reply := fun (status : Byte) => ({ kind := 0x59, tag := q.tag, payload := status :: beBytes 4 crc.toNat } : Frame)
    (readBack = .whole snapshot crc → exec (.storeCompletion readBack) s = .next { s with
      ss := { s.ss with image := readBack, flight := none }
      freeNext := s.freeNext + 1
      lc := answered s.lc before after q (reply 0) }) ∧
    (readBack ≠ .whole snapshot crc → ∃ l, l = s.lc.post s.ct.cycle [.flag .storeFailed] ∧
      l.entries = s.lc.entries ∧ flagOf l.flags .storeFailed = true ∧
      exec (.storeCompletion readBack) s = .next { s with
        ss := { s.ss with image := readBack, flight := none }
        freeNext := s.freeNext + 1
        lc := answered l before after q (reply 1) })) ∧
  (∃ crcs : StoredImage → Nat → Word × Word,
    (∀ copy stored n, crcs (.whole copy stored) n = (imageCrc copy, stored)) ∧
    (∀ computed stored n, crcs (.foreign computed stored) n = (computed, stored)) ∧
    (∀ n, (crcs .torn n).1 ≠ (crcs .torn n).2) ∧
    ∀ (s : State) (before after : List Entry) (q : Frame), s.inReset = false → s.ss.flight = some .check →
      s.lc.entries = before ++ { request := q, stage := .deferred } :: after → q.kind = 0x1A →
      (∀ e ∈ before, e.stage = .deferred → e.request.kind ≠ 0x1A) →
      let computed := (crcs s.ss.image s.freeNext).1
      let stored := (crcs s.ss.image s.freeNext).2
      ∃ loadable : Bool,
        (loadable = true ↔ ∃ copy, s.ss.image = .whole copy (imageCrc copy) ∧ copy.inRange = true) ∧
        exec .checkCompletion s = .next { s with
          ss := { s.ss with flight := none }
          lc := answered s.lc before after q (okReply q (beBytes 4 computed.toNat ++ beBytes 4 stored.toNat ++
            [if computed = stored then 1 else 0, if loadable then 1 else 0])) }) ∧
  (∀ (s : State) (inputs : InputLevels), AtBoundary s →
    (EndsWindow s → ∃ t, exec (.windowBoundary inputs) s = .next t ∧ exec (.cycleBoundary inputs) s = .next t ∧
      SameRequests (s.lc.closeAnalysis (some (s.ae.counter + 1))) t.lc) ∧
    (s.ae.clock = none → ∃ t, exec (.cycleBoundary inputs) s = .next t ∧
      (StartsClock s → SameRequests ((s.lc.closeLimit none).closeAnalysis (some (s.ae.counter + 1))) t.lc) ∧
      (¬ StartsClock s → SameRequests ((s.lc.closeLimit none).closeAnalysis none) t.lc)) ∧
    (s.ae.clock ≠ none → ¬ EndsWindow s → ∃ t, exec (.cycleBoundary inputs) s = .next t ∧ SameRequests s.lc t.lc)) ∧
  (∀ (s : State) (p : Pass) (rest : List Pass), s.inReset = false → s.ae.passes = p :: rest → p.ready = true →
    ∃ t, exec .evaluationPass s = .next t ∧ SameRequests (s.lc.closeLimit (some p.window)) t.lc) ∧
  (∀ (l : LinkController) (point : Option Word), l.sync = none → l.closeAnalysis point = l ∧ l.closeLimit point = l) ∧
  ∀ (l : LinkController) (before after : List Entry) (q : Frame),
    l.entries = before ++ { request := q, stage := .deferred } :: after → q.kind = 0x18 →
    (∀ e ∈ before, e.stage = .deferred → e.request.kind ≠ 0x18) →
    let fields := fun (window pass : Option Word) =>
      beBytes 4 (window.getD 0).toNat ++ (if window.isSome then 0 else 1) ::
        beBytes 4 (pass.getD 0).toNat ++ [if pass.isSome then 0 else 1]
    (∀ window, l.sync = some { analysis := none, limit := none } →
      l.closeAnalysis window = { l with sync := some { analysis := some window, limit := none } }) ∧
    (∀ pass, l.sync = some { analysis := none, limit := none } →
      l.closeLimit pass = { l with sync := some { analysis := none, limit := some pass } }) ∧
    (∀ window pass, l.sync = some { analysis := none, limit := some pass } →
      (∀ later, l.closeLimit later = l) ∧
      l.closeAnalysis window = answered { l with sync := none } before after q (okReply q (fields window pass))) ∧
    (∀ window pass, l.sync = some { analysis := some window, limit := none } →
      (∀ later, l.closeAnalysis later = l) ∧
      l.closeLimit pass = answered { l with sync := none } before after q (okReply q (fields window pass)))

/-- RESTART_EXECUTION: everything staged is applied, every block takes its restart state from the settings so obtained, and what R171, R120
and R156 keep is kept: the mode, the latches, the counters, the flags and masks, the lost count, the receiver and the image (R185). CT's state
has a candidate of the comparator's polarity begun at the restart, as R21 says, where R35's table has it absent (log entry 17, DEDUCED); the
value last delivered of each current channel is 0, the ring's current slot is slot 0, and a pass handed over but not yet carried out is dropped
too, each the model's choice (log entries 1, 37 and 38). -/
def Obligations.RestartIsCarriedOut : Prop :=
  ∀ s : State, s.inReset = false → s.lc.restartDue = true →
    let x := (s.ss.working.applyAnalysis s.ss.staged).applyLimits s.ss.staged
    ∃ t, exec .restartExecution s = .next t ∧
      t.ss = { s.ss with working := x, staged := Staging.empty } ∧ t.mode = s.mode ∧ t.st = s.st ∧
      t.pending = s.pending ∧ t.inReset = false ∧ t.freeNext = s.freeNext ∧
      t.fe = FrontEnd.fresh x ∧ t.ct = CycleTracker.fresh x s.ct.timebase s.ct.reference ∧
      t.ae = AnalysisEngine.fresh ∧ t.gm = Monitors.fresh ∧ t.fc = Comparators.fresh ∧ t.cr = CaptureRing.fresh ∧
      t.le.latches = s.le.latches ∧ t.le.tripLines = s.le.tripLines ∧ (∀ g, t.le.verdicts.get g = .normal) ∧
      (∀ (k : Fin 48), t.le.records[k] = match x.limits[k] with
        | some e => e.scope.units.map fun u => (u, { state := .clear, count := 0 })
        | none => []) ∧
      (t.le.alert = true ↔ s.mode = .normal ∧ ∃ g, s.le.latches.get g = true) ∧
      t.lc = { s.lc with
        entries := [], queue := [], sending := none, holdCount := 0, digests := Quad.fill 0, sync := none,
        restartDue := false }

/-! ### What every step keeps -/

/-- All the invariants below hold at reset; that State.reset stands after a release with a blank image is the model's (log entry 1). -/
def Obligations.ResetSatisfiesTheInvariants : Prop :=
  TrackerInBounds State.reset ∧ RingFollows State.reset ∧ LinkInBounds State.reset ∧ EngineConsistent State.reset ∧
    Judged State.reset ∧ SettingsInRange State.reset ∧ FsAgrees State.reset ∧ ∀ g, BinsAgree State.reset g

/-- Every step keeps the tracker's counts, periods and lengths within the bounds of R22, R25, R26, R27, R28 and R29. -/
def Obligations.TrackerStaysInBounds : Prop := ∀ s t : State, TrackerInBounds s → step s = .next t → TrackerInBounds t

/-- Every step keeps the ring in step with the cycle (R134, R135, R136, R139). -/
def Obligations.RingFollowsTheCycle : Prop :=
  ∀ s t : State, RingFollows s → step s = .next t → RingFollows t

/-- Every step keeps the pending list, the report queue, the receiver and LC's counts within their bounds (R158, R160, R164, R165). -/
def Obligations.LinkStaysInBounds : Prop := ∀ s t : State, LinkInBounds s → step s = .next t → LinkInBounds t

/-- Every step keeps open sets to watched units under a running clock, and at most one job running (R38, R40, R45, R50). -/
def Obligations.EngineStaysConsistent : Prop :=
  ∀ s t : State, EngineConsistent s → step s = .next t → EngineConsistent t

/-- Every step keeps the verdicts at the highest standing severity, the records of unwatched units CLEAR, a TRIP verdict latched, the lines
following, and a part in MAINTENANCE quiet (R93, R104, R111, R113, R114, R116, R118). -/
def Obligations.VerdictsStaySupported : Prop := ∀ s t : State, Judged s → step s = .next t → Judged t

/-- Every step keeps the working settings and everything staged within their ranges (R14, R74, R99, R129, R136, R178, R180). -/
def Obligations.SettingsStayInRange : Prop := ∀ s t : State, SettingsInRange s → step s = .next t → SettingsInRange t

/-- R7's closing sentence, over every command but a reset release: an image may hold FS values that differ (log entry 15). -/
def Obligations.SharedFsAgree : Prop :=
  ∀ s t : State, FsAgrees s → (∀ x p, s.pending.head? ≠ some (.resetRelease x p)) → step s = .next t → FsAgrees t

/-- The RF bins of a group sum to its windows-with-RF counter, until the controller writes a counter (R152). -/
def Obligations.BinsSumToTheCounter : Prop :=
  ∀ (s t : State) (g : GroupId), BinsAgree s g → s.pending.head? ≠ some .setCounter → step s = .next t → BinsAgree t g
end

