-- ==== Sys2Proof/Laws/Bytes.lean ====
section
/-! SUPPORT. Link fields: a number written in bytes reads back as itself (R172). -/

namespace Sys2Proof.Machine

@[simp] theorem beBytes_length (n x : Nat) : (beBytes n x).length = n := by
  induction n with
  | zero => rfl
  | succ n ih => simp [beBytes, ih]

@[simp] theorem beBytesInt_length (n : Nat) (x : Int) : (beBytesInt n x).length = n := by simp [beBytesInt]

theorem beNat_append (as bs : List Byte) : beNat (as ++ bs) = beNat as * 256 ^ bs.length + beNat bs := by
  unfold beNat
  induction bs using List.reverseRecOn with
  | nil => simp
  | append_singleton bs b ih =>
    rw [← List.append_assoc, List.foldl_append, ih, List.foldl_append]
    simp only [List.foldl_cons, List.foldl_nil, List.length_append, List.length_cons, List.length_nil, pow_succ]
    ring

theorem beNat_cons (b : Byte) (bs : List Byte) : beNat (b :: bs) = b.toNat * 256 ^ bs.length + beNat bs := by
  have := beNat_append [b] bs
  simpa [beNat] using this

theorem beNat_lt (bs : List Byte) : beNat bs < 256 ^ bs.length := by
  induction bs with
  | nil => simp [beNat]
  | cons b bs ih =>
    rw [beNat_cons, List.length_cons, pow_succ]
    have := b.isLt
    nlinarith

/-- An unsigned field reads back as the number written, modulo its width. -/
theorem beNat_beBytes (n x : Nat) : beNat (beBytes n x) = x % 256 ^ n := by
  induction n with
  | zero => simp [beBytes, beNat, Nat.mod_one]
  | succ n ih =>
    have hs : x % 256 ^ (n + 1) = x % 256 ^ n + 256 ^ n * (x / 256 ^ n % 256) := Nat.mod_mul
    have h8 : (2 : Nat) ^ 8 = 256 := by norm_num
    rw [beBytes, beNat_cons, ih, beBytes_length, BitVec.toNat_ofNat, hs, h8]
    ring

theorem beNat_beBytes_of_lt {n x : Nat} (h : x < 256 ^ n) : beNat (beBytes n x) = x := by
  rw [beNat_beBytes, Nat.mod_eq_of_lt h]

/-- A signed field reads back as the number written. -/
theorem beInt_beBytesInt {n : Nat} {x : Int} (lo : -(256 ^ n : Nat) ≤ 2 * x) (hi : 2 * x < (256 ^ n : Nat)) :
    beInt (beBytesInt n x) = x := by
  have hp : (0 : Int) < (256 ^ n : Nat) := by positivity
  have h0 := Int.emod_nonneg x hp.ne'
  have h1 := Int.emod_lt_of_pos x hp
  unfold beInt
  have hb : beNat (beBytesInt n x) = (x % (256 ^ n : Nat)).toNat := by
    unfold beBytesInt
    rw [beNat_beBytes_of_lt]
    omega
  simp only [hb, beBytesInt_length]
  by_cases hx : 0 ≤ x
  · have : x % (256 ^ n : Nat) = x := Int.emod_eq_of_lt hx (by omega)
    rw [this]
    split <;> omega
  · have : x % (256 ^ n : Nat) = x + (256 ^ n : Nat) := by
      rw [← Int.add_emod_right, Int.emod_eq_of_lt (by omega) (by omega)]
    rw [this]
    split <;> omega

/-- A CRC's two check bytes. -/
theorem beBytes_two (x : Nat) : beBytes 2 x = [BitVec.ofNat 8 (x / 256), BitVec.ofNat 8 x] := by
  simp [beBytes]

end Sys2Proof.Machine
end

