-- ==== Sys2Proof/Laws/Containers.lean ====
section
/-! SUPPORT. What is read back from the containers: quads, duos, channel tables, fixed tables and counters. -/

namespace Sys2Proof

@[simp] theorem Quad.get_ofFn (f : GroupId → α) (g : GroupId) : (Quad.ofFn f).get g = f g := by cases g <;> rfl
@[simp] theorem Quad.get_fill (x : α) (g : GroupId) : (Quad.fill x).get g = x := by cases g <;> rfl
@[simp] theorem Quad.get_map (f : α → β) (q : Quad α) (g : GroupId) : (q.map f).get g = f (q.get g) := by cases g <;> rfl
@[simp] theorem Quad.get_set_self (q : Quad α) (g : GroupId) (x : α) : (q.set g x).get g = x := by cases g <;> rfl

theorem Quad.get_set_of_ne (q : Quad α) (x : α) {g h : GroupId} (hne : h ≠ g) : (q.set g x).get h = q.get h := by
  cases g <;> cases h <;> first | rfl | exact absurd rfl hne

theorem Quad.get_set (q : Quad α) (g h : GroupId) (x : α) : (q.set g x).get h = if h = g then x else q.get h := by
  cases g <;> cases h <;> rfl

theorem Quad.ext_get {p q : Quad α} (h : ∀ g, p.get g = q.get g) : p = q := by
  cases p; cases q
  have h0 := h .g0; have h1 := h .g1; have h2 := h .g2; have h3 := h .g3
  simp only [Quad.get] at h0 h1 h2 h3
  subst h0 h1 h2 h3; rfl

theorem Quad.any_iff (q : Quad Bool) : q.any = true ↔ ∃ g, q.get g = true := by
  constructor
  · intro h
    simp only [Quad.any, Bool.or_eq_true] at h
    obtain ((h | h) | h) | h := h
    · exact ⟨.g0, h⟩
    · exact ⟨.g1, h⟩
    · exact ⟨.g2, h⟩
    · exact ⟨.g3, h⟩
  · rintro ⟨g, h⟩
    cases g <;> simp_all [Quad.any, Quad.get]

@[simp] theorem Duo.get_ofFn (f : PairId → α) (p : PairId) : (Duo.ofFn f).get p = f p := by cases p <;> rfl
@[simp] theorem Duo.get_fill (x : α) (p : PairId) : (Duo.fill x).get p = x := by cases p <;> rfl
@[simp] theorem Duo.get_map (f : α → β) (d : Duo α) (p : PairId) : (d.map f).get p = f (d.get p) := by cases p <;> rfl
@[simp] theorem Duo.comp_fill (x : α) (c : CompId) : (Duo.fill x).comp c = x := by cases c <;> rfl

theorem Duo.get_set (d : Duo α) (p r : PairId) (x : α) : (d.set p x).get r = if r = p then x else d.get r := by
  cases p <;> cases r <;> rfl

theorem Duo.comp_setComp (d : Duo α) (c e : CompId) (x : α) : (d.setComp c x).comp e = if e = c then x else d.comp e := by
  cases c <;> cases e <;> rfl

@[simp] theorem PerChannel.get_ofFn (f : ChannelId → α) (c : ChannelId) : (PerChannel.ofFn f).get c = f c := by
  cases c <;> simp [PerChannel.ofFn, PerChannel.get]

@[simp] theorem PerChannel.get_fill (x : α) (c : ChannelId) : (PerChannel.fill x).get c = x := by
  cases c <;> simp [PerChannel.fill, PerChannel.get]

theorem PerChannel.get_set (t : PerChannel α) (c d : ChannelId) (x : α) :
    (t.set c x).get d = if d = c then x else t.get d := by
  cases c <;> cases d <;> simp [PerChannel.set, PerChannel.get, Quad.get_set]

theorem PerChannel.ext_get {p q : PerChannel α} (h : ∀ c, p.get c = q.get c) : p = q := by
  obtain ⟨v, ia, ib, ac⟩ := p
  obtain ⟨v', ia', ib', ac'⟩ := q
  have hv : v = v' := Quad.ext_get fun g => h (.v g)
  have ha : ia = ia' := Quad.ext_get fun g => h (.ia g)
  have hb : ib = ib' := Quad.ext_get fun g => h (.ib g)
  have hc : ac = ac' := h .acref
  subst hv ha hb hc; rfl

@[simp] theorem tableMap_getElem (f : α → β) (v : Vector α n) (i : Fin n) : (tableMap f v)[i] = f v[i] := by
  simp [tableMap]

@[simp] theorem tableZip_getElem (f : α → β → γ) (v : Vector α n) (w : Vector β n) (i : Fin n) :
    (tableZip f v w)[i] = f v[i] w[i] := by
  simp [tableZip]

namespace Machine

@[simp] theorem bumpAt_getElem (v : Vector Word n) (k : Nat) (i : Fin n) :
    (bumpAt v k)[i] = if i.val = k then v[i] + 1 else v[i] := by
  simp [bumpAt]

/-- One group's counter rises by 1 and no other counter changes (R151). -/
theorem Statistics.bumpGroup_get (s : Statistics) (g h : GroupId) (k : Nat) (i : Fin 12) :
    ((s.bumpGroup g k).groups.get h)[i] =
      (s.groups.get h)[i] + (if h = g ∧ i.val = k then 1 else 0) := by
  by_cases hg : h = g
  · subst hg
    simp only [Statistics.bumpGroup, Quad.get_set_self, bumpAt_getElem, true_and]
    split <;> simp
  · simp [Statistics.bumpGroup, Quad.get_set_of_ne _ _ hg, hg]

@[simp] theorem Statistics.bumpGroup_pairs (s : Statistics) (g : GroupId) (k : Nat) : (s.bumpGroup g k).pairs = s.pairs := rfl

end Machine

end Sys2Proof
end

