-- ==== Sys2Proof/Laws/Notices.lean ====
section
/-! SUPPORT. What enqueueing reports and raising flags can do to LC: only the queue, the lost count and the flags move, flags are never
cleared, and the queue keeps its size (R164, R168). -/

namespace Sys2Proof.Machine

/-- Everything of LC but the queue, the lost count and the flags is the same. -/
structure SameButQueue (l m : LinkController) : Prop where
  receiver : m.receiver = l.receiver
  gapFrom : m.gapFrom = l.gapFrom
  entries : m.entries = l.entries
  sending : m.sending = l.sending
  holdCount : m.holdCount = l.holdCount
  masks : m.masks = l.masks
  counters : m.counters = l.counters
  digests : m.digests = l.digests
  sync : m.sync = l.sync
  readied : m.readied = l.readied
  restartDue : m.restartDue = l.restartDue

theorem SameButQueue.refl (l : LinkController) : SameButQueue l l := by constructor <;> rfl

theorem SameButQueue.trans {l m n : LinkController} (h : SameButQueue l m) (k : SameButQueue m n) : SameButQueue l n := by
  constructor
  all_goals first
    | exact k.receiver.trans h.receiver | exact k.gapFrom.trans h.gapFrom | exact k.entries.trans h.entries
    | exact k.sending.trans h.sending | exact k.holdCount.trans h.holdCount | exact k.masks.trans h.masks
    | exact k.counters.trans h.counters | exact k.digests.trans h.digests | exact k.sync.trans h.sync
    | exact k.readied.trans h.readied | exact k.restartDue.trans h.restartDue

theorem LinkController.enqueueRaw_same (l : LinkController) (r : Report) : SameButQueue l (l.enqueueRaw r) := by
  constructor <;> rfl

theorem LinkController.enqueue_same (cycle : Word) (l : LinkController) (b : ReportBody) :
    SameButQueue l (l.enqueue cycle b) := by
  unfold LinkController.enqueue
  dsimp only
  split
  · split <;> (constructor <;> rfl)
  · exact l.enqueueRaw_same _

theorem LinkController.raise_same (cycle : Word) (l : LinkController) (f : Flag) : SameButQueue l (l.raise cycle f) := by
  unfold LinkController.raise
  dsimp only
  split
  · exact .refl l
  · split
    · exact SameButQueue.trans (by constructor <;> rfl) (LinkController.enqueue_same cycle _ _)
    · constructor <;> rfl

theorem LinkController.take_same (cycle : Word) (l : LinkController) (n : Notice) : SameButQueue l (l.take cycle n) := by
  cases n with
  | report b => exact l.enqueue_same cycle b
  | flag f => exact l.raise_same cycle f

/-- Posting notices moves only the queue, the lost count and the flags. -/
theorem LinkController.post_same (cycle : Word) (l : LinkController) (ns : List Notice) : SameButQueue l (l.post cycle ns) := by
  induction ns generalizing l with
  | nil => exact .refl l
  | cons n ns ih => exact (l.take_same cycle n).trans (ih _)

theorem dropOldestNonTrip_length {q q' : List Report} (h : dropOldestNonTrip q = some q') : q'.length + 1 = q.length := by
  induction q generalizing q' with
  | nil => cases h
  | cons r rs ih =>
    simp only [dropOldestNonTrip] at h
    split at h
    · rw [Option.map_eq_some_iff] at h
      obtain ⟨p, hp, rfl⟩ := h
      simp [← ih hp]
    · cases h; rfl

/-- The report queue never exceeds 64 records (R164). -/
theorem queueAfter_length {q : List Report} (r : Report) (h : q.length ≤ 64) : (queueAfter q r).1.length ≤ 64 := by
  unfold queueAfter Config.queueMax
  split
  · simp; omega
  · split
    · split
      · rename_i q' hq
        have := dropOldestNonTrip_length hq
        simp; omega
      · exact h
    · exact h

theorem bumpLost_le {n : Nat} (h : n ≤ 65535) : bumpLost n ≤ 65535 := by unfold bumpLost; split <;> omega

/-- The queue and the lost count within their bounds (R164). -/
def QueueFits (l : LinkController) : Prop := l.queue.length ≤ 64 ∧ l.lost ≤ 65535

theorem LinkController.enqueueRaw_fits {l : LinkController} (r : Report) (h : QueueFits l) : QueueFits (l.enqueueRaw r) := by
  refine ⟨queueAfter_length r h.1, ?_⟩
  unfold LinkController.enqueueRaw
  dsimp only
  split
  · exact bumpLost_le h.2
  · exact h.2

theorem LinkController.enqueue_fits (cycle : Word) {l : LinkController} (b : ReportBody) (h : QueueFits l) :
    QueueFits (l.enqueue cycle b) := by
  unfold LinkController.enqueue
  dsimp only
  have h' := LinkController.enqueueRaw_fits { cycle := cycle, body := b } h
  split
  · split
    · exact LinkController.enqueueRaw_fits _ (show QueueFits _ from h')
    · exact h'
  · exact h'

theorem LinkController.raise_fits (cycle : Word) {l : LinkController} (f : Flag) (h : QueueFits l) :
    QueueFits (l.raise cycle f) := by
  unfold LinkController.raise
  dsimp only
  split
  · exact h
  · split
    · exact LinkController.enqueue_fits cycle _ (show QueueFits _ from h)
    · exact h

theorem LinkController.take_fits (cycle : Word) {l : LinkController} (n : Notice) (h : QueueFits l) :
    QueueFits (l.take cycle n) := by
  cases n with
  | report b => exact LinkController.enqueue_fits cycle b h
  | flag f => exact LinkController.raise_fits cycle f h

theorem LinkController.post_fits (cycle : Word) {l : LinkController} (ns : List Notice) (h : QueueFits l) :
    QueueFits (l.post cycle ns) := by
  induction ns generalizing l with
  | nil => exact h
  | cons n ns ih => exact ih (LinkController.take_fits cycle n h)

/-- A flag that is set stays set while notices are posted. -/
theorem flagOf_or_left {a b : FlagSet} {f : Flag} (h : flagOf a f = true) : flagOf (a ||| b) f = true := by
  simp only [flagOf, BitVec.getLsbD_or] at *
  simp [h]

theorem flagOf_or_self (a : FlagSet) (f : Flag) : flagOf (a ||| flagBit f) f = true := by
  simp only [flagOf, BitVec.getLsbD_or]
  cases f <;> simp [flagBit, Flag.number]

theorem LinkController.enqueue_flag (cycle : Word) {l : LinkController} (b : ReportBody) {f : Flag}
    (h : flagOf l.flags f = true) : flagOf (l.enqueue cycle b).flags f = true := by
  unfold LinkController.enqueue
  dsimp only
  split
  · split
    · exact flagOf_or_left h
    · exact flagOf_or_left h
  · exact h

theorem LinkController.raise_flag (cycle : Word) {l : LinkController} (g : Flag) {f : Flag}
    (h : flagOf l.flags f = true) : flagOf (l.raise cycle g).flags f = true := by
  unfold LinkController.raise
  dsimp only
  split
  · exact h
  · split
    · exact LinkController.enqueue_flag cycle _ (flagOf_or_left h)
    · exact flagOf_or_left h

theorem LinkController.post_flag (cycle : Word) {l : LinkController} (ns : List Notice) {f : Flag}
    (h : flagOf l.flags f = true) : flagOf (l.post cycle ns).flags f = true := by
  induction ns generalizing l with
  | nil => exact h
  | cons n ns ih =>
    refine ih ?_
    cases n with
    | report b => exact LinkController.enqueue_flag cycle b h
    | flag g => exact LinkController.raise_flag cycle g h

/-- The cause of a flag leaves it set (R168). -/
theorem LinkController.raise_sets (cycle : Word) (l : LinkController) (f : Flag) : flagOf (l.raise cycle f).flags f = true := by
  unfold LinkController.raise
  dsimp only
  split
  · assumption
  · split
    · exact LinkController.enqueue_flag cycle _ (flagOf_or_self _ _)
    · exact flagOf_or_self _ _

end Sys2Proof.Machine
end

