-- ==== Sys2Proof/Laws/State.lean ====
section
/-! SUPPORT. One field read after one block was replaced, and the state after a block's notices were posted: true by the record's own
laws, so that no later proof unfolds a record update. -/

namespace Sys2Proof.Machine

variable (s : State)

@[simp] theorem State.setFe_pending (x : FrontEnd) : (s.setFe x).pending = s.pending := rfl
@[simp] theorem State.setFe_inReset (x : FrontEnd) : (s.setFe x).inReset = s.inReset := rfl
@[simp] theorem State.setFe_mode (x : FrontEnd) : (s.setFe x).mode = s.mode := rfl
@[simp] theorem State.setFe_fe (x : FrontEnd) : (s.setFe x).fe = x := rfl
@[simp] theorem State.setFe_ct (x : FrontEnd) : (s.setFe x).ct = s.ct := rfl
@[simp] theorem State.setFe_ae (x : FrontEnd) : (s.setFe x).ae = s.ae := rfl
@[simp] theorem State.setFe_gm (x : FrontEnd) : (s.setFe x).gm = s.gm := rfl
@[simp] theorem State.setFe_le (x : FrontEnd) : (s.setFe x).le = s.le := rfl
@[simp] theorem State.setFe_fc (x : FrontEnd) : (s.setFe x).fc = s.fc := rfl
@[simp] theorem State.setFe_cr (x : FrontEnd) : (s.setFe x).cr = s.cr := rfl
@[simp] theorem State.setFe_st (x : FrontEnd) : (s.setFe x).st = s.st := rfl
@[simp] theorem State.setFe_lc (x : FrontEnd) : (s.setFe x).lc = s.lc := rfl
@[simp] theorem State.setFe_ss (x : FrontEnd) : (s.setFe x).ss = s.ss := rfl
@[simp] theorem State.setFe_freeNext (x : FrontEnd) : (s.setFe x).freeNext = s.freeNext := rfl

@[simp] theorem State.setCt_pending (x : CycleTracker) : (s.setCt x).pending = s.pending := rfl
@[simp] theorem State.setCt_inReset (x : CycleTracker) : (s.setCt x).inReset = s.inReset := rfl
@[simp] theorem State.setCt_mode (x : CycleTracker) : (s.setCt x).mode = s.mode := rfl
@[simp] theorem State.setCt_fe (x : CycleTracker) : (s.setCt x).fe = s.fe := rfl
@[simp] theorem State.setCt_ct (x : CycleTracker) : (s.setCt x).ct = x := rfl
@[simp] theorem State.setCt_ae (x : CycleTracker) : (s.setCt x).ae = s.ae := rfl
@[simp] theorem State.setCt_gm (x : CycleTracker) : (s.setCt x).gm = s.gm := rfl
@[simp] theorem State.setCt_le (x : CycleTracker) : (s.setCt x).le = s.le := rfl
@[simp] theorem State.setCt_fc (x : CycleTracker) : (s.setCt x).fc = s.fc := rfl
@[simp] theorem State.setCt_cr (x : CycleTracker) : (s.setCt x).cr = s.cr := rfl
@[simp] theorem State.setCt_st (x : CycleTracker) : (s.setCt x).st = s.st := rfl
@[simp] theorem State.setCt_lc (x : CycleTracker) : (s.setCt x).lc = s.lc := rfl
@[simp] theorem State.setCt_ss (x : CycleTracker) : (s.setCt x).ss = s.ss := rfl
@[simp] theorem State.setCt_freeNext (x : CycleTracker) : (s.setCt x).freeNext = s.freeNext := rfl

@[simp] theorem State.setAe_pending (x : AnalysisEngine) : (s.setAe x).pending = s.pending := rfl
@[simp] theorem State.setAe_inReset (x : AnalysisEngine) : (s.setAe x).inReset = s.inReset := rfl
@[simp] theorem State.setAe_mode (x : AnalysisEngine) : (s.setAe x).mode = s.mode := rfl
@[simp] theorem State.setAe_fe (x : AnalysisEngine) : (s.setAe x).fe = s.fe := rfl
@[simp] theorem State.setAe_ct (x : AnalysisEngine) : (s.setAe x).ct = s.ct := rfl
@[simp] theorem State.setAe_ae (x : AnalysisEngine) : (s.setAe x).ae = x := rfl
@[simp] theorem State.setAe_gm (x : AnalysisEngine) : (s.setAe x).gm = s.gm := rfl
@[simp] theorem State.setAe_le (x : AnalysisEngine) : (s.setAe x).le = s.le := rfl
@[simp] theorem State.setAe_fc (x : AnalysisEngine) : (s.setAe x).fc = s.fc := rfl
@[simp] theorem State.setAe_cr (x : AnalysisEngine) : (s.setAe x).cr = s.cr := rfl
@[simp] theorem State.setAe_st (x : AnalysisEngine) : (s.setAe x).st = s.st := rfl
@[simp] theorem State.setAe_lc (x : AnalysisEngine) : (s.setAe x).lc = s.lc := rfl
@[simp] theorem State.setAe_ss (x : AnalysisEngine) : (s.setAe x).ss = s.ss := rfl
@[simp] theorem State.setAe_freeNext (x : AnalysisEngine) : (s.setAe x).freeNext = s.freeNext := rfl

@[simp] theorem State.setGm_pending (x : Monitors) : (s.setGm x).pending = s.pending := rfl
@[simp] theorem State.setGm_inReset (x : Monitors) : (s.setGm x).inReset = s.inReset := rfl
@[simp] theorem State.setGm_mode (x : Monitors) : (s.setGm x).mode = s.mode := rfl
@[simp] theorem State.setGm_fe (x : Monitors) : (s.setGm x).fe = s.fe := rfl
@[simp] theorem State.setGm_ct (x : Monitors) : (s.setGm x).ct = s.ct := rfl
@[simp] theorem State.setGm_ae (x : Monitors) : (s.setGm x).ae = s.ae := rfl
@[simp] theorem State.setGm_gm (x : Monitors) : (s.setGm x).gm = x := rfl
@[simp] theorem State.setGm_le (x : Monitors) : (s.setGm x).le = s.le := rfl
@[simp] theorem State.setGm_fc (x : Monitors) : (s.setGm x).fc = s.fc := rfl
@[simp] theorem State.setGm_cr (x : Monitors) : (s.setGm x).cr = s.cr := rfl
@[simp] theorem State.setGm_st (x : Monitors) : (s.setGm x).st = s.st := rfl
@[simp] theorem State.setGm_lc (x : Monitors) : (s.setGm x).lc = s.lc := rfl
@[simp] theorem State.setGm_ss (x : Monitors) : (s.setGm x).ss = s.ss := rfl
@[simp] theorem State.setGm_freeNext (x : Monitors) : (s.setGm x).freeNext = s.freeNext := rfl

@[simp] theorem State.setLe_pending (x : LimitEvaluator) : (s.setLe x).pending = s.pending := rfl
@[simp] theorem State.setLe_inReset (x : LimitEvaluator) : (s.setLe x).inReset = s.inReset := rfl
@[simp] theorem State.setLe_mode (x : LimitEvaluator) : (s.setLe x).mode = s.mode := rfl
@[simp] theorem State.setLe_fe (x : LimitEvaluator) : (s.setLe x).fe = s.fe := rfl
@[simp] theorem State.setLe_ct (x : LimitEvaluator) : (s.setLe x).ct = s.ct := rfl
@[simp] theorem State.setLe_ae (x : LimitEvaluator) : (s.setLe x).ae = s.ae := rfl
@[simp] theorem State.setLe_gm (x : LimitEvaluator) : (s.setLe x).gm = s.gm := rfl
@[simp] theorem State.setLe_le (x : LimitEvaluator) : (s.setLe x).le = x := rfl
@[simp] theorem State.setLe_fc (x : LimitEvaluator) : (s.setLe x).fc = s.fc := rfl
@[simp] theorem State.setLe_cr (x : LimitEvaluator) : (s.setLe x).cr = s.cr := rfl
@[simp] theorem State.setLe_st (x : LimitEvaluator) : (s.setLe x).st = s.st := rfl
@[simp] theorem State.setLe_lc (x : LimitEvaluator) : (s.setLe x).lc = s.lc := rfl
@[simp] theorem State.setLe_ss (x : LimitEvaluator) : (s.setLe x).ss = s.ss := rfl
@[simp] theorem State.setLe_freeNext (x : LimitEvaluator) : (s.setLe x).freeNext = s.freeNext := rfl

@[simp] theorem State.setFc_pending (x : Comparators) : (s.setFc x).pending = s.pending := rfl
@[simp] theorem State.setFc_inReset (x : Comparators) : (s.setFc x).inReset = s.inReset := rfl
@[simp] theorem State.setFc_mode (x : Comparators) : (s.setFc x).mode = s.mode := rfl
@[simp] theorem State.setFc_fe (x : Comparators) : (s.setFc x).fe = s.fe := rfl
@[simp] theorem State.setFc_ct (x : Comparators) : (s.setFc x).ct = s.ct := rfl
@[simp] theorem State.setFc_ae (x : Comparators) : (s.setFc x).ae = s.ae := rfl
@[simp] theorem State.setFc_gm (x : Comparators) : (s.setFc x).gm = s.gm := rfl
@[simp] theorem State.setFc_le (x : Comparators) : (s.setFc x).le = s.le := rfl
@[simp] theorem State.setFc_fc (x : Comparators) : (s.setFc x).fc = x := rfl
@[simp] theorem State.setFc_cr (x : Comparators) : (s.setFc x).cr = s.cr := rfl
@[simp] theorem State.setFc_st (x : Comparators) : (s.setFc x).st = s.st := rfl
@[simp] theorem State.setFc_lc (x : Comparators) : (s.setFc x).lc = s.lc := rfl
@[simp] theorem State.setFc_ss (x : Comparators) : (s.setFc x).ss = s.ss := rfl
@[simp] theorem State.setFc_freeNext (x : Comparators) : (s.setFc x).freeNext = s.freeNext := rfl

@[simp] theorem State.setCr_pending (x : CaptureRing) : (s.setCr x).pending = s.pending := rfl
@[simp] theorem State.setCr_inReset (x : CaptureRing) : (s.setCr x).inReset = s.inReset := rfl
@[simp] theorem State.setCr_mode (x : CaptureRing) : (s.setCr x).mode = s.mode := rfl
@[simp] theorem State.setCr_fe (x : CaptureRing) : (s.setCr x).fe = s.fe := rfl
@[simp] theorem State.setCr_ct (x : CaptureRing) : (s.setCr x).ct = s.ct := rfl
@[simp] theorem State.setCr_ae (x : CaptureRing) : (s.setCr x).ae = s.ae := rfl
@[simp] theorem State.setCr_gm (x : CaptureRing) : (s.setCr x).gm = s.gm := rfl
@[simp] theorem State.setCr_le (x : CaptureRing) : (s.setCr x).le = s.le := rfl
@[simp] theorem State.setCr_fc (x : CaptureRing) : (s.setCr x).fc = s.fc := rfl
@[simp] theorem State.setCr_cr (x : CaptureRing) : (s.setCr x).cr = x := rfl
@[simp] theorem State.setCr_st (x : CaptureRing) : (s.setCr x).st = s.st := rfl
@[simp] theorem State.setCr_lc (x : CaptureRing) : (s.setCr x).lc = s.lc := rfl
@[simp] theorem State.setCr_ss (x : CaptureRing) : (s.setCr x).ss = s.ss := rfl
@[simp] theorem State.setCr_freeNext (x : CaptureRing) : (s.setCr x).freeNext = s.freeNext := rfl

@[simp] theorem State.setSt_pending (x : Statistics) : (s.setSt x).pending = s.pending := rfl
@[simp] theorem State.setSt_inReset (x : Statistics) : (s.setSt x).inReset = s.inReset := rfl
@[simp] theorem State.setSt_mode (x : Statistics) : (s.setSt x).mode = s.mode := rfl
@[simp] theorem State.setSt_fe (x : Statistics) : (s.setSt x).fe = s.fe := rfl
@[simp] theorem State.setSt_ct (x : Statistics) : (s.setSt x).ct = s.ct := rfl
@[simp] theorem State.setSt_ae (x : Statistics) : (s.setSt x).ae = s.ae := rfl
@[simp] theorem State.setSt_gm (x : Statistics) : (s.setSt x).gm = s.gm := rfl
@[simp] theorem State.setSt_le (x : Statistics) : (s.setSt x).le = s.le := rfl
@[simp] theorem State.setSt_fc (x : Statistics) : (s.setSt x).fc = s.fc := rfl
@[simp] theorem State.setSt_cr (x : Statistics) : (s.setSt x).cr = s.cr := rfl
@[simp] theorem State.setSt_st (x : Statistics) : (s.setSt x).st = x := rfl
@[simp] theorem State.setSt_lc (x : Statistics) : (s.setSt x).lc = s.lc := rfl
@[simp] theorem State.setSt_ss (x : Statistics) : (s.setSt x).ss = s.ss := rfl
@[simp] theorem State.setSt_freeNext (x : Statistics) : (s.setSt x).freeNext = s.freeNext := rfl

@[simp] theorem State.setLc_pending (x : LinkController) : (s.setLc x).pending = s.pending := rfl
@[simp] theorem State.setLc_inReset (x : LinkController) : (s.setLc x).inReset = s.inReset := rfl
@[simp] theorem State.setLc_mode (x : LinkController) : (s.setLc x).mode = s.mode := rfl
@[simp] theorem State.setLc_fe (x : LinkController) : (s.setLc x).fe = s.fe := rfl
@[simp] theorem State.setLc_ct (x : LinkController) : (s.setLc x).ct = s.ct := rfl
@[simp] theorem State.setLc_ae (x : LinkController) : (s.setLc x).ae = s.ae := rfl
@[simp] theorem State.setLc_gm (x : LinkController) : (s.setLc x).gm = s.gm := rfl
@[simp] theorem State.setLc_le (x : LinkController) : (s.setLc x).le = s.le := rfl
@[simp] theorem State.setLc_fc (x : LinkController) : (s.setLc x).fc = s.fc := rfl
@[simp] theorem State.setLc_cr (x : LinkController) : (s.setLc x).cr = s.cr := rfl
@[simp] theorem State.setLc_st (x : LinkController) : (s.setLc x).st = s.st := rfl
@[simp] theorem State.setLc_lc (x : LinkController) : (s.setLc x).lc = x := rfl
@[simp] theorem State.setLc_ss (x : LinkController) : (s.setLc x).ss = s.ss := rfl
@[simp] theorem State.setLc_freeNext (x : LinkController) : (s.setLc x).freeNext = s.freeNext := rfl

@[simp] theorem State.setSs_pending (x : SettingsStore) : (s.setSs x).pending = s.pending := rfl
@[simp] theorem State.setSs_inReset (x : SettingsStore) : (s.setSs x).inReset = s.inReset := rfl
@[simp] theorem State.setSs_mode (x : SettingsStore) : (s.setSs x).mode = s.mode := rfl
@[simp] theorem State.setSs_fe (x : SettingsStore) : (s.setSs x).fe = s.fe := rfl
@[simp] theorem State.setSs_ct (x : SettingsStore) : (s.setSs x).ct = s.ct := rfl
@[simp] theorem State.setSs_ae (x : SettingsStore) : (s.setSs x).ae = s.ae := rfl
@[simp] theorem State.setSs_gm (x : SettingsStore) : (s.setSs x).gm = s.gm := rfl
@[simp] theorem State.setSs_le (x : SettingsStore) : (s.setSs x).le = s.le := rfl
@[simp] theorem State.setSs_fc (x : SettingsStore) : (s.setSs x).fc = s.fc := rfl
@[simp] theorem State.setSs_cr (x : SettingsStore) : (s.setSs x).cr = s.cr := rfl
@[simp] theorem State.setSs_st (x : SettingsStore) : (s.setSs x).st = s.st := rfl
@[simp] theorem State.setSs_lc (x : SettingsStore) : (s.setSs x).lc = s.lc := rfl
@[simp] theorem State.setSs_ss (x : SettingsStore) : (s.setSs x).ss = x := rfl
@[simp] theorem State.setSs_freeNext (x : SettingsStore) : (s.setSs x).freeNext = s.freeNext := rfl

@[simp] theorem State.setMode_pending (x : Mode) : (s.setMode x).pending = s.pending := rfl
@[simp] theorem State.setMode_inReset (x : Mode) : (s.setMode x).inReset = s.inReset := rfl
@[simp] theorem State.setMode_mode (x : Mode) : (s.setMode x).mode = x := rfl
@[simp] theorem State.setMode_fe (x : Mode) : (s.setMode x).fe = s.fe := rfl
@[simp] theorem State.setMode_ct (x : Mode) : (s.setMode x).ct = s.ct := rfl
@[simp] theorem State.setMode_ae (x : Mode) : (s.setMode x).ae = s.ae := rfl
@[simp] theorem State.setMode_gm (x : Mode) : (s.setMode x).gm = s.gm := rfl
@[simp] theorem State.setMode_le (x : Mode) : (s.setMode x).le = s.le := rfl
@[simp] theorem State.setMode_fc (x : Mode) : (s.setMode x).fc = s.fc := rfl
@[simp] theorem State.setMode_cr (x : Mode) : (s.setMode x).cr = s.cr := rfl
@[simp] theorem State.setMode_st (x : Mode) : (s.setMode x).st = s.st := rfl
@[simp] theorem State.setMode_lc (x : Mode) : (s.setMode x).lc = s.lc := rfl
@[simp] theorem State.setMode_ss (x : Mode) : (s.setMode x).ss = s.ss := rfl
@[simp] theorem State.setMode_freeNext (x : Mode) : (s.setMode x).freeNext = s.freeNext := rfl

@[simp] theorem State.setFreeNext_pending (x : Nat) : (s.setFreeNext x).pending = s.pending := rfl
@[simp] theorem State.setFreeNext_inReset (x : Nat) : (s.setFreeNext x).inReset = s.inReset := rfl
@[simp] theorem State.setFreeNext_mode (x : Nat) : (s.setFreeNext x).mode = s.mode := rfl
@[simp] theorem State.setFreeNext_fe (x : Nat) : (s.setFreeNext x).fe = s.fe := rfl
@[simp] theorem State.setFreeNext_ct (x : Nat) : (s.setFreeNext x).ct = s.ct := rfl
@[simp] theorem State.setFreeNext_ae (x : Nat) : (s.setFreeNext x).ae = s.ae := rfl
@[simp] theorem State.setFreeNext_gm (x : Nat) : (s.setFreeNext x).gm = s.gm := rfl
@[simp] theorem State.setFreeNext_le (x : Nat) : (s.setFreeNext x).le = s.le := rfl
@[simp] theorem State.setFreeNext_fc (x : Nat) : (s.setFreeNext x).fc = s.fc := rfl
@[simp] theorem State.setFreeNext_cr (x : Nat) : (s.setFreeNext x).cr = s.cr := rfl
@[simp] theorem State.setFreeNext_st (x : Nat) : (s.setFreeNext x).st = s.st := rfl
@[simp] theorem State.setFreeNext_lc (x : Nat) : (s.setFreeNext x).lc = s.lc := rfl
@[simp] theorem State.setFreeNext_ss (x : Nat) : (s.setFreeNext x).ss = s.ss := rfl
@[simp] theorem State.setFreeNext_freeNext (x : Nat) : (s.setFreeNext x).freeNext = x := rfl

@[simp] theorem State.post_pending (ns : List Notice) : (s.post ns).pending = s.pending := rfl
@[simp] theorem State.post_inReset (ns : List Notice) : (s.post ns).inReset = s.inReset := rfl
@[simp] theorem State.post_mode (ns : List Notice) : (s.post ns).mode = s.mode := rfl
@[simp] theorem State.post_fe (ns : List Notice) : (s.post ns).fe = s.fe := rfl
@[simp] theorem State.post_ct (ns : List Notice) : (s.post ns).ct = s.ct := rfl
@[simp] theorem State.post_ae (ns : List Notice) : (s.post ns).ae = s.ae := rfl
@[simp] theorem State.post_gm (ns : List Notice) : (s.post ns).gm = s.gm := rfl
@[simp] theorem State.post_le (ns : List Notice) : (s.post ns).le = s.le := rfl
@[simp] theorem State.post_fc (ns : List Notice) : (s.post ns).fc = s.fc := rfl
@[simp] theorem State.post_cr (ns : List Notice) : (s.post ns).cr = s.cr := rfl
@[simp] theorem State.post_st (ns : List Notice) : (s.post ns).st = s.st := rfl
@[simp] theorem State.post_lc (ns : List Notice) : (s.post ns).lc = s.lc.post s.ct.cycle ns := rfl
@[simp] theorem State.post_ss (ns : List Notice) : (s.post ns).ss = s.ss := rfl
@[simp] theorem State.post_freeNext (ns : List Notice) : (s.post ns).freeNext = s.freeNext := rfl

@[simp] theorem State.post_nil : s.post [] = s := rfl

end Sys2Proof.Machine
end

