-- ==== Sys2Proof/Laws/Operations.lean ====
section
/-! SUPPORT. What each shared operation can do, said once: whether a command takes effect, time, the latches and the alert line, the
freeze triggers, and the verdicts. -/

namespace Sys2Proof.Machine

/-! ### Whether a command takes effect -/

theorem whenDue_cases {s t u : State} {due : Bool} (h : whenDue s due t = .next u) :
    (s.inReset = false ∧ due = true ∧ u = t) ∨ ((s.inReset = true ∨ due = false) ∧ u = s) := by
  unfold whenDue at h
  cases hr : s.inReset <;> cases due <;> simp_all

theorem whenDue_of_due {s t : State} (hr : s.inReset = false) : whenDue s true t = .next t := by simp [whenDue, hr]

@[simp] theorem whenDue_false (s t : State) : whenDue s false t = .next s := by simp [whenDue]

theorem whenDue_of_reset {s t : State} (due : Bool) (hr : s.inReset = true) : whenDue s due t = .next s := by simp [whenDue, hr]

theorem whenRunning_of_running {s t : State} (hr : s.inReset = false) : whenRunning s t = .next t := by simp [whenRunning, hr]

theorem whenRunning_of_reset {s t : State} (hr : s.inReset = true) : whenRunning s t = .next s := by simp [whenRunning, hr]

/-! ### Time -/

/-- Only the timebase moves. -/
theorem CycleTracker.reach_frame (c : CycleTracker) (due : Count) :
    c.reach due = { c with timebase := (c.reach due).timebase } := rfl

theorem CycleTracker.elapse_frame (c : CycleTracker) (elapsed : Nat) :
    c.elapse elapsed = { c with timebase := c.timebase + BitVec.ofNat 64 elapsed } := rfl

/-- The timebase never runs backward (log entry 8), and the event is not before its count. -/
theorem CycleTracker.reach_timebase (c : CycleTracker) (due : Count) :
    c.timebase.toNat ≤ (c.reach due).timebase.toNat ∧ due.toNat ≤ (c.reach due).timebase.toNat := by
  unfold CycleTracker.reach
  split
  · constructor <;> simp_all
    omega
  · constructor <;> simp_all

/-! ### Latches and the alert line -/

/-- R116: the alert line after a re-evaluation. -/
theorem LimitEvaluator.refreshAlert_alert (l : LimitEvaluator) (m : Mode) :
    (l.refreshAlert m).alert = true ↔
      m = .normal ∧ ((∃ g, l.verdicts.get g = .alarm ∨ l.verdicts.get g = .trip) ∨ ∃ g, l.latches.get g = true) := by
  have verdict : ∀ g, (l.verdicts.get g).alerting = true ↔ l.verdicts.get g = .alarm ∨ l.verdicts.get g = .trip := by
    intro g
    cases l.verdicts.get g <;> simp [Verdict.alerting]
  simp [LimitEvaluator.refreshAlert, Quad.any_iff, verdict]

/-- A re-evaluation touches nothing but the alert line. -/
theorem LimitEvaluator.refreshAlert_frame (l : LimitEvaluator) (m : Mode) :
    l.refreshAlert m = { l with alert := (l.refreshAlert m).alert } := rfl

@[simp] theorem LimitEvaluator.setLatch_records (l : LimitEvaluator) (m : Mode) (g : GroupId) (on : Bool) :
    (l.setLatch m g on).records = l.records := rfl
@[simp] theorem LimitEvaluator.setLatch_verdicts (l : LimitEvaluator) (m : Mode) (g : GroupId) (on : Bool) :
    (l.setLatch m g on).verdicts = l.verdicts := rfl
@[simp] theorem LimitEvaluator.setLatch_latches (l : LimitEvaluator) (m : Mode) (g : GroupId) (on : Bool) :
    (l.setLatch m g on).latches = l.latches.set g on := rfl
@[simp] theorem LimitEvaluator.setLatch_tripLines (l : LimitEvaluator) (m : Mode) (g : GroupId) (on : Bool) :
    (l.setLatch m g on).tripLines = l.tripLines.set g on := rfl

/-- A latch set in NORMAL raises the alert line (R116). -/
theorem LimitEvaluator.setLatch_alert (l : LimitEvaluator) (g : GroupId) : (l.setLatch .normal g true).alert = true :=
  (LimitEvaluator.refreshAlert_alert _ _).mpr ⟨rfl, .inr ⟨g, Quad.get_set_self ..⟩⟩

/-! ### Freeze triggers -/

/-- R137, R139: a considered trigger freezes a running ring, or is ignored and counted. -/
theorem CaptureRing.consider_cases (c : CaptureRing) (post : Nat) (r : TriggerRecord) :
    (c.state = .running ∧
      c.consider post r = ({ c with state := .post, postCount := post, trigger := some r },
        [.report (.freezeEvent false r post none c.ignored)])) ∨
    (c.state ≠ .running ∧
      c.consider post r = ({ c with ignored := if c.ignored < 65535 then c.ignored + 1 else c.ignored }, [])) := by
  unfold CaptureRing.consider
  split <;> simp_all

/-- A trigger offered to CR touches CR and LC alone. -/
theorem State.offerTrigger_frame (s : State) (r : TriggerRecord) :
    s.offerTrigger r = { s with cr := (s.offerTrigger r).cr, lc := (s.offerTrigger r).lc } := by
  unfold State.offerTrigger
  split <;> rfl

/-- LC takes at most the one FREEZE_EVENT. -/
theorem State.offerTrigger_link (s : State) (r : TriggerRecord) :
    ∃ ns : List Notice, ns.length ≤ 1 ∧ (s.offerTrigger r).lc = s.lc.post s.ct.cycle ns := by
  unfold State.offerTrigger
  split
  · refine ⟨_, ?_, rfl⟩
    rcases CaptureRing.consider_cases s.cr s.ss.working.freeze.postCycles r with ⟨-, h⟩ | ⟨-, h⟩ <;> simp [h]
  · exact ⟨[], by simp, rfl⟩

/-! ### Verdicts -/

/-- A verdict that changes touches that verdict, the alert line and LC alone. -/
theorem State.setVerdict_frame (s : State) (g : GroupId) (v : Verdict) (holder : Option (Nat × Bool)) (cause : VerdictCause)
    (window : Word) :
    s.setVerdict g v holder cause window =
      { s with
        le := { s.le with
          verdicts := (s.setVerdict g v holder cause window).le.verdicts
          alert := (s.setVerdict g v holder cause window).le.alert }
        lc := (s.setVerdict g v holder cause window).lc } := by
  unfold State.setVerdict
  simp only
  split <;> rfl

/-- The group has the verdict, the others keep theirs. -/
theorem State.setVerdict_verdict (s : State) (g h : GroupId) (v : Verdict) (holder : Option (Nat × Bool)) (cause : VerdictCause)
    (window : Word) :
    (s.setVerdict g v holder cause window).le.verdicts.get h = if h = g then v else s.le.verdicts.get h := by
  unfold State.setVerdict
  simp only
  split
  · split <;> simp_all
  · simp [State.post, LimitEvaluator.refreshAlert, Quad.get_set]

/-- The recomputation of one group's verdict reads the table and the records, which it leaves alone. -/
theorem State.recompute_frame (cause : VerdictCause) (window : Word) (s : State) (g : GroupId) :
    s.recompute cause window g =
      { s with
        le := { s.le with
          verdicts := (s.recompute cause window g).le.verdicts
          alert := (s.recompute cause window g).le.alert }
        lc := (s.recompute cause window g).lc } := State.setVerdict_frame ..

@[simp] theorem State.recompute_standing (cause : VerdictCause) (window : Word) (s : State) (g h : GroupId) :
    (s.recompute cause window g).standing h = s.standing h := by
  rw [State.recompute_frame]
  rfl

theorem State.recompute_verdict (cause : VerdictCause) (window : Word) (s : State) (g h : GroupId) :
    (s.recompute cause window g).le.verdicts.get h =
      if h = g then verdictOf (s.standing g) else s.le.verdicts.get h := State.setVerdict_verdict ..

/-- R111: after a recomputation every verdict is the one its standing records give. -/
theorem State.recomputeAll_verdict (s : State) (cause : VerdictCause) (window : Word) (g : GroupId) :
    (s.recomputeAll cause window).le.verdicts.get g = verdictOf (s.standing g) := by
  cases g <;> simp [State.recomputeAll, GroupId.all, State.recompute_verdict]

end Sys2Proof.Machine
end

