-- ==== Sys2Proof/WellFormed.lean ====
section
/-! DEFINITION. Which commands are well formed. The types already hold most operands to their values (four groups, thirteen
channels, 16-bit codes, 8-bit characters); what is left is checked here. -/

namespace Sys2Proof

open Sys2Proof.Machine

/-- A copy that an image memory can hold whole: its table entries fit the fields of R97. -/
def imageWellFormed : StoredImage → Bool
  | .whole copy _ => copy.limits.toList.all fun e => match e with
    | some e => e.fits
    | none => true
  | _ => true

/-- The operands of a command lie where the manual puts them: an elapsed time fits the 64-bit timebase, a hold ends on one of
the eight current channels (R8), and an image read back fits its fields. -/
def Instr.wellFormed : Instr → Bool
  | .reset (some image) => imageWellFormed image
  | .referencePolarityChange elapsed _ => decide (elapsed < 2 ^ 64)
  | .holdEnd c _ => c.isCurrent
  | .linkCharacter elapsed _ _ => decide (elapsed < 2 ^ 64)
  | .frameAccepted elapsed _ _ => decide (elapsed < 2 ^ 64)
  | .storeCompletion image => imageWellFormed image
  | _ => true

end Sys2Proof
end

