-- ==== Sys2Proof/Laws/PerInstr.lean ====
section
/-! SUPPORT. For every command, its operands' ranges as propositions: the family `Shape` of LAWS.json. -/

namespace Sys2Proof.Laws

open Sys2Proof.Machine

/-- Every table entry of an image that the memory holds whole fits the fields of R97. -/
def ImageFits : StoredImage → Prop
  | .whole copy _ => ∀ entry ∈ copy.limits.toList, ∀ e, entry = some e → e.fits = true
  | _ => True

theorem imageWellFormed_iff (image : StoredImage) : imageWellFormed image = true ↔ ImageFits image := by
  cases image with
  | torn => simp [imageWellFormed, ImageFits]
  | foreign computed stored => simp [imageWellFormed, ImageFits]
  | whole copy stored =>
    simp only [imageWellFormed, ImageFits, List.all_eq_true]
    refine forall₂_congr fun entry _ => ?_
    cases entry <;> simp

/-- What the manual asks of a command's operands, beyond what their types already say. -/
def Shape.Operands : Instr → Prop
  | .reset (some image) => ImageFits image
  | .reset none => True
  | .resetRelease _ _ => True
  | .referencePolarityChange elapsed _ => elapsed < 2 ^ 64
  | .polarityConfirmed => True
  | .lockAchieved => True
  | .missTimer => True
  | .holdoverEntry _ => True
  | .relock => True
  | .holdoverLimit _ => True
  | .sampleEvent _ => True
  | .holdEnd c _ => ∃ g, c = .ia g ∨ c = .ib g
  | .filteredOutputChange _ _ _ => True
  | .cycleBoundary _ => True
  | .inputClosed _ _ => True
  | .inputOpen _ _ => True
  | .settleCountExpiry _ _ => True
  | .ringFrozen _ => True
  | .reportHoldEnd _ => True
  | .windowBoundary _ => True
  | .jobStart => True
  | .jobCompletion => True
  | .evaluationPass => True
  | .linkCharacter elapsed _ _ => elapsed < 2 ^ 64
  | .gapTimeout => True
  | .frameAccepted elapsed _ _ => elapsed < 2 ^ 64
  | .nonRequestKind => True
  | .transmitStart => True
  | .frameSent => True
  | .identify => True
  | .getStatus => True
  | .clearFlags => True
  | .setFlagMask => True
  | .getWindow => True
  | .getLines => True
  | .scanLines => True
  | .readSamples => True
  | .setFreeze => True
  | .forceFreeze => True
  | .releaseFreeze => True
  | .setLimit => True
  | .getLimit => True
  | .deleteLimit => True
  | .setWeights => True
  | .setChannel => True
  | .setComparator => True
  | .setAnalysis => True
  | .getSettings => True
  | .getCounters => True
  | .setCounter => True
  | .clearTrip => True
  | .holdReports => True
  | .syncPoint => True
  | .storeSettings => True
  | .storeCompletion readBack => ImageFits readBack
  | .checkSettings => True
  | .checkCompletion => True
  | .restart => True
  | .restartExecution => True
  | .leaveMaintenance => True

/-- The checker answers yes exactly for operands in their ranges. -/
def Shape.Statement (i : Instr) : Prop := i.wellFormed = true ↔ Shape.Operands i

theorem isCurrent_iff (c : ChannelId) : c.isCurrent = true ↔ ∃ g, c = .ia g ∨ c = .ib g := by
  cases c <;> simp [ChannelId.isCurrent]

theorem Shape.reset (written : Option StoredImage) : Shape.Statement (.reset written) := by
  cases written with
  | none => simp [Shape.Statement, Instr.wellFormed, Shape.Operands]
  | some image => exact imageWellFormed_iff image
theorem Shape.resetRelease (strap : Bool) (reference : Polarity) : Shape.Statement (.resetRelease strap reference) := iff_of_true rfl trivial
theorem Shape.referencePolarityChange (elapsed : Nat) (polarity : Polarity) : Shape.Statement (.referencePolarityChange elapsed polarity) := decide_eq_true_iff
theorem Shape.polarityConfirmed : Shape.Statement .polarityConfirmed := iff_of_true rfl trivial
theorem Shape.lockAchieved : Shape.Statement .lockAchieved := iff_of_true rfl trivial
theorem Shape.missTimer : Shape.Statement .missTimer := iff_of_true rfl trivial
theorem Shape.holdoverEntry (kind : MissKind) : Shape.Statement (.holdoverEntry kind) := iff_of_true rfl trivial
theorem Shape.relock : Shape.Statement .relock := iff_of_true rfl trivial
theorem Shape.holdoverLimit (inputs : InputLevels) : Shape.Statement (.holdoverLimit inputs) := iff_of_true rfl trivial
theorem Shape.sampleEvent (raw : RawCodes) : Shape.Statement (.sampleEvent raw) := iff_of_true rfl trivial
theorem Shape.holdEnd (c : ChannelId) (raw : RawCodes) : Shape.Statement (.holdEnd c raw) := isCurrent_iff c
theorem Shape.filteredOutputChange (g : GroupId) (c : CompId) (raw : RawCodes) : Shape.Statement (.filteredOutputChange g c raw) := iff_of_true rfl trivial
theorem Shape.cycleBoundary (inputs : InputLevels) : Shape.Statement (.cycleBoundary inputs) := iff_of_true rfl trivial
theorem Shape.inputClosed (g : GroupId) (inputs : InputLevels) : Shape.Statement (.inputClosed g inputs) := iff_of_true rfl trivial
theorem Shape.inputOpen (g : GroupId) (inputs : InputLevels) : Shape.Statement (.inputOpen g inputs) := iff_of_true rfl trivial
theorem Shape.settleCountExpiry (g : GroupId) (inputs : InputLevels) : Shape.Statement (.settleCountExpiry g inputs) := iff_of_true rfl trivial
theorem Shape.ringFrozen (inputs : InputLevels) : Shape.Statement (.ringFrozen inputs) := iff_of_true rfl trivial
theorem Shape.reportHoldEnd (inputs : InputLevels) : Shape.Statement (.reportHoldEnd inputs) := iff_of_true rfl trivial
theorem Shape.windowBoundary (inputs : InputLevels) : Shape.Statement (.windowBoundary inputs) := iff_of_true rfl trivial
theorem Shape.jobStart : Shape.Statement .jobStart := iff_of_true rfl trivial
theorem Shape.jobCompletion : Shape.Statement .jobCompletion := iff_of_true rfl trivial
theorem Shape.evaluationPass : Shape.Statement .evaluationPass := iff_of_true rfl trivial
theorem Shape.linkCharacter (elapsed : Nat) (character : Byte) (stopBit : Bool) : Shape.Statement (.linkCharacter elapsed character stopBit) := decide_eq_true_iff
theorem Shape.gapTimeout : Shape.Statement .gapTimeout := iff_of_true rfl trivial
theorem Shape.frameAccepted (elapsed : Nat) (character : Byte) (stopBit : Bool) : Shape.Statement (.frameAccepted elapsed character stopBit) := decide_eq_true_iff
theorem Shape.nonRequestKind : Shape.Statement .nonRequestKind := iff_of_true rfl trivial
theorem Shape.transmitStart : Shape.Statement .transmitStart := iff_of_true rfl trivial
theorem Shape.frameSent : Shape.Statement .frameSent := iff_of_true rfl trivial
theorem Shape.identify : Shape.Statement .identify := iff_of_true rfl trivial
theorem Shape.getStatus : Shape.Statement .getStatus := iff_of_true rfl trivial
theorem Shape.clearFlags : Shape.Statement .clearFlags := iff_of_true rfl trivial
theorem Shape.setFlagMask : Shape.Statement .setFlagMask := iff_of_true rfl trivial
theorem Shape.getWindow : Shape.Statement .getWindow := iff_of_true rfl trivial
theorem Shape.getLines : Shape.Statement .getLines := iff_of_true rfl trivial
theorem Shape.scanLines : Shape.Statement .scanLines := iff_of_true rfl trivial
theorem Shape.readSamples : Shape.Statement .readSamples := iff_of_true rfl trivial
theorem Shape.setFreeze : Shape.Statement .setFreeze := iff_of_true rfl trivial
theorem Shape.forceFreeze : Shape.Statement .forceFreeze := iff_of_true rfl trivial
theorem Shape.releaseFreeze : Shape.Statement .releaseFreeze := iff_of_true rfl trivial
theorem Shape.setLimit : Shape.Statement .setLimit := iff_of_true rfl trivial
theorem Shape.getLimit : Shape.Statement .getLimit := iff_of_true rfl trivial
theorem Shape.deleteLimit : Shape.Statement .deleteLimit := iff_of_true rfl trivial
theorem Shape.setWeights : Shape.Statement .setWeights := iff_of_true rfl trivial
theorem Shape.setChannel : Shape.Statement .setChannel := iff_of_true rfl trivial
theorem Shape.setComparator : Shape.Statement .setComparator := iff_of_true rfl trivial
theorem Shape.setAnalysis : Shape.Statement .setAnalysis := iff_of_true rfl trivial
theorem Shape.getSettings : Shape.Statement .getSettings := iff_of_true rfl trivial
theorem Shape.getCounters : Shape.Statement .getCounters := iff_of_true rfl trivial
theorem Shape.setCounter : Shape.Statement .setCounter := iff_of_true rfl trivial
theorem Shape.clearTrip : Shape.Statement .clearTrip := iff_of_true rfl trivial
theorem Shape.holdReports : Shape.Statement .holdReports := iff_of_true rfl trivial
theorem Shape.syncPoint : Shape.Statement .syncPoint := iff_of_true rfl trivial
theorem Shape.storeSettings : Shape.Statement .storeSettings := iff_of_true rfl trivial
theorem Shape.storeCompletion (readBack : StoredImage) : Shape.Statement (.storeCompletion readBack) := imageWellFormed_iff readBack
theorem Shape.checkSettings : Shape.Statement .checkSettings := iff_of_true rfl trivial
theorem Shape.checkCompletion : Shape.Statement .checkCompletion := iff_of_true rfl trivial
theorem Shape.restart : Shape.Statement .restart := iff_of_true rfl trivial
theorem Shape.restartExecution : Shape.Statement .restartExecution := iff_of_true rfl trivial
theorem Shape.leaveMaintenance : Shape.Statement .leaveMaintenance := iff_of_true rfl trivial

end Sys2Proof.Laws
end

