-- ==== Sys2Proof/Laws/Posting.lean ====
section
/-! SUPPORT. What steps that enqueue reports one after the other enqueue together: `Posts s t ns` says that LC's queue, flags and lost
count of `t` are those of `s` after the notices `ns`, and it composes. -/

namespace Sys2Proof.Machine

open Sys2Proof.Safety

/-- The part of LC that enqueueing and raising read and write. -/
structure SameQueue (l m : LinkController) : Prop where
  queue : m.queue = l.queue
  flags : m.flags = l.flags
  lost : m.lost = l.lost
  masks : m.masks = l.masks

theorem LinkController.enqueueRaw_congr {l m : LinkController} (r : Report) (h : SameQueue l m) :
    SameQueue (l.enqueueRaw r) (m.enqueueRaw r) := by
  constructor <;> simp [LinkController.enqueueRaw, h.queue, h.flags, h.lost, h.masks]

theorem LinkController.enqueue_congr {l m : LinkController} (cycle : Word) (b : ReportBody) (h : SameQueue l m) :
    SameQueue (l.enqueue cycle b) (m.enqueue cycle b) := by
  have h' := LinkController.enqueueRaw_congr { cycle := cycle, body := b } h
  unfold LinkController.enqueue
  simp only [h.queue, h.flags, h.masks]
  split
  · split
    · exact LinkController.enqueueRaw_congr _ ⟨h'.queue, rfl, h'.lost, h'.masks⟩
    · exact ⟨h'.queue, rfl, h'.lost, h'.masks⟩
  · exact h'

theorem LinkController.raise_congr {l m : LinkController} (cycle : Word) (f : Flag) (h : SameQueue l m) :
    SameQueue (l.raise cycle f) (m.raise cycle f) := by
  unfold LinkController.raise
  simp only [h.flags, h.masks]
  split
  · exact h
  · split
    · exact LinkController.enqueue_congr cycle _ ⟨h.queue, rfl, h.lost, rfl⟩
    · exact ⟨h.queue, rfl, h.lost, rfl⟩

/-- Posting reads nothing of LC but the queue, the flags, the lost count and the masks. -/
theorem LinkController.post_congr {l m : LinkController} (cycle : Word) (ns : List Notice) (h : SameQueue l m) :
    SameQueue (l.post cycle ns) (m.post cycle ns) := by
  induction ns generalizing l m with
  | nil => exact h
  | cons n ns ih =>
    cases n with
    | report b => exact ih (LinkController.enqueue_congr cycle b h)
    | flag f => exact ih (LinkController.raise_congr cycle f h)

/-- From `s` to `t` exactly the notices `ns` were posted, in this order, in one cycle. -/
structure Posts (s t : State) (ns : List Notice) : Prop where
  same : SameQueue (s.lc.post s.ct.cycle ns) t.lc
  cycle : t.ct.cycle = s.ct.cycle

theorem Posts.posted {s t : State} {ns : List Notice} (h : Posts s t ns) : Posted s.lc t.lc s.ct.cycle ns :=
  ⟨h.same.queue, h.same.flags, h.same.lost⟩

theorem Posts.trans {s t u : State} {ns ms : List Notice} (h : Posts s t ns) (k : Posts t u ms) : Posts s u (ns ++ ms) := by
  have step := LinkController.post_congr s.ct.cycle ms h.same
  have e : s.lc.post s.ct.cycle (ns ++ ms) = (s.lc.post s.ct.cycle ns).post s.ct.cycle ms := List.foldl_append ..
  refine ⟨?_, k.cycle.trans h.cycle⟩
  have k' := k.same
  rw [h.cycle] at k'
  rw [e]
  exact ⟨k'.queue.trans step.queue, k'.flags.trans step.flags, k'.lost.trans step.lost, k'.masks.trans step.masks⟩

/-- A step that leaves the queue, flags, lost count, masks and cycle alone posts nothing. -/
theorem Posts.silent {s t : State} (h : SameQueue s.lc t.lc) (hc : t.ct.cycle = s.ct.cycle) : Posts s t [] := ⟨h, hc⟩

theorem Posts.refl (s : State) : Posts s s [] := .silent ⟨rfl, rfl, rfl, rfl⟩ rfl

theorem Posts.post (s : State) (ns : List Notice) : Posts s (s.post ns) ns := ⟨⟨rfl, rfl, rfl, rfl⟩, rfl⟩

/-- A silent step before. -/
theorem Posts.after {s t u : State} {ns : List Notice} (h : SameQueue s.lc t.lc) (hc : t.ct.cycle = s.ct.cycle)
    (k : Posts t u ns) : Posts s u ns := (Posts.silent h hc).trans k

/-- A silent step behind. -/
theorem Posts.before {s t u : State} {ns : List Notice} (k : Posts s t ns) (h : SameQueue t.lc u.lc)
    (hc : u.ct.cycle = t.ct.cycle) : Posts s u ns := by simpa using k.trans (Posts.silent h hc)

/-- A change of verdict posts its one VERDICT_CHANGE (R112). -/
theorem State.setVerdict_posts (s : State) (g : GroupId) (v : Verdict) (holder : Option (Nat × Bool)) (cause : VerdictCause)
    (window : Word) :
    Posts s (s.setVerdict g v holder cause window)
      (if v = s.le.verdicts.get g then [] else [.report (.verdictChange g (s.le.verdicts.get g) v cause window holder)]) := by
  unfold State.setVerdict
  simp only
  split
  · exact .refl s
  · refine Posts.after (t := s.setLe _) ?_ ?_ (Posts.post _ _) <;> first | rfl | exact ⟨rfl, rfl, rfl, rfl⟩

/-- An offered trigger posts the FREEZE_EVENT of entry into POST, if CR takes it (R137, R142). -/
theorem State.offerTrigger_posts (s : State) (r : TriggerRecord) :
    Posts s (s.offerTrigger r)
      (if s.ss.working.freeze.admits r.cause ∧ s.cr.state = .running then
        [.report (.freezeEvent false r s.ss.working.freeze.postCycles none s.cr.ignored)] else []) := by
  unfold State.offerTrigger
  by_cases h : s.ss.working.freeze.admits r.cause = true
  · rcases CaptureRing.consider_cases s.cr s.ss.working.freeze.postCycles r with ⟨hr, e⟩ | ⟨hr, e⟩
    · simp only [h, hr, e, if_true, and_self]
      refine Posts.after (t := s.setCr _) ?_ ?_ (Posts.post _ _) <;> first | rfl | exact ⟨rfl, rfl, rfl, rfl⟩
    · simp only [h, hr, e, if_true, and_false, if_false]
      refine Posts.after (t := s.setCr _) ?_ ?_ (Posts.post _ _) <;> first | rfl | exact ⟨rfl, rfl, rfl, rfl⟩
  · simp [h, Posts.refl]

/-- CR after an offered trigger (R137, R139). -/
theorem State.offerTrigger_ring (s : State) (r : TriggerRecord) :
    (s.offerTrigger r).cr =
      if s.ss.working.freeze.admits r.cause then (s.cr.consider s.ss.working.freeze.postCycles r).1 else s.cr := by
  unfold State.offerTrigger
  split <;> rfl

/-- Everything of LC that posting leaves alone. -/
theorem State.post_link (s : State) (ns : List Notice) : SameButQueue s.lc (s.post ns).lc := LinkController.post_same ..

end Sys2Proof.Machine
end

