-- ==== Sys2Proof/Laws/Requests.lean ====
section
/-! SUPPORT. The handler of the pending list: which request it takes, and what each kind of answer leaves (R160, R161). -/

namespace Sys2Proof.Machine

open Sys2Proof.Safety

theorem restage_append {p : Entry → Bool} {stage : Stage} {before after : List Entry} {e : Entry}
    (hb : ∀ x ∈ before, p x = false) (he : p e = true) :
    restage p stage (before ++ e :: after) = before ++ { e with stage := stage } :: after := by
  induction before with
  | nil => simp [restage, he]
  | cons x xs ih =>
    have hx : p x = false := hb x (by simp)
    have := ih fun y hy => hb y (by simp [hy])
    simp [restage, hx, this]

theorem find?_append_first {p : Entry → Bool} {before after : List Entry} {e : Entry}
    (hb : ∀ x ∈ before, p x = false) (he : p e = true) : (before ++ e :: after).find? p = some e := by
  induction before with
  | nil => simp [he]
  | cons x xs ih =>
    have hx : p x = false := hb x (by simp)
    simp [hx, ih fun y hy => hb y (by simp [hy])]

theorem isWaiting_iff (e : Entry) : e.isWaiting = true ↔ e.stage = .waiting := by simp [Entry.isWaiting]

variable {s : State} {before after : List Entry} {q : Frame}

theorem not_waiting_before (h : HandlerTakes s before after q) : ∀ e ∈ before, e.isWaiting = false := by
  intro e he
  have := h.earliest e he
  simp [Entry.isWaiting, this]

/-- The handler takes the request that HandlerTakes names. -/
theorem nextRequest_of_handlerTakes (h : HandlerTakes s before after q) : s.nextRequest = some q := by
  unfold State.nextRequest
  rw [if_neg (by simp [h.free]), h.entries, find?_append_first (not_waiting_before h) (by simp [Entry.isWaiting])]
  rfl

/-- A reply made READY, on any LC whose pending list is that of the state handled. -/
theorem makeReady_answered {l : LinkController} (h : HandlerTakes s before after q) (hl : l.entries = s.lc.entries)
    (reply : Frame) : l.makeReady Entry.isWaiting reply = answered l before after q reply := by
  unfold LinkController.makeReady answered
  rw [hl, h.entries, restage_append (not_waiting_before h) (by simp [Entry.isWaiting])]

theorem restage_putOff {l : LinkController} (h : HandlerTakes s before after q) (hl : l.entries = s.lc.entries) :
    ({ l with entries := restage Entry.isWaiting .deferred l.entries } : LinkController) = putOff l before after q := by
  unfold putOff
  rw [hl, h.entries, restage_append (not_waiting_before h) (by simp [Entry.isWaiting])]

/-- The handling of a request of its own kind is its rule's answer, behind tests 2 and 3 (R161). -/
theorem handle_of_kind (h : HandlerTakes s before after q) {kind : Byte} (hk : q.kind = kind)
    (rule : List Byte → State → Answer) :
    handle kind rule s = .next (s.answer q (s.tested q rule)) := by
  unfold handle
  rw [nextRequest_of_handlerTakes h]
  simp [whenDue, h.running, hk]

/-- A request of another kind is not handled by this command (log entry 6). -/
theorem handle_of_other (h : HandlerTakes s before after q) {kind : Byte} (hk : q.kind ≠ kind)
    (rule : List Byte → State → Answer) : handle kind rule s = .next s := by
  unfold handle
  rw [nextRequest_of_handlerTakes h]
  simp [whenDue, hk]

/-- A refusal leaves the state as it was, but for the entry (R161). -/
theorem answer_refused (h : HandlerTakes s before after q) (r : Reason) :
    s.answer q (.refused r) = { s with lc := answered s.lc before after q (refusal q (BitVec.ofNat 8 r.code)) } := by
  unfold State.answer
  simp only
  rw [makeReady_answered h rfl]
  rfl

/-- An OK reply over a state whose pending list is unchanged. -/
theorem answer_replied {t : State} (h : HandlerTakes s before after q) (ht : t.lc.entries = s.lc.entries)
    (fields : List Byte) :
    s.answer q (.replied t 0 fields) = { t with lc := answered t.lc before after q (okReply q fields) } := by
  unfold State.answer
  simp only
  rw [makeReady_answered h ht]
  rfl

/-- A deferral over a state whose pending list is unchanged. -/
theorem answer_deferred {t : State} (h : HandlerTakes s before after q) (ht : t.lc.entries = s.lc.entries) :
    s.answer q (.deferred t) = { t with lc := putOff t.lc before after q } := by
  unfold State.answer
  simp only
  rw [restage_putOff h ht]
  rfl

/-- A request of its own kind and length, in a mode that accepts it, is answered by its rule. -/
theorem handle_rule (h : HandlerTakes s before after q) {kind : Byte} (hk : q.kind = kind)
    (hl : lengthFits kind q.payload = true) (hm : s.mode = .normal ∨ refusedInMaintenance kind.toNat = false)
    (rule : List Byte → State → Answer) :
    handle kind rule s = .next (s.answer q (rule q.payload s)) := by
  rw [handle_of_kind h hk]
  unfold State.tested
  rw [hk]
  rcases hm with hm | hm <;> simp [hl, hm]

/-- A restaging keeps every request in its place (R160). -/
theorem restage_requests (p : Entry → Bool) (stage : Stage) (es : List Entry) :
    (restage p stage es).map Entry.request = es.map Entry.request := by
  induction es with
  | nil => rfl
  | cons e es ih =>
    unfold restage
    split <;> simp [ih]

theorem restage_length (p : Entry → Bool) (stage : Stage) (es : List Entry) : (restage p stage es).length = es.length := by
  have := congrArg List.length (restage_requests p stage es)
  simpa using this

end Sys2Proof.Machine
end

