-- ==== Sys2Proof/Tests/Slice0.lean ====
section
/-! SUPPORT. Small tests: the checks of WellFormed, the manual's own worked examples, and one step of each command on a small
state. The expected values are the manual's or worked by hand from its rules. -/

/- Many small kernel evaluations: elaborated one after the other, they need no thread each. -/
set_option Elab.async false

namespace Sys2Proof.Tests

open Sys2Proof.Machine

/-! ### Helpers -/

/-- The command answers a next state of which `p` holds. -/
def after (o : Result) (p : State → Bool) : Bool :=
  match o with
  | .next t => p t
  | .fault _ => false
  | .refused _ => false

/-- One request waiting, with tag 7. -/
def asked (s : State) (kind : Byte) (payload : List Byte) : State :=
  { s with lc := { s.lc with entries := [{ request := { kind := kind, tag := 7, payload := payload }, stage := .waiting }] } }

/-- The request is answered by this frame, tag 7. -/
def replies (o : Result) (kind : Byte) (payload : List Byte) : Bool :=
  after o fun t => t.lc.entries.map Entry.stage == [.ready 0 { kind := kind, tag := 7, payload := payload }]

/-- The bodies of the reports in the queue. -/
def reports (t : State) : List ReportBody := t.lc.queue.map Report.body

/-- The reset state with an empty report queue and every flag clear. -/
def base : State := { State.reset with lc := LinkController.fresh }

/-- Every raw code 0 but channel `c`'s. -/
def rawAt (c : ChannelId) (x : RawCode) : RawCodes := (PerChannel.fill 0).set c x

def atBoundary (s : State) : State := { s with ct := { s.ct with issued := 120 } }

/-- All groups out of service. -/
def allOpen : InputLevels := Quad.fill false

/-! ### WellFormed refuses each ill-formed operand -/

/-- An entry whose limit does not fit its 32-bit field. -/
def oversized : LimitEntry := factoryEntry .iMean 0 0 0 2147483648 0 1 1 .watch

def unfitSettings : Settings := { Settings.factory with limits := Settings.factory.limits.set 7 (some oversized) }

theorem test_wellFormed_refuses_unfit_reset_image :
    (Instr.reset (some (.whole unfitSettings 0))).wellFormed = false := by decide +kernel

theorem test_wellFormed_refuses_unfit_read_back :
    (Instr.storeCompletion (.whole unfitSettings 0)).wellFormed = false := by decide +kernel

theorem test_wellFormed_refuses_long_polarity_gap :
    (Instr.referencePolarityChange (2 ^ 64) .positive).wellFormed = false := by decide +kernel

theorem test_wellFormed_refuses_long_character_gap :
    (Instr.linkCharacter (2 ^ 64) 0xA5 true).wellFormed = false := by decide +kernel

theorem test_wellFormed_refuses_long_frame_gap :
    (Instr.frameAccepted (2 ^ 64) 0 true).wellFormed = false := by decide +kernel

theorem test_wellFormed_refuses_hold_of_a_voltage_channel :
    (Instr.holdEnd (.v .g2) (PerChannel.fill 0)).wellFormed = false := by decide +kernel

theorem test_wellFormed_refuses_hold_of_the_reference :
    (Instr.holdEnd .acref (PerChannel.fill 0)).wellFormed = false := by decide +kernel

theorem test_wellFormed_accepts_boundary_values :
    (Instr.storeCompletion (.whole Settings.factory 0)).wellFormed = true ∧
    (Instr.linkCharacter (2 ^ 64 - 1) 0xA5 true).wellFormed = true ∧
    (Instr.holdEnd (.ib .g3) (PerChannel.fill 0)).wellFormed = true := by decide +kernel

/-! ### Arithmetic of the manual's examples -/

/-- The check values of R157 and R180 over "123456789". -/
theorem test_crc_check_values :
    crc16 [0x31, 0x32, 0x33, 0x34, 0x35, 0x36, 0x37, 0x38, 0x39] = 0x29B1 ∧
    crc32 [0x31, 0x32, 0x33, 0x34, 0x35, 0x36, 0x37, 0x38, 0x39] = 0xCBF43926 := by decide +kernel

/-- "Worked example: three calibrations". -/
theorem test_three_calibrations :
    convert 12 33000 1000 = { code := 995, clipped := false } ∧
    convert 12 33000 (-1000) = { code := -1019, clipped := false } ∧
    convert 12 33000 32767 = { code := 32767, clipped := true } ∧
    convert (-100) 34000 32000 = { code := 32767, clipped := true } := by decide +kernel

def trainStep (a : RangeState × List (Int × Bool × Nat)) (raw : RawCode) : RangeState × List (Int × Bool × Nat) :=
  let y := currentSample ChannelSettings.factory a.1 raw
  let r := a.1.afterSample ChannelSettings.factory raw
  (r, a.2 ++ [(y.value, y.held, r.hold)])

/-- "Worked example: a train pulls away". -/
theorem test_train_pulls_away :
    ([29870, 31405, 32767, 4702, 4260, 4221, 4230, 4241, 4252, 4262, 4271].foldl trainStep
      ({ range := .high, hold := 0, steady := true, last := 0 }, [])).2 =
    [(29870, false, 0), (31405, false, 0), (32767, true, 6), (32767, true, 5), (32767, true, 4), (32767, true, 3),
     (32767, true, 2), (32767, true, 1), (32767, true, 0), (34096, false, 0), (34168, false, 0)] := by decide +kernel

/-- The entries that R59 works out in its text. -/
theorem test_tables :
    cosT 60 = -32767 ∧ cosT 90 = 0 ∧ sinT 30 = 32767 ∧ sinT 1 = 1715 ∧ cosT 91 = 1715 ∧
    [20, 40, 80, 100].map cosT = [16384, -16384, -16384, 16384] := by decide +kernel

/-- "Worked example: the offset worked off", four of its rows. -/
theorem test_phase_corrections :
    phaseCorrection 200000 600 = 300 ∧ phaseCorrection 200000 (-75) = -37 ∧ phaseCorrection 200000 37 = 18 ∧
    phaseCorrection 200200 18900 = 2002 := by decide +kernel

/-- The accumulating set of "Worked example: one window of ripple" (the order-30 signal), with its residue at order 40. -/
def order30Set : AccSet :=
  { AccSet.opened 1 with
    s0 := 3240000, q := 87485400000, largest := some 27300, smallest := some 26700
    cosSums := ((Vector.replicate 50 0).set 29 589806000).set 39 (-1080000) }

def order30Job (weights : Vector Nat 50) : GroupJob :=
  { head := { order := 0, window := 12, firstCycle := 40, length := .w1,
              snapshot := { Settings.factory.snapshot .g0 with weights := weights } }
    sets := { v := order30Set, ia := AccSet.opened 1, ib := AccSet.opened 1, ig := order30Set } }

/-- The figures of the order-30 window: 3295.9 V, 25.9 V, 73.2 V, RF 79, PPR 222. -/
theorem test_order30_figures :
    let r := (order30Job factoryWeights).record .g0
    r.meanV = 32959 ∧ r.rippleV = 259 ∧ r.peakV = 732 ∧ r.rf = some 79 ∧ r.ppr = some 222 ∧
    r.linesV.toList.getD 29 0 = 366 ∧ r.linesV.toList.getD 39 0 = 1 ∧ r.linesV.toList.getD 11 0 = 0 ∧
    (r.ratiosV.map fun v => (v.toList.getD 29 0, v.toList.getD 39 0)) = some (111, 0) ∧
    r.noBase = false ∧ r.clamped = false := by decide +kernel

/-- "The same samples as current": a weight of 512 at order 30 alone gives 23, 2.3 A. -/
theorem test_interference_sum :
    ((order30Job ((Vector.replicate 50 0).set 29 512)).record .g0).jg = 23 := by decide +kernel

/-- "Worked example: persistence and hysteresis", the judged windows of its table. -/
theorem test_persistence_example :
    let e : LimitEntry := { factoryEntry .vHarm 0 6 6 100 70 3 2 .alarm with onCount := 3, offCount := 2 }
    let run := fun xs : List Int => xs.foldl (fun r x => CondRecord.judge e x r) CondRecord.clear
    run [80] = CondRecord.clear ∧ run [80, 120, 130] = { state := .pendingOn, count := 2 } ∧
    run [80, 120, 130, 125, 90] = { state := .active, count := 0 } ∧
    run [80, 120, 130, 125, 90, 60] = { state := .pendingOff, count := 1 } ∧
    run [80, 120, 130, 125, 90, 60, 110] = { state := .active, count := 0 } ∧
    run [80, 120, 130, 125, 90, 60, 110, 65, 50] = CondRecord.clear := by decide +kernel

/-- "Worked example: a comparator through a range switch", from sample 39 to sample 49. -/
theorem test_comparator_through_a_range_switch :
    let x : CompSettings := { source := .ia, mode := .high, level := 29, filter := 4, tripArmed := true,
                              freezeTrigger := false, report := true }
    let y := fun (v : Int) (judged : Bool) => ({ value := v, held := !judged, clipped := false, judged := judged } : Sample)
    let before := [y 29870 true, y 31405 true, y 32767 true, y 32767 false, y 32767 false, y 34096 true]
    let c := before.foldl (fun c s => CompState.afterSample x c s) { active := false, run := 0 }
    c = { active := false, run := 3 } ∧ c.afterSample x (y 34168 true) = { active := true, run := 0 } := by decide +kernel

/-! ### Reset, release and the empty queue -/

theorem test_reset_keeps_the_image_only :
    after (exec (.reset none) { base with ss := { base.ss with image := .foreign 1 2 } }) (fun t =>
      t.inReset && t.ss.image == .foreign 1 2 && t.lc.flags == 0) = true := by decide +kernel

theorem test_reset_tears_a_store_in_flight :
    after (exec (.reset none) { base with ss := { base.ss with flight := some (.store Settings.factory) } }) (fun t =>
      t.ss.image == .torn && t.ss.flight == none) = true := by decide +kernel

theorem test_release_of_a_blank_part :
    after (exec (.resetRelease false .negative) { State.reset with inReset := true }) (fun t => t == State.reset) = true := by
  decide +kernel

/-- A copy whose range mode for V of group 1 is byte 7, which R14 does not examine there, is in range and loads with AUTO. -/
theorem test_copy_with_an_unexamined_range_mode :
    let odd := { Settings.factory with
      channels := Settings.factory.channels.set (.v .g1) { ChannelSettings.factory with rangeMode := .other 4 } }
    (odd.inRange && ((odd.asLoaded.channels.get (.v .g1)).rangeMode == .auto) &&
      !Settings.inRange { odd with channels := odd.channels.set (.ia .g1) { ChannelSettings.factory with rangeMode := .other 4 } })
      = true := by decide +kernel

theorem test_release_with_the_strap :
    after (exec (.resetRelease true .positive) { State.reset with inReset := true }) (fun t =>
      t.mode == .maintenance && t.lc.flags == 0 && t.ct.candidate == some { polarity := .positive, stamp := 0 }) = true := by
  decide +kernel

theorem test_step_runs_the_front :
    after (step { asked base 0x01 [] with pending := [.identify, .jobStart] }) (fun t => t.pending == [.jobStart]) = true := by
  decide +kernel

/-! ### The tracker -/

/-- The sequence "From reset release to the first window" just before its crossing stamped 837,800 is confirmed. -/
def lockingState : State :=
  { base with ct := { base.ct with
      timebase := 837800, confirmed := some .negative, candidate := some { polarity := .positive, stamp := 837800 },
      reference := .positive, previous := some 637600, tracker := .locking, lastInRange := some 200200, runCount := 3,
      cycle := 4, start := 800000, length := 200000, issued := 24 } }

theorem test_polarity_change_begins_a_candidate :
    after (exec (.referencePolarityChange 35000 .positive) base) (fun t =>
      t.ct.timebase == 35000 && t.ct.reference == .positive && t.ct.confirmed == some .negative &&
        t.ct.candidate == some { polarity := .positive, stamp := 35000 }) = true := by decide +kernel

theorem test_first_confirmation_issues_no_crossing :
    after (exec .polarityConfirmed base) (fun t =>
      t.ct.timebase == 2000 && t.ct.confirmed == some .negative && t.ct.previous == none && t.ct.tracker == .seek) = true := by
  decide +kernel

theorem test_lock_achieved :
    after (exec .lockAchieved lockingState) (fun t =>
      t.ct.tracker == .locked && t.ct.accepted == some 200200 && t.ct.frequency == 49950 && t.ct.timebase == 839800 &&
        reports t == [.syncEvent .locking .locked .crossing 200200 49950]) = true := by decide +kernel

/-- Cycle 5 of the sequence is 202,202 counts long, and window 1 begins with it. -/
theorem test_cycle_after_lock :
    after (exec .lockAchieved lockingState) (fun t =>
      after (exec (.cycleBoundary allOpen) (atBoundary t)) fun u =>
        u.ct.cycle == 5 && u.ct.start == 1000000 && u.ct.length == 202202 &&
          u.ae.clock == some { window := 1, firstCycle := 5, length := .w4, completed := 0 }) = true := by decide +kernel

/-- LOCKED at 50 Hz, the last accepted crossing stamped 0, `misses` misses behind it ("Loss of the reference"). -/
def lockedState (misses : Nat) (due : Count) : State :=
  { base with ct := { base.ct with
      confirmed := some .negative, candidate := none, previous := some 0, tracker := .locked, accepted := some 200000,
      lastInRange := some 200000, missCount := misses, missTimer := some due } }

theorem test_miss_timer_counts_a_miss :
    after (exec .missTimer (lockedState 0 300000)) (fun t =>
      t.ct.tracker == .locked && t.ct.missCount == 1 && t.ct.missTimer == some 600000) = true := by decide +kernel

theorem test_third_miss_enters_holdover :
    after (exec (.holdoverEntry .missTimer) (lockedState 2 900000)) (fun t =>
      t.ct.tracker == .holdover && t.ct.missCount == 0 && t.ct.timebase == 900000 &&
        (reports t).head? == some (.syncEvent .locked .holdover .missTimer 0 50000) && flagOf t.lc.flags .syncHoldover) = true := by
  decide +kernel

/-- HOLDOVER after `cycles` boundaries. -/
def holdoverState (cycles : Nat) : State :=
  { base with ct := { base.ct with
      candidate := none, tracker := .holdover, accepted := some 200000, holdoverCycles := cycles } }

theorem test_relock :
    after (exec .relock { lockingState with ct := { lockingState.ct with tracker := .holdover, accepted := some 200000,
                                                                         holdoverCycles := 19 } }) (fun t =>
      t.ct.tracker == .locked && t.ct.accepted == some 200200 && t.ct.holdoverCycles == 0) = true := by decide +kernel

theorem test_holdover_limit_enters_free :
    after (exec (.holdoverLimit allOpen) (atBoundary (holdoverState 49))) (fun t =>
      t.ct.tracker == .free && flagOf t.lc.flags .syncFree && t.ct.length == 200000) = true := by decide +kernel

theorem test_holdover_limit_is_the_fiftieth :
    after (exec (.holdoverLimit allOpen) (atBoundary (holdoverState 48))) (fun t =>
      t == atBoundary (holdoverState 48)) = true := by decide +kernel

/-! ### Sample events and boundaries -/

theorem test_sample_event_fills_the_ring :
    after (exec (.sampleEvent (rawAt (.ia .g1) 100)) base) (fun t =>
      t.ct.issued == 1 && (t.cr.slots[0].channels.get (.ia .g1)).samples == [800] &&
        (t.cr.slots[0].channels.get (.v .g1)).samples == [0]) = true := by decide +kernel

theorem test_sample_event_clip :
    after (exec (.sampleEvent (rawAt .acref (-32768))) base) (fun t =>
      flagOf t.lc.flags .clip && (t.cr.slots[0].channels.get .acref).marks.clip) = true := by decide +kernel

theorem test_hold_end :
    let s := { base with fe := { base.fe with ia := base.fe.ia.set .g2 { range := .low, hold := 1, steady := false, last := 55 } } }
    after (exec (.holdEnd (.ia .g2) (rawAt (.ia .g2) 9)) s) (fun t =>
      t.fe.ia.get .g2 == { range := .low, hold := 0, steady := false, last := 55 }) = true := by decide +kernel

/-- C0 of group 1 on IA1 at the last sample of its filter, group 1 in MONITOR ("a comparator through a range switch"). -/
def armedState : State :=
  { base with
    gm := { base.gm with groups := base.gm.groups.set .g1 { accepted := .closed, debounce := 0, state := .monitor, settle := 0 } }
    ss := { base.ss with working := { base.ss.working with
      comparators := base.ss.working.comparators.set .g1 { factoryComparators with
        fst := { source := .ia, mode := .high, level := 29, filter := 4, tripArmed := true, freezeTrigger := false,
                 report := true } } } }
    fc := base.fc.set .g1 .c0 { active := false, run := 3 }
    ct := { base.ct with issued := 49 } }

theorem test_filtered_output_trips :
    after (exec (.filteredOutputChange .g1 .c0 (rawAt (.ia .g1) 4271)) armedState) (fun t =>
      t.fc.get .g1 .c0 == { active := true, run := 0 } && t.le.latches.get .g1 && t.le.tripLines.get .g1 && t.le.alert &&
        reports t == [.fastEvent .g1 .c0 .ia .high true 34168 49 true]) = true := by decide +kernel

/-- Group 1 after one sample of the level that differs from its accepted one. -/
def debouncing (accepted : Level) (state : MonitorState) (settle : Nat) : State :=
  atBoundary { base with gm := { base.gm with
    groups := base.gm.groups.set .g1 { accepted := accepted, debounce := 1, state := state, settle := settle } } }

theorem test_boundary_counts_a_bounce :
    after (exec (.cycleBoundary allOpen) (debouncing .opened .out 0)) (fun t =>
      t.gm.groups.get .g1 == { accepted := .opened, debounce := 0, state := .out, settle := 0 } && t.ct.cycle == 1) = true := by
  decide +kernel

theorem test_input_closed_settles :
    after (exec (.inputClosed .g1 (Quad.fill true)) (debouncing .opened .out 0)) (fun t =>
      t.gm.groups.get .g1 == { accepted := .closed, debounce := 0, state := .settling, settle := 25 } &&
        reports t == [.groupEvent .g1 .out .settling .inputClosed 0]) = true := by decide +kernel

theorem test_input_open_leaves :
    after (exec (.inputOpen .g1 allOpen) (debouncing .closed .monitor 0)) (fun t =>
      (t.gm.groups.get .g1).state == .out && reports t == [.groupEvent .g1 .monitor .out .inputOpen 0]) = true := by
  decide +kernel

theorem test_settle_count_expiry_waits_for_a_window :
    after (exec (.settleCountExpiry .g1 (Quad.fill true))
      (atBoundary { base with gm := { base.gm with
        groups := base.gm.groups.set .g1 { accepted := .closed, debounce := 0, state := .settling, settle := 1 } } })) (fun t =>
      t.gm.groups.get .g1 == { accepted := .closed, debounce := 0, state := .settling, settle := 0 }) = true := by
  decide +kernel

/-- The ring of "A trip held for study" one boundary before it freezes: cycle 2,047 in progress, POST count 0. -/
def lastPost : State :=
  atBoundary { base with
    ct := { base.ct with cycle := 2047 }
    cr := { base.cr with
      state := .post
      slots := Vector.ofFn fun i => RingSlot.fresh (some (BitVec.ofNat 32 (2032 + i.val)))
      current := 15
      trigger := some { cause := .verdictTrip, group := some .g2, comparator := none, window := some 510, cycle := 2043 }
      ignored := 1 } }

theorem test_ring_frozen :
    after (exec (.ringFrozen allOpen) lastPost) (fun t =>
      t.cr.state == .frozen && (t.lc.queue.map Report.cycle) == [2048] &&
        reports t == [.freezeEvent true { cause := .verdictTrip, group := some .g2, comparator := none, window := some 510,
                                          cycle := 2043 } 0 (some (2032, 2047)) 1]) = true := by decide +kernel

theorem test_report_hold_end :
    after (exec (.reportHoldEnd allOpen) (atBoundary { base with lc := { base.lc with holdCount := 1 } })) (fun t =>
      t.lc.holdCount == 0) = true := by decide +kernel

/-- Window 300, W = 1, with group 0 open, at its boundary. -/
def windowEnd (slot : JobSlot GroupJob) : State :=
  atBoundary { lockedState 0 300000 with
    ae := { base.ae with
      clock := some { window := 300, firstCycle := 40, length := .w1, completed := 0 }, counter := 300
      groupSets := base.ae.groupSets.set .g0 (some GroupSets.opened)
      groupSlots := base.ae.groupSlots.set .g0 slot }
    gm := { base.gm with groups := base.gm.groups.set .g0 { accepted := .closed, debounce := 0, state := .monitor, settle := 0 } } }

def inService : InputLevels := Quad.set allOpen .g0 true

theorem test_window_boundary_hands_over :
    after (exec (.windowBoundary inService) (windowEnd .empty)) (fun t =>
      (match t.ae.groupSlots.get .g0 with
       | .waiting j => j.head.window == 300 && j.head.firstCycle == 40
       | _ => false) &&
      t.ae.clock == some { window := 301, firstCycle := 1, length := .w4, completed := 0 } &&
      (t.ae.groupSets.get .g0).isSome) = true := by decide +kernel

theorem test_window_boundary_skips_a_busy_slot :
    after (exec (.windowBoundary inService) (windowEnd (.running (order30Job factoryWeights)))) (fun t =>
      (t.st.groups.get .g0)[10] == 1 && flagOf t.lc.flags .windowSkipped &&
        (t.ae.passes.map Pass.groups).map Quad.g0 == [.skipped]) = true := by decide +kernel

/-! ### Jobs and the pass -/

def jobWaiting (order : Nat) : JobSlot GroupJob :=
  .waiting { order30Job factoryWeights with head := { (order30Job factoryWeights).head with order := order } }

/-- "A job that overruns", in small: group 3 of the earlier window goes before group 0 of the later one. -/
theorem test_job_start_takes_the_earlier_window :
    after (exec .jobStart { base with ae := { base.ae with
        groupSlots := (base.ae.groupSlots.set .g0 (jobWaiting 1)).set .g3 (jobWaiting 0) } }) (fun t =>
      (t.ae.groupSlots.get .g3).isRunning && !(t.ae.groupSlots.get .g0).isRunning) = true := by decide +kernel

def running30 : State :=
  { base with ae := { base.ae with
      groupSlots := base.ae.groupSlots.set .g0 (.running (order30Job factoryWeights))
      passes := [{ order := 0, window := 12, groups := Quad.set (Quad.fill .none) .g0 .awaited, pairs := Duo.fill .none }] } }

theorem test_job_completion_stores_and_counts :
    after (exec .jobCompletion running30) (fun t =>
      (t.ae.groupSlots.get .g0).isEmpty && ((t.ae.groupStore.get .g0).latest.bind GroupRecord.rf) == some 79 &&
        (t.st.groups.get .g0).toList == [0, 0, 1, 0, 0, 0, 0, 1, 1, 0, 0, 0] && t.ae.passes.all Pass.ready) = true := by
  decide +kernel

/-- The state after the order-30 record is stored, group 0 in MONITOR, entry 0 a TRIP on the mean V ripple factor above 78. -/
def passDue : State :=
  { running30 with
    gm := { base.gm with groups := base.gm.groups.set .g0 { accepted := .closed, debounce := 0, state := .monitor, settle := 0 } }
    ss := { base.ss with working := { base.ss.working with
      limits := (Vector.replicate 48 none).set 5
        (some { factoryEntry .vRf 0 0 0 78 70 1 1 .trip with scope := .groups (Quad.set (Quad.fill false) .g0 true) }) } }
    le := { base.le with records := (Vector.replicate 48 []).set 5 [(.group .g0, CondRecord.clear)] }
    ae := { base.ae with passes :=
      [{ order := 0, window := 12, groups := Quad.set (Quad.fill .none) .g0 (.record ((order30Job factoryWeights).record .g0)),
         pairs := Duo.fill .none }] } }

theorem test_evaluation_pass_trips :
    after (exec .evaluationPass passDue) (fun t =>
      t.le.verdicts.get .g0 == .trip && t.le.latches.get .g0 && t.le.alert && t.cr.state == .post && t.cr.postCount == 4 &&
        (reports t).take 2 == [.limitEvent 5 (.group .g0) .active .trip 12 (some 79),
          .verdictChange .g0 .normal .trip .evaluation 12 (some (5, false))]) = true := by decide +kernel

/-! ### The line -/

/-- GET_STATUS, tag 1, as a frame: the check is CRC-16 over 02 02 01, divided out bit by bit. -/
theorem test_frame_layout : ({ kind := 0x02, tag := 1, payload := [] } : Frame).wire = [0xA5, 2, 2, 1, 0xD4, 0xBF] := by
  decide +kernel

/-- The receiver with all of that frame but its last character. -/
def lastCharacter : State :=
  { base with lc := { base.lc with receiver := .check 2 [2, 1] (some 0xD4), gapFrom := some 0 } }

theorem test_frame_accepted :
    after (exec (.frameAccepted 217 0xBF true) lastCharacter) (fun t =>
      t.lc.entries == [{ request := { kind := 2, tag := 1, payload := [] }, stage := .waiting }] &&
        t.lc.counters.toList == [1, 0, 0, 0, 0, 0] && t.lc.receiver == .hunt) = true := by decide +kernel

theorem test_frame_accepted_into_a_full_list :
    after (exec (.frameAccepted 217 0xBF false) { lastCharacter with lc := { lastCharacter.lc with
        entries := List.replicate 4 { request := { kind := 1, tag := 0, payload := [] }, stage := .deferred } } }) (fun t =>
      t.lc.entries.length == 4 && t.lc.counters.toList == [1, 0, 0, 0, 0, 1] && flagOf t.lc.flags .requestOverflow) = true := by
  decide +kernel

theorem test_link_character_bad_check :
    after (exec (.linkCharacter 217 0xBE true) lastCharacter) (fun t =>
      t.lc.entries == [] && t.lc.counters.toList == [0, 1, 0, 0, 0, 0] && flagOf t.lc.flags .linkCheck) = true := by
  decide +kernel

theorem test_link_character_runt :
    after (exec (.linkCharacter 217 1 true) { base with lc := { base.lc with receiver := .length, gapFrom := some 0 } }) (fun t =>
      t.lc.receiver == .hunt && flagOf t.lc.flags .linkRunt) = true := by decide +kernel

theorem test_gap_timeout :
    after (exec .gapTimeout lastCharacter) (fun t =>
      t.lc.receiver == .hunt && t.lc.counters.toList == [0, 0, 0, 0, 1, 0] && flagOf t.lc.flags .linkGap) = true := by
  decide +kernel

theorem test_non_request_kind :
    replies (exec .nonRequestKind (asked base 0x1D [1, 2])) 0x7F [0x1D, 1] = true := by decide +kernel

def readyEntry (n : Nat) (tag : Byte) : Entry :=
  { request := { kind := 2, tag := tag, payload := [] }, stage := .ready n { kind := 0x42, tag := tag, payload := [0] } }

theorem test_transmit_start_takes_the_earliest :
    after (exec .transmitStart { base with lc := { base.lc with entries := [readyEntry 9 1, readyEntry 4 2] } }) (fun t =>
      t.lc.sending == some { isReply := true, frame := { kind := 0x42, tag := 2, payload := [0] } }) = true := by
  decide +kernel

theorem test_frame_sent_frees_the_entry :
    after (exec .frameSent { base with lc := { base.lc with
        entries := [readyEntry 9 1, { request := { kind := 0x1B, tag := 2, payload := [] }, stage := .sending }]
        sending := some { isReply := true, frame := { kind := 0x5B, tag := 2, payload := [0] } } } }) (fun t =>
      t.lc.entries == [readyEntry 9 1] && t.lc.sending == none && t.lc.restartDue) = true := by decide +kernel

/-! ### Requests that read -/

theorem test_identify : replies (exec .identify (asked base 0x01 [])) 0x41 [0, 0x09, 0xB0, 0x42, 4, 13] = true := by
  decide +kernel

theorem test_get_status_after_reset :
    replies (exec .getStatus (asked State.reset 0x02 [])) 0x42
      ([0, 0, 0, 0, 0, 0, 0, 0, 0, 0, 0] ++ List.replicate 12 0 ++ [0, 0, 0] ++ List.replicate 16 0 ++
        [0, 0, 0, 0, 0, 0, 0x04, 0x00]) = true := by decide +kernel

/-- The order-30 record stored as group 0's latest, window 12. -/
def stored30 : State :=
  { base with ae := { base.ae with
      groupStore := base.ae.groupStore.set .g0 ⟨some ((order30Job factoryWeights).record .g0), none⟩ } }

theorem test_get_window_layout :
    replies (exec .getWindow (asked stored30 0x05 [0, 0, 0])) 0x45
      ([0, 0, 0, 0, 0, 0, 12, 0, 0, 0, 40, 1, 0, 0, 3] ++ [0, 0, 0x80, 0xBF] ++ [0, 0, 0, 0] ++ [0, 0, 0, 0] ++
        [0, 0, 0x10, 0x18] ++ [0, 0, 1, 3] ++ [0, 0, 2, 0xDC] ++ [0, 79, 0, 222] ++ [0, 0, 0, 32] ++
        [0xFF, 0xFF, 0xFF, 0xFF, 0xFF, 0xFF] ++ [0, 0, 0, 46]) = true := by decide +kernel

theorem test_get_window_not_available :
    replies (exec .getWindow (asked stored30 0x05 [1, 0, 0])) 0x7F [5, 5] = true := by decide +kernel

theorem test_get_lines_at_the_end :
    replies (exec .getLines (asked stored30 0x06 [0, 0, 0, 0, 40, 40])) 0x46
      ([0, 0, 0, 0, 12, 40, 11, 1] ++ [0, 0, 0, 1, 0, 0] ++ List.replicate 60 0) = true := by decide +kernel

/-- "Worked example: scans over the order-30 record", its second and fourth rows. -/
theorem test_scan_down_finds_the_residue :
    replies (exec .scanLines (asked stored30 0x07 [0, 0, 0, 0, 50, 1, 50, 0, 0, 0, 0, 0])) 0x47
      [0, 1, 0, 0, 0, 12, 40, 0, 0, 0, 1] = true := by decide +kernel

theorem test_scan_up_finds_none :
    replies (exec .scanLines (asked stored30 0x07 [0, 0, 0, 1, 31, 0, 50, 0, 0, 0, 0, 100])) 0x47
      [0, 0, 0, 0, 0, 12, 20, 50] = true := by decide +kernel

theorem test_read_samples_overwritten_cycle :
    replies (exec .readSamples (asked lastPost 0x08 [6, 0, 0, 0x07, 0xEF, 100, 56])) 0x7F [8, 5] = true := by decide +kernel

theorem test_read_samples_clamps_to_what_is_written :
    after (exec (.sampleEvent (rawAt (.ia .g1) 100)) base) (fun t =>
      replies (exec .readSamples (asked t 0x08 [5, 0, 0, 0, 0, 0, 56])) 0x48
        [0, 5, 0, 0, 0, 0, 0, 1, 0, 0, 0, 0, 0x03, 0x20]) = true := by decide +kernel

/-- Factory entry 2: orders 6 to 6 of the voltage, 1.00 % and 0.70 %, 8 and 16 windows, ALARM, four CLEAR records. -/
theorem test_get_limit_factory_entry :
    replies (exec .getLimit (asked base 0x0D [2])) 0x4D
      ([0, 1, 1, 0, 1, 15, 1, 2, 1, 0, 1, 6, 1, 6, 1, 0, 1, 0, 0, 0, 100, 1, 0, 0, 0, 70, 1, 8, 1, 16, 1, 2, 0] ++
        List.replicate 8 0) = true := by decide +kernel

theorem test_get_settings_comparator :
    replies (exec .getSettings (asked armedState 0x13 [3, 2])) 0x53
      [0, 3, 2, 0, 1, 0, 1, 0, 29, 4, 1, 0, 1, 0, 3] = true := by decide +kernel

theorem test_get_settings_channel :
    replies (exec .getSettings (asked base 0x13 [0, 4])) 0x53
      [0, 0, 4, 0, 4, 0x9C, 0x40, 0, 0, 0x80, 0, 0, 0, 0x80, 0, 0, 6, 0, 0] = true := by decide +kernel

theorem test_get_counters_length :
    after (exec .getCounters (asked base 0x14 [])) (fun t =>
      t.lc.entries.map Entry.stage == [.ready 0 { kind := 0x54, tag := 7, payload := List.replicate 225 0 }]) = true := by
  decide +kernel

/-! ### Requests that write -/

theorem test_clear_flags :
    after (exec .clearFlags (asked State.reset 0x03 [0x04, 0x00])) (fun t =>
      t.lc.flags == 0 && t.lc.entries.map Entry.stage == [.ready 0 { kind := 0x43, tag := 7, payload := [0, 4, 0] }]) = true := by
  decide +kernel

theorem test_set_flag_mask_refuses_a_thirteenth_flag :
    replies (exec .setFlagMask (asked base 0x04 [0x10, 0])) 0x7F [4, 3] = true := by decide +kernel

theorem test_set_freeze_clamps :
    replies (exec .setFreeze (asked base 0x09 [0x01, 0x00, 1, 0, 1])) 0x49 [0, 15] = true := by decide +kernel

theorem test_force_freeze :
    after (exec .forceFreeze (asked base 0x0A [])) (fun t =>
      t.cr.state == .post && t.cr.postCount == 4 && (t.cr.trigger.map TriggerRecord.cause) == some .force) = true := by
  decide +kernel

theorem test_release_freeze :
    after (exec .releaseFreeze (asked lastPost 0x0B [])) (fun t =>
      t.cr.releasePending && t.lc.entries.map Entry.stage == [.ready 0 { kind := 0x4B, tag := 7, payload :=
        [0, 1, 1, 1, 2, 0, 0, 1, 0, 0, 0x01, 0xFE, 1, 0, 0, 0x07, 0xFB, 0, 1] }]) = true := by decide +kernel

/-- V_HARM on orders 6 to 6 of group 2 in slot 10, 100 and 70, 3 and 2 windows, ALARM. -/
def limitBytes : List Byte := [10, 0, 4, 2, 0, 6, 6, 0, 0, 0, 0, 100, 0, 0, 0, 70, 3, 2, 2]

theorem test_set_limit_stages :
    after (exec .setLimit (asked base 0x0C limitBytes)) (fun t =>
      t.ss.staged.limits[10] == some (.replace { factoryEntry .vHarm 0 6 6 100 70 3 2 .alarm with
        scope := .groups (Quad.set (Quad.fill false) .g2 true) }) && t.ss.working == base.ss.working) = true := by
  decide +kernel

theorem test_set_limit_refuses_a_release_above_the_limit :
    replies (exec .setLimit (asked base 0x0C (limitBytes.set 15 101))) 0x7F [0x0C, 3] = true := by decide +kernel

theorem test_delete_limit_of_an_empty_slot :
    replies (exec .deleteLimit (asked base 0x0E [4])) 0x7F [0x0E, 5] = true := by decide +kernel

theorem test_set_weights_clamps :
    after (exec .setWeights (asked base 0x0F [49, 2, 0x04, 0x01, 0x02, 0x00])) (fun t =>
      (t.ss.staged.weights.toList.drop 47) == [none, some 1024, some 512] &&
        t.lc.entries.map Entry.stage == [.ready 0 { kind := 0x4F, tag := 7, payload := [0, 1] }]) = true := by decide +kernel

theorem test_set_weights_beyond_the_table :
    replies (exec .setWeights (asked base 0x0F [50, 2, 0, 0, 0, 0])) 0x7F [0x0F, 3] = true := by decide +kernel

/-- IB0 with FS 1,000: with pair 0 paired, the other three current channels of the pair take the FS and nothing else. -/
theorem test_set_channel_shares_fs :
    after (exec .setChannel (asked base 0x10 [8, 0x03, 0xE8, 0xF8, 0, 0x40, 0, 0x07, 0xFF, 0xBF, 0xFF, 2, 60])) (fun t =>
      t.ss.staged.channels.get (.ib .g0) ==
        ⟨some 1000, some (-2048), some 16384, some 2047, some 49151, some .fixedHigh, some 60⟩ &&
      t.ss.staged.channels.get (.ia .g1) == { StagedChannel.empty with fs := some 1000 } &&
      t.ss.staged.channels.get (.ia .g2) == StagedChannel.empty) = true := by decide +kernel

theorem test_set_comparator :
    after (exec .setComparator (asked armedState 0x11 [1, 0, 2, 1, 0, 0, 0, 1, 1])) (fun t =>
      t.ss.working.comparator .g1 .c0 == { source := .ib, mode := .low, level := 0, filter := 1, tripArmed := false,
                                           freezeTrigger := true, report := true } &&
      t.fc.get .g1 .c0 == { active := false, run := 0 }) = true := by decide +kernel

/-- A pairing of 4 and a window length of 3 are none of their fields' values. -/
theorem test_set_analysis_refuses_other_codes :
    (replies (exec .setAnalysis (asked base 0x12 [4, 50, 0, 0, 0, 0, 0, 1, 4, 0])) 0x7F [0x12, 3] &&
      replies (exec .setAnalysis (asked base 0x12 [3, 50, 0, 0, 0, 0, 0, 1, 3, 0])) 0x7F [0x12, 3]) = true := by decide +kernel

theorem test_set_analysis_clamps_settle :
    after (exec .setAnalysis (asked base 0x12 [2, 60, 0x9C, 0x40, 0, 0, 0x03, 0xE9, 0, 255])) (fun t =>
      t.ss.staged.analysis == some { window := .w2, nominal := .hz60, baseMin := 40000, lightLoad := 0, settle := 1000,
                                     pairing := .none, digest := 255 } &&
      t.lc.entries.map Entry.stage == [.ready 0 { kind := 0x52, tag := 7, payload := [0, 0x03, 0xE8] }]) = true := by
  decide +kernel

theorem test_set_counter :
    after (exec .setCounter (asked base 0x15 [0, 3, 11, 0xFF, 0xFF, 0xFF, 0xFF])) (fun t =>
      (t.st.groups.get .g3)[11] == 0xFFFFFFFF) = true := by decide +kernel

theorem test_clear_trip_cause_present :
    replies (exec .clearTrip (asked { armedState with fc := armedState.fc.set .g1 .c0 { active := true, run := 0 } } 0x16 [1]))
      0x7F [0x16, 6] = true := by decide +kernel

theorem test_clear_trip :
    after (exec .clearTrip (asked { armedState with le := armedState.le.setLatch .normal .g1 true } 0x16 [1])) (fun t =>
      !t.le.latches.get .g1 && !t.le.tripLines.get .g1 && !t.le.alert) = true := by decide +kernel

theorem test_hold_reports :
    after (exec .holdReports (asked base 0x17 [0x01, 0x2C])) (fun t => t.lc.holdCount == 300) = true := by decide +kernel

theorem test_sync_point_busy :
    replies (exec .syncPoint (asked { base with lc := { base.lc with sync := some { analysis := none, limit := none } } } 0x18 []))
      0x7F [0x18, 4] = true := by decide +kernel

/-! ### Store, check, restart and maintenance -/

theorem test_store_settings :
    after (exec .storeSettings (asked base 0x19 [])) (fun t =>
      t.ss.flight == some (.store Settings.factory) && t.ss.image == .torn &&
        t.lc.entries.map Entry.stage == [.deferred]) = true := by decide +kernel

theorem test_store_completion_of_a_torn_write :
    after (exec .storeSettings (asked base 0x19 [])) (fun t =>
      after (exec (.storeCompletion .torn) t) fun u => u.ss.flight == none && flagOf u.lc.flags .storeFailed) = true := by
  decide +kernel

theorem test_check_settings_busy :
    replies (exec .checkSettings (asked { base with ss := { base.ss with flight := some .check } } 0x1A [])) 0x7F [0x1A, 4]
      = true := by decide +kernel

/-- A stored image whose CRC does not match its copy's: both CRCs are reported, with no and no. -/
theorem test_check_completion :
    after (exec .checkCompletion { base with
        ss := { base.ss with flight := some .check, image := .foreign 0x01020304 0x05060708 }
        lc := { base.lc with entries := [{ request := { kind := 0x1A, tag := 7, payload := [] }, stage := .deferred }] } }) (fun t =>
      t.ss.flight == none && t.lc.entries.map Entry.stage == [.ready 0 { kind := 0x5A, tag := 7, payload :=
        [0, 1, 2, 3, 4, 5, 6, 7, 8, 0, 0] }]) = true := by decide +kernel

theorem test_restart_replies :
    replies (exec .restart (asked base 0x1B [])) 0x5B [0] = true := by decide +kernel

theorem test_restart_execution :
    after (exec .restartExecution { lockedState 1 300000 with lc := { base.lc with restartDue := true, lost := 9, holdCount := 4 } })
      (fun t => t.ct.tracker == .seek && t.ct.accepted == none && t.lc.lost == 9 && t.lc.holdCount == 0 && !t.lc.restartDue)
      = true := by decide +kernel

theorem test_leave_maintenance :
    after (exec .leaveMaintenance (asked { base with mode := .maintenance } 0x1C [])) (fun t =>
      t.mode == .normal && t.lc.entries.map Entry.stage == [.ready 0 { kind := 0x5C, tag := 7, payload := [0] }]) = true := by
  decide +kernel

end Sys2Proof.Tests
end

