-- ==== Sys2Proof/Tests/Witnesses.lean ====
section
/-! SUPPORT. For every statement with hypotheses, a concrete state and operands that meet them together, clause by clause and at
the boundary values of their ranges. -/

/- Many small kernel evaluations: elaborated one after the other, they need no thread each. -/
set_option Elab.async false

namespace Sys2Proof.Tests

open Sys2Proof.Machine Sys2Proof.Safety

/-! ### Helpers -/

/-- The request that `asked` puts in the list. -/
def query (kind : Byte) (payload : List Byte) : Frame := { kind := kind, tag := 7, payload := payload }

/-- A running state with `asked`'s one entry and a free handler is one from which the handler takes it. -/
theorem asked_takes (s : State) (kind : Byte) (payload : List Byte) (running : s.inReset = false)
    (free : (asked s kind payload).lc.handlerHeld = false) : HandlerTakes (asked s kind payload) [] [] (query kind payload) :=
  ⟨running, free, rfl, by simp⟩

theorem base_takes (kind : Byte) (payload : List Byte) : HandlerTakes (asked base kind payload) [] [] (query kind payload) :=
  asked_takes base kind payload rfl rfl

/-- A list of entries around the request: one READY before it, one WAITING after it. -/
def between (q : Frame) : State :=
  { base with lc := { base.lc with
      entries := [readyEntry 3 1, { request := q, stage := .waiting }, { request := query 0x02 [], stage := .waiting }] } }

theorem test_witness_handler_between (q : Frame) :
    HandlerTakes (between q) [readyEntry 3 1] [{ request := query 0x02 [], stage := .waiting }] q :=
  ⟨rfl, rfl, rfl, by decide⟩

/-- The detector about to issue a crossing stamped `prev + period`, in a tracker state with `a` accepted, `q` last in range and counts. -/
def crossingState (tracker : Tracker) (period : Nat) (a q : Option Nat) (runs misses : Nat) : State :=
  { base with ct := { base.ct with
      confirmed := some .negative, reference := .positive
      candidate := some { polarity := .positive, stamp := 1000000 + BitVec.ofNat 64 period }
      previous := some 1000000, tracker := tracker, accepted := a, lastInRange := q, runCount := runs, missCount := misses } }

theorem crossingState_at (tracker : Tracker) (period : Nat) (a q : Option Nat) (runs misses : Nat) :
    CrossingAt (crossingState tracker period a q runs misses) (1000000 + BitVec.ofNat 64 period) := ⟨rfl, rfl, rfl⟩

/-- The period of `crossingState`. -/
theorem crossing_period (n : Nat) (h : n ≤ 300000) : ((1000000 + BitVec.ofNat 64 n) - 1000000 : Count).toNat = n := by
  have : (1000000 + BitVec.ofNat 64 n) - 1000000 = BitVec.ofNat 64 n := by
    rw [BitVec.add_comm, BitVec.add_sub_cancel]
  rw [this, BitVec.toNat_ofNat, Nat.mod_eq_of_lt (by omega)]

/-! ### Queue, reset and release -/

theorem test_witness_StepRunsTheFrontCommand : base.pending = [] := rfl

def heldWith (image : StoredImage) : State := { base with inReset := true, ss := { base.ss with image := image } }

/-- A copy that cannot be loaded: its post-trigger count is 16. -/
def outOfRange : Settings := { Settings.factory with freeze := { FreezeSetup.factory with postCycles := 16 } }

theorem test_witness_ReleaseLoadsTheSettings_loadable :
    (heldWith (.whole Settings.factory (imageCrc Settings.factory))).inReset = true ∧
    (heldWith (.whole Settings.factory (imageCrc Settings.factory))).ss.image =
      .whole Settings.factory (imageCrc Settings.factory) ∧ Settings.factory.inRange = true :=
  ⟨rfl, rfl, by decide +kernel⟩

theorem test_witness_ReleaseLoadsTheSettings_out_of_range :
    (heldWith (.whole outOfRange (imageCrc outOfRange))).inReset = true ∧
    ∀ copy, (heldWith (.whole outOfRange (imageCrc outOfRange))).ss.image = .whole copy (imageCrc copy) →
      copy.inRange = false := by
  refine ⟨rfl, fun copy h => ?_⟩
  have : outOfRange = copy := by injection h
  subst this
  decide +kernel

theorem test_witness_ReleaseLoadsTheSettings_torn :
    (heldWith .torn).inReset = true ∧ (heldWith .torn).ss.image = .torn ∧
    ∀ copy, (heldWith .torn).ss.image = .whole copy (imageCrc copy) → copy.inRange = false :=
  ⟨rfl, rfl, fun _ h => nomatch h⟩

theorem test_witness_CommandsThatAreNotDue :
    ((heldWith .torn).inReset = true ∧ (∀ w, Instr.identify ≠ .reset w) ∧ ∀ x p, Instr.identify ≠ .resetRelease x p) ∧
    base.inReset = false ∧ (lockedState 0 5).ct.candidate = none ∧ base.ct.missTimer = none ∧
    (atBoundary base).ct.issued = 120 ∧ base.ct.issued < 120 ∧ base.lc.receiver = .hunt ∧ base.lc.sending = none ∧
    base.ss.flight = none ∧ base.lc.restartDue = false :=
  ⟨⟨rfl, by simp, by simp⟩, by decide +kernel⟩

/-! ### Detector and tracker -/

theorem test_witness_CandidatesAndConfirmations_change :
    base.inReset = false ∧ Polarity.positive ≠ base.ct.reference ∧
    ∀ k, base.ct.candidate = some k → (base.ct.timebase + BitVec.ofNat 64 1999 - k.stamp).toNat < 2000 := by
  refine ⟨rfl, by decide, fun k h => ?_⟩
  have : ({ polarity := .negative, stamp := 0 } : Candidate) = k := by injection h
  subst this
  decide

theorem test_witness_CandidatesAndConfirmations_confirm :
    base.inReset = false ∧ base.ct.candidate = some { polarity := .negative, stamp := 0 } ∧
    ¬ (Polarity.negative = .positive ∧ base.ct.confirmed = some .negative) := by decide

/-- A change that finds the candidate of the release exactly 2,000 counts old: it is confirmed, and a candidate of the new polarity begins. -/
theorem test_witness_CandidatesAndConfirmations_overdue :
    base.inReset = false ∧ Polarity.positive ≠ base.ct.reference ∧
    base.ct.candidate = some { polarity := .negative, stamp := 0 } ∧
    2000 ≤ (base.ct.timebase + BitVec.ofNat 64 2000 - 0).toNat ∧
    after (exec (.referencePolarityChange 2000 .positive) base) (fun t =>
      t.ct.confirmed == some .negative && t.ct.candidate == some { polarity := .positive, stamp := 2000 }) = true := by
  decide +kernel

def firstCrossing : State :=
  { base with ct := { base.ct with
      confirmed := some .negative, candidate := some { polarity := .positive, stamp := 37000 } } }

theorem test_witness_CandidatesAndConfirmations_first_crossing :
    CrossingAt firstCrossing 37000 ∧ firstCrossing.ct.previous = none := ⟨⟨rfl, rfl, rfl⟩, rfl⟩

/-- SEEK at the shortest period in range and one below it. -/
theorem test_witness_CrossingWhileSearching_seek :
    (crossingState .seek 151516 none none 0 0).ct.tracker = .seek ∧
    (1000000 + BitVec.ofNat 64 151516 - 1000000 : Count).toNat = 151516 ∧
    (crossingState .free 151515 none none 0 0).ct.tracker = .free ∧
    (1000000 + BitVec.ofNat 64 151515 - 1000000 : Count).toNat < 151516 := by decide +kernel

/-- LOCKING with a last in-range period of 200,000: steady at a difference of 1,000, unsteady at 1,001, out of range at 238,096. -/
theorem test_witness_CrossingWhileSearching_locking :
    CrossingAt (crossingState .locking 201000 none (some 200000) 2 0) (1000000 + BitVec.ofNat 64 201000) ∧
    (crossingState .locking 201000 none (some 200000) 2 0).ct.previous = some 1000000 ∧
    (crossingState .locking 201000 none (some 200000) 2 0).ct.lastInRange = some 200000 ∧
    (((201000 : Nat) : Int) - (200000 : Nat)).natAbs * 200 ≤ 200000 ∧
    (crossingState .locking 201000 none (some 200000) 2 0).ct.runCount + 1 < 4 ∧
    200000 < (((201001 : Nat) : Int) - (200000 : Nat)).natAbs * 200 ∧
    238095 < (1000000 + BitVec.ofNat 64 238096 - 1000000 : Count).toNat :=
  ⟨crossingState_at .., rfl, rfl, by decide, by decide, by decide, by decide +kernel⟩

/-- LOCKING that came from FREE, at the first period out of range. -/
theorem test_witness_CrossingWhileSearching_returns_to_free :
    let s := crossingState .locking 238096 none (some 200000) 2 0
    let t := { s with ct := { s.ct with origin := .free } }
    CrossingAt t (1000000 + BitVec.ofNat 64 238096) ∧ t.ct.tracker = .locking ∧ t.ct.origin = .free ∧
      238095 < (1000000 + BitVec.ofNat 64 238096 - 1000000 : Count).toNat :=
  ⟨⟨rfl, rfl, rfl⟩, rfl, rfl, by decide +kernel⟩

/-- LOCKED with 200,000 accepted: accepted at a difference of 4,000, rejected at 4,001 as the second miss. -/
theorem test_witness_CrossingWhileTracking_locked :
    CrossingAt (crossingState .locked 204000 (some 200000) none 0 1) (1000000 + BitVec.ofNat 64 204000) ∧
    (crossingState .locked 204000 (some 200000) none 0 1).ct.accepted = some 200000 ∧
    (crossingState .locked 204000 (some 200000) none 0 1).ct.previous = some 1000000 ∧
    (((204000 : Nat) : Int) - (200000 : Nat)).natAbs * 50 ≤ 200000 ∧
    200000 < (((204001 : Nat) : Int) - (200000 : Nat)).natAbs * 50 ∧
    (crossingState .locked 204001 (some 200000) none 0 1).ct.missCount + 1 < 3 :=
  ⟨crossingState_at .., rfl, rfl, by decide, by decide, by decide⟩

/-- HOLDOVER: out of range, the first of a run, unsteady, and the third of a run. -/
theorem test_witness_CrossingWhileTracking_holdover :
    (CrossingAt (crossingState .holdover 238096 (some 200000) none 0 0) (1000000 + BitVec.ofNat 64 238096) ∧
      238095 < (1000000 + BitVec.ofNat 64 238096 - 1000000 : Count).toNat) ∧
    (CrossingAt (crossingState .holdover 238095 (some 200000) none 0 0) (1000000 + BitVec.ofNat 64 238095) ∧
      (1000000 + BitVec.ofNat 64 238095 - 1000000 : Count).toNat ≤ 238095 ∧
      (crossingState .holdover 238095 (some 200000) none 0 0).ct.runCount = 0) ∧
    (CrossingAt (crossingState .holdover 201001 (some 200000) (some 200000) 2 0) (1000000 + BitVec.ofNat 64 201001) ∧
      200000 < (((201001 : Nat) : Int) - (200000 : Nat)).natAbs * 200) ∧
    (CrossingAt (crossingState .holdover 201000 (some 200000) (some 200000) 2 0) (1000000 + BitVec.ofNat 64 201000) ∧
      0 < (crossingState .holdover 201000 (some 200000) (some 200000) 2 0).ct.runCount ∧
      (crossingState .holdover 201000 (some 200000) (some 200000) 2 0).ct.runCount + 1 < 4) :=
  ⟨⟨crossingState_at .., by decide +kernel⟩, ⟨crossingState_at .., by decide +kernel, rfl⟩,
    ⟨crossingState_at .., by decide⟩, ⟨crossingState_at .., by decide, by decide⟩⟩

/-- The fourth steady period, in LOCKING and in HOLDOVER, at the longest period in range. -/
theorem test_witness_FourthSteadyPeriodLocks :
    ∀ tracker, tracker = .locking ∨ tracker = .holdover →
      let s := crossingState tracker 238095 (some 200000) (some 238095) 3 0
      CrossingAt s (1000000 + BitVec.ofNat 64 238095) ∧ s.ct.previous = some 1000000 ∧ s.ct.lastInRange = some 238095 ∧
        s.ct.runCount = 3 ∧ s.ct.tracker = tracker ∧ (1000000 + BitVec.ofNat 64 238095 - 1000000 : Count).toNat ≤ 238095 :=
  fun _ _ => ⟨crossingState_at .., rfl, rfl, rfl, rfl, by decide +kernel⟩

theorem test_witness_MissesLeadToHoldover_timer :
    (lockedState 1 600000).inReset = false ∧ (lockedState 1 600000).ct.tracker = .locked ∧
    (lockedState 1 600000).ct.missTimer = some 600000 ∧ (lockedState 1 600000).ct.accepted = some 200000 ∧
    (lockedState 1 600000).ct.missCount + 1 < 3 ∧ 3 ≤ (lockedState 2 900000).ct.missCount + 1 := by decide

theorem test_witness_MissesLeadToHoldover_crossing :
    let s := crossingState .locked 195999 (some 200000) none 0 2
    CrossingAt s (1000000 + BitVec.ofNat 64 195999) ∧ s.ct.previous = some 1000000 ∧ s.ct.tracker = .locked ∧
      s.ct.accepted = some 200000 ∧ s.ct.missCount = 2 ∧ 200000 < (((195999 : Nat) : Int) - (200000 : Nat)).natAbs * 50 :=
  ⟨crossingState_at .., rfl, rfl, rfl, rfl, by decide⟩

/-! ### Front end and sample event -/

/-- The three cases of R12's table that differ, on the factory channel. -/
theorem test_witness_SampleTable :
    let high : RangeState := { range := .high, hold := 0, steady := true, last := 0 }
    let x := ChannelSettings.factory
    0 < { high with hold := 1 }.hold ∧
    (high.hold = 0 ∧ x.rangeMode = .auto ∧ high.range = .high ∧ (rangeConversion x high.range 32767).clipped = true) ∧
    (high.hold = 0 ∧ ¬ (rangeConversion x high.range 32766).clipped = true) := by decide +kernel

theorem test_witness_CalibrationAndSpans :
    let exact : Int := (((32767 : RawCode).toInt - 12) * (33000 : Nat)) + 16384
    (32987 : Int) * 32768 ≤ exact ∧ exact < (32987 + 1) * 32768 := by decide +kernel

/-- Every current channel in LOW with its test passed so far. -/
def lowRanges (s : State) : State :=
  let low : RangeState := { range := .low, hold := 0, steady := true, last := 9 }
  { s with fe := { ia := Quad.fill low, ib := Quad.fill low } }

/-- A range mode staged for IA of group 2. -/
def stagedMode (s : State) (m : RangeMode) : State :=
  { s with ss := { s.ss with staged := { s.ss.staged with
      channels := s.ss.staged.channels.set (.ia .g2) { StagedChannel.empty with rangeMode := some m } } } }

/-- A boundary inside a window of four cycles. -/
def insideWindow : State :=
  { windowEnd .empty with ae := { (windowEnd .empty).ae with
      clock := some { window := 300, firstCycle := 40, length := .w4, completed := 2 } } }

/-- The up-switch test at its bounds; a test point with a channel that passes, with each mode staged, and a boundary that is none. -/
theorem test_witness_CalibrationAndSpans_boundary :
    let s := lowRanges (atBoundary base)
    (AtBoundary s ∧ s.ae.clock = none ∧ (s.ss.working.channels.ia.get .g2).rangeMode = .auto ∧
      (s.fe.ia.get .g2).range = .low ∧ (s.fe.ia.get .g2).steady = true ∧ (s.ss.staged.channels.ia.get .g2).rangeMode = none) ∧
    (∀ m, AtBoundary (stagedMode s m) ∧ ((stagedMode s m).ss.staged.channels.ia.get .g2).rangeMode = some m) ∧
    (AtBoundary (lowRanges insideWindow) ∧ (lowRanges insideWindow).ae.clock ≠ none ∧ ¬ EndsWindow (lowRanges insideWindow) ∧
      ¬ EntersFree (lowRanges insideWindow)) ∧
    EndsWindow (windowEnd .empty) ∧ EntersFree (atBoundary (holdoverState 49)) ∧
    (currentSample ChannelSettings.factory (s.fe.ia.get .g2) 3000).value = 24000 := by
  refine ⟨⟨⟨rfl, rfl⟩, rfl, rfl, rfl, rfl, rfl⟩, fun m => ⟨⟨rfl, rfl⟩, rfl⟩, ⟨⟨rfl, rfl⟩, by decide, ?_, ?_⟩, ⟨⟨_, rfl, ?_⟩, ?_⟩, ⟨rfl, ?_⟩, ?_⟩
  · rintro ⟨⟨w, h, k⟩, -⟩
    have : ({ window := 300, firstCycle := 40, length := .w4, completed := 2 } : WindowClock) = w := by injection h
    subst this
    exact absurd k (by decide)
  · exact fun h => absurd h.1 (by decide)
  · decide
  · exact fun h => absurd h.1 (by decide)
  · decide
  · decide +kernel

def frozenRing (s : State) : State := { s with cr := { s.cr with state := .frozen } }

/-- The last sample event of a cycle, with a ring that runs and with a frozen one, with group 0's sets open, and in MAINTENANCE. -/
theorem test_witness_SampleEventDelivers :
    let last := fun (s : State) => { s with ct := { s.ct with issued := 119 } }
    let s := last (windowEnd .empty)
    s.inReset = false ∧ s.ct.issued < 120 ∧ s.cr.state ≠ .frozen ∧ (frozenRing s).cr.state = .frozen ∧
    s.ae.groupSets.get .g0 = some GroupSets.opened ∧ s.ae.groupSets.get .g1 = none ∧
    { s with mode := .maintenance }.mode = .maintenance := by decide +kernel

/-- A pair's set open, a clipped sample, and a set with its extremes named and one without. -/
theorem test_witness_SampleEventDelivers_pairs :
    let s := { base with ae := { base.ae with pairSets := base.ae.pairSets.set .p1 (some (AccSet.opened 6)) } }
    let b := (AccSet.opened 1).addWithExtremes 3 (-5) [⟨-5, true, false, true⟩]
    s.inReset = false ∧ s.ct.issued < 120 ∧ s.ae.pairSets.get .p1 = some (AccSet.opened 6) ∧ s.ae.pairSets.get .p0 = none ∧
    ((s.samplesOf (rawAt .acref 32767)).get .acref).clipped = true ∧
    (AccSet.opened 1).largest = none ∧ (AccSet.opened 1).smallest = none ∧ b.largest = some (-5) ∧ b.smallest = some (-5) ∧
    b.marks[0]? = some ⟨false, true⟩ := by
  decide +kernel

theorem test_witness_SpecialSampleEvents_hold :
    let r : RangeState := { range := .low, hold := 1, steady := false, last := 55 }
    let s := { base with fe := { ia := Quad.fill r, ib := Quad.fill r } }
    s.inReset = false ∧ s.ct.issued < 120 ∧ (s.fe.ia.get .g3).hold = 1 ∧ (s.fe.ib.get .g0).hold = 1 := by decide +kernel

theorem test_witness_SpecialSampleEvents_filter :
    let x := armedState.ss.working.comparator .g1 .c0
    let y := sourceSample (armedState.samplesOf (rawAt (.ia .g1) 4271)) .g1 x.source
    armedState.inReset = false ∧ armedState.ct.issued < 120 ∧ armedState.mode = .normal ∧ y.judged = true ∧
    x.rawOutput y.value = !(armedState.fc.get .g1 .c0).active ∧ (armedState.fc.get .g1 .c0).run + 1 = x.filter ∧
    (armedState.fc.get .g1 .c0).active = false ∧ x.tripArmed = true ∧ (armedState.gm.groups.get .g1).state ≠ .out := by
  decide +kernel

/-- HIGH at level 29 and LOW at level 128, at the threshold and one below it, judged and in a hold. -/
theorem test_witness_ComparatorJudgement :
    let high : CompSettings := { source := .ia, mode := .high, level := 29, filter := 4, tripArmed := false,
                                 freezeTrigger := false, report := false }
    let low : CompSettings := { high with source := .v, mode := .low, level := 128 }
    let y := fun (v : Int) (judged : Bool) => ({ value := v, held := false, clipped := false, judged := judged } : Sample)
    let c : CompState := { active := false, run := 3 }
    high.mode = .high ∧ low.mode = .low ∧ high.rawOutput (y 30720 true).value = true ∧
    high.rawOutput (y 30719 true).value = c.active ∧ low.rawOutput (y 16384 true).value = c.active ∧
    low.rawOutput (y (-5) true).value ≠ c.active ∧ (y 30720 false).judged = false ∧
    high.rawOutput (y 30720 true).value ≠ c.active ∧ c.run + 1 = high.filter ∧ { c with run := 2 }.run + 1 ≠ high.filter := by
  decide +kernel

/-- The comparators that offer a freeze trigger, as the statement writes them. -/
def offered (s : State) (raw : RawCodes) : List (GroupId × CompId) :=
  [(GroupId.g0, CompId.c0), (.g0, .c1), (.g1, .c0), (.g1, .c1), (.g2, .c0), (.g2, .c1), (.g3, .c0), (.g3, .c1)].filter fun gc =>
    let x := s.ss.working.comparator gc.1 gc.2
    (s.fc.get gc.1 gc.2).changes x (sourceSample (s.samplesOf raw) gc.1 x.source) && !(s.fc.get gc.1 gc.2).active &&
      x.freezeTrigger && s.ss.working.freeze.comparator

/-- Two comparators of group 1 that turn active at this sample and trigger a freeze, the first armed as well. -/
def triggering : State :=
  let x : CompSettings := { source := .ia, mode := .high, level := 29, filter := 4, tripArmed := true, freezeTrigger := true,
                            report := true }
  { armedState with
    ss := { base.ss with working := { base.ss.working with
      freeze := { FreezeSetup.factory with comparator := true }
      comparators := base.ss.working.comparators.set .g1 { fst := x, snd := { x with tripArmed := false } } } }
    fc := armedState.fc.set .g1 .c1 { active := false, run := 3 } }

/-- A ring that runs with two triggers offered, one that is frozen, and a sample event that offers none. -/
theorem test_witness_ComparatorJudgement_events :
    triggering.inReset = false ∧ triggering.ct.issued < 120 ∧ triggering.mode = .normal ∧
    offered triggering (rawAt (.ia .g1) 4271) = (.g1, .c0) :: [(.g1, .c1)] ∧ triggering.cr.state = .running ∧
    triggering.cr.ignored ≤ 65535 ∧ (frozenRing triggering).cr.state ≠ .running ∧
    offered armedState (rawAt (.ia .g1) 4271) = [] := by
  decide +kernel

/-! ### Cycle boundary -/

theorem boundary_at (s : State) (h : s.inReset = false) : AtBoundary (atBoundary s) := ⟨h, rfl⟩

theorem test_witness_BoundaryBeginsTheNextCycle :
    AtBoundary (atBoundary (holdoverState 48)) ∧ (atBoundary (holdoverState 48)).ct.tracker = .holdover ∧
    (atBoundary (holdoverState 48)).ct.holdoverCycles + 1 < 50 ∧
    AtBoundary (atBoundary (lockedState 0 5)) ∧ (atBoundary (lockedState 0 5)).ct.tracker = .locked ∧
    (atBoundary (lockedState 0 5)).ct.accepted = some 200000 ∧ (atBoundary (lockedState 0 5)).ct.steering = none ∧
    (atBoundary base).ct.tracker ≠ .holdover :=
  ⟨boundary_at _ rfl, by decide, by decide, boundary_at _ rfl, by decide, by decide, by decide, by decide⟩

theorem test_witness_BoundaryBeginsTheNextCycle_steered :
    let s := atBoundary { lockedState 0 5 with ct := { (lockedState 0 5).ct with steering := some 600 } }
    AtBoundary s ∧ s.ct.tracker = .locked ∧ s.ct.accepted = some 200000 ∧ s.ct.steering = some 600 :=
  ⟨⟨rfl, rfl⟩, rfl, rfl, rfl⟩

/-- The clock STOPPED: it starts, with one slot replaced and one deleted, and it does not. -/
theorem test_witness_BoundaryBeginsTheNextCycle_stopped :
    let e := factoryEntry .vRf 0 0 0 78 70 1 1 .trip
    let s := atBoundary { lockedState 0 5 with ss := { base.ss with staged := { Staging.empty with
      limits := ((Vector.replicate 48 none).set 0 (some (LimitEdit.replace e))).set 2 (some .delete) } } }
    (AtBoundary s ∧ s.ae.clock = none ∧ StartsClock s ∧ s.ss.staged.limits[(0 : Fin 48)] = some (.replace e) ∧
      s.ss.staged.limits[(2 : Fin 48)] = some .delete ∧ s.ss.staged.limits[(1 : Fin 48)] = none) ∧
    AtBoundary (atBoundary base) ∧ (atBoundary base).ae.clock = none ∧ ¬ StartsClock (atBoundary base) :=
  ⟨⟨⟨rfl, rfl⟩, rfl, ⟨rfl, rfl, rfl⟩, by decide +kernel, by decide +kernel, by decide +kernel⟩, ⟨rfl, rfl⟩, rfl,
    fun h => absurd h.2.2 (by decide)⟩

/-- Groups 0 and 1 in MONITOR with their pair INTACT under a standing ALARM record of its own, and group 1 about to leave. -/
def breakingPair : State :=
  let watched : GroupMonitor := { accepted := .closed, debounce := 0, state := .monitor, settle := 0 }
  let e := { factoryEntry .jp 0 0 0 78 70 1 1 .alarm with scope := .pair .p0 }
  let s := windowEnd .empty
  { s with
    gm := { s.gm with
      groups := (s.gm.groups.set .g0 watched).set .g1 { watched with debounce := 1 }
      pairs := s.gm.pairs.set .p0 .intact }
    ss := { s.ss with working := { s.ss.working with limits := (Vector.replicate 48 none).set 7 (some e) } }
    le := { s.le with
      records := (Vector.replicate 48 []).set 7 [(.pair .p0, { state := .pendingOff, count := 1 })]
      verdicts := (s.le.verdicts.set .g0 .alarm).set .g1 .alarm }
    ae := { s.ae with pairSets := s.ae.pairSets.set .p0 (some (AccSet.opened 6)) } }

/-- A boundary within a window, its cycle in HOLDOVER, groups 0 and 1 open with their pair, group 1 about to leave: its sets and the pair's are
discarded, and group 0's are kept DEGRADED. -/
def leavingInside : State :=
  { breakingPair with
    ct := { breakingPair.ct with holdoverMark := true }
    ae := { breakingPair.ae with
      clock := insideWindow.ae.clock
      groupSets := breakingPair.ae.groupSets.set .g1 (some GroupSets.opened) } }

theorem test_witness_BoundaryBeginsTheNextCycle_within :
    AtBoundary leavingInside ∧ leavingInside.ae.clock = some { window := 300, firstCycle := 40, length := .w4, completed := 2 } ∧
    2 + 1 < WindowLen.cycles .w4 ∧ ¬ EntersFree leavingInside ∧
    Leaves leavingInside inService .g1 ∧ ¬ Leaves leavingInside inService .g0 ∧
    after (exec (.cycleBoundary inService) leavingInside) (fun t =>
      t.ae.clock == some { window := 300, firstCycle := 40, length := .w4, completed := 3 } &&
        t.ae.groupSets.get .g0 == some GroupSets.opened.setDegraded && t.ae.groupSets.get .g1 == none &&
        t.ae.pairSets.get .p0 == none && (t.st.groups.get .g1)[11] == 1 && (t.st.groups.get .g0)[11] == 0) = true :=
  ⟨⟨rfl, rfl⟩, rfl, by decide, fun h => absurd h.1 (by decide), ⟨rfl, rfl, by decide, by decide⟩, fun h => absurd h.1 (by decide),
    by decide +kernel⟩

/-- A group in each monitor state, with a level that agrees, one that differs, and one that is accepted. -/
theorem test_witness_BoundaryMovesTheGroups :
    (AtBoundary (debouncing .opened .out 0) ∧ ((debouncing .opened .out 0).gm.groups.get .g1).debounce = 1 ∧
      ((debouncing .opened .out 0).gm.groups.get .g1).state = .out ∧ (debouncing .opened .out 0).mode = .normal) ∧
    (AtBoundary (debouncing .closed .monitor 0) ∧ ((debouncing .closed .monitor 0).gm.groups.get .g1).state = .monitor) ∧
    (AtBoundary (debouncing .closed .settling 1) ∧ ((debouncing .closed .settling 1).gm.groups.get .g1).settle ≤ 1 ∧
      (debouncing .closed .settling 1).opensWindow = false) ∧
    (AtBoundary (atBoundary (lockedState 0 5)) ∧ (atBoundary (lockedState 0 5)).opensWindow = true ∧
      ((atBoundary (lockedState 0 5)).gm.groups.get .g1).debounce = 0) :=
  ⟨⟨⟨rfl, rfl⟩, rfl, rfl, rfl⟩, ⟨⟨rfl, rfl⟩, rfl⟩, ⟨⟨rfl, rfl⟩, by decide, by decide +kernel⟩, ⟨⟨rfl, rfl⟩, by decide +kernel, rfl⟩⟩

theorem test_witness_BoundaryMovesTheGroups_admits :
    let s := atBoundary { lockedState 0 5 with gm := (debouncing .closed .settling 1).gm }
    AtBoundary s ∧ (s.gm.groups.get .g1).state = .settling ∧ (s.gm.groups.get .g1).settle ≤ 1 ∧ s.opensWindow = true ∧
      Quad.get (Quad.fill true) .g1 = true :=
  ⟨⟨rfl, rfl⟩, rfl, by decide, by decide +kernel, rfl⟩

/-- The pair breaks: group 1 leaves, group 0's verdict loses its support, and each of the reports names the cause that its rule gives. -/
theorem test_witness_BoundaryMovesTheGroups_breaks :
    AtBoundary breakingPair ∧ Leaves breakingPair inService .g1 ∧ ¬ Leaves breakingPair inService .g0 ∧
    ((UnitId.pair .p0, { state := .pendingOff, count := 1 }) ∈ breakingPair.le.records[(7 : Fin 48)]) ∧
    after (exec (.cycleBoundary inService) breakingPair) (fun t =>
      t.gm.pairs.get .p0 == .broken && t.le.verdicts.get .g0 == .normal &&
        reports t == [.groupEvent .g1 .monitor .out .inputOpen 0, .verdictChange .g1 .alarm .normal .out 0 none,
          .pairEvent .p0 .intact .broken .groupOut 0, .verdictChange .g0 .alarm .normal .pairBroken 0 none]) = true :=
  ⟨⟨rfl, rfl⟩, ⟨rfl, rfl, by decide, by decide⟩, fun h => absurd h.1 (by decide), by decide +kernel, by decide +kernel⟩

/-- With the clock STOPPED and the entry deleted, the edit withdraws the record and the verdict before the pair breaks; and a pair
that forms. -/
theorem test_witness_BoundaryMovesTheGroups_edits :
    let s := { breakingPair with
      ae := AnalysisEngine.fresh
      ss := { breakingPair.ss with staged := { Staging.empty with limits := (Vector.replicate 48 none).set 7 (some .delete) } } }
    let forming := { breakingPair with gm := { breakingPair.gm with pairs := Duo.fill .broken } }
    AtBoundary s ∧ s.ae.clock = none ∧ withdrawals s 0 = [.report (.limitEvent 7 (.pair .p0) .withdrawn .alarm 0 none)] ∧
    after (exec (.cycleBoundary inService) s) (fun t =>
      reports t == [.limitEvent 7 (.pair .p0) .withdrawn .alarm 0 none, .verdictChange .g0 .alarm .normal .limitEdit 0 none,
        .verdictChange .g1 .alarm .normal .limitEdit 0 none, .groupEvent .g1 .monitor .out .inputOpen 0,
        .pairEvent .p0 .intact .broken .groupOut 0]) = true ∧
    after (exec (.cycleBoundary (Quad.fill true)) forming) (fun t =>
      (reports t).take 1 == [.groupEvent .g2 .out .settling .inputClosed 0] ||
        (reports t).any (· == .pairEvent .p0 .broken .intact .pairing 301)) = true := by
  refine ⟨⟨rfl, rfl⟩, rfl, ?_, ?_, ?_⟩ <;> decide +kernel

theorem test_witness_AcceptedInputs :
    (AtBoundary (debouncing .opened .out 0) ∧ (debouncing .opened .out 0).mode = .normal ∧
      ((debouncing .opened .out 0).gm.groups.get .g1).accepted = .opened) ∧
    (AtBoundary (debouncing .closed .settling 9) ∧ ((debouncing .closed .settling 9).gm.groups.get .g1).accepted = .closed ∧
      ((debouncing .closed .settling 9).gm.groups.get .g1).debounce = 1 ∧
      ((debouncing .closed .settling 9).gm.groups.get .g1).state ≠ .out ∧
      ((debouncing .closed .settling 9).ae.clock = none → (debouncing .closed .settling 9).ae.groupSets.get .g1 = none)) :=
  ⟨⟨⟨rfl, rfl⟩, rfl, rfl⟩, ⟨rfl, rfl⟩, rfl, rfl, by decide, fun _ => rfl⟩

theorem test_witness_SpecialBoundaries :
    (AtBoundary (debouncing .closed .settling 1) ∧ ((debouncing .closed .settling 1).gm.groups.get .g1).settle = 1 ∧
      ¬ Leaves (debouncing .closed .settling 1) (Quad.fill true) .g1) ∧
    (AtBoundary lastPost ∧ lastPost.cr.state = .post ∧ lastPost.cr.postCount = 0 ∧ lastPost.cr.releasePending = false) ∧
    (AtBoundary (atBoundary { base with lc := { base.lc with holdCount := 1 } }) ∧
      (atBoundary { base with lc := { base.lc with holdCount := 1 } }).lc.holdCount = 1) :=
  ⟨⟨⟨rfl, rfl⟩, rfl, fun h => absurd h.1 (by decide)⟩, ⟨⟨rfl, rfl⟩, rfl, rfl, rfl⟩, ⟨rfl, rfl⟩, rfl⟩

/-- A settling group with its input CLOSED whose first OPEN sample falls on the last settling boundary does not leave: it settles. -/
theorem test_witness_SpecialBoundaries_first_open :
    let s := atBoundary { lockedState 0 5 with gm := { base.gm with
      groups := base.gm.groups.set .g1 { accepted := .closed, debounce := 0, state := .settling, settle := 1 } } }
    AtBoundary s ∧ (s.gm.groups.get .g1).state = .settling ∧ (s.gm.groups.get .g1).settle = 1 ∧ allOpen.get .g1 = false ∧
    ¬ Leaves s allOpen .g1 ∧
    after (exec (.settleCountExpiry .g1 allOpen) s) (fun t =>
      t.gm.groups.get .g1 == { accepted := .closed, debounce := 1, state := .monitor, settle := 0 }) = true :=
  ⟨⟨rfl, rfl⟩, rfl, rfl, rfl, fun h => absurd h.2.2.1 (by decide), by decide +kernel⟩

/-- The ring in each of the five cases. -/
theorem test_witness_BoundaryAdvancesTheRing :
    let released := { lastPost with cr := { lastPost.cr with releasePending := true } }
    let counting := { lastPost with cr := { lastPost.cr with postCount := 1 } }
    let frozen := frozenRing lastPost
    (AtBoundary (atBoundary base) ∧ (atBoundary base).cr.state = .running) ∧
    (AtBoundary released ∧ released.cr.state ≠ .running ∧ released.cr.releasePending = true) ∧
    (AtBoundary counting ∧ counting.cr.state = .post ∧ counting.cr.releasePending = false ∧ 0 < counting.cr.postCount) ∧
    (AtBoundary lastPost ∧ lastPost.cr.postCount = 0) ∧
    (AtBoundary frozen ∧ frozen.cr.state = .frozen ∧ frozen.cr.releasePending = false) :=
  ⟨⟨⟨rfl, rfl⟩, rfl⟩, ⟨⟨rfl, rfl⟩, by decide, rfl⟩, ⟨⟨rfl, rfl⟩, rfl, rfl, by decide⟩, ⟨⟨rfl, rfl⟩, rfl⟩, ⟨rfl, rfl⟩, rfl, rfl⟩

theorem test_witness_FiftiethHoldoverBoundary :
    let s := { windowEnd .empty with ct := (atBoundary (holdoverState 49)).ct }
    AtBoundary s ∧ s.ct.tracker = .holdover ∧ s.ct.holdoverCycles = 49 ∧ s.ae.clock.isSome = true :=
  ⟨⟨rfl, rfl⟩, rfl, rfl, rfl⟩

/-- A window at its end with group 0's sets open: its slot empty, its slot busy, and group 1 with nothing open. -/
theorem test_witness_WindowBoundaryProtocol :
    let w : WindowClock := { window := 300, firstCycle := 40, length := .w1, completed := 0 }
    let busy := windowEnd (.running (order30Job factoryWeights))
    (AtBoundary (windowEnd .empty) ∧ (windowEnd .empty).ae.clock = some w ∧ w.length.cycles = w.completed + 1 ∧
      (windowEnd .empty).ct.tracker ≠ .holdover ∧
      ((windowEnd .empty).gm.groups.get .g0).leaves (inService.get .g0) = false ∧
      (windowEnd .empty).ae.groupSets.get .g0 = some GroupSets.opened ∧ (windowEnd .empty).ae.groupSlots.get .g0 = .empty ∧
      (windowEnd .empty).ae.groupSets.get .g1 = none) ∧
    (AtBoundary busy ∧ busy.ae.clock = some w ∧ busy.ae.groupSets.get .g0 = some GroupSets.opened ∧
      busy.ae.groupSlots.get .g0 ≠ .empty) :=
  ⟨⟨⟨rfl, rfl⟩, rfl, rfl, by decide, by decide, rfl, rfl, rfl⟩, ⟨rfl, rfl⟩, rfl, rfl, by simp [windowEnd, atBoundary, Quad.get, Quad.set]⟩

/-- A staging area with one value of each kind and with none. -/
theorem test_witness_WindowBoundaryProtocol_settings :
    let x := Settings.factory
    let e := factoryEntry .vRf 0 0 0 78 70 1 1 .trip
    let st := { Staging.empty with
      analysis := some { x.analysis with settle := 7 }
      weights := (Vector.replicate 50 none).set 29 (some 512)
      limits := ((Vector.replicate 48 none).set 0 (some (LimitEdit.replace e))).set 2 (some .delete)
      channels := Staging.empty.channels.set (.ia .g2) { StagedChannel.empty with fs := some 2000 } }
    let y := x.applyAnalysis st
    Staging.empty.analysis = none ∧ st.weights[(29 : Fin 50)] = some 512 ∧ st.weights[(0 : Fin 50)] = none ∧
    st.limits[(0 : Fin 48)] = some (.replace e) ∧ st.limits[(2 : Fin 48)] = some .delete ∧ st.limits[(1 : Fin 48)] = none ∧
    y.analysis.settle = 7 ∧ y.weights[(29 : Fin 50)] = 512 ∧ y.weights[(0 : Fin 50)] = x.weights[(0 : Fin 50)] ∧
    (y.snapshot .g2).fsIA = 2000 ∧ (y.snapshot .g2).fsIB = (x.snapshot .g2).fsIB := by decide +kernel

/-- A pair's set handed over, skipped, and discarded with the pair that breaks; and the boundary's outcome for each. -/
theorem test_witness_WindowBoundaryProtocol_pairs :
    let steady := { breakingPair with gm := { breakingPair.gm with
      groups := (breakingPair.gm.groups.set .g1 (breakingPair.gm.groups.get .g0)) } }
    let running := .running { head := (order30Job factoryWeights).head, set := AccSet.opened 6 }
    let busy := { steady with ae := { steady.ae with pairSlots := steady.ae.pairSlots.set .p0 running } }
    let both : InputLevels := Quad.set inService .g1 true
    (AtBoundary steady ∧ ¬ Leaves steady both .g0 ∧ ¬ Leaves steady both .g1 ∧
      steady.ae.pairSets.get .p0 = some (AccSet.opened 6) ∧ steady.ae.pairSlots.get .p0 = .empty ∧
      steady.ae.pairSets.get .p1 = none) ∧
    (AtBoundary busy ∧ ¬ Leaves busy both .g0 ∧ ¬ Leaves busy both .g1 ∧ busy.ae.pairSets.get .p0 = some (AccSet.opened 6) ∧
      busy.ae.pairSlots.get .p0 ≠ .empty) ∧
    after (exec (.windowBoundary both) steady) (fun t => t.ae.passes.map (fun p => p.pairs.get .p0) == [.awaited]) = true ∧
    after (exec (.windowBoundary both) busy) (fun t => t.ae.passes.map (fun p => p.pairs.get .p0) == [.skipped]) = true ∧
    after (exec (.windowBoundary inService) breakingPair) (fun t =>
      t.ae.passes.map (fun p => p.pairs.get .p0) == [.none]) = true :=
  ⟨⟨⟨rfl, rfl⟩, fun h => absurd h.2.2.1 (by decide), fun h => absurd h.2.2.1 (by decide), rfl, rfl, rfl⟩,
    ⟨⟨rfl, rfl⟩, fun h => absurd h.2.2.1 (by decide), fun h => absurd h.2.2.1 (by decide), rfl, nofun⟩,
    by decide +kernel, by decide +kernel, by decide +kernel⟩

/-! ### Jobs and passes -/

def pairJob : PairJob := { head := (order30Job factoryWeights).head, set := AccSet.opened 6 }

theorem test_witness_EarliestJobStarts_group :
    let s := { base with ae := { base.ae with groupSlots := base.ae.groupSlots.set .g3 (jobWaiting 0) } }
    s.inReset = false ∧ runningSlots s.ae = 0 ∧ s.ae.groupSlots.get .g3 = jobWaiting 0 ∧
    (∀ h, h ≠ .g3 → s.ae.groupSlots.get h = .empty) ∧ (∀ p, s.ae.pairSlots.get p = .empty) ∧ 0 < runningSlots running30.ae :=
  ⟨rfl, rfl, rfl, fun h hne => by cases h <;> first | rfl | exact absurd rfl hne, fun p => by cases p <;> rfl, by decide +kernel⟩

theorem test_witness_EarliestJobStarts_pair :
    let s := { base with ae := { base.ae with pairSlots := base.ae.pairSlots.set .p1 (.waiting pairJob) } }
    s.inReset = false ∧ runningSlots s.ae = 0 ∧ s.ae.pairSlots.get .p1 = .waiting pairJob ∧
    (∀ g, s.ae.groupSlots.get g = .empty) ∧ s.ae.pairSlots.get .p0 = .empty :=
  ⟨rfl, rfl, rfl, fun g => by cases g <;> rfl, rfl⟩

/-- A group job with RF, one without, and the three cases of the digest setting. -/
theorem test_witness_JobCompletionStores_group :
    running30.inReset = false ∧ runningSlots running30.ae = 1 ∧
    running30.ae.groupSlots.get .g0 = .running (order30Job factoryWeights) ∧
    ((order30Job factoryWeights).record .g0).rf = some 79 ∧
    ({ order30Job factoryWeights with sets := GroupSets.opened }.record .g0).rf = none ∧
    running30.ss.working.analysis.digest = 0 := by decide +kernel

theorem test_witness_JobCompletionStores_digest :
    let with2 := fun n => { running30 with
      ss := { base.ss with staged := Staging.empty, working := { Settings.factory with
        analysis := { AnalysisSettings.factory with digest := 2 } } }
      lc := { base.lc with digests := Quad.fill n } }
    (with2 0).lc.digests.get .g0 + 1 < (with2 0).ss.working.analysis.digest ∧
    0 < (with2 1).ss.working.analysis.digest ∧
    (with2 1).ss.working.analysis.digest ≤ (with2 1).lc.digests.get .g0 + 1 ∧ runningSlots (with2 1).ae = 1 := by
  decide +kernel

theorem test_witness_JobCompletionStores_pair :
    let s := { base with ae := { base.ae with pairSlots := base.ae.pairSlots.set .p1 (.running pairJob) } }
    s.inReset = false ∧ runningSlots s.ae = 1 ∧ s.ae.pairSlots.get .p1 = .running pairJob := ⟨rfl, rfl, rfl⟩

/-- A ready pass with an entry judged, an entry replaced and an entry deleted in the same table. -/
theorem test_witness_EvaluationPassSteps :
    let e := factoryEntry .vRf 0 0 0 78 70 1 1 .trip
    let s := { passDue with ss := { passDue.ss with staged := { Staging.empty with
      limits := ((Vector.replicate 48 none).set 0 (some (LimitEdit.replace e))).set 47 (some .delete) } } }
    s.inReset = false ∧ s.ae.passes.map Pass.ready = [true] ∧ s.ss.staged.limits[(5 : Fin 48)] = none ∧
    s.ss.working.limits[(5 : Fin 48)].isSome = true ∧ s.ss.staged.limits[(0 : Fin 48)] = some (.replace e) ∧
    s.ss.staged.limits[(47 : Fin 48)] = some .delete ∧ s.cr.state = .running ∧ s.ss.working.freeze.verdictTrip = true := by
  decide +kernel

/-- The pass that trips group 0 offers a trigger to a ring that runs, and to one that does not. -/
theorem test_witness_EvaluationPassSteps_offers :
    passDue.cr.state = .running ∧ passDue.cr.ignored ≤ 65535 ∧ (frozenRing passDue).cr.state ≠ .running ∧
    editedVerdict passDue .g0 = .normal ∧
    after (exec .evaluationPass passDue) (fun t => t.le.verdicts.get .g0 == .trip &&
      t.cr.trigger == some { cause := .verdictTrip, group := some .g0, comparator := none, window := some 12, cycle := 0 }) = true ∧
    after (exec .evaluationPass (frozenRing passDue)) (fun t => t.cr.ignored == 1) = true ∧
    holder passDue.ss.working.limits ((Vector.replicate 48 []).set 5 [(.group .g0, { state := .active, count := 0 })]) .g0 =
      some (5, false) := by
  decide +kernel

def pairRecord : PairRecord :=
  { pair := .p1, window := 9, firstCycle := 4, length := .w8, degraded := true, noBase := false, clamped := false,
    marks := [⟨true, false⟩, ⟨false, true⟩, ⟨false, false⟩, ⟨false, false⟩, ⟨true, true⟩, ⟨false, true⟩], meanIP := -3,
    jp := 131070, linesIP := Vector.replicate 50 5, ratiosIP := some (Vector.replicate 50 7) }

/-- A group's record and a pair's, each judged and each held back, and a unit that is not watched. -/
theorem test_witness_PersistenceTable_values :
    let r := (order30Job factoryWeights).record .g0
    let p : Pass := { order := 0, window := 12, groups := Quad.set (Quad.fill .none) .g0 (.record r),
                      pairs := Duo.fill (.record pairRecord) }
    let m : Monitors := { passDue.gm with pairs := Duo.fill .intact }
    let e := factoryEntry .vRf 0 0 0 78 70 1 1 .trip
    let k := factoryEntry .armK 2 0 0 78 70 1 1 .trip
    let i := factoryEntry .iHarm 2 1 50 78 70 1 1 .trip
    let jp := { factoryEntry .jp 0 0 0 78 70 1 1 .trip with scope := .pair .p1 }
    (m.groups.get .g0).state = .monitor ∧ p.groups.get .g0 = .record r ∧ m.pairs.get .p1 = .intact ∧
    p.pairs.get .p1 = .record pairRecord ∧ pairRecord.marks.length = 6 ∧
    judgedValue m p e (.group .g0) = some 79 ∧ k.bridge = 2 ∧ i.bridge = 2 ∧ judgedValue m p k (.group .g0) = none ∧
    judgedValue m p i (.group .g0) = some 0 ∧
    judgedValue m p { jp with severity := .watch } (.pair .p1) = none ∧ (m.groups.get .g1).state ≠ .monitor ∧
    1 ≤ i.first.toNat ∧ i.first.toNat ≤ i.last.toNat ∧ i.last.toNat ≤ 50 := by
  decide +kernel

/-- R106 at counts of 1 and of 3 and 2: each state with a value over, clear, and between. -/
theorem test_witness_PersistenceTable :
    let e := factoryEntry .vHarm 0 6 6 100 70 3 2 .alarm
    let one := factoryEntry .vHarm 0 6 6 100 70 1 1 .alarm
    1 ≤ e.onCount ∧ 1 ≤ e.offCount ∧ one.onCount = 1 ∧ one.offCount = 1 ∧
    CountFits e { state := .clear, count := 0 } ∧ CountFits e { state := .pendingOn, count := 1 } ∧
    CountFits e { state := .pendingOn, count := 2 } ∧ CountFits e { state := .active, count := 0 } ∧
    CountFits e { state := .pendingOff, count := 1 } ∧ 1 + 1 ≠ e.onCount ∧ 2 + 1 = e.onCount ∧ 1 + 1 = e.offCount ∧
    e.limit < 101 ∧ ¬ e.limit < 100 ∧ (70 : Int) ≤ e.release ∧ ¬ (71 : Int) ≤ e.release := by
  refine ⟨by decide, by decide, by decide, by decide, rfl, ?_, ?_, rfl, ?_, by decide, by decide, by decide, by decide,
    by decide, by decide, by decide⟩ <;> simp [CountFits, factoryEntry]

theorem test_witness_PersistenceTable_longer_off :
    let e := factoryEntry .vHarm 0 6 6 100 70 3 3 .alarm
    CountFits e { state := .pendingOff, count := 1 } ∧ 1 + 1 ≠ e.offCount ∧ e.offCount ≠ 1 := by
  simp [CountFits, factoryEntry]

/-- A job with every premise of the figures: extremes in order, one mark of each channel, means that are not 0, FS in range. -/
def figuresJob : GroupJob :=
  { order30Job factoryWeights with sets := { v := order30Set, ia := order30Set, ib := order30Set, ig := { AccSet.opened 2 with s0 := 6480000 } } }

theorem test_witness_FiguresOfARecord :
    let j := figuresJob
    let mark : Marks := { clip := false, held := false }
    (j.sets.v.largest = some 27300 ∧ j.sets.v.smallest = some 26700 ∧ (26700 : Int) ≤ 27300) ∧
    (j.sets.v.marks = [mark] ∧ j.sets.ia.marks = [mark] ∧ j.sets.ib.marks = [mark] ∧ j.sets.ig.marks = [mark, mark]) ∧
    Rounds j.sets.v.s0 j.head.length.samples 27000 ∧ Rounds j.sets.ia.s0 j.head.length.samples 27000 ∧
    (j.record .g0).noBase = false ∧ (j.record .g0).sd = some 0 ∧ (j.record .g0).ka.isSome = true ∧
    ((pairJob.record .p0).noBase = true) ∧
    (({ pairJob with set := { pairJob.set with s0 := 6480000 } } : PairJob).record .p0).noBase = false ∧
    j.head.snapshot.fsV ≤ 65535 ∧ j.head.snapshot.fsIA ≤ 65535 :=
  ⟨by decide +kernel, by decide +kernel, ⟨by decide, by decide, by decide⟩, ⟨by decide, by decide, by decide⟩,
    by decide +kernel, by decide +kernel, by decide +kernel, by decide +kernel, by decide +kernel, by decide +kernel, by decide +kernel⟩

/-! ### Link -/

/-- The longest payload with the longest gap, into a list of three. -/
theorem test_witness_FrameOnTheWireIsReceived :
    let f : Frame := { kind := 0x30, tag := 9, payload := List.replicate 248 0xA5 }
    let s := { base with lc := { base.lc with entries := List.replicate 3 (readyEntry 0 0) } }
    s.inReset = false ∧ f.payload.length ≤ 248 ∧ (10217 : Nat) ≤ 10217 ∧ s.lc.receiver = .hunt ∧ s.lc.gapFrom = none ∧
      s.lc.entries.length < 4 := by decide +kernel

def receiving (r : Receiver) : State := { base with lc := { base.lc with receiver := r, gapFrom := some 0 } }

/-- Each receiver state with the boundary values of the length byte and the last character within the gap. -/
theorem test_witness_ReceiverStates_characters :
    base.lc.receiver = .hunt ∧ (0xA4 : Byte) ≠ 0xA5 ∧ (receiving .length).lc.receiver = .length ∧
    (1 : Byte).toNat < 2 ∧ 250 < (251 : Byte).toNat ∧ 2 ≤ (2 : Byte).toNat ∧ (250 : Byte).toNat ≤ 250 ∧
    (receiving (.body 2 [])).lc.receiver = .body 2 [] ∧ ([] : List Byte).length + 1 < 2 ∧
    (receiving (.body 2 [2])).lc.receiver = .body 2 [2] ∧ ([2] : List Byte).length + 1 = 2 ∧
    (receiving (.check 2 [2, 1] none)).lc.receiver = .check 2 [2, 1] none ∧
    lastCharacter.lc.receiver = .check 2 [2, 1] (some 0xD4) ∧
    (crc16 (one 2 :: [2, 1])).toNat ≠ (0xD4 : Byte).toNat * 256 + (0xBE : Byte).toNat := by decide +kernel

/-- A character exactly at the gap's end, one count past it, and the timer running. -/
theorem test_witness_ReceiverStates_gap :
    (∀ u, (receiving .length).lc.gapFrom = some u →
      ((receiving .length).ct.timebase + BitVec.ofNat 64 10217 - u).toNat ≤ 10217) ∧
    (receiving .length).lc.gapFrom = some 0 ∧ (receiving .length).lc.receiver ≠ .hunt ∧
    10217 < ((receiving .length).ct.timebase + BitVec.ofNat 64 10218 - 0).toNat := by
  refine ⟨fun u h => ?_, by decide +kernel⟩
  have : (0 : Count) = u := by injection h
  subst this
  decide

theorem test_witness_ReceiverStates_frame :
    lastCharacter.inReset = false ∧ lastCharacter.lc.receiver = .check 2 (2 :: 1 :: []) (some 0xD4) ∧
    (crc16 (one 2 :: 2 :: 1 :: [])).toNat = (0xD4 : Byte).toNat * 256 + (0xBF : Byte).toNat ∧
    lastCharacter.lc.entries.length < 4 ∧
    (∀ u, lastCharacter.lc.gapFrom = some u → (lastCharacter.ct.timebase + BitVec.ofNat 64 217 - u).toNat ≤ 10217) := by
  refine ⟨rfl, rfl, by decide +kernel, by decide, fun u h => ?_⟩
  have : (0 : Count) = u := by injection h
  subst this
  decide

/-- Kinds 0 and 0x1D, a payload of the wrong length, a weights payload of odd length, and a request that MAINTENANCE refuses. -/
theorem test_witness_FirstThreeTests :
    HandlerTakes (asked base 0x00 []) [] [] (query 0x00 []) ∧ HandlerTakes (asked base 0x1D []) [] [] (query 0x1D []) ∧
    0x1C < (0x1D : Byte).toNat ∧
    (HandlerTakes (asked base 0x01 [0]) [] [] (query 0x01 [0]) ∧ (⟨0x01, .identify, some 0, false⟩ : RequestRow) ∈ requestTable ∧
      (query 0x01 [0]).payload.length ≠ 0) ∧
    (HandlerTakes (asked base 0x0F [1, 1, 0]) [] [] (query 0x0F [1, 1, 0]) ∧
      (⟨0x0F, .setWeights, none, false⟩ : RequestRow) ∈ requestTable ∧ (query 0x0F [1, 1, 0]).payload.length % 2 = 1) ∧
    (HandlerTakes (asked { base with mode := .maintenance } 0x16 [3]) [] [] (query 0x16 [3]) ∧
      (⟨0x16, .clearTrip, some 1, true⟩ : RequestRow) ∈ requestTable ∧
      (asked { base with mode := .maintenance } 0x16 [3]).mode = .maintenance) :=
  ⟨base_takes .., base_takes .., by decide, ⟨base_takes .., by decide, by decide⟩, ⟨base_takes .., by decide, by decide⟩,
    asked_takes _ _ _ rfl rfl, by decide, rfl⟩

def sendingEntry : Entry := { request := query 0x02 [], stage := .sending }

theorem test_witness_TransmitterAndArbiter_start :
    let replying := { base with lc := { base.lc with entries := [readyEntry 9 1, readyEntry 4 2] } }
    let r : Report := { cycle := 3, body := .flagEvent .clip 0x100 }
    let reporting := fun hold => { base with lc := { base.lc with queue := [r], holdCount := hold } }
    (replying.inReset = false ∧ replying.lc.sending = none ∧ replying.lc.restartDue = false ∧
      replying.lc.entries = [readyEntry 9 1] ++ readyEntry 4 2 :: [] ∧
      ∀ e ∈ [readyEntry 9 1] ++ [], ∀ m f, e.stage = .ready m f → 4 < m) ∧
    ((reporting 0).lc.queue = r :: [] ∧ (reporting 0).lc.holdCount = 0 ∧ (reporting 0).lc.entries = [] ∧
      0 < (reporting 1).lc.holdCount) := by
  refine ⟨⟨rfl, rfl, rfl, rfl, ?_⟩, rfl, rfl, rfl, by decide⟩
  intro e he m f h
  simp only [List.append_nil, List.mem_singleton] at he
  subst he
  simp only [readyEntry, Stage.ready.injEq] at h
  omega

/-- The bytes of a SYNC_EVENT into LOCKED with a period of 199,600, and those of the lowest sample. -/
theorem test_witness_TransmitterAndArbiter_bytes :
    (199600 < 2 ^ 32 ∧ (ReportBody.syncEvent .locking .locked .crossing 199600 50100).fields =
      [1, 2, 0, 0x00, 0x03, 0x0B, 0xB0, 0x00, 0x00, 0xC3, 0xB4]) ∧
    (-(256 ^ 4 : Nat) ≤ 2 * (-262144 : Int) ∧ 2 * (-262144 : Int) < (256 ^ 4 : Nat) ∧
      beBytesInt 4 (-262144) = [0xFF, 0xFC, 0x00, 0x00]) := by decide +kernel

theorem test_witness_TransmitterAndArbiter_sent :
    let r : Frame := { kind := 0x42, tag := 7, payload := [0] }
    let reply := { base with lc := { base.lc with entries := [readyEntry 9 1, sendingEntry],
                                                  sending := some { isReply := true, frame := r } } }
    let report := { base with lc := { base.lc with sending := some { isReply := false, frame := r } } }
    (reply.inReset = false ∧ reply.lc.sending = some { isReply := true, frame := r } ∧
      reply.lc.entries = [readyEntry 9 1] ++ sendingEntry :: [] ∧ ∀ e ∈ [readyEntry 9 1] ++ [], e.stage ≠ .sending) ∧
    report.inReset = false ∧ report.lc.sending = some { isReply := false, frame := r } :=
  ⟨⟨rfl, rfl, rfl, by decide⟩, rfl, rfl⟩

def flagReport : Report := { cycle := 3, body := .flagEvent .clip 0x100 }
def tripReport : Report := { cycle := 3, body := .verdictChange .g0 .normal .trip .evaluation 1 (some (0, false)) }
def tripBody : ReportBody := .verdictChange .g1 .alarm .trip .evaluation 1 (some (3, false))

/-- A queue with one place left, a full queue with an old non-trip record, and a full queue of trip records. -/
theorem test_witness_FullQueuePolicy :
    let l := fun (n : Nat) (r : Report) (flags : FlagSet) =>
      { LinkController.fresh with queue := List.replicate n r, flags := flags, lost := 65535 }
    (l 63 flagReport 0).lost ≤ 65535 ∧ (l 63 flagReport 0).queue.length < 64 ∧ (l 64 flagReport 0x020).queue.length = 64 ∧
    flagOf (l 64 flagReport 0x020).flags .reportLost = true ∧ flagReport.body.isTrip = false ∧ tripBody.isTrip = true ∧
    (l 64 flagReport 0x020).queue = [] ++ flagReport :: List.replicate 63 flagReport ∧
    (∀ x ∈ (l 64 tripReport 0x020).queue, x.body.isTrip = true) ∧ flagOf (l 64 flagReport 0).flags .reportLost = false := by
  decide +kernel

/-- CLIP clear and set, its mask on and off, in a queue with room: the FLAG_EVENT carries the flag's number and all twelve flags. -/
theorem test_witness_FullQueuePolicy_flags :
    let l := { LinkController.fresh with flags := 0x400#12 }
    l.flags.getLsbD Flag.clip.number = false ∧ l.masks.getLsbD Flag.clip.number = true ∧ l.queue.length < 64 ∧
    ({ l with masks := 0 } : LinkController).masks.getLsbD Flag.clip.number = false ∧
    l.flags.getLsbD Flag.settingsDefaulted.number = true ∧
    (l.raise 3 .clip).queue = [{ cycle := 3, body := .flagEvent .clip 0x500 }] ∧
    (ReportBody.flagEvent .clip 0x500).fields = [8, 0x05, 0x00] := by decide +kernel

/-- A trip record that meets a full queue while REPORT_LOST is clear: one that displaces, and one that is dropped. -/
theorem test_witness_FullQueuePolicy_trip_record :
    let l := fun (older newer : List Report) => { LinkController.fresh with queue := older ++ flagReport :: newer }
    (l (List.replicate 2 tripReport) (List.replicate 61 flagReport)).queue.length = 64 ∧
    flagOf (l [] []).flags .reportLost = false ∧ tripBody.isTrip = true ∧ flagReport.body.isTrip = false ∧
    (∀ x ∈ List.replicate 2 tripReport, x.body.isTrip = true) ∧
    (∀ x ∈ ({ LinkController.fresh with queue := List.replicate 64 tripReport }).queue, x.body.isTrip = true) := by
  decide +kernel

theorem test_witness_RequestsKeepTheirPlace :
    (∀ w, Instr.identify ≠ .reset w) ∧ (∀ x p, Instr.identify ≠ .resetRelease x p) ∧ Instr.identify ≠ .frameSent ∧
    Instr.identify ≠ .restartExecution ∧ ∃ t, exec .identify (asked base 0x01 []) = .next t :=
  ⟨by simp, by simp, by simp, by simp, _, rfl⟩

/-! ### Requests that read -/

theorem test_witness_StatusAndCountersAreRead :
    HandlerTakes (asked base 0x01 []) [] [] (query 0x01 []) ∧ HandlerTakes (asked base 0x14 []) [] [] (query 0x14 []) ∧
    HandlerTakes (asked base 0x02 []) [] [] (query 0x02 []) ∧ (asked base 0x02 []).cr.trigger = none ∧
    HandlerTakes (asked lastPost 0x02 []) [] [] (query 0x02 []) ∧ (asked lastPost 0x02 []).cr.trigger.isSome = true :=
  ⟨base_takes .., base_takes .., base_takes .., rfl, asked_takes _ _ _ rfl rfl, rfl⟩

/-- The trigger record in the reply: VERDICT_TRIP of group 2 and window 510, no comparator, in cycle 2043. -/
theorem test_witness_StatusAndCountersAreRead_trigger :
    after (exec .getStatus (asked lastPost 0x02 [])) (fun t => t.lc.entries.any fun e =>
      match e.stage with
      | .ready _ reply => (reply.payload.drop 26).take 16 == [1, 1, 1, 2, 0, 0, 1, 0, 0, 0x01, 0xFE, 1, 0, 0, 0x07, 0xFB]
      | _ => false) = true := by decide +kernel

def storedPair : State :=
  { stored30 with ae := { stored30.ae with pairStore := stored30.ae.pairStore.set .p1 ⟨some pairRecord, none⟩ } }

/-- A group record, a pair record, a store that holds nothing, and each field one above its values. -/
theorem test_witness_WindowIsRead :
    (HandlerTakes (asked stored30 0x05 [0, 0, 0]) [] [] (query 0x05 [0, 0, 0]) ∧ stored30.mode = .normal ∧
      (stored30.ae.groupStore.get .g0).latest.isSome = true) ∧
    (HandlerTakes (asked storedPair 0x05 [1, 1, 0]) [] [] (query 0x05 [1, 1, 0]) ∧
      (storedPair.ae.pairStore.get .p1).latest = some pairRecord ∧ pairRecord.marks.length = 6) ∧
    (HandlerTakes (asked base 0x05 [1, 0, 1]) [] [] (query 0x05 [1, 0, 1]) ∧ base.recordOf (.pair .p0) .previous = none) ∧
    (HandlerTakes (asked base 0x05 [2, 0, 0]) [] [] (query 0x05 [2, 0, 0]) ∧ 1 < (2 : Byte).toNat ∧ 3 < (4 : Byte).toNat) :=
  ⟨⟨asked_takes _ _ _ rfl rfl, rfl, rfl⟩, ⟨asked_takes _ _ _ rfl rfl, rfl, rfl⟩, ⟨base_takes .., rfl⟩, base_takes .., by decide,
    by decide⟩

theorem test_witness_LinesAreRead :
    (HandlerTakes (asked stored30 0x06 [0, 0, 0, 3, 50, 255]) [] [] (query 0x06 [0, 0, 0, 3, 50, 255]) ∧
      (stored30.recordOf (.group .g0) .latest).isSome = true) ∧
    (HandlerTakes (asked storedPair 0x06 [1, 1, 0, 4, 1, 1]) [] [] (query 0x06 [1, 1, 0, 4, 1, 1]) ∧
      storedPair.recordOf (.pair .p1) .latest = some (.pair pairRecord)) ∧
    (HandlerTakes (asked stored30 0x06 [0, 0, 0, 4, 1, 1]) [] [] (query 0x06 [0, 0, 0, 4, 1, 1]) ∧
      ((4 : Byte).toNat = 4 ↔ (UnitId.group .g0).kindCode = 0)) :=
  ⟨⟨asked_takes _ _ _ rfl rfl, rfl⟩, ⟨asked_takes _ _ _ rfl rfl, rfl⟩, asked_takes _ _ _ rfl rfl, by decide⟩

/-- A record that the store does not hold, and each field one above its values. -/
theorem test_witness_LinesAreRead_refusals :
    HandlerTakes (asked base 0x06 [0, 3, 1, 3, 50, 1]) [] [] (query 0x06 [0, 3, 1, 3, 50, 1]) ∧
    base.recordOf (.group .g3) .previous = none ∧
    (∀ u ∈ ([[2, 0, 0], [0, 4, 0], [1, 2, 0], [0, 0, 2]] : List (List Byte)),
      HandlerTakes (asked base 0x06 (u ++ [0, 1, 1])) [] [] (query 0x06 (u ++ [0, 1, 1]))) ∧
    1 < (2 : Byte).toNat ∧ 3 < (4 : Byte).toNat :=
  ⟨base_takes .., rfl, fun _ _ => base_takes .., by decide, by decide⟩

/-- The same for a scan, and a target of the other unit. -/
theorem test_witness_ScanWalksTheLines_refusals :
    (∀ f ∈ ([[2, 0, 0, 0, 1, 0, 1, 0], [0, 0, 0, 5, 1, 0, 1, 0], [1, 0, 0, 4, 1, 0, 1, 0], [0, 0, 0, 0, 51, 0, 1, 0],
        [0, 0, 0, 0, 1, 2, 1, 0], [0, 0, 0, 0, 1, 0, 0, 0], [0, 0, 0, 0, 1, 0, 1, 2], [1, 1, 1, 6, 50, 1, 50, 1]] : List (List Byte)),
      HandlerTakes (asked base 0x07 (f ++ [0, 0, 0, 7])) [] [] (query 0x07 (f ++ [0, 0, 0, 7]))) ∧
    base.recordOf (.pair .p1) .previous = none ∧ ([0, 0, 0, 7] : List Byte).length = 4 ∧ 4 < (5 : Byte).toNat ∧
    (4 : Byte).toNat < 5 ∧ 50 < (51 : Byte).toNat :=
  ⟨fun _ _ => base_takes .., rfl, rfl, by decide, by decide, by decide⟩

/-- A pair's ratios walked down from order 50 with a value that every order fails, and one that the first meets. -/
theorem test_witness_ScanWalksTheLines :
    HandlerTakes (asked storedPair 0x07 [1, 1, 0, 6, 50, 1, 50, 0, 0, 0, 0, 7]) [] []
      (query 0x07 [1, 1, 0, 6, 50, 1, 50, 0, 0, 0, 0, 7]) ∧
    storedPair.mode = .normal ∧ storedPair.recordOf (.pair .p1) .latest = some (.pair pairRecord) ∧
    pairRecord.ratiosIP = some (Vector.replicate 50 7) ∧
    (∀ i, i < 50 → ¬ 7 < (Vector.replicate 50 7).toList.getD (50 - i - 1) 0) ∧
    6 < (Vector.replicate 50 7).toList.getD (50 - 0 - 1) 0 ∧
    ({ pairRecord with ratiosIP := none } : PairRecord).ratiosIP = none := by
  refine ⟨asked_takes _ _ _ rfl rfl, rfl, rfl, rfl, fun i hi => ?_, by decide, rfl⟩
  revert hi i
  decide

theorem test_witness_SamplesAreRead :
    HandlerTakes (asked base 0x08 [13, 0, 0, 0, 0, 119, 1]) [] [] (query 0x08 [13, 0, 0, 0, 0, 119, 1]) ∧
    12 < (13 : Byte).toNat ∧ 119 < (120 : Byte).toNat ∧
    (∀ k : Fin 16, (asked lastPost 0x08 [6, 0, 0, 0x07, 0xEF, 100, 56]).cr.slots[k].tag ≠ some 2031) ∧
    base.cr.slots[(0 : Fin 16)].tag = some 0 ∧ ((base.cr.slots[(0 : Fin 16)].channels.get .acref).samples.length ≤ 0) ∧
    0 < (({ RingSlot.fresh (some 0) with channels := PerChannel.fill ⟨[5], Marks.clear⟩ }).channels.get .acref).samples.length := by
  refine ⟨base_takes .., by decide, by decide, by decide +kernel, by decide +kernel, by decide +kernel, by decide⟩

theorem test_witness_LimitIsRead :
    HandlerTakes (asked base 0x0D [48]) [] [] (query 0x0D [48]) ∧ 47 < (48 : Byte).toNat ∧
    HandlerTakes (asked base 0x0D [47]) [] [] (query 0x0D [47]) ∧ base.ss.working.limits[(47 : Fin 48)] = none ∧
    HandlerTakes (asked base 0x0D [0]) [] [] (query 0x0D [0]) ∧ base.ss.working.limits[(0 : Fin 48)].isSome = true :=
  ⟨base_takes .., by decide, base_takes .., by decide +kernel, base_takes .., by decide +kernel⟩

/-- One index of each settings group, and the first values outside the table. -/
theorem test_witness_SettingsAreRead :
    (∀ p ∈ ([[0, 3], [0, 12], [0, 7], [0, 11], [1, 0], [2, 0], [3, 7], [4, 0], [5, 0], [0, 13], [3, 8], [6, 0], [1, 1]] :
      List (List Byte)), HandlerTakes (asked base 0x13 p) [] [] (query 0x13 p)) ∧
    one (ChannelId.v .g3).toNat = 3 ∧ one (ChannelId.ia .g3).toNat = 7 ∧ one (ChannelId.ib .g3).toNat = 11 ∧
    one (2 * GroupId.g3.toNat + CompId.c1.toNat) = 7 ∧ 12 < (13 : Byte).toNat ∧ 7 < (8 : Byte).toNat ∧ 5 < (6 : Byte).toNat ∧
    (1 : Byte) ≠ 0 :=
  ⟨fun _ _ => base_takes .., by decide⟩

/-! ### Requests that write -/

theorem test_witness_FlagsHoldAndCountersAreWritten_flags :
    (∀ kind ∈ ([0x03, 0x04, 0x17] : List Byte), HandlerTakes (asked base kind (beBytes 2 4095)) [] [] (query kind (beBytes 2 4095))) ∧
    4095 < 4096 ∧
    (∀ kind ∈ ([0x03, 0x04] : List Byte), HandlerTakes (asked base kind (beBytes 2 4096)) [] [] (query kind (beBytes 2 4096))) ∧
    65535 < 65536 :=
  ⟨fun _ _ => base_takes .., by decide, fun _ _ => base_takes .., by decide⟩

/-- The last counter of a group, of a pair and of the link, and a number one above each. -/
theorem test_witness_FlagsHoldAndCountersAreWritten_counters :
    (∀ u ∈ ([[0, 3, 11], [1, 1, 0], [2, 0, 5], [3, 0, 0], [0, 4, 0], [0, 0, 12], [1, 2, 0], [1, 0, 1], [2, 1, 0], [2, 0, 6]] :
        List (List Byte)),
      HandlerTakes (asked base 0x15 (u ++ beBytes 4 (0xFFFFFFFF : Word).toNat)) [] []
        (query 0x15 (u ++ beBytes 4 (0xFFFFFFFF : Word).toNat))) ∧
    (3 : Byte) = one GroupId.g3.toNat ∧ (11 : Byte) = one 11 ∧ (1 : Byte) = one PairId.p1.toNat ∧ (5 : Byte) = one 5 ∧
    2 < (3 : Byte).toNat ∧ 11 < (12 : Byte).toNat ∧ 5 < (6 : Byte).toNat :=
  ⟨fun _ _ => base_takes .., by decide⟩

theorem test_witness_FreezeControls :
    HandlerTakes (asked base 0x09 (beBytes 2 65535 ++ [1, 0, 1])) [] [] (query 0x09 (beBytes 2 65535 ++ [1, 0, 1])) ∧
    HandlerTakes (asked base 0x09 [0, 0, 2, 0, 0]) [] [] (query 0x09 [0, 0, 2, 0, 0]) ∧
    (HandlerTakes (asked base 0x0A []) [] [] (query 0x0A []) ∧ base.mode = .normal ∧ base.cr.state = .running) ∧
    (HandlerTakes (asked lastPost 0x0A []) [] [] (query 0x0A []) ∧ lastPost.mode = .normal ∧ lastPost.cr.state ≠ .running) ∧
    (HandlerTakes (asked lastPost 0x0B []) [] [] (query 0x0B []) ∧ lastPost.cr.trigger.isSome = true) ∧
    (HandlerTakes (asked base 0x0B []) [] [] (query 0x0B []) ∧ base.cr.trigger = none) :=
  ⟨base_takes .., base_takes .., ⟨base_takes .., rfl, rfl⟩, ⟨asked_takes _ _ _ rfl rfl, rfl, by decide⟩,
    ⟨asked_takes _ _ _ rfl rfl, rfl⟩, base_takes .., rfl⟩

/-- The entry of `limitBytes`, with every tested field at an end of its range. -/
def edgeEntry : LimitEntry :=
  { scope := .groups (Quad.set (Quad.fill false) .g2 true), quantity := .vHarm, bridge := 0xFF, first := 50, last := 50,
    sense := .above, limit := 2147483647, release := 0, onCount := 255, offCount := 1, severity := .trip }

theorem edgeEntry_accepted : EntryAccepted edgeEntry where
  scope := .inr ⟨_, .g2, rfl, rfl⟩
  quantity := by simp [edgeEntry]
  bridge := by simp [edgeEntry]
  orders := by intro _; decide
  sign := by intro _; decide
  above := by intro _; decide
  below := by simp [edgeEntry]
  onCount := by decide
  offCount := by decide
  limit := by decide
  release := by decide

theorem test_witness_LimitEditsAreStaged_accepted :
    EntryAccepted edgeEntry ∧
    HandlerTakes (asked base 0x0C (entryPayload 47 edgeEntry)) [] [] (query 0x0C (entryPayload 47 edgeEntry)) :=
  ⟨edgeEntry_accepted, base_takes ..⟩

/-- A first byte of 48 spells no slot. -/
theorem test_witness_LimitEditsAreStaged_refused :
    let p : List Byte := limitBytes.set 0 48
    HandlerTakes (asked base 0x0C p) [] [] (query 0x0C p) ∧ p.length = 19 ∧
    ∀ (k : Fin 48) (e : LimitEntry), EntryAccepted e → p ≠ entryPayload k e := by
  refine ⟨base_takes .., by decide, fun k e _ h => ?_⟩
  have : (48 : Byte) = one k.val := by
    have := congrArg List.head? h
    simpa [limitBytes, entryPayload] using this
  have := congrArg BitVec.toNat this
  simp [one] at this
  omega

theorem test_witness_LimitEditsAreStaged_deletion :
    let s := { base with ss := { base.ss with staged := { Staging.empty with
      limits := ((Vector.replicate 48 none).set 0 (some .delete)).set 9 (some (.replace edgeEntry)) } } }
    (∀ n ∈ ([48, 0, 9, 1, 47] : List Byte), HandlerTakes (asked s 0x0E [n]) [] [] (query 0x0E [n])) ∧ 47 < (48 : Byte).toNat ∧
    s.ss.staged.limits[(0 : Fin 48)] = some .delete ∧ s.ss.staged.limits[(9 : Fin 48)] = some (.replace edgeEntry) ∧
    s.ss.staged.limits[(1 : Fin 48)] = none ∧ s.ss.working.limits[(1 : Fin 48)] ≠ none ∧
    s.ss.staged.limits[(47 : Fin 48)] = none ∧ s.ss.working.limits[(47 : Fin 48)] = none :=
  ⟨fun _ _ => asked_takes _ _ _ rfl rfl, by decide +kernel⟩

/-- A block that ends at order 50, one that would end at 51, and one with a weight missing. -/
theorem test_witness_WeightsAreStaged :
    (∀ p ∈ ([[one 49, one 2] ++ [1025, 0].flatMap (beBytes 2), [one 50, one 2] ++ [1, 1].flatMap (beBytes 2),
        [one 50, one 1] ++ [].flatMap (beBytes 2)] : List (List Byte)),
      HandlerTakes (asked base 0x0F p) [] [] (query 0x0F p)) ∧
    49 + 2 ≤ 51 ∧ 51 < 50 + 2 ∧ 50 + 1 ≤ 51 ∧ ([] : List Nat).length ≠ 1 ∧ (∀ w ∈ [1025, 0], w < 65536) :=
  ⟨fun _ _ => base_takes .., by decide⟩

/-- Every examined field at an end of its range. -/
def edgeChannel : ChannelSettings :=
  { fs := 65535, offsetLow := -2048, gainLow := 49151, offsetHigh := 2047, gainHigh := 16384, rangeMode := .fixedLow, hold := 60 }

def channelBytes (c : ChannelId) (x : ChannelSettings) : List Byte :=
  one c.toNat :: beBytes 2 x.fs ++ beBytesInt 2 x.offsetLow ++ beBytes 2 x.gainLow ++
    (beBytesInt 2 x.offsetHigh ++ beBytes 2 x.gainHigh ++ [one x.rangeMode.code, one x.hold])

theorem test_witness_ChannelIsStaged :
    (∀ c x, HandlerTakes (asked base 0x10 (channelBytes c x)) [] [] (query 0x10 (channelBytes c x))) ∧
    CurrentFieldsInRange edgeChannel ∧ ¬ CurrentFieldsInRange { edgeChannel with hold := 61 } ∧
    (ChannelId.ib .g3).isCurrent = true ∧ ChannelId.acref.isCurrent = false ∧
    (1000 ≤ edgeChannel.fs ∧ -2048 ≤ edgeChannel.offsetLow ∧ edgeChannel.gainLow ≤ 49151) ∧
    ¬ 1000 ≤ { edgeChannel with fs := 999 }.fs ∧ SharesFs .both (.ib .g3) (.ia .g2) ∧ ¬ SharesFs .pair0 (.ib .g3) (.ia .g2) := by
  refine ⟨fun _ _ => base_takes .., ?_, fun h => absurd h.hold.2 (by decide), rfl, rfl, by decide, by decide,
    ⟨.g3, .inr rfl, .inr (.inr ⟨rfl, .inl rfl⟩)⟩, ?_⟩
  · constructor <;> decide
  · rintro ⟨g, h, k⟩
    cases g <;> simp_all [GroupId.pair, GroupId.partner, Pairing.paired]

/-- Channel 13, and a range mode byte of 3. -/
theorem test_witness_ChannelIsStaged_codes :
    (∀ fields, HandlerTakes (asked base 0x10 (13 :: fields)) [] [] (query 0x10 (13 :: fields))) ∧ 12 < (13 : Byte).toNat ∧
    (channelBytes (.ia .g0) edgeChannel).length = 13 ∧ ¬ CurrentFieldsInRange { edgeChannel with rangeMode := .other 0 } ∧
    (RangeMode.other 0).code = 3 :=
  ⟨fun _ => base_takes .., by decide, by decide, fun h => by simpa using h.mode, by decide⟩

theorem test_witness_ComparatorIsWritten :
    let p : List Byte := [one 3, one 1, one 2, one 1, one 255, one 0, 1, 0, 1]
    let bad : List Byte := [4, 0, 0, 0, 0, 0, 0, 0, 0]
    HandlerTakes (asked base 0x11 p) [] [] (query 0x11 p) ∧ (255 : Nat) < 256 ∧ (1 : Nat) = max 0 1 ∧
    HandlerTakes (asked base 0x11 bad) [] [] (query 0x11 bad) ∧ 3 < (4 : Byte).toNat :=
  ⟨base_takes .., by decide, by decide, base_takes .., by decide⟩

def analysisBytes (x : AnalysisSettings) : List Byte :=
  [one x.window.cycles, one x.nominal.hertz] ++ beBytes 2 x.baseMin ++ beBytes 2 x.lightLoad ++ beBytes 2 x.settle ++
    [one x.pairing.code, one x.digest]

/-- The analysis fields at the ends of their ranges, and a base minimum one above its own. -/
def edgeAnalysis : AnalysisSettings :=
  { window := .w8, nominal := .hz60, baseMin := 40000, lightLoad := 40000, settle := 65535, pairing := .both, digest := 255 }

theorem test_witness_AnalysisIsStaged :
    HandlerTakes (asked base 0x12 (analysisBytes edgeAnalysis)) [] [] (query 0x12 (analysisBytes edgeAnalysis)) ∧
    edgeAnalysis.baseMin ≤ 40000 ∧ edgeAnalysis.lightLoad ≤ 40000 ∧ 1 ≤ edgeAnalysis.settle ∧ edgeAnalysis.settle < 65536 ∧
    (∀ p, edgeAnalysis.pairing.paired p = true →
      base.ss.prospectiveFs (.ib p.first) = base.ss.prospectiveFs (.ia p.first) ∧
      base.ss.prospectiveFs (.ia p.second) = base.ss.prospectiveFs (.ia p.first) ∧
      base.ss.prospectiveFs (.ib p.second) = base.ss.prospectiveFs (.ia p.first)) ∧
    40000 < { edgeAnalysis with baseMin := 40001 }.baseMin :=
  ⟨base_takes .., by decide, by decide, by decide, by decide, fun p _ => by cases p <;> exact ⟨rfl, rfl, rfl⟩, by decide⟩

/-- A window length of 3, a nominal frequency of 55 and a pairing of 4. -/
theorem test_witness_AnalysisIsStaged_codes :
    (∀ p ∈ ([[3, 50, 0, 0, 0, 0, 0, 1, 0, 0], [8, 55, 0, 0, 0, 0, 0, 1, 0, 0], [1, 60, 0, 0, 0, 0, 0, 1, 4, 0]] : List (List Byte)),
      HandlerTakes (asked base 0x12 p) [] [] (query 0x12 p) ∧ ((p.drop 2).take 6).length = 6) ∧
    (3 : Byte).toNat ≠ 8 ∧ (55 : Byte).toNat ≠ 60 ∧ 3 < (4 : Byte).toNat := by
  refine ⟨fun p h => ⟨base_takes .., ?_⟩, by decide⟩
  revert p
  decide

/-- A group outside 0 to 3, an armed comparator active, and a latch with no cause left. -/
theorem test_witness_TripIsCleared :
    let active := { armedState with fc := armedState.fc.set .g1 .c0 { active := true, run := 0 } }
    (HandlerTakes (asked base 0x16 [4]) [] [] (query 0x16 [4]) ∧ base.mode = .normal ∧ 3 < (4 : Byte).toNat) ∧
    (HandlerTakes (asked active 0x16 [1]) [] [] (query 0x16 [1]) ∧ active.mode = .normal ∧
      ∃ c, (active.ss.working.comparator .g1 c).tripArmed = true ∧ (active.fc.get .g1 c).active = true) ∧
    (HandlerTakes (asked base 0x16 [3]) [] [] (query 0x16 [3]) ∧
      ∀ c, ¬ ((base.ss.working.comparator .g3 c).tripArmed = true ∧ (base.fc.get .g3 c).active = true)) :=
  ⟨⟨base_takes .., rfl, by decide⟩, ⟨asked_takes _ _ _ rfl rfl, rfl, .c0, rfl, rfl⟩, base_takes .., fun c => by
    cases c <;> simp [base, State.reset, State.released, Comparators.fresh, Comparators.get, Quad.fill, Quad.get, Duo.fill, Duo.comp]⟩

/-- No record of the reset state stands, so that no TRIP record applies to a group there. -/
theorem test_witness_TripIsCleared_no_record : ∀ g severity, ¬ StandsFor base g severity := by
  rintro g severity ⟨k, e, u, r, -, hr, -, hs, -⟩
  have clear : ∀ k : Fin 48, ∀ ur ∈ base.le.records[k], ur.2 = CondRecord.clear := by decide +kernel
  have := clear k _ hr
  simp only at this
  subst this
  simp [CondRecord.clear] at hs

theorem test_witness_DeferredAndModeRequests :
    let inFlight := { base with ss := { base.ss with flight := some .check }
                                lc := { base.lc with sync := some { analysis := none, limit := none } } }
    (∀ kind ∈ ([0x18, 0x19, 0x1A, 0x1B, 0x1C] : List Byte),
      HandlerTakes (asked base kind []) [] [] (query kind []) ∧ HandlerTakes (asked inFlight kind []) [] [] (query kind [])) ∧
    base.ss.flight = none ∧ base.lc.sync = none ∧ inFlight.ss.flight ≠ none ∧ inFlight.lc.sync ≠ none :=
  ⟨fun _ _ => ⟨base_takes .., asked_takes _ _ _ rfl rfl⟩, by decide +kernel⟩

def deferredEntry (kind : Byte) : Entry := { request := query kind [], stage := .deferred }

theorem test_witness_DeferredRepliesAreFormed_store :
    let s := { base with ss := { base.ss with flight := some (.store Settings.factory) }
                         lc := { base.lc with entries := [deferredEntry 0x18, deferredEntry 0x19] } }
    s.inReset = false ∧ s.ss.flight = some (.store Settings.factory) ∧
    s.lc.entries = [deferredEntry 0x18] ++ deferredEntry 0x19 :: [] ∧
    (∀ e ∈ [deferredEntry 0x18], e.stage = .deferred → e.request.kind ≠ 0x19) ∧
    StoredImage.torn ≠ .whole Settings.factory (imageCrc Settings.factory) :=
  ⟨rfl, rfl, rfl, by decide, nofun⟩

theorem test_witness_DeferredRepliesAreFormed_check :
    let s := fun image => { base with ss := { base.ss with flight := some .check, image := image }
                                      lc := { base.lc with entries := [deferredEntry 0x1A] } }
    (s .torn).inReset = false ∧ (s .torn).ss.flight = some .check ∧ (s .torn).lc.entries = [] ++ deferredEntry 0x1A :: [] ∧
    (s .torn).ss.image = .torn ∧ (s (.whole Settings.factory 7)).ss.image = .whole Settings.factory 7 :=
  ⟨rfl, rfl, rfl, rfl, rfl⟩

theorem test_witness_DeferredRepliesAreFormed_sync :
    let l := fun w => { base.lc with entries := [deferredEntry 0x18], sync := some w }
    (l { analysis := none, limit := none }).entries = [] ++ deferredEntry 0x18 :: [] ∧
    (l { analysis := none, limit := some (some 4) }).sync = some { analysis := none, limit := some (some 4) } ∧
    (l { analysis := some none, limit := none }).sync = some { analysis := some none, limit := none } := ⟨rfl, rfl, rfl⟩

/-- The boundaries and the pass at which the classes of a SYNC_POINT close: a window's end, the clock STOPPED with and without a start, the
inside of a window, and a ready pass. -/
theorem test_witness_DeferredRepliesAreFormed_points :
    (AtBoundary (windowEnd .empty) ∧ EndsWindow (windowEnd .empty)) ∧
    (AtBoundary (atBoundary (lockedState 0 5)) ∧ StartsClock (atBoundary (lockedState 0 5))) ∧
    (AtBoundary (atBoundary base) ∧ (atBoundary base).ae.clock = none ∧ ¬ StartsClock (atBoundary base)) ∧
    (AtBoundary insideWindow ∧ insideWindow.ae.clock ≠ none ∧ ¬ EndsWindow insideWindow) ∧
    (passDue.inReset = false ∧ passDue.ae.passes.map Pass.ready = [true]) :=
  ⟨⟨⟨rfl, rfl⟩, test_witness_CalibrationAndSpans_boundary.2.2.2.1⟩, ⟨⟨rfl, rfl⟩, rfl, rfl, rfl⟩,
    ⟨⟨rfl, rfl⟩, rfl, fun h => absurd h.2.2 (by decide)⟩,
    ⟨⟨rfl, rfl⟩, by decide, test_witness_CalibrationAndSpans_boundary.2.2.1.2.2.1⟩, by decide +kernel⟩

theorem test_witness_RestartIsCarriedOut :
    { base with lc := { base.lc with restartDue := true } }.inReset = false ∧
    { base with lc := { base.lc with restartDue := true } }.lc.restartDue = true := ⟨rfl, rfl⟩

/-! ### Invariants: a state that satisfies each, and a step that it takes -/

def queued (s : State) (c : Instr) : State := { s with pending := [c] }

/-- LOCKING, one crossing short of a lock. -/
theorem test_witness_TrackerStaysInBounds :
    TrackerInBounds (queued lockingState .lockAchieved) ∧ ∃ t, step (queued lockingState .lockAchieved) = .next t := by
  refine ⟨?_, _, rfl⟩
  constructor <;> simp [queued, lockingState, base, State.reset, State.released, CycleTracker.fresh]

theorem test_witness_RingFollowsTheCycle :
    RingFollows (queued base (.sampleEvent (PerChannel.fill 0))) ∧
    ∃ t, step (queued base (.sampleEvent (PerChannel.fill 0))) = .next t := by
  refine ⟨?_, _, rfl⟩
  constructor
  · decide
  · intro _; decide +kernel
  · intro _ c; cases c with
    | acref => rfl
    | v g => cases g <;> rfl
    | ia g => cases g <;> rfl
    | ib g => cases g <;> rfl
  · decide
  · decide
  · exact iff_of_true rfl rfl
  · decide

theorem test_witness_LinkStaysInBounds :
    LinkInBounds (queued (receiving (.body 250 [])) (.linkCharacter 217 1 true)) ∧
    ∃ t, step (queued (receiving (.body 250 [])) (.linkCharacter 217 1 true)) = .next t := by
  refine ⟨?_, _, rfl⟩
  constructor
  · decide
  · decide
  · decide
  · decide
  · intro n got h
    have : Receiver.body 250 [] = .body n got := h
    injection this with h₁ h₂
    subst h₁ h₂
    decide
  · intro n got high h
    exact nomatch (h : Receiver.body 250 [] = .check n got high)
  · exact iff_of_true rfl (nofun : Receiver.body 250 [] ≠ .hunt)

/-- Group 0 in MONITOR with its sets open in a window about to end. -/
theorem test_witness_EngineStaysConsistent :
    EngineConsistent (queued (windowEnd .empty) (.windowBoundary inService)) ∧
    ∃ t, step (queued (windowEnd .empty) (.windowBoundary inService)) = .next t := by
  refine ⟨?_, _, rfl⟩
  constructor
  · intro g h
    cases g with
    | g0 => exact ⟨rfl, rfl⟩
    | g1 => exact nomatch (h : false = true)
    | g2 => exact nomatch (h : false = true)
    | g3 => exact nomatch (h : false = true)
  · intro p h; cases p <;> exact nomatch (h : false = true)
  · intro w h
    have : ({ window := 300, firstCycle := 40, length := .w1, completed := 0 } : WindowClock) = w := by injection h
    subst this
    decide
  · intro w h
    have : ({ window := 300, firstCycle := 40, length := .w1, completed := 0 } : WindowClock) = w := by injection h
    subst this
    rfl
  · intro p h; cases p <;> exact nomatch (h : PairState.broken = .intact)
  · decide

theorem test_witness_VerdictsStaySupported :
    Judged (queued base .jobStart) ∧ ∃ t, step (queued base .jobStart) = .next t := by
  refine ⟨⟨⟨fun g => by cases g <;> rfl, ?_⟩, fun h => (nomatch (h : Mode.normal = .maintenance)), ?_, ?_⟩, _, rfl⟩
  · refine iff_of_false nofun ?_
    rintro ⟨-, ⟨g, h⟩ | ⟨g, h⟩⟩
    · cases g <;> exact h.elim nofun nofun
    · cases g <;> exact nomatch (h : false = true)
  · have clear : ∀ k : Fin 48, ∀ ur ∈ base.le.records[k], ur.2 = CondRecord.clear := by decide +kernel
    have units : ∀ k : Fin 48, base.le.records[k].map Prod.fst =
        (match base.ss.working.limits[k] with
         | some e => e.scope.units
         | none => []) := by decide +kernel
    constructor
    · exact units
    · intro k e _ ur h
      rw [clear k ur h]
      rfl
    · exact fun k ur h _ => clear k ur h
    · intro p
      refine iff_of_false (by cases p <;> nofun) ?_
      rintro ⟨-, h, -⟩
      cases p <;> exact nomatch (h : MonitorState.out = .monitor)
    · intro g severity
      refine iff_of_false (by cases g <;> cases severity <;> nofun) fun h => ?_
      exact test_witness_TripIsCleared_no_record g severity h.1
    · intro g
      exact iff_of_true (by cases g <;> rfl) (test_witness_TripIsCleared_no_record g)
  · intro g h
    cases g <;> exact nomatch (h : Verdict.normal = .trip)

theorem test_witness_SettingsStayInRange :
    SettingsInRange (queued base .jobStart) ∧ ∃ t, step (queued base .jobStart) = .next t := by
  refine ⟨?_, _, rfl⟩
  constructor
  · decide +kernel
  · intro c
    have : (queued base .jobStart).ss.staged.channels.get c = StagedChannel.empty := by
      cases c with
      | acref => rfl
      | v g => cases g <;> rfl
      | ia g => cases g <;> rfl
      | ib g => cases g <;> rfl
    rw [this]
    constructor <;> intro v h <;> exact nomatch h
  · intro x h; exact nomatch h
  · intro i w h
    have none : ∀ i : Fin 50, (queued base .jobStart).ss.staged.weights[i] = none := by decide +kernel
    rw [none i] at h
    exact nomatch h
  · intro k e h
    have none : ∀ k : Fin 48, (queued base .jobStart).ss.staged.limits[k] = none := by decide +kernel
    rw [none k] at h
    exact nomatch h
  · intro g c; cases g <;> cases c <;> decide
  · intro g; cases g <;> decide

theorem test_witness_SharedFsAgree :
    FsAgrees (queued base .jobStart) ∧ (∀ x p, (queued base .jobStart).pending.head? ≠ some (.resetRelease x p)) ∧
    ∃ t, step (queued base .jobStart) = .next t := by
  refine ⟨⟨⟨fun g => by cases g <;> rfl, fun p _ => by cases p <;> rfl⟩, ⟨fun g => by cases g <;> rfl, fun p _ => by cases p <;> rfl⟩⟩,
    by simp [queued], _, rfl⟩

theorem test_witness_BinsSumToTheCounter :
    BinsAgree (queued running30 .jobCompletion) .g0 ∧ (queued running30 .jobCompletion).pending.head? ≠ some .setCounter ∧
    ∃ t, step (queued running30 .jobCompletion) = .next t :=
  ⟨by unfold BinsAgree; decide +kernel, by simp [queued], _, rfl⟩

end Sys2Proof.Tests
end

