-- ==== Sys2Proof/Proofs/LimitTable.lean ====
section
/-! PROOFS. What a condition record is to judge and how it moves: the table of R106 cell by cell, the values of R98, and when R105 and
R108 hold one back. -/

namespace Sys2Proof.Machine

open Sys2Proof.Safety

/-! ### Persistence and hysteresis (R106) -/

theorem CondRecord.towardActive_of_le {on n : Nat} (h : on ≤ n) : towardActive on n = { state := .active, count := 0 } := by
  simp [towardActive, h]

theorem CondRecord.towardActive_of_lt {on n : Nat} (h : n < on) : towardActive on n = { state := .pendingOn, count := n } := by
  simp [towardActive, Nat.not_le_of_lt h]

theorem CondRecord.towardClear_of_le {off n : Nat} (h : off ≤ n) : towardClear off n = { state := .clear, count := 0 } := by
  simp [towardClear, h]

theorem CondRecord.towardClear_of_lt {off n : Nat} (h : n < off) : towardClear off n = { state := .pendingOff, count := n } := by
  simp [towardClear, Nat.not_le_of_lt h]

section
variable {e : LimitEntry} {x : Int} {r : CondRecord}

theorem CondRecord.judge_of_clear (h : r.state = .clear) :
    r.judge e x = if e.over x then towardActive e.onCount 1 else r := by simp [judge, h]

theorem CondRecord.judge_of_pendingOn (h : r.state = .pendingOn) :
    r.judge e x = if e.over x then towardActive e.onCount (r.count + 1) else { state := .clear, count := 0 } := by
  simp [judge, h, CondRecord.clear]

theorem CondRecord.judge_of_active (h : r.state = .active) :
    r.judge e x = if e.isClear x then towardClear e.offCount 1 else r := by simp [judge, h]

theorem CondRecord.judge_of_pendingOff (h : r.state = .pendingOff) :
    r.judge e x = if e.isClear x then towardClear e.offCount (r.count + 1) else { state := .active, count := 0 } := by
  simp [judge, h]

theorem countFits_pendingOn (fits : CountFits e r) (h : r.state = .pendingOn) : 1 ≤ r.count ∧ r.count + 1 ≤ e.onCount := by
  simpa [CountFits, h] using fits

theorem countFits_pendingOff (fits : CountFits e r) (h : r.state = .pendingOff) : 1 ≤ r.count ∧ r.count + 1 ≤ e.offCount := by
  simpa [CountFits, h] using fits

theorem countFits_towardActive (e : LimitEntry) {n : Nat} (hn : 1 ≤ n) : CountFits e (CondRecord.towardActive e.onCount n) := by
  rcases Nat.lt_or_ge n e.onCount with short | reached
  · rw [CondRecord.towardActive_of_lt short]
    exact ⟨hn, short⟩
  · rw [CondRecord.towardActive_of_le reached]
    rfl

theorem countFits_towardClear (e : LimitEntry) {n : Nat} (hn : 1 ≤ n) : CountFits e (CondRecord.towardClear e.offCount n) := by
  rcases Nat.lt_or_ge n e.offCount with short | reached
  · rw [CondRecord.towardClear_of_lt short]
    exact ⟨hn, short⟩
  · rw [CondRecord.towardClear_of_le reached]
    rfl

/-- The count of a record fits its state after every judgement, whatever the entry's counts are. -/
theorem countFits_judge (x : Int) (fits : CountFits e r) : CountFits e (r.judge e x) := by
  cases h : r.state with
  | clear =>
    rw [CondRecord.judge_of_clear h]
    split
    · exact countFits_towardActive e (le_refl 1)
    · exact fits
  | pendingOn =>
    rw [CondRecord.judge_of_pendingOn h]
    split
    · exact countFits_towardActive e (Nat.le_add_left 1 r.count)
    · rfl
  | active =>
    rw [CondRecord.judge_of_active h]
    split
    · exact countFits_towardClear e (le_refl 1)
    · exact fits
  | pendingOff =>
    rw [CondRecord.judge_of_pendingOff h]
    split
    · exact countFits_towardClear e (Nat.le_add_left 1 r.count)
    · rfl

end

/-! ### The largest line of the orders searched (R98) -/

/-- The orders that an entry searches, as indices of a record's lines. -/
def LimitEntry.searched (e : LimitEntry) : List (Fin 50) :=
  (List.finRange 50).filter fun i => decide (e.first.toNat ≤ i.val + 1) && decide (i.val + 1 ≤ e.last.toNat)

theorem LimitEntry.mem_searched {e : LimitEntry} {i : Fin 50} :
    i ∈ e.searched ↔ e.first.toNat ≤ i.val + 1 ∧ i.val + 1 ≤ e.last.toNat := by simp [searched]

theorem LimitEntry.first_mem_searched {e : LimitEntry} (first : 1 ≤ e.first.toNat) (order : e.first.toNat ≤ e.last.toNat)
    (last : e.last.toNat ≤ 50) : ⟨e.first.toNat - 1, by omega⟩ ∈ e.searched :=
  mem_searched.mpr ⟨by simp only; omega, by simp only; omega⟩

theorem largestLine_eq_foldl (e : LimitEntry) (v : Lines) :
    largestLine e v = (e.searched.map fun i => v[i]).foldl max 0 := by
  have indices : List.range 50 = (List.finRange 50).map Fin.val := by simp
  rw [largestLine, indices, List.filter_map, List.foldl_map, List.foldl_map]
  simp [LimitEntry.searched, Function.comp_def]

theorem largestLine_max? (e : LimitEntry) (v : Lines) :
    (0 :: e.searched.map fun i => v[i]).max? = some (largestLine e v) := by
  rw [List.max?_cons', largestLine_eq_foldl]

theorem le_largestLine {e : LimitEntry} (v : Lines) {i : Fin 50} (hi : i ∈ e.searched) : v[i] ≤ largestLine e v :=
  (List.max?_eq_some_iff.mp (largestLine_max? e v)).2 _ (List.mem_cons_of_mem _ (List.mem_map_of_mem hi))

/-- When an order is searched at all, the largest line is one of those searched. -/
theorem exists_eq_largestLine {e : LimitEntry} (v : Lines) {j : Fin 50} (hj : j ∈ e.searched) :
    ∃ i ∈ e.searched, v[i] = largestLine e v := by
  have attained := (List.max?_eq_some_iff.mp (largestLine_max? e v)).1
  rcases List.mem_cons.mp attained with zero | line
  · exact ⟨j, hj, by have := le_largestLine v hj; omega⟩
  · exact List.mem_map.mp line

/-! ### The value judged and when it is held back (R98, R105, R108) -/

theorem trusted_eq_not (severity : Severity) (degraded : Bool) (sources : List Marks) :
    trusted severity degraded sources =
      !(sources.any Marks.clip || (decide (severity = .trip) && (degraded || sources.any Marks.held))) := by
  by_cases h : severity = .trip <;> simp [trusted, h]

/-- A value that the flags of a record's sources hold back by R105 is unavailable. -/
def heldBack (severity : Severity) (degraded : Bool) (sources : List Marks) (value : Option Int) : Option Int :=
  if sources.any Marks.clip || (decide (severity = .trip) && (degraded || sources.any Marks.held)) then none else value

@[simp] theorem heldBack_none (severity : Severity) (degraded : Bool) (sources : List Marks) :
    heldBack severity degraded sources none = none := by simp [heldBack]

theorem ite_trusted (severity : Severity) (degraded : Bool) (sources : List Marks) (value : Option Int) :
    (if trusted severity degraded sources then value else none) = heldBack severity degraded sources value := by
  simp only [heldBack, trusted_eq_not, Bool.not_eq_true', ← Bool.not_eq_true, ite_not]

section
variable {m : Monitors} {p : Pass} {e : LimitEntry}

theorem judgeRecord_of_unavailable (m : Monitors) {ur : UnitId × CondRecord} (h : p.value e ur.1 = none) :
    judgeRecord m p e ur = ur := by
  simp [judgeRecord, judgedValue, h]

theorem judgedValue_group_eq_none {g : GroupId}
    (h : (m.groups.get g).state ≠ .monitor ∨ ∀ r, p.groups.get g ≠ .record r) : judgedValue m p e (.group g) = none := by
  rcases h with unwatched | absent
  · simp [judgedValue, Monitors.judges, unwatched]
  · cases o : p.groups.get g with
    | record r => exact absurd o (absent r)
    | none | skipped | awaited => simp [judgedValue, Pass.value, o]

theorem judgedValue_pair_eq_none {q : PairId}
    (h : m.pairs.get q ≠ .intact ∨ ∀ r, p.pairs.get q ≠ .record r) : judgedValue m p e (.pair q) = none := by
  rcases h with unwatched | absent
  · simp [judgedValue, Monitors.judges, unwatched]
  · cases o : p.pairs.get q with
    | record r => exact absurd o (absent r)
    | none | skipped | awaited => simp [judgedValue, Pass.value, o]

theorem judgedValue_group {g : GroupId} {r : GroupRecord} (watched : (m.groups.get g).state = .monitor)
    (outcome : p.groups.get g = .record r) :
    judgedValue m p e (.group g) = heldBack e.severity r.degraded (e.groupSources r) (e.groupValue r) := by
  simp only [judgedValue, Monitors.judges, watched, Pass.value, outcome, ite_trusted, decide_true, if_true]

theorem judgedValue_pair {q : PairId} {r : PairRecord} (watched : m.pairs.get q = .intact)
    (outcome : p.pairs.get q = .record r) :
    judgedValue m p e (.pair q) = heldBack e.severity r.degraded r.sources (e.pairValue r) := by
  simp only [judgedValue, Monitors.judges, watched, Pass.value, outcome, ite_trusted, decide_true, if_true]

end

/-! ### What an entry draws from a record (R98) -/

theorem LimitEntry.bridgeOf_zero {e : LimitEntry} (h : e.bridge = 0) : e.bridgeOf = .a := by rw [bridgeOf, h]; rfl

theorem LimitEntry.bridgeOf_one {e : LimitEntry} (h : e.bridge = 1) : e.bridgeOf = .b := by rw [bridgeOf, h]; rfl

theorem LimitEntry.bridgeOf_two {e : LimitEntry} (h : e.bridge = 2) : e.bridgeOf = .either := by rw [bridgeOf, h]; rfl

theorem PairRecord.sources_of_marks {r : PairRecord} {v₁ a₁ b₁ v₂ a₂ b₂ : Marks} (h : r.marks = [v₁, a₁, b₁, v₂, a₂, b₂]) :
    r.sources = [a₁, b₁, a₂, b₂] := by simp [sources, h]

/-- A quantity of a pair draws nothing from a group's record. -/
theorem LimitEntry.groupValue_eq_none {e : LimitEntry} {r : GroupRecord} (h : e.quantity = .pHarm ∨ e.quantity = .jp) :
    e.groupValue r = none := by
  rcases h with pHarm | jp
  · simp [groupValue, pHarm]
  · simp [groupValue, jp]

/-- A quantity of a group draws nothing from a pair's record. -/
theorem LimitEntry.pairValue_eq_none {e : LimitEntry} {r : PairRecord} (notHarm : e.quantity ≠ .pHarm)
    (notJp : e.quantity ≠ .jp) : e.pairValue r = none := by
  cases h : e.quantity with
  | pHarm => exact absurd h notHarm
  | jp => exact absurd h notJp
  | _ => simp [pairValue, h]

/-! ### The obligation -/

/-- Settles O25, by R106's table row by row and R98's quantities one by one. -/
theorem persistenceTable : Obligations.PersistenceTable := by
  refine ⟨?table, fun m _ _ _ => judgeRecord_of_unavailable m,
    fun _ _ _ => ⟨fun _ => judgedValue_group_eq_none, fun _ => judgedValue_pair_eq_none⟩,
    fun e => ⟨largestLine e, ?lines, ?group, ?pair⟩⟩
  case table =>
    intro e x r hon hoff fits isOver isCleared after
    have over_iff : e.over x = true ↔ isOver := by
      cases sense : e.sense <;> simp [LimitEntry.over, isOver, sense]
    have clear_iff : e.isClear x = true ↔ isCleared := by
      cases sense : e.sense <;> simp [LimitEntry.isClear, isCleared, sense]
    rw [← over_iff, ← clear_iff]
    subst after
    refine ⟨fun h o one => ?_, fun h o more => ?_, fun h o => ?_, fun h o last => ?_, fun h o more => ?_, fun h o => ?_,
      fun h c one => ?_, fun h c more => ?_, fun h c => ?_, fun h c last => ?_, fun h c more => ?_, fun h c => ?_,
      countFits_judge x fits⟩
    · rw [CondRecord.judge_of_clear h, if_pos o, CondRecord.towardActive_of_le one.le]
    · rw [CondRecord.judge_of_clear h, if_pos o, CondRecord.towardActive_of_lt (Nat.lt_of_le_of_ne hon more.symm)]
    · rw [CondRecord.judge_of_clear h, if_neg o]
    · rw [CondRecord.judge_of_pendingOn h, if_pos o, CondRecord.towardActive_of_le last.ge]
    · rw [CondRecord.judge_of_pendingOn h, if_pos o,
        CondRecord.towardActive_of_lt (Nat.lt_of_le_of_ne (countFits_pendingOn fits h).2 more)]
    · rw [CondRecord.judge_of_pendingOn h, if_neg o]
    · rw [CondRecord.judge_of_active h, if_pos c, CondRecord.towardClear_of_le one.le]
    · rw [CondRecord.judge_of_active h, if_pos c, CondRecord.towardClear_of_lt (Nat.lt_of_le_of_ne hoff more.symm)]
    · rw [CondRecord.judge_of_active h, if_neg c]
    · rw [CondRecord.judge_of_pendingOff h, if_pos c, CondRecord.towardClear_of_le last.ge]
    · rw [CondRecord.judge_of_pendingOff h, if_pos c,
        CondRecord.towardClear_of_lt (Nat.lt_of_le_of_ne (countFits_pendingOff fits h).2 more)]
    · rw [CondRecord.judge_of_pendingOff h, if_neg c]
  case lines =>
    intro first order last v
    obtain ⟨i, searched, line⟩ := exists_eq_largestLine v (LimitEntry.first_mem_searched first order last)
    obtain ⟨lo, hi⟩ := LimitEntry.mem_searched.mp searched
    exact ⟨⟨i, lo, hi, line⟩, fun j lo hi => le_largestLine v (LimitEntry.mem_searched.mpr ⟨lo, hi⟩)⟩
  case group =>
    intro m p g r watched outcome
    have draws {sources : List Marks} {value : Option Int} (figure : e.groupSources r = sources ∧ e.groupValue r = value) :
        judgedValue m p e (.group g) = heldBack e.severity r.degraded sources value := by
      rw [judgedValue_group watched outcome, figure.1, figure.2]
    refine ⟨fun rf => ?_, fun ppr => ?_, fun vHarm => ?_, fun iHarm a => ?_, fun iHarm b => ?_, fun iHarm either => ?_,
      fun armK a => ?_, fun armK b => ?_, fun armK either => ?_, fun share => ?_, fun mean => ?_, fun jg => ?_, ?_⟩
    · exact draws (by simp [LimitEntry.groupSources, LimitEntry.groupValue, rf])
    · exact draws (by simp [LimitEntry.groupSources, LimitEntry.groupValue, ppr])
    · exact draws (by simp [LimitEntry.groupSources, LimitEntry.groupValue, vHarm, Function.comp_def])
    · exact draws (by simp [LimitEntry.groupSources, LimitEntry.groupValue, iHarm, LimitEntry.bridgeOf_zero a])
    · exact draws (by simp [LimitEntry.groupSources, LimitEntry.groupValue, iHarm, LimitEntry.bridgeOf_one b])
    · exact draws (by simp [LimitEntry.groupSources, LimitEntry.groupValue, iHarm, LimitEntry.bridgeOf_two either])
    · exact draws (by simp [LimitEntry.groupSources, LimitEntry.groupValue, armK, LimitEntry.bridgeOf_zero a])
    · exact draws (by simp [LimitEntry.groupSources, LimitEntry.groupValue, armK, LimitEntry.bridgeOf_one b])
    · have larger : e.groupValue r = (eitherIndex r.ka r.kb).map Int.ofNat := by
        simp [LimitEntry.groupValue, armK, LimitEntry.bridgeOf_two either]
      exact draws ⟨by simp [LimitEntry.groupSources, armK, LimitEntry.bridgeOf_two either], larger⟩
    · exact draws (by simp [LimitEntry.groupSources, LimitEntry.groupValue, share])
    · exact draws (by simp [LimitEntry.groupSources, LimitEntry.groupValue, mean])
    · exact draws (by simp [LimitEntry.groupSources, LimitEntry.groupValue, jg])
    · intro ofPair
      rw [draws ⟨rfl, LimitEntry.groupValue_eq_none ofPair⟩, heldBack_none]
  case pair =>
    intro m p q r v₁ a₁ b₁ v₂ a₂ b₂ intact outcome marks
    have draws {value : Option Int} (hv : e.pairValue r = value) :
        judgedValue m p e (.pair q) = heldBack e.severity r.degraded [a₁, b₁, a₂, b₂] value := by
      rw [judgedValue_pair intact outcome, PairRecord.sources_of_marks marks, hv]
    refine ⟨fun pHarm => ?_, fun jp => ?_, fun notHarm notJp => ?_⟩
    · exact draws (by simp [LimitEntry.pairValue, pHarm, Function.comp_def])
    · exact draws (by simp [LimitEntry.pairValue, jp])
    · rw [draws (LimitEntry.pairValue_eq_none notHarm notJp), heldBack_none]

end Sys2Proof.Machine
end

