-- ==== Sys2Proof/Proofs/FastComparators.lean ====
section
/-! PROOFS. FC at a sample event (R122 to R128, R137, R139, R142): what it decides about one comparator (`CompJudgement`), what one comparator does
to the state, and what the eight do one after the other, block by block. -/

namespace Sys2Proof.Machine

open Sys2Proof.Safety

/-! ### Threshold, raw output and filter (R122 to R124) -/

theorem CompSource.step_eq (x : CompSource) : x.step = if x = .v then 128 else 1024 := by cases x <;> rfl

section
variable {x : CompSettings} {c : CompState} {y : Sample}

theorem CompSettings.rawOutput_of_high (high : x.mode = .high) (v : Int) :
    x.rawOutput v = true ↔ (x.level + 1) * x.source.step ≤ if v < 0 then 0 else v := by simp [rawOutput, threshold, high]

theorem CompSettings.rawOutput_of_low (low : x.mode = .low) (v : Int) :
    x.rawOutput v = true ↔ (if v < 0 then 0 else v) < x.level * x.source.step := by simp [rawOutput, threshold, low]

theorem CompState.afterSample_of_not_judged (h : y.judged = false) : c.afterSample x y = c ∧ c.changes x y = false := by
  simp [afterSample, changes, h]

theorem CompState.afterSample_of_agrees (h : y.judged = true) (agrees : x.rawOutput y.value = c.active) :
    c.afterSample x y = { active := c.active, run := 0 } ∧ c.changes x y = false := by
  simp [afterSample, changes, h, agrees]

theorem CompState.afterSample_of_turns (h : y.judged = true) (differs : x.rawOutput y.value ≠ c.active)
    (complete : c.run + 1 = x.filter) :
    c.afterSample x y = { active := x.rawOutput y.value, run := 0 } ∧ c.changes x y = true := by
  simp [afterSample, changes, h, differs, complete]

theorem CompState.afterSample_of_counts (h : y.judged = true) (differs : x.rawOutput y.value ≠ c.active)
    (short : c.run + 1 ≠ x.filter) :
    c.afterSample x y = { active := c.active, run := c.run + 1 } ∧ c.changes x y = false := by
  simp [afterSample, changes, h, differs, short]

/-- An output that changes is inverted. -/
theorem CompState.afterSample_active_of_changes (h : c.changes x y = true) : (c.afterSample x y).active = !c.active := by
  have ⟨⟨judged, differs⟩, complete⟩ : (y.judged = true ∧ x.rawOutput y.value ≠ c.active) ∧ c.run + 1 = x.filter := by
    simpa [changes] using h
  rw [(afterSample_of_turns judged differs complete).1]
  exact Bool.eq_not_of_ne differs

end

theorem MonitorState.inService_eq (m : MonitorState) : m.inService = decide (m ≠ .out) := by cases m <;> rfl

/-! ### The comparators' states -/

theorem mem_comparatorOrder (gc : GroupId × CompId) : gc ∈ comparatorOrder := by
  obtain ⟨g, c⟩ := gc
  cases g <;> cases c <;> decide

theorem comparatorOrder_nodup : comparatorOrder.Nodup := by decide

theorem Comparators.get_set (f : Comparators) (g h : GroupId) (c e : CompId) (x : CompState) :
    (f.set g c x).get h e = if (h, e) = (g, c) then x else f.get h e := by
  by_cases hg : h = g
  · subst hg; simp [Comparators.get, Comparators.set, Duo.comp_setComp]
  · simp [Comparators.get, Comparators.set, Quad.get_set_of_ne _ _ hg, hg]

/-- The comparators of `l` take the states that `after` gives them. -/
def Comparators.setAll (f : Comparators) (after : GroupId × CompId → CompState) (l : List (GroupId × CompId)) : Comparators :=
  l.foldl (fun f gc => f.set gc.1 gc.2 (after gc)) f

theorem Comparators.get_setAll (f : Comparators) (after : GroupId × CompId → CompState) (l : List (GroupId × CompId))
    (g : GroupId) (c : CompId) : (f.setAll after l).get g c = if (g, c) ∈ l then after (g, c) else f.get g c := by
  induction l generalizing f with
  | nil => rfl
  | cons gc l ih =>
    rw [setAll, List.foldl_cons, ← setAll, ih, Comparators.get_set]
    by_cases rest : (g, c) ∈ l
    · simp [rest]
    · by_cases this : (g, c) = gc
      · simp [← this]
      · simp [rest, this]

/-! ### The latches of several groups (R114, R116) -/

/-- The latches of the groups of `gs` set in NORMAL, one after the other. -/
def LimitEvaluator.latchAll (l : LimitEvaluator) (gs : List GroupId) : LimitEvaluator :=
  gs.foldl (fun l g => l.setLatch .normal g true) l

theorem LimitEvaluator.latchAll_cons (l : LimitEvaluator) (g : GroupId) (gs : List GroupId) :
    l.latchAll (g :: gs) = (l.setLatch .normal g true).latchAll gs := rfl

theorem LimitEvaluator.latchAll_latches (l : LimitEvaluator) (gs : List GroupId) (g : GroupId) :
    (l.latchAll gs).latches.get g = true ↔ l.latches.get g = true ∨ g ∈ gs := by
  induction gs generalizing l with
  | nil => simp [latchAll]
  | cons h gs ih =>
    rw [latchAll_cons, ih]
    by_cases e : g = h <;> simp [Quad.get_set, e]

theorem LimitEvaluator.latchAll_tripLines (l : LimitEvaluator) (gs : List GroupId) (g : GroupId) :
    (l.latchAll gs).tripLines.get g = if g ∈ gs then true else l.tripLines.get g := by
  induction gs generalizing l with
  | nil => rfl
  | cons h gs ih =>
    rw [latchAll_cons, ih]
    by_cases e : g = h <;> simp [Quad.get_set, e]

theorem LimitEvaluator.latchAll_alert (l : LimitEvaluator) {gs : List GroupId} (nonempty : gs ≠ []) : (l.latchAll gs).alert = true := by
  obtain ⟨gs, g, rfl⟩ := List.eq_nil_or_concat gs |>.resolve_left nonempty
  simpa [latchAll] using LimitEvaluator.setLatch_alert (l.latchAll gs) g

/-! ### Several freeze triggers (R137, R139) -/

/-- The triggers of `rs` considered one after the other. -/
def CaptureRing.considerAll (c : CaptureRing) (post : Nat) (rs : List TriggerRecord) : CaptureRing :=
  rs.foldl (fun c r => (c.consider post r).1) c

theorem CaptureRing.considerAll_cons (c : CaptureRing) (post : Nat) (r : TriggerRecord) (rs : List TriggerRecord) :
    c.considerAll post (r :: rs) = (c.consider post r).1.considerAll post rs := rfl

/-- A ring that does not run counts the triggers as ignored and changes in nothing else. -/
theorem CaptureRing.considerAll_of_not_running {c : CaptureRing} (other : c.state ≠ .running) (post : Nat) (rs : List TriggerRecord) :
    ∃ n, c.considerAll post rs = { c with ignored := n } ∧ (c.ignored ≤ 65535 → n = min (c.ignored + rs.length) 65535) := by
  induction rs generalizing c with
  | nil => exact ⟨c.ignored, rfl, fun bound => by simp [bound]⟩
  | cons r rs ih =>
    obtain ⟨running, -⟩ | ⟨-, counted⟩ := c.consider_cases post r
    · exact absurd running other
    · obtain ⟨n, ring, count⟩ := ih (c := (c.consider post r).1) (by rw [counted]; exact other)
      refine ⟨n, by rw [considerAll_cons, ring, counted], fun bound => ?_⟩
      rw [counted] at count
      simp only [List.length_cons] at count ⊢
      split at count <;> omega

/-- A ring that runs takes the first trigger and counts the others. -/
theorem CaptureRing.considerAll_of_running {c : CaptureRing} (running : c.state = .running) (post : Nat) (r : TriggerRecord)
    (rs : List TriggerRecord) :
    ∃ n, c.considerAll post (r :: rs) = { c with state := .post, postCount := post, trigger := some r, ignored := n } ∧
      (c.ignored ≤ 65535 → n = min (c.ignored + rs.length) 65535) := by
  have taken : (c.consider post r).1 = { c with state := .post, postCount := post, trigger := some r } := by
    simp [consider, running]
  rw [considerAll_cons, taken]
  exact considerAll_of_not_running (c := { c with state := .post, postCount := post, trigger := some r }) nofun post rs

section
variable (c : CaptureRing) (ys : PerChannel Sample)

/-- The samples of an event are written into the slots alone (R134). -/
theorem CaptureRing.write_frame : c.write ys = { c with slots := (c.write ys).slots } := by
  unfold CaptureRing.write
  split <;> rfl

@[simp] theorem CaptureRing.write_state : (c.write ys).state = c.state := by rw [write_frame]
@[simp] theorem CaptureRing.write_postCount : (c.write ys).postCount = c.postCount := by rw [write_frame]
@[simp] theorem CaptureRing.write_trigger : (c.write ys).trigger = c.trigger := by rw [write_frame]
@[simp] theorem CaptureRing.write_ignored : (c.write ys).ignored = c.ignored := by rw [write_frame]

end

/-! ### What FC decides about one comparator (R125 to R128) -/

/-- What FC decides about one comparator at a sample event: its next state, whether it trips its group and whether it offers a freeze trigger
that CR considers, and its FAST_EVENT. -/
structure CompJudgement where
  after : CompState
  trips : Bool
  offers : Bool
  fastEvents : List Notice

/-- The judgement of a comparator, read off the state before any comparator has taken its sample. -/
def State.judgement (s : State) (ys : PerChannel Sample) (index : Nat) (gc : GroupId × CompId) : CompJudgement :=
  let x := s.ss.working.comparator gc.1 gc.2
  let y := sourceSample ys gc.1 x.source
  let c := s.fc.get gc.1 gc.2
  let turnsActive := c.changes x y && !c.active
  let trips := turnsActive && x.tripArmed && decide ((s.gm.groups.get gc.1).state ≠ .out)
  { after := c.afterSample x y
    trips := trips
    offers := turnsActive && x.freezeTrigger && s.ss.working.freeze.comparator
    fastEvents := if c.changes x y = true ∧ x.report = true then
        [.report (.fastEvent gc.1 gc.2 x.source x.mode (!c.active) y.value index trips)] else [] }

/-- A judgement reads the working settings, the groups' states and the comparator's own state. -/
theorem State.judgement_congr {s t : State} (ys : PerChannel Sample) (index : Nat) {gc : GroupId × CompId}
    (ss : t.ss = s.ss) (gm : t.gm = s.gm) (fc : t.fc.get gc.1 gc.2 = s.fc.get gc.1 gc.2) :
    t.judgement ys index gc = s.judgement ys index gc := by simp only [State.judgement, ss, gm, fc]

/-- The trigger record of a comparator (R137). -/
def comparatorRecord (cycle : Word) (gc : GroupId × CompId) : TriggerRecord :=
  { cause := .comparator, group := some gc.1, comparator := some gc.2, window := none, cycle := cycle }

/-- The FREEZE_EVENT of entry into POST, posted at the comparator that is the first of `offering` while the ring runs (R137, R142). -/
def CaptureRing.freezeNotices (c : CaptureRing) (post : Nat) (cycle : Word) (offering : List (GroupId × CompId))
    (gc : GroupId × CompId) : List Notice :=
  if c.state = .running ∧ offering.head? = some gc then
    [.report (.freezeEvent false (comparatorRecord cycle gc) post none c.ignored)] else []

section
variable (j : GroupId × CompId → CompJudgement) (l : List (GroupId × CompId))

/-- The comparators of `l` that offer a trigger. -/
def offering : List (GroupId × CompId) := l.filter fun gc => (j gc).offers

/-- CR after the triggers that the comparators of `l` offer. -/
def CaptureRing.afterOffers (c : CaptureRing) (post : Nat) (cycle : Word) : CaptureRing :=
  c.considerAll post ((offering j l).map (comparatorRecord cycle))

/-- The reports of the comparators of `l`, the FREEZE_EVENT of a trigger taken before the FAST_EVENT of its comparator. -/
def CaptureRing.fcNotices (c : CaptureRing) (post : Nat) (cycle : Word) : List Notice :=
  l.flatMap fun gc => c.freezeNotices post cycle (offering j l) gc ++ (j gc).fastEvents

/-- The comparators of `l` have taken their samples, with the judgements `j`. -/
structure Judged (s t : State) : Prop where
  fc : t.fc = s.fc.setAll (fun gc => (j gc).after) l
  le : t.le = s.le.latchAll ((l.filter fun gc => (j gc).trips).map Prod.fst)
  cr : t.cr = s.cr.afterOffers j l s.ss.working.freeze.postCycles s.ct.cycle
  posts : Posts s t (s.cr.fcNotices j l s.ss.working.freeze.postCycles s.ct.cycle)

end

/-! ### One comparator -/

/-- CR after a trigger that is considered or not, with its FREEZE_EVENT. -/
def CaptureRing.considerWhen (c : CaptureRing) (on : Bool) (post : Nat) (r : TriggerRecord) : CaptureRing × List Notice :=
  if on then c.consider post r else (c, [])

/-- A comparator's trigger is considered with the comparator source on (R127, R137). -/
theorem State.ite_offerTrigger (s : State) (on : Bool) (gc : GroupId × CompId) :
    (if on then s.offerTrigger (comparatorRecord s.ct.cycle gc) else s) =
      let taken := s.cr.considerWhen (on && s.ss.working.freeze.comparator) s.ss.working.freeze.postCycles
        (comparatorRecord s.ct.cycle gc)
      (s.setCr taken.1).post taken.2 := by
  cases on with
  | false => rfl
  | true =>
    have admits : s.ss.working.freeze.admits (comparatorRecord s.ct.cycle gc).cause = s.ss.working.freeze.comparator := rfl
    rw [Bool.true_and, if_pos rfl, State.offerTrigger, admits]
    cases s.ss.working.freeze.comparator <;> rfl

theorem State.post_post (s : State) (ns ms : List Notice) : (s.post ns).post ms = s.post (ns ++ ms) := by
  simp [State.post, LinkController.post, State.setLc]

/-- What a changed output does: the trip, then the trigger, then the report (R126 to R128). -/
theorem State.outputChanged_eq (s : State) (g : GroupId) (c : CompId) (x : CompSettings) (after : CompState) (value : Int)
    (index : Nat) :
    s.outputChanged g c x after value index =
      let taken := s.cr.considerWhen (after.active && x.freezeTrigger && s.ss.working.freeze.comparator)
        s.ss.working.freeze.postCycles (comparatorRecord s.ct.cycle (g, c))
      ((s.setLe (if s.comparatorTrips g x after then s.le.setLatch s.mode g true else s.le)).setCr taken.1).post
        (taken.2 ++
          if x.report then [.report (.fastEvent g c x.source x.mode after.active value index (s.comparatorTrips g x after))]
          else []) := by
  rw [← State.post_post]
  unfold State.outputChanged
  cases s.comparatorTrips g x after <;> cases x.report
  case false.false => exact s.ite_offerTrigger _ (g, c)
  case false.true => exact congrArg (State.post · _) (s.ite_offerTrigger _ (g, c))
  case true.false => exact (s.setLe _).ite_offerTrigger _ (g, c)
  case true.true => exact congrArg (State.post · _) ((s.setLe _).ite_offerTrigger _ (g, c))

/-- A comparator has taken its sample as `j` judged it: its filter, the trip, the trigger and the report. -/
def State.carryOut (s : State) (j : CompJudgement) (gc : GroupId × CompId) : State :=
  let taken := s.cr.considerWhen j.offers s.ss.working.freeze.postCycles (comparatorRecord s.ct.cycle gc)
  (((s.setFc (s.fc.set gc.1 gc.2 j.after)).setLe (if j.trips then s.le.setLatch s.mode gc.1 true else s.le)).setCr
    taken.1).post (taken.2 ++ j.fastEvents)

/-- A comparator that takes its sample carries out its judgement, whether its output changes or not (R122 to R128). -/
theorem State.judgeComparator_eq (s : State) (ys : PerChannel Sample) (index : Nat) (gc : GroupId × CompId) :
    s.judgeComparator ys index gc.1 gc.2 = s.carryOut (s.judgement ys index gc) gc := by
  by_cases h : (s.fc.get gc.1 gc.2).changes (s.ss.working.comparator gc.1 gc.2)
      (sourceSample ys gc.1 (s.ss.working.comparator gc.1 gc.2).source) = true
  case pos =>
    have active := CompState.afterSample_active_of_changes h
    simp [State.judgeComparator, State.judgement, State.carryOut, h, active, State.outputChanged_eq, State.comparatorTrips,
      MonitorState.inService_eq]
  case neg => simp [State.judgeComparator, State.judgement, State.carryOut, h, CaptureRing.considerWhen]; rfl

theorem State.carryOut_posts (s : State) (j : CompJudgement) (gc : GroupId × CompId) :
    Posts s (s.carryOut j gc)
      ((s.cr.considerWhen j.offers s.ss.working.freeze.postCycles (comparatorRecord s.ct.cycle gc)).2 ++ j.fastEvents) := by
  refine Posts.after (t := ((s.setFc _).setLe _).setCr _) ?_ ?_ (.post _ _)
  · exact ⟨rfl, rfl, rfl, rfl⟩
  · rfl

/-! ### Several comparators, one after the other -/

section
variable {j : GroupId × CompId → CompJudgement} {gc : GroupId × CompId} {l : List (GroupId × CompId)}

theorem offering_cons : offering j (gc :: l) = if (j gc).offers then gc :: offering j l else offering j l := List.filter_cons

/-- CR after the offers of `gc` and of `l` is CR after those of `gc`, then those of `l`. -/
theorem CaptureRing.afterOffers_cons (c : CaptureRing) (post : Nat) (cycle : Word) :
    c.afterOffers j (gc :: l) post cycle =
      (c.considerWhen (j gc).offers post (comparatorRecord cycle gc)).1.afterOffers j l post cycle := by
  rw [afterOffers, offering_cons]
  cases (j gc).offers <;> rfl

/-- The first comparator finds the ring as it is. -/
theorem CaptureRing.freezeNotices_self (c : CaptureRing) (post : Nat) (cycle : Word) (new : gc ∉ l) :
    c.freezeNotices post cycle (offering j (gc :: l)) gc =
      (c.considerWhen (j gc).offers post (comparatorRecord cycle gc)).2 := by
  rw [offering_cons]
  cases h : (j gc).offers
  case true =>
    obtain ⟨running, taken⟩ | ⟨other, ignored⟩ := c.consider_cases post (comparatorRecord cycle gc)
    · simp [freezeNotices, considerWhen, running, taken]
    · simp [freezeNotices, considerWhen, other, ignored]
  case false =>
    have later : (offering j l).head? ≠ some gc := fun first => new (List.mem_filter.mp (List.mem_of_head? first)).1
    simp [freezeNotices, considerWhen, later]

/-- Where the first comparator has offered its trigger, the ring does not run behind it; where it has not, the others find the ring as it was. -/
theorem CaptureRing.freezeNotices_of_ne (c : CaptureRing) (post : Nat) (cycle : Word) {other : GroupId × CompId} (ne : gc ≠ other) :
    c.freezeNotices post cycle (offering j (gc :: l)) other =
      (c.considerWhen (j gc).offers post (comparatorRecord cycle gc)).1.freezeNotices post cycle (offering j l) other := by
  rw [offering_cons]
  cases (j gc).offers
  case false => rfl
  case true =>
    have behind : (c.consider post (comparatorRecord cycle gc)).1.state ≠ .running := by
      obtain ⟨running, taken⟩ | ⟨other, ignored⟩ := c.consider_cases post (comparatorRecord cycle gc)
      · simp [taken]
      · simpa [ignored] using other
    simp [freezeNotices, considerWhen, behind, ne]

theorem CaptureRing.fcNotices_cons (c : CaptureRing) (post : Nat) (cycle : Word) (new : gc ∉ l) :
    let taken := c.considerWhen (j gc).offers post (comparatorRecord cycle gc)
    c.fcNotices j (gc :: l) post cycle = taken.2 ++ (j gc).fastEvents ++ taken.1.fcNotices j l post cycle := by
  dsimp only
  rw [fcNotices, List.flatMap_cons, freezeNotices_self _ _ _ new, fcNotices]
  congr 1
  refine List.flatMap_congr fun other mem => ?_
  rw [freezeNotices_of_ne]
  exact fun e => new (e ▸ mem)

/-- One comparator, then others. -/
theorem Judged.cons {s t : State} (normal : s.mode = .normal) (new : gc ∉ l) (rest : Judged j l (s.carryOut (j gc) gc) t) :
    Judged j (gc :: l) s t where
  fc := rest.fc
  le := by
    have latch : (s.carryOut (j gc) gc).le = if (j gc).trips then s.le.setLatch .normal gc.1 true else s.le := by
      rw [← normal]; rfl
    rw [rest.le, latch, List.filter_cons]
    cases (j gc).trips <;> rfl
  cr := by
    rw [s.cr.afterOffers_cons]
    exact rest.cr
  posts := by
    rw [CaptureRing.fcNotices_cons _ _ _ new]
    exact (s.carryOut_posts _ gc).trans rest.posts

end

/-- Every comparator is judged on the state before the first, since none of them touches what the judgement of another reads. -/
theorem State.judgeAll_judged (ys : PerChannel Sample) (index : Nat) (j : GroupId × CompId → CompJudgement)
    {l : List (GroupId × CompId)} (nodup : l.Nodup) {s : State} (normal : s.mode = .normal)
    (judgement : ∀ gc ∈ l, s.judgement ys index gc = j gc) :
    Judged j l s (l.foldl (fun s gc => s.judgeComparator ys index gc.1 gc.2) s) := by
  induction l generalizing s with
  | nil => exact ⟨rfl, rfl, rfl, .refl s⟩
  | cons gc l ih =>
    obtain ⟨new, nodup⟩ := List.nodup_cons.mp nodup
    rw [List.foldl_cons, State.judgeComparator_eq, judgement gc List.mem_cons_self]
    refine Judged.cons normal new (ih nodup normal fun other mem => ?_)
    have apart : other ≠ gc := fun e => new (e ▸ mem)
    have untouched : (s.carryOut (j gc) gc).fc.get other.1 other.2 = s.fc.get other.1 other.2 :=
      (Comparators.get_set ..).trans (if_neg apart)
    exact (State.judgement_congr ys index (s := s) (t := s.carryOut (j gc) gc) rfl rfl untouched).trans
      (judgement other (List.mem_cons_of_mem _ mem))

/-! ### The sample event -/

/-- The sample event is issued and FE has taken it. -/
def State.converted (s : State) (raw : RawCodes) : State :=
  (s.setCt { s.ct.reach (s.ct.sampleCount s.ct.issued) with issued := s.ct.issued + 1 }).setFe
    (s.fe.afterSample s.ss.working raw)

/-- CLIP is raised, and CR and AE have taken the samples: what FC finds. -/
def State.delivered (s : State) (raw : RawCodes) : State :=
  (((s.converted raw).post (if anyClipped (s.samplesOf raw) then [.flag .clip] else [])).setCr
    (s.cr.write (s.samplesOf raw))).setAe (s.ae.addSamples (s.samplesOf raw) s.ct.issued)

theorem State.sampleStep_eq (s : State) (raw : RawCodes) :
    s.sampleStep raw = (s.delivered raw).judgeComparators (s.samplesOf raw) s.ct.issued := by
  unfold State.sampleStep State.delivered
  dsimp only
  cases anyClipped (s.samplesOf raw) <;> rfl

theorem State.judgeComparators_of_normal {s : State} (normal : s.mode = .normal) (ys : PerChannel Sample) (index : Nat) :
    s.judgeComparators ys index = comparatorOrder.foldl (fun s gc => s.judgeComparator ys index gc.1 gc.2) s := by
  simp [State.judgeComparators, normal]

section
variable (s : State) (raw : RawCodes)

@[simp] theorem State.delivered_mode : (s.delivered raw).mode = s.mode := by simp [delivered, converted]
@[simp] theorem State.delivered_ss : (s.delivered raw).ss = s.ss := by simp [delivered, converted]
@[simp] theorem State.delivered_gm : (s.delivered raw).gm = s.gm := by simp [delivered, converted]
@[simp] theorem State.delivered_le : (s.delivered raw).le = s.le := by simp [delivered, converted]
@[simp] theorem State.delivered_fc : (s.delivered raw).fc = s.fc := by simp [delivered, converted]
@[simp] theorem State.delivered_cr : (s.delivered raw).cr = s.cr.write (s.samplesOf raw) := by simp [delivered, converted]
@[simp] theorem State.delivered_cycle : (s.delivered raw).ct.cycle = s.ct.cycle := by
  simp [delivered, converted, CycleTracker.reach]

theorem State.delivered_posts :
    Posts s (s.delivered raw) (if anyClipped (s.samplesOf raw) then [.flag .clip] else []) := by
  refine Posts.after (t := s.converted raw) ?_ ?_ (Posts.before (.post _ _) ?_ ?_)
  · exact ⟨rfl, rfl, rfl, rfl⟩
  · rfl
  · simp only [State.delivered, State.setAe_lc, State.setCr_lc]
    exact ⟨rfl, rfl, rfl, rfl⟩
  · simp only [State.delivered, State.setAe_ct, State.setCr_ct]

end

/-- Once the samples are delivered the eight comparators take theirs, each judged on the state before the event. -/
theorem State.sampleStep_judged {s : State} (normal : s.mode = .normal) (raw : RawCodes) :
    Judged (s.judgement (s.samplesOf raw) s.ct.issued) comparatorOrder (s.delivered raw) (s.sampleStep raw) := by
  have mode : (s.delivered raw).mode = .normal := by simpa using normal
  have same (gc : GroupId × CompId) :
      (s.delivered raw).judgement (s.samplesOf raw) s.ct.issued gc = s.judgement (s.samplesOf raw) s.ct.issued gc :=
    State.judgement_congr _ _ (s.delivered_ss raw) (s.delivered_gm raw) (by rw [State.delivered_fc])
  rw [State.sampleStep_eq, State.judgeComparators_of_normal mode]
  exact State.judgeAll_judged _ _ _ comparatorOrder_nodup mode fun gc _ => same gc

/-- The reports of FC read the state of the ring and its ignored count, which the samples leave alone. -/
theorem CaptureRing.fcNotices_write (j : GroupId × CompId → CompJudgement) (l : List (GroupId × CompId)) (c : CaptureRing)
    (ys : PerChannel Sample) (post : Nat) (cycle : Word) : (c.write ys).fcNotices j l post cycle = c.fcNotices j l post cycle := by
  simp [fcNotices, freezeNotices]

theorem CaptureRing.freezeNotices_ne_clip (c : CaptureRing) (post : Nat) (cycle : Word) (l : List (GroupId × CompId))
    (gc : GroupId × CompId) : Notice.flag .clip ∉ c.freezeNotices post cycle l gc := by
  unfold CaptureRing.freezeNotices
  split <;> simp

theorem State.fastEvents_ne_clip (s : State) (ys : PerChannel Sample) (index : Nat) (gc : GroupId × CompId) :
    Notice.flag .clip ∉ (s.judgement ys index gc).fastEvents := by
  unfold State.judgement
  dsimp only
  split <;> simp

/-- Of CLIP and the reports of FC, those beside CLIP are the reports of FC. -/
theorem State.filter_ne_clip (s : State) (ys : PerChannel Sample) (index : Nat) (l : List (GroupId × CompId)) (c : CaptureRing)
    (post : Nat) (cycle : Word) (clipped : Bool) :
    ((if clipped then [Notice.flag .clip] else []) ++ c.fcNotices (s.judgement ys index) l post cycle).filter
        (fun n => decide (n ≠ .flag .clip)) = c.fcNotices (s.judgement ys index) l post cycle := by
  have reports : ∀ n ∈ c.fcNotices (s.judgement ys index) l post cycle, n ≠ Notice.flag .clip := by
    rintro n mem rfl
    obtain ⟨gc, -, mem⟩ := List.mem_flatMap.mp mem
    obtain freeze | fast := List.mem_append.mp mem
    · exact c.freezeNotices_ne_clip post cycle _ gc freeze
    · exact s.fastEvents_ne_clip ys index gc fast
  rw [List.filter_append, List.filter_eq_self.mpr fun n mem => decide_eq_true (reports n mem)]
  cases clipped <;> simp

/-! ### The obligation -/

/-- A group is tripped exactly if one of its comparators trips it. -/
theorem mem_tripped {trips : GroupId × CompId → Bool} {g : GroupId} :
    g ∈ (comparatorOrder.filter trips).map Prod.fst ↔ ∃ c, trips (g, c) = true := by
  simp [mem_comparatorOrder]

/-- Settles O14: the filter case by case, then FC, LE and CR block by block after the eight judgements, with the reports they post. -/
theorem comparatorJudgement : Obligations.ComparatorJudgement := by
  unfold Obligations.ComparatorJudgement
  refine ⟨fun x c y => ⟨fun high => ?_, fun low => ?_, CompState.afterSample_of_not_judged, CompState.afterSample_of_agrees,
    CompState.afterSample_of_turns, CompState.afterSample_of_counts⟩, ?_⟩
  · rw [CompSettings.rawOutput_of_high high, CompSource.step_eq]
  · rw [CompSettings.rawOutput_of_low low, CompSource.step_eq]
  intro s raw running due normal
  extract_lets setting sample changes turnsActive trips order offers sameFreeze record
  obtain ⟨filters, latches, ring, posts⟩ := State.sampleStep_judged normal raw
  have posts := (s.delivered_posts raw).trans posts
  rw [State.delivered_fc] at filters
  rw [State.delivered_le] at latches
  rw [State.delivered_cr, State.delivered_ss, State.delivered_cycle] at ring posts
  rw [CaptureRing.fcNotices_write] at posts
  change _ = (s.cr.write (s.samplesOf raw)).considerAll s.ss.working.freeze.postCycles (offers.map record) at ring
  refine ⟨s.sampleStep raw, _, ?_, posts.posted, ?_, ?_, ?_, ?_, ?_, State.filter_ne_clip ..⟩
  · have issues : s.sampleDue = true := decide_eq_true due
    calc
      exec (.sampleEvent raw) s = whenDue s s.sampleDue (s.sampleStep raw) := rfl
      _ = .next (s.sampleStep raw) := by rw [issues, whenDue_of_due running]
  · intro g c
    rw [filters, Comparators.get_setAll, if_pos (mem_comparatorOrder _)]
    rfl
  · intro g
    rw [latches]
    have tripped : g ∈ (comparatorOrder.filter trips).map Prod.fst ↔ ∃ c, trips (g, c) = true := mem_tripped
    refine ⟨(LimitEvaluator.latchAll_latches ..).trans (or_congr_right tripped), fun trip => ⟨?_, ?_⟩, fun quiet => ?_⟩
    · exact (LimitEvaluator.latchAll_tripLines ..).trans (if_pos (tripped.mpr trip))
    · exact LimitEvaluator.latchAll_alert _ (List.ne_nil_of_mem (tripped.mpr trip))
    · refine (LimitEvaluator.latchAll_tripLines ..).trans (if_neg fun mem => ?_)
      obtain ⟨c, trip⟩ := tripped.mp mem
      simp [quiet c] at trip
  · intro none_offers
    rw [ring, none_offers]
    simp [CaptureRing.considerAll, sameFreeze]
  · intro other
    obtain ⟨n, counted, count⟩ := CaptureRing.considerAll_of_not_running (c := s.cr.write (s.samplesOf raw)) (by simpa using other)
      s.ss.working.freeze.postCycles (offers.map record)
    rw [ring.trans counted]
    simpa [sameFreeze] using count
  · intro gc rest first run
    rw [first, List.map_cons] at ring
    obtain ⟨n, counted, count⟩ := CaptureRing.considerAll_of_running (c := s.cr.write (s.samplesOf raw)) (by simpa using run)
      s.ss.working.freeze.postCycles (record gc) (rest.map record)
    rw [ring.trans counted]
    simpa using count

end Sys2Proof.Machine
end

