-- ==== Sys2Proof/Proofs/LineReads.lean ====
section
/-! PROOFS. GET_LINES: how the names, codes and counts of its payload read back, what its rule answers, and the bytes of its reply (R146,
R148, R172, R176). -/

namespace Sys2Proof

theorem GroupId.toNat_lt (g : GroupId) : g.toNat < 4 := by cases g <;> simp [toNat]

theorem PairId.toNat_lt (p : PairId) : p.toNat < 2 := by cases p <;> simp [toNat]

theorem GroupId.ofNat?_toNat (g : GroupId) : ofNat? g.toNat = some g := by cases g <;> rfl

theorem PairId.ofNat?_toNat (p : PairId) : ofNat? p.toNat = some p := by cases p <;> rfl

theorem GroupId.ofNat?_eq_none {n : Nat} (h : 3 < n) : ofNat? n = none :=
  match n, h with
  | _ + 4, _ => rfl

theorem PairId.ofNat?_eq_none {n : Nat} (h : 1 < n) : ofNat? n = none :=
  match n, h with
  | _ + 2, _ => rfl

theorem UnitId.kindCode_lt (u : UnitId) : u.kindCode < 2 := by cases u <;> simp [kindCode]

theorem UnitId.index_lt : (u : UnitId) → u.index < 4
  | .group g => g.toNat_lt
  | .pair p => p.toNat_lt.trans (by decide)

namespace Machine

open Sys2Proof.Safety

/-! ### Units, records and series by their codes (R146, R148, R177) -/

theorem unitOf?_code : (u : UnitId) → unitOf? u.kindCode u.index = some u
  | .group g => by simp [unitOf?, UnitId.kindCode, UnitId.index, GroupId.ofNat?_toNat]
  | .pair p => by simp [unitOf?, UnitId.kindCode, UnitId.index, PairId.ofNat?_toNat]

theorem unitOf?_eq_none {kind index : Nat} (h : 1 < kind ∨ (kind = 0 ∧ 3 < index) ∨ (kind = 1 ∧ 1 < index)) :
    unitOf? kind index = none := by
  obtain beyond | ⟨rfl, beyond⟩ | ⟨rfl, beyond⟩ := h
  · match kind, beyond with
    | _ + 2, _ => rfl
  · simp [unitOf?, GroupId.ofNat?_eq_none beyond]
  · simp [unitOf?, PairId.ofNat?_eq_none beyond]

theorem RecordChoice.ofCode?_code (c : RecordChoice) : ofCode? (if c = .latest then (0 : Byte) else 1).toNat = some c := by
  cases c <;> rfl

theorem RecordChoice.ofCode?_eq_none {n : Nat} (h : 1 < n) : ofCode? n = none :=
  match n, h with
  | _ + 2, _ => rfl

theorem Series.ofCode?_eq_none {n : Nat} (h : 4 < n) : ofCode? n = none :=
  match n, h with
  | _ + 5, _ => rfl

theorem Series.exists_ofCode? {n : Nat} (h : n ≤ 4) : ∃ x, ofCode? n = some x := by
  interval_cases n <;> exact ⟨_, rfl⟩

theorem Series.eq_ip_iff {n : Nat} {x : Series} (code : ofCode? n = some x) : x = .ip ↔ n = 4 := by
  have le : n ≤ 4 := not_lt.mp fun gt => by simp [ofCode?_eq_none gt] at code
  interval_cases n <;> cases code <;> decide

/-- IP is the series of a pair, and every other series one of a group. -/
theorem Series.fits_iff (x : Series) (u : UnitId) : x.fits u = true ↔ (x = .ip ↔ u.kindCode = 1) := by
  cases x <;> cases u <;> simp [fits, UnitId.kindCode]

/-! ### The payload of GET_LINES (R146, R148) -/

theorem toNat_one {n : Nat} (h : n < 256) : (one n).toNat = n := Nat.mod_eq_of_lt h

theorem recordField_code (u : UnitId) (c : RecordChoice) (rest : List Byte) :
    recordField (one u.kindCode :: one u.index :: (if c = .latest then 0 else 1) :: rest) = some (u, c) := by
  have kind := toNat_one (u.kindCode_lt.trans (by decide))
  have index := toNat_one (u.index_lt.trans (by decide))
  simp only [recordField, u8, List.getD_cons_zero, List.getD_cons_succ, kind, index, unitOf?_code, RecordChoice.ofCode?_code]
  rfl

/-- A unit, index or record outside its values names no record. -/
theorem recordField_eq_none {unit index choice : Byte} (rest : List Byte)
    (h : 1 < unit.toNat ∨ (unit = 0 ∧ 3 < index.toNat) ∨ (unit = 1 ∧ 1 < index.toNat) ∨ 1 < choice.toNat) :
    recordField (unit :: index :: choice :: rest) = none := by
  have named : unitOf? unit.toNat index.toNat = none ∨ RecordChoice.ofCode? choice.toNat = none := by
    obtain beyond | ⟨rfl, beyond⟩ | ⟨rfl, beyond⟩ | beyond := h
    · exact .inl (unitOf?_eq_none (.inl beyond))
    · exact .inl (unitOf?_eq_none (.inr (.inl ⟨rfl, beyond⟩)))
    · exact .inl (unitOf?_eq_none (.inr (.inr ⟨rfl, beyond⟩)))
    · exact .inr (RecordChoice.ofCode?_eq_none beyond)
  obtain noUnit | noChoice := named
  · simp [recordField, u8, noUnit]
  · simp [recordField, u8, noChoice]

theorem linesField_of_no_record {p : List Byte} (record : recordField p = none) : linesField p = none := by
  simp [linesField, record]

/-- The payload of a GET_LINES that names a unit and one of its records (R146, R148, R177). -/
def linesPayload (u : UnitId) (c : RecordChoice) (series : Byte) (first count : Nat) : List Byte :=
  [one u.kindCode, one u.index, if c = .latest then 0 else 1, series, one first, one count]

section
variable {u : UnitId} {c : RecordChoice} {series : Byte} {first count : Nat}

theorem recordField_linesPayload : recordField (linesPayload u c series first count) = some (u, c) := recordField_code ..

theorem linesField_linesPayload {x : Series} (named : Series.ofCode? series.toNat = some x) (fits : x.fits u = true)
    (lo : 1 ≤ first) (hi : first ≤ 50) (some_count : 1 ≤ count) (countByte : count < 256) :
    linesField (linesPayload u c series first count) =
      some { unit := u, record := c, series := x, first := first, count := count } := by
  have firstRead : (one first).toNat = first := toNat_one (by omega)
  have countRead := toNat_one countByte
  rw [linesField, recordField_linesPayload]
  simp [linesPayload, u8, named, fits, firstRead, countRead, lo, hi, some_count]

/-- A series of the other unit, or a series, first order or count outside its values, asks for nothing. -/
theorem linesField_linesPayload_eq_none (firstByte : first < 256) (countByte : count < 256)
    (h : (series.toNat = 4 ↔ u.kindCode = 0) ∨ 4 < series.toNat ∨ first = 0 ∨ 50 < first ∨ count = 0) :
    linesField (linesPayload u c series first count) = none := by
  have firstRead := toNat_one firstByte
  have countRead := toNat_one countByte
  rw [linesField, recordField_linesPayload]
  cases named : Series.ofCode? series.toNat with
  | none => simp [linesPayload, u8, named]
  | some x =>
    have code : ¬ 4 < series.toNat := fun beyond => by simp [Series.ofCode?_eq_none beyond] at named
    have misfit : ¬ (x.fits u = true ∧ 1 ≤ first ∧ first ≤ 50 ∧ 1 ≤ count) := by
      rw [Series.fits_iff, Series.eq_ip_iff named]
      have := u.kindCode_lt
      omega
    simpa [linesPayload, u8, named, firstRead, countRead, and_assoc] using misfit

end

/-! ### The rule and its reply (R148, R176) -/

theorem byte1_eq (n : Nat) : byte1 n = [one n] := by simp [byte1, beBytes, one]

theorem ratioBytes_eq : (r : Option Nat) → ratioBytes r = ratio2 r
  | some _ => rfl
  | none => rfl

/-- The fields of the reply: window, first order, count, the presence of ratios, and the entries in order. -/
theorem linesReply_eq (window : Word) (amplitudes : Lines) (ratios : Option Lines) (first n : Nat) :
    word4 window ++ byte1 first ++ byte1 n ++ [boolByte ratios.isSome] ++ lineEntries (amplitudes, ratios) first n =
      beBytes 4 window.toNat ++ [one first, one n, if ratios.isSome then 1 else 0] ++
        (List.range n).flatMap fun j => beBytes 4 (amplitudes.toList.getD (first + j - 1) 0) ++
          ratio2 (ratios.map fun v => v.toList.getD (first + j - 1) 0) := by
  simp [word4, byte1_eq, boolByte, lineEntries, lineEntry, byte4, ratioBytes_eq, atOrder]

section
variable {s : State} {p : List Byte}

theorem getLinesRule_of_no_request (asked : linesField p = none) : getLinesRule p s = .refused .badValue := by
  simp [getLinesRule, asked]

theorem getLinesRule_of_no_record {x : LinesRequest} (asked : linesField p = some x)
    (absent : s.recordOf x.unit x.record = none) : getLinesRule p s = .refused .notAvailable := by
  simp [getLinesRule, asked, absent]

theorem getLinesRule_of_record {x : LinesRequest} {r : AnyRecord} (asked : linesField p = some x)
    (stored : s.recordOf x.unit x.record = some r) :
    getLinesRule p s = .replied s 0 (word4 r.window ++ byte1 x.first ++ byte1 (linesCount x.first x.count) ++
      [boolByte (r.series x.series).2.isSome] ++ lineEntries (r.series x.series) x.first (linesCount x.first x.count)) := by
  simp [getLinesRule, asked, stored]

end

/-! ### The command -/

section
variable {s : State} {before after : List Entry} {q : Frame}

/-- A GET_LINES of its length, handled in NORMAL, is answered by its rule. -/
theorem exec_getLines (takes : HandlerTakes s before after q) (normal : s.mode = .normal) (kind : q.kind = 0x06)
    (length : q.payload.length = 6) : exec .getLines s = .next (s.answer q (getLinesRule q.payload s)) :=
  handle_rule takes kind (decide_eq_true length) (.inl normal) getLinesRule

theorem exec_getLines_refused (takes : HandlerTakes s before after q) (normal : s.mode = .normal) (kind : q.kind = 0x06)
    (length : q.payload.length = 6) {r : Reason} (rule : getLinesRule q.payload s = .refused r) :
    exec .getLines s = .next { s with lc := answered s.lc before after q (refusal q (BitVec.ofNat 8 r.code)) } := by
  rw [exec_getLines takes normal kind length, rule, answer_refused takes]

theorem exec_getLines_replied (takes : HandlerTakes s before after q) (normal : s.mode = .normal) (kind : q.kind = 0x06)
    {u : UnitId} {c : RecordChoice} {r : AnyRecord} {series : Byte} {x : Series} {first count : Nat}
    (payload : q.payload = linesPayload u c series first count) (stored : s.recordOf u c = some r)
    (lo : 1 ≤ first) (hi : first ≤ 50) (some_count : 1 ≤ count) (countByte : count < 256)
    (named : Series.ofCode? series.toNat = some x) (fits : x.fits u = true) :
    exec .getLines s = .next { s with lc := answered s.lc before after q (okReply q
      (word4 r.window ++ byte1 first ++ byte1 (linesCount first count) ++ [boolByte (r.series x).2.isSome] ++
        lineEntries (r.series x) first (linesCount first count))) } := by
  have asked : linesField q.payload = _ := payload ▸ linesField_linesPayload named fits lo hi some_count countByte
  rw [exec_getLines takes normal kind (by rw [payload]; rfl), getLinesRule_of_record asked stored, answer_replied takes rfl]

end

/-! ### The obligation -/

/-- Settles O36: a reply for a series of the record named, clause by clause, and each refusal by the field or the store at fault. -/
theorem linesAreRead : Obligations.LinesAreRead := by
  intro s before after q which first count takes normal kind firstByte countByte code n reply
  have replies {u : UnitId} {r : AnyRecord} {series : Byte} {x : Series}
      (payload : q.payload = linesPayload u which series first count) (stored : s.recordOf u which = some r)
      (lo : 1 ≤ first) (hi : first ≤ 50) (some_count : 1 ≤ count)
      (named : Series.ofCode? series.toNat = some x) (fits : x.fits u = true) :
      exec .getLines s = .next (reply r.window (r.series x).1 (r.series x).2) := by
    rw [exec_getLines_replied takes normal kind payload stored lo hi some_count countByte named fits, linesReply_eq]
    rfl
  have refuses {r : Reason} (length : q.payload.length = 6) (rule : getLinesRule q.payload s = .refused r) :=
    exec_getLines_refused takes normal kind length rule
  refine ⟨?group, ?pair, ?misfit, ?absent, ?outside⟩
  case group =>
    intro g r series payload stored lo hi some_count
    have replies {x : Series} := replies (u := .group g) (x := x) payload stored lo hi some_count
    match series with
    | 0 => exact replies (x := .v) rfl rfl
    | 1 => exact replies (x := .ia) rfl rfl
    | 2 => exact replies (x := .ib) rfl rfl
    | 3 => exact replies (x := .ig) rfl rfl
  case pair =>
    intro p r payload stored lo hi some_count
    exact replies (u := .pair p) payload stored lo hi some_count rfl rfl
  case misfit =>
    intro u series (payload : q.payload = linesPayload u which series first count) bad
    have asks : linesField q.payload = none := payload ▸ linesField_linesPayload_eq_none firstByte countByte bad
    exact refuses (by rw [payload]; rfl) (getLinesRule_of_no_request asks)
  case absent =>
    intro u series (payload : q.payload = linesPayload u which series first count) code_le unit lo hi some_count missing
    obtain ⟨x, named⟩ := Series.exists_ofCode? code_le
    have fits : x.fits u = true := by rw [Series.fits_iff, Series.eq_ip_iff named, unit]
    have asks : linesField q.payload = _ := payload ▸ linesField_linesPayload named fits lo hi some_count countByte
    exact refuses (by rw [payload]; rfl) (getLinesRule_of_no_record asks missing)
  case outside =>
    intro unit index choice series payload bad
    have asks : linesField q.payload = none := payload ▸ linesField_of_no_record (recordField_eq_none _ bad)
    exact refuses (by simp [payload]) (getLinesRule_of_no_request asks)

end Machine

end Sys2Proof
end

