-- ==== Sys2Proof/Proofs/WindowReads.lean ====
section
/-! PROOFS. GET_WINDOW: the flag bits, presence bits and bytes of a record's summary, what its rule answers, and its refusals (R146, R147,
R175). -/

namespace Sys2Proof.Machine

open Sys2Proof.Safety

/-! ### The summary of a record, byte by byte (R172, R175) -/

theorem GroupRecord.flags_eq (r : GroupRecord) :
    r.flags = (if r.degraded then 1 else 0) + (if r.noBase then 2 else 0) + (if r.clamped then 4 else 0) +
      (if r.marksV.clip then 8 else 0) + (if r.marksV.held then 16 else 0) +
      (if r.marksIA.clip then 32 else 0) + (if r.marksIA.held then 64 else 0) +
      (if r.marksIB.clip then 128 else 0) + (if r.marksIB.held then 256 else 0) := by
  simp [flags, marksBits, bitAt, add_assoc]

/-- V, IA and IB of the first group, then of the second, two bits each from bit 3 up. -/
theorem PairRecord.flags_eq {r : PairRecord} {v₁ a₁ b₁ v₂ a₂ b₂ : Marks} (h : r.marks = [v₁, a₁, b₁, v₂, a₂, b₂]) :
    r.flags = (if r.degraded then 1 else 0) + (if r.noBase then 2 else 0) + (if r.clamped then 4 else 0) +
      (if v₁.clip then 8 else 0) + (if v₁.held then 16 else 0) + (if a₁.clip then 32 else 0) + (if a₁.held then 64 else 0) +
      (if b₁.clip then 128 else 0) + (if b₁.held then 256 else 0) + (if v₂.clip then 512 else 0) +
      (if v₂.held then 1024 else 0) + (if a₂.clip then 2048 else 0) + (if a₂.held then 4096 else 0) +
      (if b₂.clip then 8192 else 0) + (if b₂.held then 16384 else 0) := by
  simp [flags, h, marksBits, bitAt, add_assoc]

theorem GroupRecord.summary_eq (r : GroupRecord) :
    r.summary = [0, one r.group.toNat] ++ beBytes 4 r.window.toNat ++ beBytes 4 r.firstCycle.toNat ++ [one r.length.cycles] ++
      beBytes 2 r.flags ++
      [one ((if r.rf.isSome then 1 else 0) + (if r.ppr.isSome then 2 else 0) + (if r.sd.isSome then 4 else 0) +
        (if r.ka.isSome then 8 else 0) + (if r.kb.isSome then 16 else 0))] ++
      beBytesInt 4 r.meanV ++ beBytesInt 4 r.meanIA ++ beBytesInt 4 r.meanIB ++ beBytesInt 4 r.meanIG ++
      beBytes 4 r.rippleV ++ beBytes 4 r.peakV ++ ratio2 r.rf ++ ratio2 r.ppr ++ beBytes 4 r.rippleIG ++
      ratio2 r.sd ++ ratio2 r.ka ++ ratio2 r.kb ++ beBytes 4 r.jg := by
  unfold summary
  simp [byte1_eq, byte2, byte4, word4, signed4, ratioBytes_eq, bitAt, one]

theorem PairRecord.summary_eq (r : PairRecord) :
    r.summary = [1, one r.pair.toNat] ++ beBytes 4 r.window.toNat ++ beBytes 4 r.firstCycle.toNat ++ [one r.length.cycles] ++
      beBytes 2 r.flags ++ [if r.ratiosIP.isSome then 1 else 0] ++ beBytesInt 4 r.meanIP ++ beBytes 4 r.jp := by
  unfold summary
  simp [byte1_eq, byte2, byte4, word4, signed4, bitAt, one, apply_ite (BitVec.ofNat 8)]

/-! ### The rule -/

theorem RecordStore.choose_eq {α : Type} (store : RecordStore α) (c : RecordChoice) :
    store.choose c = if c = .latest then store.latest else store.previous := by
  cases c <;> rfl

section
variable {s : State} {p : List Byte} {u : UnitId} {c : RecordChoice}

theorem getWindowRule_of_no_request (asked : recordField p = none) : getWindowRule p s = .refused .badValue := by
  simp [getWindowRule, asked]

theorem getWindowRule_of_no_record (asked : recordField p = some (u, c)) (absent : s.recordOf u c = none) :
    getWindowRule p s = .refused .notAvailable := by
  simp [getWindowRule, asked, absent]

theorem getWindowRule_of_record {r : AnyRecord} (asked : recordField p = some (u, c)) (stored : s.recordOf u c = some r) :
    getWindowRule p s = .replied s 0 r.summary := by
  simp [getWindowRule, asked, stored]

end

/-! ### The command -/

section
variable {s : State} {before after : List Entry} {q : Frame}

/-- A GET_WINDOW of its length, handled in NORMAL, is answered by its rule. -/
theorem exec_getWindow (takes : HandlerTakes s before after q) (normal : s.mode = .normal) (kind : q.kind = 0x05)
    (length : q.payload.length = 3) : exec .getWindow s = .next (s.answer q (getWindowRule q.payload s)) :=
  handle_rule takes kind (decide_eq_true length) (.inl normal) getWindowRule

theorem exec_getWindow_refused (takes : HandlerTakes s before after q) (normal : s.mode = .normal) (kind : q.kind = 0x05)
    (length : q.payload.length = 3) {r : Reason} (rule : getWindowRule q.payload s = .refused r) :
    exec .getWindow s = .next { s with lc := answered s.lc before after q (refusal q (BitVec.ofNat 8 r.code)) } := by
  rw [exec_getWindow takes normal kind length, rule, answer_refused takes]

theorem exec_getWindow_replied (takes : HandlerTakes s before after q) (normal : s.mode = .normal) (kind : q.kind = 0x05)
    {u : UnitId} {c : RecordChoice} {r : AnyRecord}
    (payload : q.payload = [one u.kindCode, one u.index, if c = .latest then 0 else 1]) (stored : s.recordOf u c = some r) :
    exec .getWindow s = .next { s with lc := answered s.lc before after q (okReply q r.summary) } := by
  have asked : recordField q.payload = some (u, c) := payload ▸ recordField_code u c []
  rw [exec_getWindow takes normal kind (by simp [payload]), getWindowRule_of_record asked stored, answer_replied takes rfl]

end

/-! ### The obligation -/

/-- Settles O35: the summary of the record named, for a group and for a pair, and each refusal by the store or the field at fault. -/
theorem windowIsRead : Obligations.WindowIsRead := by
  intro s before after q takes normal kind replied refusedWith
  refine ⟨?group, ?pair, ?absent, ?outside⟩
  case group =>
    intro g which r payload held
    have stored : s.recordOf (.group g) which = some (.group r) := by
      rw [State.recordOf, RecordStore.choose_eq, held, Option.map_some]
    rw [exec_getWindow_replied (u := .group g) takes normal kind payload stored, AnyRecord.summary, GroupRecord.summary_eq,
      GroupRecord.flags_eq]
  case pair =>
    intro p which r m₁ m₂ m₃ m₄ m₅ m₆ payload held marks
    have stored : s.recordOf (.pair p) which = some (.pair r) := by
      rw [State.recordOf, RecordStore.choose_eq, held, Option.map_some]
    rw [exec_getWindow_replied (u := .pair p) takes normal kind payload stored, AnyRecord.summary, PairRecord.summary_eq,
      PairRecord.flags_eq marks]
  case absent =>
    intro u which payload missing
    have asks : recordField q.payload = some (u, which) := payload ▸ recordField_code u which []
    exact exec_getWindow_refused takes normal kind (by simp [payload]) (getWindowRule_of_no_record asks missing)
  case outside =>
    intro unit index which payload bad
    have asks : recordField q.payload = none := payload ▸ recordField_eq_none [] bad
    exact exec_getWindow_refused takes normal kind (by simp [payload]) (getWindowRule_of_no_request asks)

end Sys2Proof.Machine
end

