-- ==== Sys2Proof/Proofs/Moves.lean ====
section
/-! PROOFS. What a step can do, said once: the state over which the rule of a request answers (`Effect`), the states that a command can
answer (`Moves`), and the induction on them that every invariant uses. -/

namespace Sys2Proof.Machine

open Sys2Proof.Safety

/-! ### What a request's rule changes -/

/-- The states over which the rules of the requests answer, by the command that handles the request. Most rules change nothing. -/
inductive Effect (s : State) : Instr → State → Prop
  | unchanged {c : Instr} : Effect s c s
  | clearFlags (set : FlagSet) :
    Effect s .clearFlags (s.setLc { s.lc with flags := s.lc.flags &&& ~~~set,
                                              lost := if flagOf set .reportLost then 0 else s.lc.lost })
  | setFlagMask (set : FlagSet) : Effect s .setFlagMask (s.setLc { s.lc with masks := set })
  | setFreeze {p : List Byte} {f : FreezeSetup} (read : freezeField p = some f) :
    Effect s .setFreeze (s.setSs { s.ss with working := { s.ss.working with freeze := f } })
  | forceFreeze (normal : s.mode = .normal) :
    Effect s .forceFreeze
      (s.offerTrigger { cause := .force, group := none, comparator := none, window := none, cycle := s.ct.cycle })
  | releaseFreeze (normal : s.mode = .normal) (stopped : s.cr.state ≠ .running) :
    Effect s .releaseFreeze (s.setCr { s.cr with releasePending := true })
  | setLimit {p : List Byte} {k : Fin 48} {e : LimitEntry} (read : limitField p = some (k, e)) :
    Effect s .setLimit (s.stageLimit k (.replace e))
  | deleteLimit (k : Fin 48) : Effect s .deleteLimit (s.stageLimit k .delete)
  | setWeights (p : List Byte) (first count : Nat) :
    Effect s .setWeights
      (s.setSs { s.ss with staged := { s.ss.staged with
        weights := Vector.ofFn fun i => match weightAt p first count i.val with
          | some w => some (min w 1024)
          | none => s.ss.staged.weights[i] } })
  | setChannel {p : List Byte} {q : ChannelRequest} (read : channelField p = some q) :
    Effect s .setChannel (s.setSs (s.ss.stageChannel q))
  | setComparator {p : List Byte} {q : ComparatorRequest} (read : comparatorField p = some q) :
    Effect s .setComparator
      ((s.setSs { s.ss with working := { s.ss.working with
          comparators := s.ss.working.comparators.set q.group
            ((s.ss.working.comparators.get q.group).setComp q.comparator q.settings) } }).setFc
        (s.fc.set q.group q.comparator { active := false, run := 0 }))
  | setAnalysis {p : List Byte} {x : AnalysisSettings} (read : analysisField p = some x)
      (agree : ∀ q, x.pairing.paired q = true → s.ss.pairFsAgrees q = true) :
    Effect s .setAnalysis (s.setSs { s.ss with staged := { s.ss.staged with analysis := some x } })
  | setCounter (w : Word) (name : CounterName) : Effect s .setCounter (s.setCounter w name)
  | clearTrip (g : GroupId) (normal : s.mode = .normal) (fallen : s.tripStands g = false) :
    Effect s .clearTrip (s.setLe (s.le.setLatch s.mode g false))
  | holdReports (p : List Byte) : Effect s .holdReports (s.setLc { s.lc with holdCount := u16 p 0 })
  | syncPoint : Effect s .syncPoint (s.setLc { s.lc with sync := some { analysis := none, limit := none } })
  | storeSettings :
    Effect s .storeSettings
      (s.setSs { s.ss with image := .torn, flight := some (.store (s.ss.working.prospective s.ss.staged)) })
  | checkSettings : Effect s .checkSettings (s.setSs { s.ss with flight := some .check })
  | leaveMaintenance : Effect s .leaveMaintenance (s.setMode .normal)

/-- The state over which an answer is given. -/
def Answer.over (s : State) : Answer → State
  | .refused _ => s
  | .replied t _ _ => t
  | .deferred t => t

/-- `l` with the entry being handled in another stage. -/
def LinkController.staged (l : LinkController) (stage : Stage) (readied : Nat) : LinkController :=
  { l with entries := restage Entry.isWaiting stage l.entries, readied := readied }

/-- An answer changes only the stage of the entry over the state it is given over (R160). -/
theorem State.answer_eq (s : State) (q : Frame) (a : Answer) :
    ∃ stage readied, s.answer q a = (a.over s).setLc ((a.over s).lc.staged stage readied) := by
  cases a with
  | refused r => exact ⟨_, _, rfl⟩
  | replied t status fields => exact ⟨_, _, rfl⟩
  | deferred t => exact ⟨_, _, rfl⟩

/-- The rule of the command `c` changes what `Effect` says. -/
def RuleOf (c : Instr) (rule : List Byte → State → Answer) : Prop := ∀ p s, Effect s c ((rule p s).over s)

theorem identifyRule_effect : RuleOf .identify identifyRule := fun _ _ => .unchanged
theorem getStatusRule_effect : RuleOf .getStatus getStatusRule := fun _ _ => .unchanged
theorem getCountersRule_effect : RuleOf .getCounters getCountersRule := fun _ _ => .unchanged
theorem holdReportsRule_effect : RuleOf .holdReports holdReportsRule := fun p _ => .holdReports p
theorem leaveMaintenanceRule_effect : RuleOf .leaveMaintenance leaveMaintenanceRule := fun _ _ => .leaveMaintenance

theorem clearFlagsRule_effect : RuleOf .clearFlags clearFlagsRule := fun p s => by
  unfold clearFlagsRule
  cases flagSetField p with
  | none => exact .unchanged
  | some set => exact .clearFlags set

theorem setFlagMaskRule_effect : RuleOf .setFlagMask setFlagMaskRule := fun p s => by
  unfold setFlagMaskRule
  cases flagSetField p with
  | none => exact .unchanged
  | some set => exact .setFlagMask set

theorem getWindowRule_effect : RuleOf .getWindow getWindowRule := fun p s => by
  unfold getWindowRule
  repeat' split
  all_goals exact .unchanged

theorem getLinesRule_effect : RuleOf .getLines getLinesRule := fun p s => by
  unfold getLinesRule
  repeat' split
  all_goals exact .unchanged

theorem scanLinesRule_effect : RuleOf .scanLines scanLinesRule := fun p s => by
  unfold scanLinesRule
  repeat' split
  all_goals exact .unchanged

theorem readSamplesRule_effect : RuleOf .readSamples readSamplesRule := fun p s => by
  unfold readSamplesRule
  dsimp only
  repeat' split
  all_goals exact .unchanged

theorem getLimitRule_effect : RuleOf .getLimit getLimitRule := fun p s => by
  unfold getLimitRule
  split <;> exact .unchanged

theorem getSettingsRule_effect : RuleOf .getSettings getSettingsRule := fun p s => by
  unfold getSettingsRule
  split <;> exact .unchanged

theorem restartRule_effect : RuleOf .restart restartRule := fun p s => by
  unfold restartRule
  split <;> exact .unchanged

theorem setFreezeRule_effect : RuleOf .setFreeze setFreezeRule := fun p s => by
  unfold setFreezeRule
  split
  · exact .unchanged
  · exact .setFreeze ‹_›

theorem setLimitRule_effect : RuleOf .setLimit setLimitRule := fun p s => by
  unfold setLimitRule
  split
  · exact .unchanged
  · exact .setLimit ‹_›

theorem deleteLimitRule_effect : RuleOf .deleteLimit deleteLimitRule := fun p s => by
  unfold deleteLimitRule
  split
  · exact .unchanged
  · split
    · exact .unchanged
    · exact .deleteLimit _

theorem setWeightsRule_effect : RuleOf .setWeights setWeightsRule := fun p s => by
  unfold setWeightsRule
  dsimp only
  split
  · exact .unchanged
  · split
    · exact .unchanged
    · exact .setWeights p _ _

theorem setChannelRule_effect : RuleOf .setChannel setChannelRule := fun p s => by
  unfold setChannelRule
  split
  · exact .unchanged
  · exact .setChannel ‹_›

theorem setComparatorRule_effect : RuleOf .setComparator setComparatorRule := fun p s => by
  unfold setComparatorRule
  split
  · exact .unchanged
  · exact .setComparator ‹_›

theorem PairId.mem_all (p : PairId) : p ∈ PairId.all := by cases p <;> decide

theorem setAnalysisRule_effect : RuleOf .setAnalysis setAnalysisRule := fun p s => by
  unfold setAnalysisRule
  split
  · exact .unchanged
  · rename_i x read
    split
    · exact .unchanged
    · rename_i disagree
      refine .setAnalysis read fun q paired => ?_
      have := List.any_eq_false.mp (Bool.not_eq_true _ ▸ disagree) q (PairId.mem_all q)
      simpa [paired] using this

theorem setCounterRule_effect : RuleOf .setCounter setCounterRule := fun p s => by
  unfold setCounterRule
  split
  · exact .unchanged
  · exact .setCounter _ _

theorem syncPointRule_effect : RuleOf .syncPoint syncPointRule := fun p s => by
  unfold syncPointRule
  split
  · exact .unchanged
  · exact .syncPoint

theorem storeSettingsRule_effect : RuleOf .storeSettings storeSettingsRule := fun p s => by
  unfold storeSettingsRule
  split
  · exact .unchanged
  · exact .storeSettings

theorem checkSettingsRule_effect : RuleOf .checkSettings checkSettingsRule := fun p s => by
  unfold checkSettingsRule
  split
  · exact .unchanged
  · exact .checkSettings

/-- Behind tests 2 and 3 of R161 a rule is asked only for a kind that the mode accepts. -/
theorem State.tested_effect {c : Instr} {rule : List Byte → State → Answer} (s : State) (q : Frame)
    (effect : (s.mode = .normal ∨ refusedInMaintenance q.kind.toNat = false) → ∀ p, Effect s c ((rule p s).over s)) :
    Effect s c ((s.tested q rule).over s) := by
  unfold State.tested
  split
  · exact .unchanged
  · split
    · exact .unchanged
    · rename_i accepted
      refine effect ?_ _
      cases mode : s.mode with
      | normal => exact .inl rfl
      | maintenance => exact .inr (by simpa [mode] using accepted)

/-! ### What a command changes -/

/-- The states that a command can answer, apart from the time at which it is taken. -/
inductive Moves : Instr → State → State → Prop
  | idle {c : Instr} {s : State} : Moves c s s
  | reset (written : Option StoredImage) (s : State) : Moves (.reset written) s (s.heldInReset written)
  | release (strap : Bool) (reference : Polarity) {s : State} (held : s.inReset = true) :
    Moves (.resetRelease strap reference) s (s.release strap reference)
  | polarity (elapsed : Nat) (p : Polarity) (s : State) :
    Moves (.referencePolarityChange elapsed p) s (s.polarityStep elapsed p)
  | confirm {c : Instr} (s : State) : Moves c s s.confirmStep
  | miss {c : Instr} {s : State} (due : s.ct.missDue = true) : Moves c s s.missStep
  | sample {c : Instr} {s : State} (raw : RawCodes) (due : s.ct.issued < 120) : Moves c s (s.sampleStep raw)
  | boundary {c : Instr} {s : State} (inputs : InputLevels) (at_end : AtBoundary s) : Moves c s (s.boundaryStep inputs)
  | jobStart {s : State} (free : s.ae.unitBusy = false) : Moves .jobStart s s.startNext
  | jobCompletion (s : State) : Moves .jobCompletion s s.completeJob
  | pass (s : State) : Moves .evaluationPass s s.passStep
  | character {c : Instr} {elapsed : Nat} {b : Byte} (s : State)
      (received : ∃ stop, c = .linkCharacter elapsed b stop ∨ c = .frameAccepted elapsed b stop) :
    Moves c s (s.receiveCharacter elapsed b)
  | gap (s : State) : Moves .gapTimeout s s.gapStep
  | request {c : Instr} {s t : State} (effect : Effect s c t) (stage : Stage) (readied : Nat) :
    Moves c s (t.setLc (t.lc.staged stage readied))
  | transmit (s : State) : Moves .transmitStart s (s.setLc s.lc.transmit)
  | sent (s : State) : Moves .frameSent s (s.setLc s.lc.sent)
  | stored (readBack : StoredImage) (s : State) : Moves (.storeCompletion readBack) s (s.completeStore readBack)
  | checked (s : State) : Moves .checkCompletion s s.completeCheck
  | restarted {s : State} (running : s.inReset = false) : Moves .restartExecution s s.restartStep

/-- A command that names an occurrence moves as the occurrence does, or idles. -/
theorem whenDue_moves {c : Instr} {s t u : State} {due : Bool} (h : whenDue s due t = .next u)
    (moves : s.inReset = false → due = true → Moves c s t) : Moves c s u := by
  obtain ⟨running, isDue, rfl⟩ | ⟨-, rfl⟩ := whenDue_cases h
  · exact moves running isDue
  · exact .idle

/-- A request moves as its rule says. -/
theorem handle_moves_of {c : Instr} {kind : Byte} {rule : List Byte → State → Answer} {s u : State}
    (effect : (s.mode = .normal ∨ refusedInMaintenance kind.toNat = false) → ∀ p, Effect s c ((rule p s).over s))
    (h : handle kind rule s = .next u) : Moves c s u := by
  unfold handle at h
  split at h
  · rename_i q taken
    refine whenDue_moves h fun _ isKind => ?_
    obtain ⟨stage, readied, e⟩ := s.answer_eq q (s.tested q rule)
    rw [e]
    exact .request (s.tested_effect q (by rw [eq_of_beq isKind]; exact effect)) stage readied
  · cases h
    exact .idle

theorem handle_moves {c : Instr} {kind : Byte} {rule : List Byte → State → Answer} {s u : State} (effect : RuleOf c rule)
    (h : handle kind rule s = .next u) : Moves c s u := handle_moves_of (fun _ p => effect p s) h

theorem forceFreeze_moves {s u : State} (h : handle 0x0A forceFreezeRule s = .next u) : Moves .forceFreeze s u :=
  handle_moves_of (fun mode _ => .forceFreeze (by simpa [refusedInMaintenance] using mode)) h

theorem releaseFreeze_moves {s u : State} (h : handle 0x0B releaseFreezeRule s = .next u) : Moves .releaseFreeze s u := by
  refine handle_moves_of (fun mode _ => ?_) h
  unfold releaseFreezeRule Answer.over
  dsimp only
  split
  · exact .unchanged
  · exact .releaseFreeze (by simpa [refusedInMaintenance] using mode) ‹_›

theorem clearTrip_moves {s u : State} (h : handle 0x16 clearTripRule s = .next u) : Moves .clearTrip s u := by
  refine handle_moves_of (fun mode p => ?_) h
  unfold clearTripRule
  split
  · exact .unchanged
  · rename_i g named
    split
    · exact .unchanged
    · rename_i absent
      exact .clearTrip g (by simpa [refusedInMaintenance] using mode) (by simp_all)

theorem atBoundary_of_due {s : State} (running : s.inReset = false) (due : s.boundaryDue = true) : AtBoundary s :=
  ⟨running, of_decide_eq_true due⟩

/-- A command whose occurrence is a cycle boundary moves as the boundary does. -/
theorem boundary_moves {c : Instr} {s u : State} {inputs : InputLevels} {due : Bool}
    (h : whenDue s (s.boundaryDue && due) (s.boundaryStep inputs) = .next u) : Moves c s u :=
  whenDue_moves h fun running isDue => .boundary inputs (atBoundary_of_due running (Bool.and_eq_true_iff.mp isDue).1)

/-- A command whose occurrence is a sample event moves as the sample event does. -/
theorem sample_moves {c : Instr} {s u : State} {raw : RawCodes} {due : Bool}
    (h : whenDue s (s.sampleDue && due) (s.sampleStep raw) = .next u) : Moves c s u :=
  whenDue_moves h fun _ isDue => .sample raw (of_decide_eq_true (Bool.and_eq_true_iff.mp isDue).1)

theorem confirm_moves {c : Instr} {s u : State} {due : Bool} (h : whenDue s due s.confirmStep = .next u) : Moves c s u :=
  whenDue_moves h fun _ _ => .confirm s

theorem linkCharacter_moves {s t : State} {elapsed : Nat} {b : Byte} {stop : Bool}
    (h : execLinkCharacter elapsed b stop s = .next t) : Moves (.linkCharacter elapsed b stop) s t := by
  unfold execLinkCharacter at h
  cases running : s.inReset with
  | false => rw [whenRunning_of_running running] at h; cases h; exact .character s ⟨stop, .inl rfl⟩
  | true => rw [whenRunning_of_reset running] at h; cases h; exact .idle

theorem nonRequestKind_moves {s t : State} (h : execNonRequestKind s = .next t) : Moves .nonRequestKind s t := by
  unfold execNonRequestKind at h
  split at h
  · rename_i q taken
    refine whenDue_moves h fun _ _ => ?_
    obtain ⟨stage, readied, e⟩ := s.answer_eq q (.refused .unknownKind)
    rw [e]
    exact .request .unchanged stage readied
  · cases h
    exact .idle

/-- Every command moves the part as `Moves` says. -/
theorem exec_moves {c : Instr} {s t : State} (h : exec c s = .next t) : Moves c s t := by
  cases c with
  | reset written => cases h; exact .reset written s
  | resetRelease strap reference =>
    cases h
    split
    · exact .release strap reference ‹_›
    · exact .idle
  | referencePolarityChange elapsed p => exact whenDue_moves h fun _ _ => .polarity elapsed p s
  | polarityConfirmed => exact confirm_moves h
  | lockAchieved => exact confirm_moves h
  | relock => exact confirm_moves h
  | missTimer => exact whenDue_moves h fun _ due => .miss due
  | holdoverEntry kind =>
    cases kind with
    | crossing => exact confirm_moves h
    | missTimer => exact whenDue_moves h fun _ due => .miss (Bool.and_eq_true_iff.mp due).1
  | sampleEvent raw => exact whenDue_moves h fun _ due => .sample raw (of_decide_eq_true due)
  | holdEnd ch raw => exact sample_moves h
  | filteredOutputChange g comp raw => exact sample_moves h
  | cycleBoundary inputs => exact whenDue_moves h fun running due => .boundary inputs (atBoundary_of_due running due)
  | holdoverLimit inputs => exact boundary_moves h
  | windowBoundary inputs => exact boundary_moves h
  | inputClosed g inputs => exact boundary_moves h
  | inputOpen g inputs => exact boundary_moves h
  | settleCountExpiry g inputs => exact boundary_moves h
  | ringFrozen inputs => exact boundary_moves h
  | reportHoldEnd inputs => exact boundary_moves h
  | jobStart => exact whenDue_moves h fun _ due => .jobStart (by simpa using (Bool.and_eq_true_iff.mp due).1)
  | jobCompletion => exact whenDue_moves h fun _ _ => .jobCompletion s
  | evaluationPass => exact whenDue_moves h fun _ _ => .pass s
  | linkCharacter elapsed b stop => exact linkCharacter_moves h
  | frameAccepted elapsed b stop => exact whenDue_moves h fun _ _ => .character s ⟨stop, .inr rfl⟩
  | gapTimeout => exact whenDue_moves h fun _ _ => .gap s
  | nonRequestKind => exact nonRequestKind_moves h
  | transmitStart => exact whenDue_moves h fun _ _ => .transmit s
  | frameSent => exact whenDue_moves h fun _ _ => .sent s
  | identify => exact handle_moves identifyRule_effect h
  | getStatus => exact handle_moves getStatusRule_effect h
  | clearFlags => exact handle_moves clearFlagsRule_effect h
  | setFlagMask => exact handle_moves setFlagMaskRule_effect h
  | getWindow => exact handle_moves getWindowRule_effect h
  | getLines => exact handle_moves getLinesRule_effect h
  | scanLines => exact handle_moves scanLinesRule_effect h
  | readSamples => exact handle_moves readSamplesRule_effect h
  | setFreeze => exact handle_moves setFreezeRule_effect h
  | forceFreeze => exact forceFreeze_moves h
  | releaseFreeze => exact releaseFreeze_moves h
  | setLimit => exact handle_moves setLimitRule_effect h
  | getLimit => exact handle_moves getLimitRule_effect h
  | deleteLimit => exact handle_moves deleteLimitRule_effect h
  | setWeights => exact handle_moves setWeightsRule_effect h
  | setChannel => exact handle_moves setChannelRule_effect h
  | setComparator => exact handle_moves setComparatorRule_effect h
  | setAnalysis => exact handle_moves setAnalysisRule_effect h
  | getSettings => exact handle_moves getSettingsRule_effect h
  | getCounters => exact handle_moves getCountersRule_effect h
  | setCounter => exact handle_moves setCounterRule_effect h
  | clearTrip => exact clearTrip_moves h
  | holdReports => exact handle_moves holdReportsRule_effect h
  | syncPoint => exact handle_moves syncPointRule_effect h
  | storeSettings => exact handle_moves storeSettingsRule_effect h
  | storeCompletion readBack => exact whenDue_moves h fun _ _ => .stored readBack s
  | checkSettings => exact handle_moves checkSettingsRule_effect h
  | checkCompletion => exact whenDue_moves h fun _ _ => .checked s
  | restart => exact handle_moves restartRule_effect h
  | restartExecution => exact whenDue_moves h fun running _ => .restarted running
  | leaveMaintenance => exact handle_moves leaveMaintenanceRule_effect h

/-- A step takes the command at the front of the queue, if there is one. -/
theorem step_moves {s t : State} (h : step s = .next t) :
    t = s ∨ ∃ c rest, s.pending = c :: rest ∧ Moves c { s with pending := rest } t := by
  unfold step at h
  split at h
  · cases h; exact .inl rfl
  · rename_i c rest front
    exact .inr ⟨c, rest, front, exec_moves h⟩

/-- What does not look at the queue and is kept by every move of the commands `allowed` is kept by every step of such a command. -/
theorem step_keeps {P : State → Prop} {allowed : Instr → Prop}
    (queue : ∀ s rest, P s → P { s with pending := rest })
    (moves : ∀ {c s t}, allowed c → Moves c s t → P s → P t) {s t : State} (front : ∀ c, s.pending.head? = some c → allowed c)
    (before : P s) (h : step s = .next t) : P t := by
  obtain rfl | ⟨c, rest, pending, move⟩ := step_moves h
  · exact before
  · exact moves (front c (by simp [pending])) move (queue s rest before)

end Sys2Proof.Machine
end

