-- ==== Sys2Proof/Proofs/Frames.lean ====
section
/-! PROOFS. What each shared operation leaves unchanged, in a form that composes: the state after it is the state before it with the named
fields replaced. -/

namespace Sys2Proof.Machine

open Sys2Proof.Safety

/-- What every single step of a fold does, composed, the fold does. -/
theorem foldl_keeps {α β : Type} {R : α → α → Prop} (refl : ∀ a, R a a) (trans : ∀ {a b c}, R a b → R b c → R a c)
    {f : α → β → α} (step : ∀ a b, R a (f a b)) (l : List β) (a : α) : R a (l.foldl f a) := by
  induction l generalizing a with
  | nil => exact refl a
  | cons b l ih => exact trans (step a b) (ih _)

/-! ### The crossing detector and the tracker -/

/-- A crossing touches neither the cycle in progress nor the detector but for the stamp of the crossing before. -/
theorem CycleTracker.crossing_frame (c : CycleTracker) (stamp : Count) :
    c.crossing stamp =
      { c with
        previous := some stamp, tracker := (c.crossing stamp).tracker, accepted := (c.crossing stamp).accepted,
        lastInRange := (c.crossing stamp).lastInRange, runCount := (c.crossing stamp).runCount,
        missCount := (c.crossing stamp).missCount, holdoverCycles := (c.crossing stamp).holdoverCycles,
        origin := (c.crossing stamp).origin, missTimer := (c.crossing stamp).missTimer,
        holdoverMark := (c.crossing stamp).holdoverMark, steering := (c.crossing stamp).steering } := by
  unfold CycleTracker.crossing
  cases c.judge stamp <;> rfl

/-- The cycle in progress is the same: its number and the sample events issued. -/
structure SameCycle (c d : CycleTracker) : Prop where
  cycle : d.cycle = c.cycle
  issued : d.issued = c.issued

theorem SameCycle.trans {c d e : CycleTracker} (h : SameCycle c d) (k : SameCycle d e) : SameCycle c e :=
  ⟨k.cycle.trans h.cycle, k.issued.trans h.issued⟩

theorem CycleTracker.crossing_sameCycle (c : CycleTracker) (stamp : Count) : SameCycle c (c.crossing stamp) := by
  rw [c.crossing_frame]
  exact ⟨rfl, rfl⟩

theorem CycleTracker.confirm_of_none {c : CycleTracker} (h : c.candidate = none) : c.confirm = (c, []) := by
  simp [CycleTracker.confirm, h]

/-- The candidate is confirmed, with the crossing it issues left out (R21). -/
def CycleTracker.confirmedAs (c : CycleTracker) (k : Candidate) : CycleTracker :=
  { c.reach (k.stamp + BitVec.ofNat 64 Config.confirmCounts) with confirmed := some k.polarity, candidate := none }

theorem CycleTracker.confirm_of_issues {c : CycleTracker} {k : Candidate} {stamp : Count} (h : c.candidate = some k)
    (issues : c.issues = some stamp) :
    c.confirm = ((c.confirmedAs k).crossing stamp,
      syncNotices (c.confirmedAs k) ((c.confirmedAs k).crossing stamp) .crossing (((c.confirmedAs k).period stamp).getD 0)) := by
  simp only [CycleTracker.confirm, h, issues]
  rfl

theorem CycleTracker.confirm_of_silent {c : CycleTracker} {k : Candidate} (h : c.candidate = some k) (silent : c.issues = none) :
    c.confirm = (c.confirmedAs k, []) := by
  simp only [CycleTracker.confirm, h, silent]
  rfl

theorem CycleTracker.confirm_sameCycle (c : CycleTracker) : SameCycle c c.confirm.1 := by
  cases h : c.candidate with
  | none => rw [CycleTracker.confirm_of_none h]; exact ⟨rfl, rfl⟩
  | some k =>
    have confirmed : SameCycle c (c.confirmedAs k) := by constructor <;> simp [CycleTracker.confirmedAs, CycleTracker.reach]
    cases issues : c.issues with
    | none => rw [CycleTracker.confirm_of_silent h issues]; exact confirmed
    | some stamp => rw [CycleTracker.confirm_of_issues h issues]; exact confirmed.trans (CycleTracker.crossing_sameCycle _ _)

theorem CycleTracker.expire_sameCycle (c : CycleTracker) (due : Count) : SameCycle c (c.expire due) := by
  unfold CycleTracker.expire
  dsimp only
  split <;> exact ⟨rfl, rfl⟩

/-! ### Moves that touch only CT, LC and the image -/

/-- Nothing changes but CT, within the cycle in progress, LC, and the image with the store or check in flight. -/
def Minor (s t : State) : Prop :=
  ∃ ct lc image flight freeNext, SameCycle s.ct ct ∧
    t = (((s.setCt ct).setLc lc).setSs { s.ss with image := image, flight := flight }).setFreeNext freeNext

theorem Minor.of_link (s : State) (lc : LinkController) : Minor s (s.setLc lc) :=
  ⟨s.ct, lc, s.ss.image, s.ss.flight, s.freeNext, ⟨rfl, rfl⟩, rfl⟩

theorem Minor.of_tracker {s : State} {ct : CycleTracker} (lc : LinkController) (same : SameCycle s.ct ct) :
    Minor s ((s.setCt ct).setLc lc) := ⟨ct, lc, s.ss.image, s.ss.flight, s.freeNext, same, rfl⟩

theorem Minor.refl (s : State) : Minor s s := .of_link s s.lc

theorem State.confirmStep_minor (s : State) : Minor s s.confirmStep := .of_tracker _ s.ct.confirm_sameCycle

/-- CT after a polarity change: the candidate overdue is confirmed first (log entry 10). -/
def CycleTracker.beforePolarity (c : CycleTracker) (elapsed : Nat) : CycleTracker × List Notice :=
  if (c.elapse elapsed).overdue then (c.elapse elapsed).confirm else (c.elapse elapsed, [])

theorem State.polarityStep_eq (s : State) (elapsed : Nat) (p : Polarity) :
    s.polarityStep elapsed p =
      (s.setCt ((s.ct.beforePolarity elapsed).1.newPolarity p)).setLc
        (s.lc.post s.ct.cycle (s.ct.beforePolarity elapsed).2) := by
  have same := (s.ct.elapse elapsed).confirm_sameCycle
  by_cases overdue : (s.ct.elapse elapsed).overdue = true
  · simp only [State.polarityStep, CycleTracker.beforePolarity, State.setCt_ct, overdue, if_true, State.confirmStep, State.post,
      State.setCt_lc, State.setLc_ct, same.cycle]
    rfl
  · simp only [State.polarityStep, CycleTracker.beforePolarity, State.setCt_ct, overdue]
    rfl

theorem CycleTracker.beforePolarity_sameCycle (c : CycleTracker) (elapsed : Nat) : SameCycle c (c.beforePolarity elapsed).1 := by
  unfold CycleTracker.beforePolarity
  have same : SameCycle c (c.elapse elapsed) := ⟨rfl, rfl⟩
  split
  · exact same.trans (CycleTracker.confirm_sameCycle _)
  · exact same

theorem State.polarityStep_minor (s : State) (elapsed : Nat) (p : Polarity) : Minor s (s.polarityStep elapsed p) := by
  rw [State.polarityStep_eq]
  exact .of_tracker _ ((s.ct.beforePolarity_sameCycle elapsed).trans ⟨rfl, rfl⟩)

theorem State.missStep_of_timer {s : State} {due : Count} (h : s.ct.missTimer = some due) :
    s.missStep = (s.setCt (s.ct.expire due)).post (syncNotices s.ct (s.ct.expire due) .missTimer 0) := by
  simp [State.missStep, h]

theorem CycleTracker.timer_of_missDue {c : CycleTracker} (h : c.missDue = true) :
    c.tracker = .locked ∧ ∃ due, c.missTimer = some due := by
  simpa [CycleTracker.missDue, Option.isSome_iff_exists] using h

theorem State.missStep_minor {s : State} (due : s.ct.missDue = true) : Minor s s.missStep := by
  obtain ⟨-, count, timer⟩ := CycleTracker.timer_of_missDue due
  rw [State.missStep_of_timer timer]
  exact .of_tracker _ (s.ct.expire_sameCycle count)

theorem State.receiveCharacter_minor (s : State) (elapsed : Nat) (b : Byte) : Minor s (s.receiveCharacter elapsed b) :=
  .of_tracker _ ⟨rfl, rfl⟩

theorem State.gapStep_minor (s : State) : Minor s s.gapStep := .of_tracker _ ⟨rfl, rfl⟩

theorem State.completeStore_minor (readBack : StoredImage) (s : State) : Minor s (s.completeStore readBack) := by
  unfold State.completeStore
  split
  · dsimp only
    split <;> exact ⟨s.ct, _, readBack, none, s.freeAfterWrite, ⟨rfl, rfl⟩, rfl⟩
  · exact .refl s

theorem State.completeCheck_minor (s : State) : Minor s s.completeCheck :=
  ⟨s.ct, s.completeCheck.lc, s.ss.image, none, s.freeNext, ⟨rfl, rfl⟩, rfl⟩

/-- A command whose move reaches past CT, LC and the image does one of the things named here. -/
theorem Moves.minor_or {c : Instr} {s t : State} (h : Moves c s t) {P : Prop}
    (minor : Minor s t → P)
    (reset : ∀ written, t = s.heldInReset written → P)
    (release : ∀ strap reference, c = .resetRelease strap reference → t = s.release strap reference → P)
    (sample : ∀ raw, s.ct.issued < 120 → t = s.sampleStep raw → P)
    (boundary : ∀ inputs, AtBoundary s → t = s.boundaryStep inputs → P)
    (jobStart : s.ae.unitBusy = false → t = s.startNext → P)
    (jobCompletion : t = s.completeJob → P)
    (pass : t = s.passStep → P)
    (request : ∀ u stage readied, Effect s c u → t = u.setLc (u.lc.staged stage readied) → P)
    (restarted : t = s.restartStep → P) : P := by
  cases h with
  | idle => exact minor (.refl s)
  | reset written => exact reset written rfl
  | release strap reference held => exact release strap reference rfl rfl
  | polarity elapsed p => exact minor (s.polarityStep_minor elapsed p)
  | confirm => exact minor s.confirmStep_minor
  | miss due => exact minor (State.missStep_minor due)
  | sample raw due => exact sample raw due rfl
  | boundary inputs at_end => exact boundary inputs at_end rfl
  | jobStart free => exact jobStart free rfl
  | jobCompletion => exact jobCompletion rfl
  | pass => exact pass rfl
  | character s received => exact minor (s.receiveCharacter_minor _ _)
  | gap => exact minor s.gapStep_minor
  | request effect stage readied => exact request _ stage readied effect rfl
  | transmit => exact minor (.of_link s _)
  | sent => exact minor (.of_link s _)
  | stored readBack => exact minor (s.completeStore_minor readBack)
  | checked => exact minor s.completeCheck_minor
  | restarted running => exact restarted rfl

/-! ### Reports enqueued -/

/-- LC after reports enqueued and flags raised: nothing else moves, the queue keeps its bounds, and no flag is cleared (R164, R168). -/
structure Enqueues (l m : LinkController) : Prop where
  same : SameButQueue l m
  fits : QueueFits l → QueueFits m
  flags : ∀ f, flagOf l.flags f = true → flagOf m.flags f = true

theorem Enqueues.refl (l : LinkController) : Enqueues l l := ⟨.refl l, id, fun _ => id⟩

theorem Enqueues.trans {l m n : LinkController} (h : Enqueues l m) (k : Enqueues m n) : Enqueues l n :=
  ⟨h.same.trans k.same, k.fits ∘ h.fits, fun f => k.flags f ∘ h.flags f⟩

theorem LinkController.post_enqueues (cycle : Word) (l : LinkController) (ns : List Notice) : Enqueues l (l.post cycle ns) :=
  ⟨LinkController.post_same .., LinkController.post_fits cycle ns, fun _ => LinkController.post_flag cycle ns⟩

theorem State.post_enqueues (s : State) (ns : List Notice) : Enqueues s.lc (s.post ns).lc := LinkController.post_enqueues ..

/-! ### Verdicts, latches, freeze triggers -/

/-- Only verdicts, the alert line and what LC has queued change. -/
def OnlyVerdicts (s t : State) : Prop :=
  ∃ verdicts alert lc, Enqueues s.lc lc ∧ t = (s.setLe { s.le with verdicts := verdicts, alert := alert }).setLc lc

theorem OnlyVerdicts.refl (s : State) : OnlyVerdicts s s := ⟨s.le.verdicts, s.le.alert, s.lc, .refl _, rfl⟩

theorem OnlyVerdicts.trans {s t u : State} (h : OnlyVerdicts s t) (k : OnlyVerdicts t u) : OnlyVerdicts s u := by
  obtain ⟨verdicts, alert, lc, same, rfl⟩ := h
  obtain ⟨verdicts', alert', lc', same', rfl⟩ := k
  exact ⟨verdicts', alert', lc', same.trans same', rfl⟩

theorem OnlyVerdicts.post (s : State) (ns : List Notice) : OnlyVerdicts s (s.post ns) :=
  ⟨s.le.verdicts, s.le.alert, _, s.post_enqueues ns, rfl⟩

theorem State.setVerdict_only (s : State) (g : GroupId) (v : Verdict) (holder : Option (Nat × Bool)) (cause : VerdictCause)
    (window : Word) : OnlyVerdicts s (s.setVerdict g v holder cause window) := by
  unfold State.setVerdict
  dsimp only
  split
  · exact .refl s
  · exact ⟨_, _, _, LinkController.post_enqueues .., rfl⟩

theorem State.recompute_only (cause : VerdictCause) (window : Word) (s : State) (g : GroupId) :
    OnlyVerdicts s (s.recompute cause window g) := State.setVerdict_only ..

theorem State.recomputeAll_only (s : State) (cause : VerdictCause) (window : Word) : OnlyVerdicts s (s.recomputeAll cause window) :=
  foldl_keeps OnlyVerdicts.refl OnlyVerdicts.trans (State.recompute_only cause window) _ s

/-- Only latches, trip lines and the alert line change. -/
def OnlyLatches (s t : State) : Prop :=
  ∃ latches tripLines alert, t = s.setLe { s.le with latches := latches, tripLines := tripLines, alert := alert }

theorem OnlyLatches.refl (s : State) : OnlyLatches s s := ⟨s.le.latches, s.le.tripLines, s.le.alert, rfl⟩

theorem OnlyLatches.trans {s t u : State} (h : OnlyLatches s t) (k : OnlyLatches t u) : OnlyLatches s u := by
  obtain ⟨latches, tripLines, alert, rfl⟩ := h
  obtain ⟨latches', tripLines', alert', rfl⟩ := k
  exact ⟨latches', tripLines', alert', rfl⟩

theorem State.tripRisen_only (before : Quad Verdict) (s : State) (g : GroupId) : OnlyLatches s (s.tripRisen before g) := by
  unfold State.tripRisen
  split
  · exact ⟨_, _, _, rfl⟩
  · exact .refl s

/-- Only CR's freeze state and what LC has queued change. -/
def OnlyFreeze (s t : State) : Prop :=
  ∃ state postCount trigger ignored lc, Enqueues s.lc lc ∧
    t = (s.setCr { s.cr with state := state, postCount := postCount, trigger := trigger, ignored := ignored }).setLc lc

theorem OnlyFreeze.refl (s : State) : OnlyFreeze s s :=
  ⟨s.cr.state, s.cr.postCount, s.cr.trigger, s.cr.ignored, s.lc, .refl _, rfl⟩

theorem OnlyFreeze.trans {s t u : State} (h : OnlyFreeze s t) (k : OnlyFreeze t u) : OnlyFreeze s u := by
  obtain ⟨state, postCount, trigger, ignored, lc, same, rfl⟩ := h
  obtain ⟨state', postCount', trigger', ignored', lc', same', rfl⟩ := k
  exact ⟨state', postCount', trigger', ignored', lc', same.trans same', rfl⟩

theorem State.offerTrigger_only (s : State) (r : TriggerRecord) : OnlyFreeze s (s.offerTrigger r) := by
  unfold State.offerTrigger
  split
  · obtain ⟨-, taken⟩ | ⟨-, ignored⟩ := s.cr.consider_cases s.ss.working.freeze.postCycles r
    · rw [taken]; exact ⟨_, _, _, _, _, LinkController.post_enqueues .., rfl⟩
    · rw [ignored]; exact ⟨_, _, _, _, _, LinkController.post_enqueues .., rfl⟩
  · exact .refl s

theorem State.offerVerdict_only (before : Quad Verdict) (window : Word) (s : State) (g : GroupId) :
    OnlyFreeze s (s.offerVerdict before window g) := by
  unfold State.offerVerdict
  dsimp only
  split
  · exact .refl s
  · split
    · exact s.offerTrigger_only _
    · exact s.offerTrigger_only _
    · exact .refl s

/-! ### The classes of a SYNC_POINT -/

/-- Only the SYNC_POINT and the stages of the pending list change. -/
def OnlySync (l m : LinkController) : Prop :=
  ∃ sync entries readied, entries.map Entry.request = l.entries.map Entry.request ∧
    m = { l with sync := sync, entries := entries, readied := readied }

theorem LinkController.replyDeferred_only (l : LinkController) (kind status : Byte) (fields : List Byte) :
    OnlySync l (l.replyDeferred kind status fields) := by
  unfold LinkController.replyDeferred
  split
  · exact ⟨l.sync, _, _, restage_requests .., rfl⟩
  · exact ⟨l.sync, l.entries, l.readied, rfl, rfl⟩

theorem LinkController.syncReady_only (l : LinkController) : OnlySync l l.syncReady := by
  unfold LinkController.syncReady
  split
  · obtain ⟨sync, entries, readied, requests, e⟩ := LinkController.replyDeferred_only { l with sync := none } 0x18 0 (syncFields _ _)
    exact ⟨sync, entries, readied, requests, e⟩
  · exact ⟨l.sync, l.entries, l.readied, rfl, rfl⟩

theorem LinkController.closeLimit_only (l : LinkController) (point : Option Word) : OnlySync l (l.closeLimit point) := by
  unfold LinkController.closeLimit
  split
  · obtain ⟨sync, entries, readied, requests, e⟩ := LinkController.syncReady_only { l with sync := some _ }
    exact ⟨sync, entries, readied, requests, e⟩
  · exact ⟨l.sync, l.entries, l.readied, rfl, rfl⟩

theorem LinkController.closeAnalysis_only (l : LinkController) (point : Option Word) : OnlySync l (l.closeAnalysis point) := by
  unfold LinkController.closeAnalysis
  split
  · obtain ⟨sync, entries, readied, requests, e⟩ := LinkController.syncReady_only { l with sync := some _ }
    exact ⟨sync, entries, readied, requests, e⟩
  · exact ⟨l.sync, l.entries, l.readied, rfl, rfl⟩

theorem SameRequests.refl (l : LinkController) : SameRequests l l := ⟨rfl, rfl, rfl⟩

theorem SameRequests.trans {l m n : LinkController} (h : SameRequests l m) (k : SameRequests m n) : SameRequests l n :=
  ⟨k.sync.trans h.sync, k.entries.trans h.entries, k.readied.trans h.readied⟩

theorem SameButQueue.sameRequests {l m : LinkController} (h : SameButQueue l m) : SameRequests l m := ⟨h.sync, h.entries, h.readied⟩

theorem LinkController.replyDeferred_congr {l m : LinkController} (kind status : Byte) (fields : List Byte) (h : SameRequests l m) :
    SameRequests (l.replyDeferred kind status fields) (m.replyDeferred kind status fields) := by
  unfold LinkController.replyDeferred LinkController.deferredRequest
  rw [h.entries]
  split
  · exact ⟨h.sync, by simp [LinkController.makeReady, h.entries, h.readied], by simp [LinkController.makeReady, h.readied]⟩
  · exact h

theorem LinkController.syncReady_congr {l m : LinkController} (h : SameRequests l m) : SameRequests l.syncReady m.syncReady := by
  unfold LinkController.syncReady
  rw [h.sync]
  split
  · exact LinkController.replyDeferred_congr _ _ _ ⟨rfl, h.entries, h.readied⟩
  · exact h

theorem LinkController.closeLimit_congr {l m : LinkController} (point : Option Word) (h : SameRequests l m) :
    SameRequests (l.closeLimit point) (m.closeLimit point) := by
  unfold LinkController.closeLimit
  rw [h.sync]
  split
  · exact LinkController.syncReady_congr ⟨rfl, h.entries, h.readied⟩
  · exact h

theorem LinkController.closeAnalysis_congr {l m : LinkController} (point : Option Word) (h : SameRequests l m) :
    SameRequests (l.closeAnalysis point) (m.closeAnalysis point) := by
  unfold LinkController.closeAnalysis
  rw [h.sync]
  split
  · exact LinkController.syncReady_congr ⟨rfl, h.entries, h.readied⟩
  · exact h

/-! ### Limit edits and the evaluation pass -/

/-- An application point of limit edits is the edited table, then verdicts, then the limit class of a SYNC_POINT. -/
theorem State.applyLimitEdits_frame (s : State) (point : Option Word) :
    ∃ u, OnlyVerdicts s.editTable u ∧ s.applyLimitEdits point = u.setLc (u.lc.closeLimit point) :=
  ⟨_, (OnlyVerdicts.post _ _).trans (State.recomputeAll_only ..), rfl⟩

/-- A pass is the edits, the judged records with the verdicts they give, the latches and the freeze triggers. -/
theorem State.evaluate_frame (s : State) (p : Pass) :
    ∃ u v w, u = s.applyLimitEdits (some p.window) ∧
      OnlyVerdicts (u.setLe { u.le with records := judgeTable u.gm p u.ss.working.limits u.le.records }) v ∧ OnlyLatches v w ∧
      OnlyFreeze w (s.evaluate p) :=
  ⟨_, _, _, rfl, (OnlyVerdicts.post _ _).trans (State.recomputeAll_only ..),
    foldl_keeps OnlyLatches.refl OnlyLatches.trans (State.tripRisen_only _) _ _,
    foldl_keeps OnlyFreeze.refl OnlyFreeze.trans (State.offerVerdict_only _ _) _ _⟩

/-! ### GM at a boundary -/

/-- Only GM, the records, the verdicts, the alert line and what LC has queued change. -/
def OnlyMonitors (s t : State) : Prop :=
  ∃ gm records verdicts alert lc, Enqueues s.lc lc ∧
    t = ((s.setGm gm).setLe { s.le with records := records, verdicts := verdicts, alert := alert }).setLc lc

theorem OnlyMonitors.refl (s : State) : OnlyMonitors s s :=
  ⟨s.gm, s.le.records, s.le.verdicts, s.le.alert, s.lc, .refl _, rfl⟩

theorem OnlyMonitors.trans {s t u : State} (h : OnlyMonitors s t) (k : OnlyMonitors t u) : OnlyMonitors s u := by
  obtain ⟨gm, records, verdicts, alert, lc, same, rfl⟩ := h
  obtain ⟨gm', records', verdicts', alert', lc', same', rfl⟩ := k
  exact ⟨gm', records', verdicts', alert', lc', same.trans same', rfl⟩

theorem OnlyVerdicts.monitors {s t : State} (h : OnlyVerdicts s t) : OnlyMonitors s t := by
  obtain ⟨verdicts, alert, lc, same, rfl⟩ := h
  exact ⟨s.gm, s.le.records, verdicts, alert, lc, same, rfl⟩

theorem OnlyMonitors.of_gm (s : State) (gm : Monitors) : OnlyMonitors s (s.setGm gm) :=
  ⟨gm, s.le.records, s.le.verdicts, s.le.alert, s.lc, .refl _, rfl⟩

theorem OnlyMonitors.of_clear (s : State) (u : UnitId) : OnlyMonitors s (s.setLe (s.le.clearUnit u)) := by
  generalize changed : s.le.clearUnit u = l
  have frame : l = { s.le with records := l.records } := by rw [← changed]; rfl
  exact ⟨s.gm, l.records, s.le.verdicts, s.le.alert, s.lc, .refl _, congrArg s.setLe frame⟩

theorem State.groupOut_only (s : State) (g : GroupId) : OnlyMonitors s (s.groupOut g) :=
  (OnlyMonitors.of_clear s _).trans (State.setVerdict_only ..).monitors

theorem State.groupStep_only (cx : GroupContext) (s : State) (g : GroupId) : OnlyMonitors s (s.groupStep cx g) := by
  unfold State.groupStep
  dsimp only
  split
  · exact .of_gm s _
  · split
    · exact (OnlyMonitors.of_gm s _).trans ((OnlyVerdicts.post _ _).monitors.trans (State.groupOut_only _ g))
    · exact (OnlyMonitors.of_gm s _).trans (OnlyVerdicts.post _ _).monitors

theorem State.pairRecompute_only (before : Quad GroupMonitor) (s : State) (g : GroupId) :
    OnlyVerdicts s (s.pairRecompute before g) := by
  unfold State.pairRecompute
  split
  · exact .refl s
  · exact State.recompute_only ..

theorem State.pairBroken_only (before : Quad GroupMonitor) (s : State) (p : PairId) : OnlyMonitors s (s.pairBroken before p) := by
  unfold State.pairBroken
  dsimp only
  split
  · exact (OnlyMonitors.of_clear s _).trans ((State.pairRecompute_only ..).trans (State.pairRecompute_only ..)).monitors
  · exact .of_clear s _

theorem State.pairStep_only (cx : GroupContext) (before : Quad GroupMonitor) (s : State) (p : PairId) :
    OnlyMonitors s (s.pairStep cx before p) := by
  unfold State.pairStep
  dsimp only
  split
  · exact .refl s
  · split
    · exact (OnlyMonitors.of_gm s _).trans ((OnlyVerdicts.post _ _).monitors.trans (State.pairBroken_only ..))
    · exact (OnlyMonitors.of_gm s _).trans (OnlyVerdicts.post _ _).monitors

theorem State.monitorStep_only (s : State) (cx : GroupContext) : OnlyMonitors s (s.monitorStep cx) :=
  (foldl_keeps OnlyMonitors.refl OnlyMonitors.trans (State.groupStep_only cx) _ s).trans
    (foldl_keeps OnlyMonitors.refl OnlyMonitors.trans (State.pairStep_only cx _) _ _)

end Sys2Proof.Machine
end

