-- ==== Sys2Proof/Proofs/Boundary.lean ====
section
/-! PROOFS. The cycle boundary, block by block: what each block is after it, in terms of the state before it and of the states that GM finds
and leaves. -/

namespace Sys2Proof.Machine

open Sys2Proof.Safety

/-! ### The parts of a boundary -/

/-- CT after the cycle is closed, before the next begins (R28, R30). -/
def State.closedCt (s : State) : CycleTracker := s.ct.closeCycle s.entersFree

/-- The engine with the DEGRADED mark of a cycle that carried the holdover mark (R44). -/
def AnalysisEngine.marked (a : AnalysisEngine) (mark : Bool) : AnalysisEngine := if mark then a.degrade else a

/-- The engine with the cycle counted and the sets of the leaving groups discarded (R40, R45). -/
def AnalysisEngine.counted (a : AnalysisEngine) (mark : Bool) (leaving : Quad Bool) : AnalysisEngine :=
  ((a.marked mark).discardLeaving leaving).countCycle

/-- AE after its part of a boundary, before a window opens. -/
def AnalysisEngine.afterCycle (a : AnalysisEngine) (x : Settings) (mark free ends : Bool) (leaving : Quad Bool) :
    AnalysisEngine :=
  match a.clock with
  | none => a
  | some w =>
    if free then (a.marked mark).discardWindow
    else if ends then (a.counted mark leaving).handOver x w
    else a.counted mark leaving

/-- ST after a boundary that finds the engine `a` (R153). -/
def Statistics.afterCycle (st : Statistics) (a : AnalysisEngine) (mark free ends : Bool) (leaving : Quad Bool) : Statistics :=
  match a.clock with
  | none => st
  | some _ =>
    if free then st.countDiscards (a.marked mark).groupSets (Quad.fill true)
    else if ends then
      (st.countDiscards (a.marked mark).groupSets leaving).countSkips (a.counted mark leaving).skippedGroups
    else st.countDiscards (a.marked mark).groupSets leaving

/-- WINDOW_SKIPPED, where the hand-over finds a busy slot (R46). -/
def AnalysisEngine.skipNotices (a : AnalysisEngine) (mark free ends : Bool) (leaving : Quad Bool) : List Notice :=
  if a.clock.isSome && !free && ends && (a.counted mark leaving).anySkip then [.flag .windowSkipped] else []

/-- Everything up to AE's hand-over. -/
def State.closed (s : State) (inputs : InputLevels) : State :=
  ((s.closeCycle).testUpSwitch (s.ae.stopped || s.endsWindow || s.entersFree)).closeWindowCycle s.ct.holdoverMark s.entersFree
    s.endsWindow (s.leaving inputs)

/-- The same with the analysis class applied. -/
def State.settled (s : State) (inputs : InputLevels) : State :=
  if s.appliesHere then (s.closed inputs).applyAnalysis else s.closed inputs

/-- The state that GM finds: the staged limit edits are applied too, with the clock STOPPED. -/
def State.applied (s : State) (inputs : InputLevels) : State :=
  if s.ae.stopped then (s.settled inputs).applyLimitEdits none else s.settled inputs

/-- What GM is told at a boundary. -/
def State.context (s : State) (inputs : InputLevels) : GroupContext :=
  { inputs := inputs, opens := s.opensWindow, opening := s.openingNumber }

/-- The state that GM leaves. -/
def State.monitored (s : State) (inputs : InputLevels) : State := (s.applied inputs).monitorStep (s.context inputs)

/-- The state in which the next window is open. -/
def State.openedNext (s : State) (inputs : InputLevels) : State :=
  if s.opensWindow then (s.monitored inputs).openWindow else s.monitored inputs

/-- The same with the analysis class of a SYNC_POINT closed. -/
def State.synced (s : State) (inputs : InputLevels) : State :=
  if s.appliesHere then
    (s.openedNext inputs).setLc
      ((s.openedNext inputs).lc.closeAnalysis (if s.opensWindow then some s.openingNumber else none))
  else s.openedNext inputs

theorem State.boundaryStep_parts (s : State) (inputs : InputLevels) :
    s.boundaryStep inputs = (s.synced inputs).ringStep.holdStep.beginCycle s.ct := rfl

/-! ### Up to the state that GM finds -/

theorem State.closeWindowCycle_eq (s : State) (mark free ends : Bool) (leaving : Quad Bool) :
    s.closeWindowCycle mark free ends leaving =
      ((s.setSt (s.st.afterCycle s.ae mark free ends leaving)).setAe (s.ae.afterCycle s.ss.working mark free ends leaving)).post
        (s.ae.skipNotices mark free ends leaving) := by
  unfold State.closeWindowCycle Statistics.afterCycle AnalysisEngine.afterCycle AnalysisEngine.skipNotices
  cases s.ae.clock with
  | none => rfl
  | some w =>
    cases free with
    | true => rfl
    | false =>
      cases ends with
      | false => rfl
      | true =>
        simp only [Option.isSome_some, Bool.not_false, Bool.and_true, Bool.true_and, if_true, Bool.false_eq_true, if_false]
        change (if (s.ae.counted mark leaving).anySkip = true then _ else _) = _
        cases (s.ae.counted mark leaving).anySkip <;> rfl

/-- AE, ST and FE after their parts of the boundary of `s`. -/
def State.closedAe (s : State) (inputs : InputLevels) : AnalysisEngine :=
  s.ae.afterCycle s.ss.working s.ct.holdoverMark s.entersFree s.endsWindow (s.leaving inputs)

def State.closedSt (s : State) (inputs : InputLevels) : Statistics :=
  s.st.afterCycle s.ae s.ct.holdoverMark s.entersFree s.endsWindow (s.leaving inputs)

def State.testedFe (s : State) : FrontEnd :=
  if s.ae.stopped || s.endsWindow || s.entersFree then s.fe.testPoint s.ss.working else s.fe

/-- The notices of CT and AE. -/
def State.closeNotices (s : State) (inputs : InputLevels) : List Notice :=
  syncNotices s.ct s.closedCt .holdoverLimit 0 ++
    s.ae.skipNotices s.ct.holdoverMark s.entersFree s.endsWindow (s.leaving inputs)

theorem State.post_append (s : State) (ns ms : List Notice) : s.post (ns ++ ms) = (s.post ns).post ms := by
  have posts : s.lc.post s.ct.cycle (ns ++ ms) = (s.lc.post s.ct.cycle ns).post s.ct.cycle ms := List.foldl_append ..
  unfold State.post
  rw [posts]
  rfl

theorem State.closed_eq (s : State) (inputs : InputLevels) :
    s.closed inputs =
      (((s.setCt s.closedCt).setFe s.testedFe).setSt (s.closedSt inputs) |>.setAe (s.closedAe inputs)).post
        (s.closeNotices inputs) := by
  have test : s.closeCycle.testUpSwitch (s.ae.stopped || s.endsWindow || s.entersFree) = s.closeCycle.setFe s.testedFe := by
    unfold State.testUpSwitch State.testedFe
    split <;> rfl
  unfold State.closed
  rw [test, State.closeWindowCycle_eq, State.closeNotices, State.post_append]
  rfl

/-! ### The application of what is staged -/

/-- SS with the staged analysis class applied (R47). -/
def SettingsStore.withAnalysis (ss : SettingsStore) : SettingsStore :=
  { ss with working := ss.working.applyAnalysis ss.staged, staged := ss.staged.withoutAnalysis }

/-- SS with the staged limit edits applied (R102). -/
def SettingsStore.withLimits (ss : SettingsStore) : SettingsStore :=
  { ss with working := ss.working.applyLimits ss.staged, staged := ss.staged.withoutLimits }

section
variable (ss : SettingsStore)

@[simp] theorem SettingsStore.withAnalysis_limits : ss.withAnalysis.working.limits = ss.working.limits := by simp [withAnalysis, Settings.applyAnalysis]
@[simp] theorem SettingsStore.withAnalysis_comparators : ss.withAnalysis.working.comparators = ss.working.comparators := by simp [withAnalysis, Settings.applyAnalysis]
@[simp] theorem SettingsStore.withAnalysis_freeze : ss.withAnalysis.working.freeze = ss.working.freeze := by simp [withAnalysis, Settings.applyAnalysis]
@[simp] theorem SettingsStore.withAnalysis_edits : ss.withAnalysis.staged.limits = ss.staged.limits := by
  simp [withAnalysis, Staging.withoutAnalysis]
@[simp] theorem SettingsStore.withLimits_channels : ss.withLimits.working.channels = ss.working.channels := by simp [withLimits, Settings.applyLimits]
@[simp] theorem SettingsStore.withLimits_analysis : ss.withLimits.working.analysis = ss.working.analysis := by simp [withLimits, Settings.applyLimits]
@[simp] theorem SettingsStore.withLimits_weights : ss.withLimits.working.weights = ss.working.weights := by simp [withLimits, Settings.applyLimits]
@[simp] theorem SettingsStore.withLimits_comparators : ss.withLimits.working.comparators = ss.working.comparators := by simp [withLimits, Settings.applyLimits]
@[simp] theorem SettingsStore.withLimits_freeze : ss.withLimits.working.freeze = ss.working.freeze := by simp [withLimits, Settings.applyLimits]
@[simp] theorem SettingsStore.withLimits_staged_channels : ss.withLimits.staged.channels = ss.staged.channels := by
  simp [withLimits, Staging.withoutLimits]
@[simp] theorem SettingsStore.withLimits_staged_analysis : ss.withLimits.staged.analysis = ss.staged.analysis := by
  simp [withLimits, Staging.withoutLimits]
@[simp] theorem SettingsStore.withLimits_staged_weights : ss.withLimits.staged.weights = ss.staged.weights := by
  simp [withLimits, Staging.withoutLimits]
@[simp] theorem SettingsStore.withAnalysis_image : ss.withAnalysis.image = ss.image := by simp [withAnalysis]
@[simp] theorem SettingsStore.withLimits_image : ss.withLimits.image = ss.image := by simp [withLimits]
@[simp] theorem SettingsStore.withAnalysis_flight : ss.withAnalysis.flight = ss.flight := by simp [withAnalysis]
@[simp] theorem SettingsStore.withLimits_flight : ss.withLimits.flight = ss.flight := by simp [withLimits]

end

/-- SS after a boundary. -/
def State.appliedSs (s : State) : SettingsStore :=
  let ss := if s.appliesHere then s.ss.withAnalysis else s.ss
  if s.ae.stopped then ss.withLimits else ss

section
variable (s : State)

@[simp] theorem State.appliedSs_comparators : s.appliedSs.working.comparators = s.ss.working.comparators := by
  unfold State.appliedSs
  cases s.appliesHere <;> cases s.ae.stopped <;> simp

@[simp] theorem State.appliedSs_freeze : s.appliedSs.working.freeze = s.ss.working.freeze := by
  unfold State.appliedSs
  cases s.appliesHere <;> cases s.ae.stopped <;> simp

@[simp] theorem State.appliedSs_image : s.appliedSs.image = s.ss.image := by
  unfold State.appliedSs
  cases s.appliesHere <;> cases s.ae.stopped <;> simp

@[simp] theorem State.appliedSs_flight : s.appliedSs.flight = s.ss.flight := by
  unfold State.appliedSs
  cases s.appliesHere <;> cases s.ae.stopped <;> simp

end

/-- FE after a boundary: the up-switch test, then the staged range modes (R9, R16). -/
def State.appliedFe (s : State) : FrontEnd := if s.appliesHere then s.testedFe.applyStaged s.ss.staged else s.testedFe

/-- The digest counts after a boundary (R166). -/
def State.appliedDigests (s : State) : Quad Nat :=
  if s.appliesHere ∧ s.ss.staged.analysis.isSome = true then Quad.fill 0 else s.lc.digests

theorem State.applyAnalysis_eq (s : State) :
    s.applyAnalysis =
      ((s.setFe (s.fe.applyStaged s.ss.staged)).setLc
        { s.lc with digests := if s.ss.staged.analysis.isSome then Quad.fill 0 else s.lc.digests }).setSs s.ss.withAnalysis := by
  unfold State.applyAnalysis
  cases staged : s.ss.staged.analysis <;> simp only [staged, Option.isSome_none, Option.isSome_some] <;> rfl

theorem State.editTable_eq (s : State) :
    s.editTable = (s.setLe { s.le with records := editedRecords s }).setSs s.ss.withLimits := rfl

/-- An application point of limit edits changes the table with its records, the verdicts with the alert line, and LC. -/
theorem State.applyLimitEdits_eq (s : State) (point : Option Word) :
    ∃ verdicts alert lc, s.applyLimitEdits point =
      ((s.setLe { s.le with records := editedRecords s, verdicts := verdicts, alert := alert }).setSs s.ss.withLimits).setLc lc := by
  obtain ⟨u, ⟨verdicts, alert, lc, -, changed⟩, e⟩ := s.applyLimitEdits_frame point
  rw [e, changed, State.editTable_eq]
  generalize editedRecords s = records
  exact ⟨verdicts, alert, lc.closeLimit point, rfl⟩

theorem State.settled_eq (s : State) (inputs : InputLevels) :
    ∃ lc, s.settled inputs =
      ((((s.setCt s.closedCt).setFe s.appliedFe).setSt (s.closedSt inputs) |>.setAe (s.closedAe inputs)).setSs
        (if s.appliesHere then s.ss.withAnalysis else s.ss)).setLc lc := by
  unfold State.settled State.appliedFe
  rw [State.closed_eq]
  split
  · rw [State.applyAnalysis_eq]; exact ⟨_, rfl⟩
  · exact ⟨_, rfl⟩

/-- The records that GM finds at a boundary. -/
def State.appliedRecords (s : State) : Vector (List (UnitId × CondRecord)) 48 :=
  if s.ae.stopped then editedRecords s else s.le.records

theorem State.settled_editedRecords (s : State) (inputs : InputLevels) : editedRecords (s.settled inputs) = editedRecords s := by
  obtain ⟨lc, e⟩ := s.settled_eq inputs
  unfold editedRecords
  rw [e]
  by_cases applies : s.appliesHere = true
  · simp [applies, SettingsStore.withAnalysis, Staging.withoutAnalysis]
  · simp [applies]

/-- The state that GM finds at a boundary. -/
theorem State.applied_eq (s : State) (inputs : InputLevels) :
    ∃ verdicts alert lc, s.applied inputs =
      (((((s.setCt s.closedCt).setFe s.appliedFe).setSt (s.closedSt inputs) |>.setAe (s.closedAe inputs)).setSs s.appliedSs).setLe
        { s.le with records := s.appliedRecords, verdicts := verdicts, alert := alert }).setLc lc := by
  obtain ⟨lc, e⟩ := s.settled_eq inputs
  have edited := s.settled_editedRecords inputs
  unfold State.applied State.appliedRecords State.appliedSs
  split
  · obtain ⟨verdicts, alert, lc', e'⟩ := (s.settled inputs).applyLimitEdits_eq none
    rw [e', edited, e]
    exact ⟨verdicts, alert, lc', rfl⟩
  · exact ⟨s.le.verdicts, s.le.alert, lc, e⟩

/-- The state that GM leaves at a boundary. -/
theorem State.monitored_eq (s : State) (inputs : InputLevels) :
    ∃ gm records verdicts alert lc, s.monitored inputs =
      ((((((s.setCt s.closedCt).setFe s.appliedFe).setSt (s.closedSt inputs) |>.setAe (s.closedAe inputs)).setSs s.appliedSs).setGm
        gm).setLe { s.le with records := records, verdicts := verdicts, alert := alert }).setLc lc := by
  obtain ⟨verdicts, alert, lc, e⟩ := s.applied_eq inputs
  obtain ⟨gm, records, verdicts', alert', lc', -, e'⟩ := (s.applied inputs).monitorStep_only (s.context inputs)
  unfold State.monitored
  rw [e', e]
  exact ⟨gm, records, verdicts', alert', lc', rfl⟩

/-! ### The state that GM leaves, field by field -/

section
variable (s : State) (inputs : InputLevels)

@[simp] theorem State.applied_pending : (s.applied inputs).pending = s.pending := by
  obtain ⟨verdicts, alert, lc, e⟩ := s.applied_eq inputs
  simp [e]

@[simp] theorem State.applied_inReset : (s.applied inputs).inReset = s.inReset := by
  obtain ⟨verdicts, alert, lc, e⟩ := s.applied_eq inputs
  simp [e]

@[simp] theorem State.applied_mode : (s.applied inputs).mode = s.mode := by
  obtain ⟨verdicts, alert, lc, e⟩ := s.applied_eq inputs
  simp [e]

@[simp] theorem State.applied_fe : (s.applied inputs).fe = s.appliedFe := by
  obtain ⟨verdicts, alert, lc, e⟩ := s.applied_eq inputs
  simp [e]

@[simp] theorem State.applied_fc : (s.applied inputs).fc = s.fc := by
  obtain ⟨verdicts, alert, lc, e⟩ := s.applied_eq inputs
  simp [e]

@[simp] theorem State.applied_st : (s.applied inputs).st = s.closedSt inputs := by
  obtain ⟨verdicts, alert, lc, e⟩ := s.applied_eq inputs
  simp [e]

@[simp] theorem State.applied_freeNext : (s.applied inputs).freeNext = s.freeNext := by
  obtain ⟨verdicts, alert, lc, e⟩ := s.applied_eq inputs
  simp [e]

@[simp] theorem State.applied_ct : (s.applied inputs).ct = s.closedCt := by
  obtain ⟨verdicts, alert, lc, e⟩ := s.applied_eq inputs
  simp [e]

@[simp] theorem State.applied_ae : (s.applied inputs).ae = s.closedAe inputs := by
  obtain ⟨verdicts, alert, lc, e⟩ := s.applied_eq inputs
  simp [e]

@[simp] theorem State.applied_ss : (s.applied inputs).ss = s.appliedSs := by
  obtain ⟨verdicts, alert, lc, e⟩ := s.applied_eq inputs
  simp [e]

@[simp] theorem State.applied_cr : (s.applied inputs).cr = s.cr := by
  obtain ⟨verdicts, alert, lc, e⟩ := s.applied_eq inputs
  simp [e]

@[simp] theorem State.applied_gm : (s.applied inputs).gm = s.gm := by
  obtain ⟨verdicts, alert, lc, e⟩ := s.applied_eq inputs
  simp [e]

@[simp] theorem State.applied_records : (s.applied inputs).le.records = s.appliedRecords := by
  obtain ⟨verdicts, alert, lc, e⟩ := s.applied_eq inputs
  simp [e]

@[simp] theorem State.monitored_pending : (s.monitored inputs).pending = s.pending := by
  obtain ⟨gm, records, verdicts, alert, lc, e⟩ := s.monitored_eq inputs
  simp [e]

@[simp] theorem State.monitored_inReset : (s.monitored inputs).inReset = s.inReset := by
  obtain ⟨gm, records, verdicts, alert, lc, e⟩ := s.monitored_eq inputs
  simp [e]

@[simp] theorem State.monitored_mode : (s.monitored inputs).mode = s.mode := by
  obtain ⟨gm, records, verdicts, alert, lc, e⟩ := s.monitored_eq inputs
  simp [e]

@[simp] theorem State.monitored_fe : (s.monitored inputs).fe = s.appliedFe := by
  obtain ⟨gm, records, verdicts, alert, lc, e⟩ := s.monitored_eq inputs
  simp [e]

@[simp] theorem State.monitored_fc : (s.monitored inputs).fc = s.fc := by
  obtain ⟨gm, records, verdicts, alert, lc, e⟩ := s.monitored_eq inputs
  simp [e]

@[simp] theorem State.monitored_st : (s.monitored inputs).st = s.closedSt inputs := by
  obtain ⟨gm, records, verdicts, alert, lc, e⟩ := s.monitored_eq inputs
  simp [e]

@[simp] theorem State.monitored_freeNext : (s.monitored inputs).freeNext = s.freeNext := by
  obtain ⟨gm, records, verdicts, alert, lc, e⟩ := s.monitored_eq inputs
  simp [e]

@[simp] theorem State.monitored_ct : (s.monitored inputs).ct = s.closedCt := by
  obtain ⟨gm, records, verdicts, alert, lc, e⟩ := s.monitored_eq inputs
  simp [e]

@[simp] theorem State.monitored_ae : (s.monitored inputs).ae = s.closedAe inputs := by
  obtain ⟨gm, records, verdicts, alert, lc, e⟩ := s.monitored_eq inputs
  simp [e]

@[simp] theorem State.monitored_ss : (s.monitored inputs).ss = s.appliedSs := by
  obtain ⟨gm, records, verdicts, alert, lc, e⟩ := s.monitored_eq inputs
  simp [e]

@[simp] theorem State.monitored_cr : (s.monitored inputs).cr = s.cr := by
  obtain ⟨gm, records, verdicts, alert, lc, e⟩ := s.monitored_eq inputs
  simp [e]

@[simp] theorem State.monitored_latches : (s.monitored inputs).le.latches = s.le.latches := by
  obtain ⟨gm, records, verdicts, alert, lc, e⟩ := s.monitored_eq inputs
  simp [e]

@[simp] theorem State.monitored_tripLines : (s.monitored inputs).le.tripLines = s.le.tripLines := by
  obtain ⟨gm, records, verdicts, alert, lc, e⟩ := s.monitored_eq inputs
  simp [e]

end

/-! ### After the boundary -/

/-- The engine after the boundary, `gm` being what GM leaves. -/
def State.openedAe (s : State) (inputs : InputLevels) (gm : Monitors) : AnalysisEngine :=
  if s.opensWindow then (s.closedAe inputs).openWindow s.appliedSs.working.analysis.window (s.ct.cycle + 1) gm
  else s.closedAe inputs

/-- CT `c` at the start of the cycle that begins, `ended` being CT before the boundary. -/
def CycleTracker.begun (c ended : CycleTracker) (nominal : Nominal) : CycleTracker :=
  { c with
    start := ended.endCount
    length := nextLength c.tracker c.accepted nominal (ended.steering.map (phaseOffset ended.start ended.length))
    issued := 0
    holdoverMark := decide (c.tracker = .holdover)
    steering := none }

/-- CT after the boundary. -/
def State.begunCt (s : State) : CycleTracker := s.closedCt.begun s.ct s.appliedSs.working.analysis.nominal

theorem CycleTracker.closeCycle_cycle (c : CycleTracker) (free : Bool) : (c.closeCycle free).cycle = c.cycle + 1 := by
  unfold CycleTracker.closeCycle
  dsimp only
  split
  · split <;> rfl
  · rfl

/-- CR, the report hold and CT at the end of a boundary. -/
theorem State.boundaryTail_eq (u : State) (c : CycleTracker) :
    u.ringStep.holdStep.beginCycle c =
      ((u.setCr (u.cr.boundary u.ct.cycle).1).setLc u.ringStep.holdStep.lc).setCt
        (u.ct.begun c u.ss.working.analysis.nominal) := rfl

/-- The state in which the next window is open, but for LC. -/
theorem State.synced_eq (s : State) (inputs : InputLevels) :
    ∃ lc, s.synced inputs = ((s.monitored inputs).setAe (s.openedAe inputs (s.monitored inputs).gm)).setLc lc := by
  have cycle : s.closedCt.cycle = s.ct.cycle + 1 := CycleTracker.closeCycle_cycle ..
  have opened : s.openedNext inputs = (s.monitored inputs).setAe (s.openedAe inputs (s.monitored inputs).gm) := by
    unfold State.openedNext State.openedAe
    rw [← s.monitored_ae inputs, ← cycle, ← s.monitored_ct inputs, ← s.monitored_ss inputs]
    split <;> rfl
  unfold State.synced
  rw [opened]
  split
  · exact ⟨_, rfl⟩
  · exact ⟨(s.monitored inputs).lc, rfl⟩

/-! ### Field by field -/

section
variable (s : State) (inputs : InputLevels)

@[simp] theorem State.boundaryStep_pending : (s.boundaryStep inputs).pending = s.pending := by
  obtain ⟨lc, e⟩ := s.synced_eq inputs
  simp [State.boundaryStep_parts, State.boundaryTail_eq, e]

@[simp] theorem State.boundaryStep_inReset : (s.boundaryStep inputs).inReset = s.inReset := by
  obtain ⟨lc, e⟩ := s.synced_eq inputs
  simp [State.boundaryStep_parts, State.boundaryTail_eq, e]

@[simp] theorem State.boundaryStep_mode : (s.boundaryStep inputs).mode = s.mode := by
  obtain ⟨lc, e⟩ := s.synced_eq inputs
  simp [State.boundaryStep_parts, State.boundaryTail_eq, e]

@[simp] theorem State.boundaryStep_fe : (s.boundaryStep inputs).fe = s.appliedFe := by
  obtain ⟨lc, e⟩ := s.synced_eq inputs
  simp [State.boundaryStep_parts, State.boundaryTail_eq, e]

@[simp] theorem State.boundaryStep_gm : (s.boundaryStep inputs).gm = (s.monitored inputs).gm := by
  obtain ⟨lc, e⟩ := s.synced_eq inputs
  simp [State.boundaryStep_parts, State.boundaryTail_eq, e]

@[simp] theorem State.boundaryStep_le : (s.boundaryStep inputs).le = (s.monitored inputs).le := by
  obtain ⟨lc, e⟩ := s.synced_eq inputs
  simp [State.boundaryStep_parts, State.boundaryTail_eq, e]

@[simp] theorem State.boundaryStep_fc : (s.boundaryStep inputs).fc = s.fc := by
  obtain ⟨lc, e⟩ := s.synced_eq inputs
  simp [State.boundaryStep_parts, State.boundaryTail_eq, e]

@[simp] theorem State.boundaryStep_st : (s.boundaryStep inputs).st = s.closedSt inputs := by
  obtain ⟨lc, e⟩ := s.synced_eq inputs
  simp [State.boundaryStep_parts, State.boundaryTail_eq, e]

@[simp] theorem State.boundaryStep_freeNext : (s.boundaryStep inputs).freeNext = s.freeNext := by
  obtain ⟨lc, e⟩ := s.synced_eq inputs
  simp [State.boundaryStep_parts, State.boundaryTail_eq, e]

@[simp] theorem State.boundaryStep_ct : (s.boundaryStep inputs).ct = s.begunCt := by
  obtain ⟨lc, e⟩ := s.synced_eq inputs
  simp [State.boundaryStep_parts, State.boundaryTail_eq, e, State.begunCt]

@[simp] theorem State.boundaryStep_ae : (s.boundaryStep inputs).ae = s.openedAe inputs (s.monitored inputs).gm := by
  obtain ⟨lc, e⟩ := s.synced_eq inputs
  simp [State.boundaryStep_parts, State.boundaryTail_eq, e]

@[simp] theorem State.boundaryStep_ss : (s.boundaryStep inputs).ss = s.appliedSs := by
  obtain ⟨lc, e⟩ := s.synced_eq inputs
  simp [State.boundaryStep_parts, State.boundaryTail_eq, e]

@[simp] theorem State.boundaryStep_cr : (s.boundaryStep inputs).cr = (s.cr.boundary (s.ct.cycle + 1)).1 := by
  have cycle : s.closedCt.cycle = s.ct.cycle + 1 := CycleTracker.closeCycle_cycle ..
  obtain ⟨lc, e⟩ := s.synced_eq inputs
  simp [State.boundaryStep_parts, State.boundaryTail_eq, e, cycle]

end

end Sys2Proof.Machine
end

