-- ==== Sys2Proof/Proofs/EventFrames.lean ====
section
/-! PROOFS. What the sample event, the evaluation pass and the finishing jobs leave unchanged, field by field. -/

namespace Sys2Proof.Machine

open Sys2Proof.Safety

/-! ### The sample event -/

/-- Only comparators, latches with their lines, the freeze state and what LC has queued change. -/
structure OnlyTrips (s t : State) : Prop where
  pending : t.pending = s.pending
  inReset : t.inReset = s.inReset
  mode : t.mode = s.mode
  fe : t.fe = s.fe
  ct : t.ct = s.ct
  ae : t.ae = s.ae
  gm : t.gm = s.gm
  st : t.st = s.st
  ss : t.ss = s.ss
  freeNext : t.freeNext = s.freeNext
  records : t.le.records = s.le.records
  verdicts : t.le.verdicts = s.le.verdicts
  slots : t.cr.slots = s.cr.slots
  current : t.cr.current = s.cr.current
  release : t.cr.releasePending = s.cr.releasePending
  link : Enqueues s.lc t.lc

theorem OnlyTrips.refl (s : State) : OnlyTrips s s := by constructor <;> first | rfl | exact Enqueues.refl _

theorem OnlyTrips.trans {s t u : State} (h : OnlyTrips s t) (k : OnlyTrips t u) : OnlyTrips s u where
  pending := k.pending.trans h.pending
  inReset := k.inReset.trans h.inReset
  mode := k.mode.trans h.mode
  fe := k.fe.trans h.fe
  ct := k.ct.trans h.ct
  ae := k.ae.trans h.ae
  gm := k.gm.trans h.gm
  st := k.st.trans h.st
  ss := k.ss.trans h.ss
  freeNext := k.freeNext.trans h.freeNext
  records := k.records.trans h.records
  verdicts := k.verdicts.trans h.verdicts
  slots := k.slots.trans h.slots
  current := k.current.trans h.current
  release := k.release.trans h.release
  link := h.link.trans k.link

/-- A trigger that is considered leaves the slots alone. -/
theorem CaptureRing.considerWhen_frame (c : CaptureRing) (on : Bool) (post : Nat) (r : TriggerRecord) :
    (c.considerWhen on post r).1.slots = c.slots ∧ (c.considerWhen on post r).1.current = c.current ∧
      (c.considerWhen on post r).1.releasePending = c.releasePending := by
  cases on with
  | false => exact ⟨rfl, rfl, rfl⟩
  | true =>
    obtain ⟨-, taken⟩ | ⟨-, ignored⟩ := c.consider_cases post r
    · simp [CaptureRing.considerWhen, taken]
    · simp [CaptureRing.considerWhen, ignored]

theorem State.carryOut_only (s : State) (j : CompJudgement) (gc : GroupId × CompId) : OnlyTrips s (s.carryOut j gc) := by
  obtain ⟨slots, current, release⟩ :=
    s.cr.considerWhen_frame j.offers s.ss.working.freeze.postCycles (comparatorRecord s.ct.cycle gc)
  have le : (s.carryOut j gc).le = if j.trips then s.le.setLatch s.mode gc.1 true else s.le := rfl
  refine ⟨rfl, rfl, rfl, rfl, rfl, rfl, rfl, rfl, rfl, rfl, ?_, ?_, slots, current, release, LinkController.post_enqueues ..⟩
  · rw [le]; split <;> rfl
  · rw [le]; split <;> rfl

theorem State.judgeComparator_only (ys : PerChannel Sample) (index : Nat) (s : State) (gc : GroupId × CompId) :
    OnlyTrips s (s.judgeComparator ys index gc.1 gc.2) := by
  rw [State.judgeComparator_eq]
  exact s.carryOut_only _ gc

theorem OnlyTrips.of_comparators (s : State) (fc : Comparators) : OnlyTrips s (s.setFc fc) := by
  constructor <;> first | rfl | exact Enqueues.refl _

theorem State.judgeComparators_only (s : State) (ys : PerChannel Sample) (index : Nat) :
    OnlyTrips s (s.judgeComparators ys index) := by
  unfold State.judgeComparators
  split
  · exact foldl_keeps OnlyTrips.refl OnlyTrips.trans (State.judgeComparator_only ys index) _ s
  · exact .of_comparators s _

theorem State.sampleStep_only (s : State) (raw : RawCodes) : OnlyTrips (s.delivered raw) (s.sampleStep raw) := by
  rw [State.sampleStep_eq]
  exact State.judgeComparators_only ..

section
variable (s : State) (raw : RawCodes)

/-- CT once it has issued the sample event. -/
def CycleTracker.sampled (c : CycleTracker) : CycleTracker := { c.reach (c.sampleCount c.issued) with issued := c.issued + 1 }

@[simp] theorem State.delivered_ct : (s.delivered raw).ct = s.ct.sampled := by
  simp [State.delivered, State.converted, CycleTracker.sampled]

@[simp] theorem State.delivered_fe : (s.delivered raw).fe = s.fe.afterSample s.ss.working raw := by
  simp [State.delivered, State.converted]

@[simp] theorem State.delivered_ae : (s.delivered raw).ae = s.ae.addSamples (s.samplesOf raw) s.ct.issued := by
  simp [State.delivered, State.converted]

@[simp] theorem State.delivered_st : (s.delivered raw).st = s.st := by
  simp [State.delivered, State.converted]

@[simp] theorem State.delivered_pending : (s.delivered raw).pending = s.pending := by
  simp [State.delivered, State.converted]

@[simp] theorem State.delivered_inReset : (s.delivered raw).inReset = s.inReset := by
  simp [State.delivered, State.converted]

@[simp] theorem State.delivered_freeNext : (s.delivered raw).freeNext = s.freeNext := by
  simp [State.delivered, State.converted]

@[simp] theorem State.sampleStep_ct : (s.sampleStep raw).ct = s.ct.sampled := by
  simpa using (s.sampleStep_only raw).ct

@[simp] theorem State.sampleStep_fe : (s.sampleStep raw).fe = s.fe.afterSample s.ss.working raw := by
  simpa using (s.sampleStep_only raw).fe

@[simp] theorem State.sampleStep_ae : (s.sampleStep raw).ae = s.ae.addSamples (s.samplesOf raw) s.ct.issued := by
  simpa using (s.sampleStep_only raw).ae

@[simp] theorem State.sampleStep_st : (s.sampleStep raw).st = s.st := by
  simpa using (s.sampleStep_only raw).st

@[simp] theorem State.sampleStep_pending : (s.sampleStep raw).pending = s.pending := by
  simpa using (s.sampleStep_only raw).pending

@[simp] theorem State.sampleStep_inReset : (s.sampleStep raw).inReset = s.inReset := by
  simpa using (s.sampleStep_only raw).inReset

@[simp] theorem State.sampleStep_freeNext : (s.sampleStep raw).freeNext = s.freeNext := by
  simpa using (s.sampleStep_only raw).freeNext

@[simp] theorem State.sampleStep_gm : (s.sampleStep raw).gm = s.gm := by
  simpa using (s.sampleStep_only raw).gm

@[simp] theorem State.sampleStep_ss : (s.sampleStep raw).ss = s.ss := by
  simpa using (s.sampleStep_only raw).ss

@[simp] theorem State.sampleStep_mode : (s.sampleStep raw).mode = s.mode := by
  simpa using (s.sampleStep_only raw).mode

@[simp] theorem State.sampleStep_records : (s.sampleStep raw).le.records = s.le.records := by
  simpa using (s.sampleStep_only raw).records

@[simp] theorem State.sampleStep_verdicts : (s.sampleStep raw).le.verdicts = s.le.verdicts := by
  simpa using (s.sampleStep_only raw).verdicts

@[simp] theorem State.sampleStep_current : (s.sampleStep raw).cr.current = s.cr.current := by
  rw [(s.sampleStep_only raw).current, State.delivered_cr, CaptureRing.write_frame]

@[simp] theorem State.sampleStep_releasePending : (s.sampleStep raw).cr.releasePending = s.cr.releasePending := by
  rw [(s.sampleStep_only raw).release, State.delivered_cr, CaptureRing.write_frame]

@[simp] theorem State.sampleStep_slots : (s.sampleStep raw).cr.slots = (s.cr.write (s.samplesOf raw)).slots := by
  simpa using (s.sampleStep_only raw).slots

end

theorem State.sampleStep_link (s : State) (raw : RawCodes) : Enqueues s.lc (s.sampleStep raw).lc := by
  have posted : Enqueues s.lc (s.delivered raw).lc := by
    simp only [State.delivered, State.setAe_lc, State.setCr_lc]
    exact (s.converted raw).post_enqueues _
  exact posted.trans (s.sampleStep_only raw).link

/-! ### The evaluation pass -/

/-- A pass changes the table with its staging, LE, CR's freeze state and LC. -/
structure OnlyPass (s t : State) : Prop where
  pending : t.pending = s.pending
  inReset : t.inReset = s.inReset
  mode : t.mode = s.mode
  fe : t.fe = s.fe
  ct : t.ct = s.ct
  ae : t.ae = s.ae
  gm : t.gm = s.gm
  fc : t.fc = s.fc
  st : t.st = s.st
  freeNext : t.freeNext = s.freeNext
  ss : t.ss = s.ss.withLimits
  slots : t.cr.slots = s.cr.slots
  current : t.cr.current = s.cr.current
  release : t.cr.releasePending = s.cr.releasePending

theorem State.evaluate_only (s : State) (p : Pass) : OnlyPass s (s.evaluate p) := by
  obtain ⟨u, v, w, edited, ⟨verdicts, alert, lc, -, hv⟩, ⟨latches, tripLines, alert', hw⟩,
    ⟨state, postCount, trigger, ignored, lc', -, e⟩⟩ := s.evaluate_frame p
  obtain ⟨verdicts', alert'', lc'', hu⟩ := s.applyLimitEdits_eq (some p.window)
  rw [hu] at edited
  constructor <;> simp [e, hw, hv, edited]

/-- The pass in front is taken off. -/
def AnalysisEngine.withoutPass (a : AnalysisEngine) : AnalysisEngine := { a with passes := a.passes.drop 1 }

theorem State.passStep_of_ready {s : State} {p : Pass} (ready : s.ae.nextPass = some p) :
    s.passStep = (s.setAe s.ae.withoutPass).evaluate p := by
  simp only [State.passStep, ready]
  rfl

theorem State.passStep_of_none {s : State} (none : s.ae.nextPass = none) : s.passStep = s := by
  simp only [State.passStep, none]

section
variable (s : State)

@[simp] theorem State.passStep_ct : s.passStep.ct = s.ct := by
  cases ready : s.ae.nextPass with
  | none => rw [State.passStep_of_none ready]
  | some p =>
    rw [State.passStep_of_ready ready]
    simpa using ((s.setAe s.ae.withoutPass).evaluate_only p).ct

@[simp] theorem State.passStep_fe : s.passStep.fe = s.fe := by
  cases ready : s.ae.nextPass with
  | none => rw [State.passStep_of_none ready]
  | some p =>
    rw [State.passStep_of_ready ready]
    simpa using ((s.setAe s.ae.withoutPass).evaluate_only p).fe

@[simp] theorem State.passStep_gm : s.passStep.gm = s.gm := by
  cases ready : s.ae.nextPass with
  | none => rw [State.passStep_of_none ready]
  | some p =>
    rw [State.passStep_of_ready ready]
    simpa using ((s.setAe s.ae.withoutPass).evaluate_only p).gm

@[simp] theorem State.passStep_fc : s.passStep.fc = s.fc := by
  cases ready : s.ae.nextPass with
  | none => rw [State.passStep_of_none ready]
  | some p =>
    rw [State.passStep_of_ready ready]
    simpa using ((s.setAe s.ae.withoutPass).evaluate_only p).fc

@[simp] theorem State.passStep_st : s.passStep.st = s.st := by
  cases ready : s.ae.nextPass with
  | none => rw [State.passStep_of_none ready]
  | some p =>
    rw [State.passStep_of_ready ready]
    simpa using ((s.setAe s.ae.withoutPass).evaluate_only p).st

@[simp] theorem State.passStep_mode : s.passStep.mode = s.mode := by
  cases ready : s.ae.nextPass with
  | none => rw [State.passStep_of_none ready]
  | some p =>
    rw [State.passStep_of_ready ready]
    simpa using ((s.setAe s.ae.withoutPass).evaluate_only p).mode

@[simp] theorem State.passStep_pending : s.passStep.pending = s.pending := by
  cases ready : s.ae.nextPass with
  | none => rw [State.passStep_of_none ready]
  | some p =>
    rw [State.passStep_of_ready ready]
    simpa using ((s.setAe s.ae.withoutPass).evaluate_only p).pending

@[simp] theorem State.passStep_inReset : s.passStep.inReset = s.inReset := by
  cases ready : s.ae.nextPass with
  | none => rw [State.passStep_of_none ready]
  | some p =>
    rw [State.passStep_of_ready ready]
    simpa using ((s.setAe s.ae.withoutPass).evaluate_only p).inReset

@[simp] theorem State.passStep_freeNext : s.passStep.freeNext = s.freeNext := by
  cases ready : s.ae.nextPass with
  | none => rw [State.passStep_of_none ready]
  | some p =>
    rw [State.passStep_of_ready ready]
    simpa using ((s.setAe s.ae.withoutPass).evaluate_only p).freeNext

end

end Sys2Proof.Machine
end

