-- ==== Sys2Proof/Proofs/TrackerBounds.lean ====
section
/-! PROOFS. The counts, periods and cycle lengths of CT stay within their bounds (R22 to R30): CT by CT, then over every move. -/

namespace Sys2Proof.Machine

open Sys2Proof.Safety

/-! ### Which moves touch CT -/

theorem State.offerTrigger_ct (s : State) (r : TriggerRecord) : (s.offerTrigger r).ct = s.ct := by rw [s.offerTrigger_frame]

theorem State.setCounter_ct (s : State) (w : Word) (name : CounterName) : (s.setCounter w name).ct = s.ct := by cases name <;> rfl

/-- No request touches CT. -/
theorem Effect.ct {s : State} {c : Instr} {t : State} (h : Effect s c t) : t.ct = s.ct := by
  cases h with
  | forceFreeze normal => exact s.offerTrigger_ct _
  | setCounter w name => exact s.setCounter_ct w name
  | setLimit read => rfl
  | deleteLimit k => rfl
  | _ => simp

theorem State.offerDigest_ct (s : State) (g : GroupId) (r : GroupRecord) : (s.offerDigest g r).ct = s.ct := by
  unfold State.offerDigest
  dsimp only
  split
  · rfl
  · split <;> rfl

theorem State.completeJob_ct (s : State) : s.completeJob.ct = s.ct := by
  unfold State.completeJob
  split
  · rfl
  · exact State.offerDigest_ct ..
  · rfl

theorem State.startNext_ct (s : State) : s.startNext.ct = s.ct := by
  unfold State.startNext
  split <;> rfl

theorem State.completeStore_ct (s : State) (readBack : StoredImage) : (s.completeStore readBack).ct = s.ct := by
  unfold State.completeStore
  split
  · dsimp only
    split <;> rfl
  · rfl

theorem State.release_ct (s : State) (strap : Bool) (reference : Polarity) :
    (s.release strap reference).ct = CycleTracker.fresh (startUp strap s.ss.image).1 0 reference := by
  unfold State.release
  dsimp only
  split <;> rfl

/-! ### The bounds of CT -/

/-- The bounds of `TrackerInBounds` but for those of the cycle in progress. -/
structure CycleTracker.RunInBounds (c : CycleTracker) : Prop where
  misses : c.missCount ≤ 2
  runs : c.runCount ≤ 3
  holdover : c.holdoverCycles ≤ 50
  holdoverBelow : c.tracker = .holdover → c.holdoverCycles ≤ 49
  accepted : ∀ p, c.accepted = some p → 151516 ≤ p ∧ p ≤ 238095
  known : c.tracker = .locked ∨ c.tracker = .holdover → c.accepted.isSome = true
  timer : c.missTimer.isSome = true ↔ c.tracker = .locked

/-- The bounds of the cycle in progress (R29). -/
structure CycleTracker.CycleInBounds (c : CycleTracker) : Prop where
  issued : c.issued ≤ 120
  shortest : 150001 ≤ c.length
  longest : c.length ≤ 240475

theorem trackerInBounds_iff (s : State) : TrackerInBounds s ↔ s.ct.CycleInBounds ∧ s.ct.RunInBounds :=
  ⟨fun h => ⟨⟨h.issued, h.shortest, h.longest⟩,
      ⟨h.misses, h.runs, h.holdover, h.holdoverBelow, h.accepted, h.known, h.timer⟩⟩,
    fun ⟨c, r⟩ => ⟨c.issued, c.shortest, c.longest, r.misses, r.runs, r.holdover, r.holdoverBelow, r.accepted, r.known, r.timer⟩⟩

/-- CT as `d` has the cycle in progress of `c`: number, length and sample events issued. -/
structure SameLength (c d : CycleTracker) : Prop where
  issued : d.issued = c.issued
  length : d.length = c.length

theorem SameLength.trans {c d e : CycleTracker} (h : SameLength c d) (k : SameLength d e) : SameLength c e :=
  ⟨k.issued.trans h.issued, k.length.trans h.length⟩

theorem SameLength.bounds {c d : CycleTracker} (same : SameLength c d) (h : c.CycleInBounds) : d.CycleInBounds :=
  ⟨same.issued ▸ h.issued, same.length ▸ h.shortest, same.length ▸ h.longest⟩

theorem inRangePeriod_iff (p : Nat) : inRangePeriod p = true ↔ 151516 ≤ p ∧ p ≤ 238095 := by
  rw [inRangePeriod, Bool.and_eq_true, decide_eq_true_iff, decide_eq_true_iff]
  rfl

theorem CycleTracker.inRange_of_acceptable {c : CycleTracker} {p : Nat} (h : c.acceptable p = true) : 151516 ≤ p ∧ p ≤ 238095 := by
  unfold CycleTracker.acceptable at h
  split at h
  · simp only [isAcceptable, Bool.and_eq_true] at h
    exact (inRangePeriod_iff p).mp h.1
  · cases h

/-! ### Time, crossings and misses -/

section
variable {c : CycleTracker}

theorem CycleTracker.RunInBounds.reach (h : c.RunInBounds) (due : Count) : (c.reach due).RunInBounds := by
  rw [CycleTracker.reach_frame]
  exact ⟨h.misses, h.runs, h.holdover, h.holdoverBelow, h.accepted, h.known, h.timer⟩

theorem CycleTracker.RunInBounds.elapse (h : c.RunInBounds) (elapsed : Nat) : (c.elapse elapsed).RunInBounds :=
  ⟨h.misses, h.runs, h.holdover, h.holdoverBelow, h.accepted, h.known, h.timer⟩

/-- The detector's own fields are not bounded. -/
theorem CycleTracker.RunInBounds.detector (h : c.RunInBounds) (reference : Polarity) (confirmed : Option Polarity)
    (candidate : Option Candidate) :
    CycleTracker.RunInBounds { c with reference := reference, confirmed := confirmed, candidate := candidate } :=
  ⟨h.misses, h.runs, h.holdover, h.holdoverBelow, h.accepted, h.known, h.timer⟩

theorem CycleTracker.RunInBounds.enterHoldover (h : c.RunInBounds) (locked : c.tracker = .locked) :
    c.enterHoldover.RunInBounds :=
  ⟨by simp [CycleTracker.enterHoldover], by simp [CycleTracker.enterHoldover], by simp [CycleTracker.enterHoldover],
    by simp [CycleTracker.enterHoldover], h.accepted, fun _ => h.known (.inl locked), by simp [CycleTracker.enterHoldover]⟩

/-- A miss before the third (R25, R26). -/
theorem CycleTracker.RunInBounds.miss (h : c.RunInBounds) (locked : c.tracker = .locked) (few : c.missCount + 1 < 3)
    (since : Count) : (CycleTracker.startMissTimer { c with missCount := c.missCount + 1 } since).RunInBounds :=
  ⟨by simp [CycleTracker.startMissTimer]; omega, h.runs, h.holdover, h.holdoverBelow, h.accepted, h.known,
    by simp [CycleTracker.startMissTimer, locked]⟩

/-- A period in range enters LOCKED (R24, R28). -/
theorem CycleTracker.RunInBounds.enterLocked (h : c.RunInBounds) (stamp : Count) {p : Nat} (range : 151516 ≤ p ∧ p ≤ 238095) :
    (c.enterLocked stamp p).RunInBounds :=
  ⟨by simp [CycleTracker.enterLocked, CycleTracker.startMissTimer], by simp [CycleTracker.enterLocked, CycleTracker.startMissTimer],
    h.holdover, by simp [CycleTracker.enterLocked, CycleTracker.startMissTimer],
    by simpa [CycleTracker.enterLocked, CycleTracker.startMissTimer] using range, fun _ => rfl,
    by simp [CycleTracker.enterLocked, CycleTracker.startMissTimer]⟩

/-- A change of the run alone, within a tracker state that runs no miss timer (R23, R24, R28). -/
theorem CycleTracker.RunInBounds.run (h : c.RunInBounds) {n : Nat} (few : n ≤ 3) (last : Option Nat) :
    CycleTracker.RunInBounds { c with runCount := n, lastInRange := last } :=
  ⟨h.misses, few, h.holdover, h.holdoverBelow, h.accepted, h.known, h.timer⟩

end

/-- What each judgement of a measured period says of the tracker and of the period (R22 to R25, R28). -/
inductive CycleTracker.Judges (c : CycleTracker) (p : Nat) : Judgement → Prop
  | begins (searching : c.tracker = .seek ∨ c.tracker = .free) (range : inRangePeriod p = true) : c.Judges p .begins
  | ignored (searching : c.tracker = .seek ∨ c.tracker = .free) (range : inRangePeriod p = false) : c.Judges p .ignored
  | returns (locking : c.tracker = .locking) (range : inRangePeriod p = false) : c.Judges p .returns
  | locks (locking : c.tracker = .locking) (range : inRangePeriod p = true) (steady : c.steadyAgainst p = true)
      (fourth : 4 ≤ c.runCount + 1) : c.Judges p .locks
  | steady (locking : c.tracker = .locking) (range : inRangePeriod p = true) (steady : c.steadyAgainst p = true)
      (few : c.runCount + 1 < 4) : c.Judges p .steady
  | unsteady (locking : c.tracker = .locking) (range : inRangePeriod p = true) (unsteady : c.steadyAgainst p = false) :
      c.Judges p .unsteady
  | accepted (locked : c.tracker = .locked) (near : c.acceptable p = true) : c.Judges p .accepted
  | loses (locked : c.tracker = .locked) (far : c.acceptable p = false) (third : 3 ≤ c.missCount + 1) : c.Judges p .loses
  | rejected (locked : c.tracker = .locked) (far : c.acceptable p = false) (few : c.missCount + 1 < 3) : c.Judges p .rejected
  | holdoverOut (holdover : c.tracker = .holdover) (range : inRangePeriod p = false) : c.Judges p .holdoverOut
  | holdoverUnsteady (holdover : c.tracker = .holdover) (range : inRangePeriod p = true)
      (unsteady : c.runCount = 0 ∨ c.steadyAgainst p = false) : c.Judges p .holdoverUnsteady
  | relocks (holdover : c.tracker = .holdover) (range : inRangePeriod p = true) (running : c.runCount ≠ 0)
      (steady : c.steadyAgainst p = true) (fourth : 4 ≤ c.runCount + 1) : c.Judges p .relocks
  | holdoverSteady (holdover : c.tracker = .holdover) (range : inRangePeriod p = true) (running : c.runCount ≠ 0)
      (steady : c.steadyAgainst p = true) (few : c.runCount + 1 < 4) : c.Judges p .holdoverSteady

/-- A crossing that measures a period is judged by the tracker's state. -/
theorem CycleTracker.judge_judges {c : CycleTracker} {stamp : Count} {p : Nat} (measured : c.period stamp = some p) :
    c.Judges p (c.judge stamp) := by
  unfold CycleTracker.judge
  rw [measured]
  cases range : inRangePeriod p <;> cases tracker : c.tracker <;>
    simp only [range, Bool.not_false, Bool.not_true, Bool.false_eq_true, if_true, if_false]
  case false.seek => exact .ignored (.inl tracker) range
  case false.free => exact .ignored (.inr tracker) range
  case false.locking => exact .returns tracker range
  case false.holdover => exact .holdoverOut tracker range
  case true.seek => exact .begins (.inl tracker) range
  case true.free => exact .begins (.inr tracker) range
  case true.locking =>
    split
    · split
      · exact .locks tracker range ‹_› ‹_›
      · exact .steady tracker range ‹_› (Nat.lt_of_not_le ‹_›)
    · exact .unsteady tracker range (Bool.eq_false_iff.mpr ‹_›)
  case true.holdover =>
    split
    · rename_i new
      exact .holdoverUnsteady tracker range (by simpa using new)
    · rename_i old
      obtain ⟨running, steady⟩ : c.runCount ≠ 0 ∧ c.steadyAgainst p = true := by simpa using old
      split
      · exact .relocks tracker range running steady ‹_›
      · exact .holdoverSteady tracker range running steady (Nat.lt_of_not_le ‹_›)
  all_goals
    split
    · exact .accepted tracker ‹_›
    · rename_i far
      split
      · exact .loses tracker (by simpa using far) ‹_›
      · exact .rejected tracker (by simpa using far) (Nat.lt_of_not_le ‹_›)

theorem CycleTracker.judge_of_unmeasured {c : CycleTracker} {stamp : Count} (unmeasured : c.period stamp = none) :
    c.judge stamp = .unmeasured := by
  unfold CycleTracker.judge
  rw [unmeasured]

/-- A crossing keeps the bounds of the run (R22 to R28). -/
theorem CycleTracker.RunInBounds.crossing {c : CycleTracker} (h : c.RunInBounds) (stamp : Count) :
    (c.crossing stamp).RunInBounds := by
  have stamped : CycleTracker.RunInBounds { c with previous := some stamp } :=
    ⟨h.misses, h.runs, h.holdover, h.holdoverBelow, h.accepted, h.known, h.timer⟩
  unfold CycleTracker.crossing
  cases measured : c.period stamp with
  | none => rw [CycleTracker.judge_of_unmeasured measured]; exact stamped
  | some p =>
    have judged := CycleTracker.judge_judges measured
    generalize c.judge stamp = j at judged
    have notLocked (other : c.tracker ≠ .locked) : c.missTimer = none := by
      simpa [other] using h.timer
    cases judged with
    | begins searching range =>
      have timer := notLocked (by rintro e; simp [e] at searching)
      exact ⟨h.misses, by simp, h.holdover, by simp, h.accepted, by simp, by simp [timer]⟩
    | ignored => exact stamped
    | returns locking =>
      have timer := notLocked (by simp [locking])
      refine ⟨h.misses, by simp, h.holdover, ?_, h.accepted, ?_, ?_⟩ <;> cases origin : c.origin <;>
        simp [Origin.tracker, timer]
    | locks locking range => exact stamped.enterLocked stamp ((inRangePeriod_iff p).mp range)
    | steady locking range steady few => exact stamped.run (by dsimp only; omega) _
    | unsteady => exact stamped.run (by omega) _
    | accepted locked near =>
      exact ⟨by simp [CycleTracker.startMissTimer], h.runs, h.holdover, h.holdoverBelow,
        by simpa [CycleTracker.startMissTimer] using CycleTracker.inRange_of_acceptable near, fun _ => rfl,
        by simp [CycleTracker.startMissTimer, locked]⟩
    | loses locked => exact stamped.enterHoldover locked
    | rejected locked far few => exact stamped.miss locked few stamp
    | holdoverOut => exact stamped.run (by omega) _
    | holdoverUnsteady => exact stamped.run (by omega) _
    | relocks holdover range =>
      have entered := stamped.enterLocked stamp ((inRangePeriod_iff p).mp range)
      exact ⟨entered.misses, entered.runs, by simp, by simp, entered.accepted, entered.known, entered.timer⟩
    | holdoverSteady holdover range running steady few => exact stamped.run (by dsimp only; omega) _

/-- A confirmation keeps the bounds of the run. -/
theorem CycleTracker.RunInBounds.confirm {c : CycleTracker} (h : c.RunInBounds) : c.confirm.1.RunInBounds := by
  cases candidate : c.candidate with
  | none => rwa [CycleTracker.confirm_of_none candidate]
  | some k =>
    have confirmed : (c.confirmedAs k).RunInBounds := by
      unfold CycleTracker.confirmedAs
      exact (h.reach _).detector _ _ _
    cases issues : c.issues with
    | none => rwa [CycleTracker.confirm_of_silent candidate issues]
    | some stamp => rw [CycleTracker.confirm_of_issues candidate issues]; exact confirmed.crossing stamp

/-- An expiry of the miss timer keeps the bounds of the run. -/
theorem CycleTracker.RunInBounds.expire {c : CycleTracker} (h : c.RunInBounds) (locked : c.tracker = .locked) (due : Count) :
    (c.expire due).RunInBounds := by
  unfold CycleTracker.expire
  dsimp only
  split
  · exact (h.reach due).enterHoldover locked
  · exact (h.reach due).miss locked (Nat.lt_of_not_le ‹_›) due

/-! ### Cycle boundaries -/

theorem phaseCorrection_bounds (acc : Nat) (e : Int) :
    -(acc / 100 : Nat) ≤ phaseCorrection acc e ∧ phaseCorrection acc e ≤ (acc / 100 : Nat) := by
  unfold phaseCorrection clampInt
  split
  · omega
  · split <;> omega

/-- A cycle's length lies between the shortest period less a hundredth of it and the longest with a hundredth more (R27). -/
theorem nextLength_bounds {t : Tracker} {acc : Option Nat} (range : ∀ p, acc = some p → 151516 ≤ p ∧ p ≤ 238095)
    (known : t = .locked ∨ t = .holdover → acc.isSome = true) (nominal : Nominal) (e : Option Int) :
    150001 ≤ nextLength t acc nominal e ∧ nextLength t acc nominal e ≤ 240475 := by
  have nominal_bounds : 150001 ≤ nominal.period ∧ nominal.period ≤ 240475 := by cases nominal <;> simp [Nominal.period]
  cases t with
  | locked =>
    obtain ⟨p, rfl⟩ := Option.isSome_iff_exists.mp (known (.inl rfl))
    have := range p rfl
    cases e with
    | none => simp only [nextLength, Option.getD_some, Option.map_none, Option.getD_none]; omega
    | some e =>
      have := phaseCorrection_bounds p e
      simp only [nextLength, Option.getD_some, Option.map_some]
      omega
  | holdover =>
    obtain ⟨p, rfl⟩ := Option.isSome_iff_exists.mp (known (.inr rfl))
    have := range p rfl
    simp only [nextLength, Option.getD_some]
    omega
  | seek => exact nominal_bounds
  | locking => exact nominal_bounds
  | free => exact nominal_bounds

/-- Closing a cycle keeps the bounds of the run (R28). -/
theorem CycleTracker.RunInBounds.closeCycle {c : CycleTracker} (h : c.RunInBounds) {free : Bool}
    (limit : c.tracker = .holdover → (free = true ↔ 50 ≤ c.holdoverCycles + 1)) : (c.closeCycle free).RunInBounds := by
  have reached : CycleTracker.RunInBounds { c.reach c.endCount with cycle := c.cycle + 1 } :=
    ⟨h.misses, h.runs, h.holdover, h.holdoverBelow, h.accepted, h.known, h.timer⟩
  unfold CycleTracker.closeCycle
  dsimp only
  split
  · rename_i holdover
    have tracker : c.tracker = .holdover := holdover
    have below := h.holdoverBelow tracker
    have few : (c.reach c.endCount).holdoverCycles + 1 ≤ 50 := by
      rw [CycleTracker.reach_frame]; dsimp only; omega
    have timer : c.missTimer = none := by simpa [tracker] using h.timer
    split
    · exact ⟨h.misses, by simp, few, by simp, h.accepted, by simp, by simpa [CycleTracker.reach] using timer⟩
    · rename_i stays
      refine ⟨h.misses, h.runs, few, fun _ => ?_, h.accepted, h.known, h.timer⟩
      have := (limit tracker).not.mp stays
      rw [CycleTracker.reach_frame]
      dsimp only
      omega
  · exact reached

/-- CT after a boundary is within its bounds. -/
theorem State.begunCt_bounds {s : State} (h : s.ct.RunInBounds) : s.begunCt.CycleInBounds ∧ s.begunCt.RunInBounds := by
  have limit : s.ct.tracker = .holdover → (s.entersFree = true ↔ 50 ≤ s.ct.holdoverCycles + 1) := fun holdover => by
    simp only [State.entersFree, holdover, decide_true, Bool.true_and, decide_eq_true_iff]
    rfl
  have closed : s.closedCt.RunInBounds := h.closeCycle limit
  obtain ⟨shortest, longest⟩ := nextLength_bounds closed.accepted closed.known s.appliedSs.working.analysis.nominal
    (s.ct.steering.map (phaseOffset s.ct.start s.ct.length))
  exact ⟨⟨Nat.zero_le _, shortest, longest⟩,
    ⟨closed.misses, closed.runs, closed.holdover, closed.holdoverBelow, closed.accepted, closed.known, closed.timer⟩⟩

/-! ### The obligation -/

theorem CycleTracker.fresh_bounds (x : Settings) (now : Count) (reference : Polarity) :
    (CycleTracker.fresh x now reference).CycleInBounds ∧ (CycleTracker.fresh x now reference).RunInBounds := by
  refine ⟨⟨by simp [CycleTracker.fresh], ?_, ?_⟩, ?_⟩
  · cases h : x.analysis.nominal <;> simp [CycleTracker.fresh, h, Nominal.period]
  · cases h : x.analysis.nominal <;> simp [CycleTracker.fresh, h, Nominal.period]
  · constructor <;> simp [CycleTracker.fresh]

theorem CycleTracker.crossing_sameLength (c : CycleTracker) (stamp : Count) : SameLength c (c.crossing stamp) := by
  rw [c.crossing_frame]
  exact ⟨rfl, rfl⟩

theorem CycleTracker.confirm_sameLength (c : CycleTracker) : SameLength c c.confirm.1 := by
  cases h : c.candidate with
  | none => rw [CycleTracker.confirm_of_none h]; exact ⟨rfl, rfl⟩
  | some k =>
    have confirmed : SameLength c (c.confirmedAs k) := by constructor <;> simp [CycleTracker.confirmedAs, CycleTracker.reach]
    cases issues : c.issues with
    | none => rw [CycleTracker.confirm_of_silent h issues]; exact confirmed
    | some stamp => rw [CycleTracker.confirm_of_issues h issues]; exact confirmed.trans (CycleTracker.crossing_sameLength _ _)

theorem CycleTracker.expire_sameLength (c : CycleTracker) (due : Count) : SameLength c (c.expire due) := by
  unfold CycleTracker.expire
  dsimp only
  split <;> exact ⟨rfl, rfl⟩

/-- Every move keeps CT within its bounds. -/
theorem trackerInBounds_moves {c : Instr} {s t : State} (h : Moves c s t) (before : TrackerInBounds s) : TrackerInBounds t := by
  rw [trackerInBounds_iff] at before ⊢
  obtain ⟨cycle, run⟩ := before
  have confirmed : s.ct.confirm.1.CycleInBounds ∧ s.ct.confirm.1.RunInBounds :=
    ⟨s.ct.confirm_sameLength.bounds cycle, run.confirm⟩
  cases h with
  | idle => exact ⟨cycle, run⟩
  | reset written => exact CycleTracker.fresh_bounds ..
  | release strap reference held => rw [State.release_ct]; exact CycleTracker.fresh_bounds ..
  | polarity elapsed p =>
    rw [State.polarityStep_eq, State.setLc_ct, State.setCt_ct]
    have elapsed_bounds := run.elapse elapsed
    unfold CycleTracker.beforePolarity
    split
    · have length : SameLength s.ct (s.ct.elapse elapsed).confirm.1 :=
        SameLength.trans (c := s.ct) (d := s.ct.elapse elapsed) ⟨rfl, rfl⟩ (CycleTracker.confirm_sameLength _)
      have confirmed := length.bounds cycle
      exact ⟨⟨confirmed.issued, confirmed.shortest, confirmed.longest⟩, elapsed_bounds.confirm.detector _ _ _⟩
    · exact ⟨SameLength.bounds (c := s.ct) ⟨rfl, rfl⟩ cycle, elapsed_bounds.detector _ _ _⟩
  | confirm => exact confirmed
  | miss due =>
    obtain ⟨locked, count, timer⟩ := CycleTracker.timer_of_missDue due
    rw [State.missStep_of_timer timer, State.post_ct, State.setCt_ct]
    exact ⟨(s.ct.expire_sameLength count).bounds cycle, run.expire locked count⟩
  | sample raw due =>
    rw [State.sampleStep_ct]
    have reached := run.reach (s.ct.sampleCount s.ct.issued)
    exact ⟨⟨due, cycle.shortest, cycle.longest⟩,
      ⟨reached.misses, reached.runs, reached.holdover, reached.holdoverBelow, reached.accepted, reached.known, reached.timer⟩⟩
  | boundary inputs at_end => rw [State.boundaryStep_ct]; exact State.begunCt_bounds run
  | jobStart free => rw [State.startNext_ct]; exact ⟨cycle, run⟩
  | jobCompletion => rw [State.completeJob_ct]; exact ⟨cycle, run⟩
  | pass => rw [State.passStep_ct]; exact ⟨cycle, run⟩
  | character _ received => exact ⟨SameLength.bounds (c := s.ct) ⟨rfl, rfl⟩ cycle, run.elapse _⟩
  | gap => exact ⟨SameLength.bounds (c := s.ct) ⟨rfl, rfl⟩ cycle, run.reach _⟩
  | request effect stage readied => rw [State.setLc_ct, effect.ct]; exact ⟨cycle, run⟩
  | transmit => exact ⟨cycle, run⟩
  | sent => exact ⟨cycle, run⟩
  | stored readBack => rw [State.completeStore_ct]; exact ⟨cycle, run⟩
  | checked => exact ⟨cycle, run⟩
  | restarted running => exact CycleTracker.fresh_bounds ..

/-- Settles O53, by the bounds of CT under every move that a step can make. -/
theorem trackerStaysInBounds : Obligations.TrackerStaysInBounds := by
  unfold Obligations.TrackerStaysInBounds
  intro s t before h
  refine step_keeps (allowed := fun _ => True) (fun s rest h => ?_) (fun _ => trackerInBounds_moves) (fun _ _ => trivial) before h
  exact ⟨h.issued, h.shortest, h.longest, h.misses, h.runs, h.holdover, h.holdoverBelow, h.accepted, h.known, h.timer⟩

end Sys2Proof.Machine
end

