-- ==== Sys2Proof/Proofs/RingFollows.lean ====
section
/-! PROOFS. The capture ring stays in step with the cycle (R134 to R141). -/

namespace Sys2Proof.Machine

open Sys2Proof.Safety

/-! ### The settings that start-up loads -/

theorem Settings.factory_inRange : Settings.factory.inRange = true := by decide

theorem Settings.inRange_freeze {x : Settings} (h : x.inRange = true) : x.freeze.postCycles ≤ 15 := by
  have := (Bool.and_eq_true_iff.mp h).2
  exact of_decide_eq_true this

/-- A loaded image was in range (R180). -/
theorem StoredImage.load_cases {image : StoredImage} {x : Settings} (h : image.load = some x) :
    ∃ copy : Settings, copy.inRange = true ∧ x = copy.asLoaded := by
  unfold StoredImage.load at h
  split at h
  · rename_i copy stored
    split at h
    · rename_i loadable
      exact ⟨copy, loadable.2, (Option.some.inj h).symm⟩
    · exact absurd h nofun
  · cases h

/-- What start-up takes as the working settings: the factory defaults, or the image's copy as loaded (R183). -/
theorem startUp_cases (strap : Bool) (image : StoredImage) :
    (startUp strap image).1 = Settings.factory ∨ ∃ copy : Settings, copy.inRange = true ∧ (startUp strap image).1 = copy.asLoaded := by
  unfold startUp
  split
  · exact .inl rfl
  · split
    · exact .inr (StoredImage.load_cases ‹_›)
    · exact .inl rfl

theorem startUp_freeze (strap : Bool) (image : StoredImage) : (startUp strap image).1.freeze.postCycles ≤ 15 := by
  obtain factory | ⟨copy, range, loaded⟩ := startUp_cases strap image
  · rw [factory]; decide
  · rw [loaded]; exact Settings.inRange_freeze range

/-! ### The ring by itself -/

/-- The counts of the freeze state within their ranges, and a trigger record exactly while the ring does not run (R137 to R139). -/
structure CaptureRing.FreezeFits (c : CaptureRing) : Prop where
  post : c.postCount ≤ 15
  ignored : c.ignored ≤ 65535
  trigger : c.state = .running ↔ c.trigger = none

/-- The current slot is the one of this cycle, with one sample per channel for each event issued (R134, R135). -/
structure CaptureRing.Collects (c : CaptureRing) (cycle : Word) (issued : Nat) : Prop where
  tag : c.slots[c.current].tag = some cycle
  written : ∀ ch, ((c.slots[c.current].channels.get ch).samples).length = issued

theorem ringFollows_iff (s : State) :
    RingFollows s ↔ s.ct.issued ≤ 120 ∧ (s.cr.state ≠ .frozen → s.cr.Collects s.ct.cycle s.ct.issued) ∧ s.cr.FreezeFits ∧
      s.ss.working.freeze.postCycles ≤ 15 :=
  ⟨fun h => ⟨h.issued, fun live => ⟨h.tag live, h.written live⟩, ⟨h.post, h.ignored, h.trigger⟩, h.setup⟩,
    fun ⟨issued, collects, freeze, setup⟩ => ⟨issued, fun live => (collects live).tag, fun live => (collects live).written,
      freeze.post, freeze.ignored, freeze.trigger, setup⟩⟩

section
variable {c : CaptureRing}

theorem CaptureRing.Collects.congr {d : CaptureRing} {cycle : Word} {issued : Nat} (h : c.Collects cycle issued)
    (slots : d.slots = c.slots) (current : d.current = c.current) : d.Collects cycle issued := by
  have slot : d.slots[d.current] = c.slots[c.current] := by simp only [slots, current]
  exact ⟨slot ▸ h.tag, slot ▸ h.written⟩

/-- A trigger that is considered keeps the freeze state's ranges, and freezes no ring at once. -/
theorem CaptureRing.FreezeFits.consider (h : c.FreezeFits) {post : Nat} (few : post ≤ 15) (r : TriggerRecord) :
    (c.consider post r).1.FreezeFits ∧ ((c.consider post r).1.state ≠ .frozen → c.state ≠ .frozen) := by
  obtain ⟨running, taken⟩ | ⟨stopped, ignored⟩ := c.consider_cases post r
  · rw [taken]
    exact ⟨⟨few, h.ignored, by simp⟩, fun _ => by simp [running]⟩
  · rw [ignored]
    refine ⟨⟨h.post, ?_, h.trigger⟩, id⟩
    have := h.ignored
    dsimp only
    split <;> omega

theorem CaptureRing.FreezeFits.considerWhen (h : c.FreezeFits) {post : Nat} (few : post ≤ 15) (on : Bool) (r : TriggerRecord) :
    (c.considerWhen on post r).1.FreezeFits ∧ ((c.considerWhen on post r).1.state ≠ .frozen → c.state ≠ .frozen) := by
  cases on with
  | false => exact ⟨h, id⟩
  | true => exact h.consider few r

/-- A sample event adds one sample to each channel of the current slot (R134). -/
theorem CaptureRing.Collects.write {cycle : Word} {issued : Nat} (h : c.Collects cycle issued) (live : c.state ≠ .frozen)
    (ys : PerChannel Sample) : (c.write ys).Collects cycle (issued + 1) := by
  have written : c.write ys = { c with slots := c.slots.set c.current (c.currentSlot.write ys) } := by
    unfold CaptureRing.write
    cases state : c.state <;> simp_all
  rw [written]
  refine ⟨?_, fun ch => ?_⟩
  · simpa [RingSlot.write, CaptureRing.currentSlot] using h.tag
  · simpa [RingSlot.write, CaptureRing.currentSlot, SlotChannel.write] using h.written ch

theorem CaptureRing.advance_collects (c : CaptureRing) (cycle : Word) : (c.advance cycle).Collects cycle 0 := by
  constructor <;> simp [CaptureRing.advance, RingSlot.fresh]

/-- At a boundary a ring that is not FROZEN behind it has taken the next slot (R135, R138, R141). -/
theorem CaptureRing.boundary_collects (c : CaptureRing) (cycle : Word) (live : (c.boundary cycle).1.state ≠ .frozen) :
    (c.boundary cycle).1.Collects cycle 0 := by
  unfold CaptureRing.boundary at live ⊢
  cases state : c.state with
  | running => exact c.advance_collects cycle
  | post =>
    simp only [state] at live ⊢
    split at live
    · simp_all [CaptureRing.advance_collects]
    · split at live
      · exact absurd rfl live
      · simp_all [CaptureRing.advance_collects]
  | frozen =>
    simp only [state] at live ⊢
    split at live
    · simp_all [CaptureRing.advance_collects]
    · exact absurd (by simp [CaptureRing.freezes, state]) live

theorem CaptureRing.FreezeFits.boundary (h : c.FreezeFits) (cycle : Word) : (c.boundary cycle).1.FreezeFits := by
  obtain ⟨post, ignored, trigger⟩ := h
  have few : c.postCount - 1 ≤ 15 := by omega
  unfold CaptureRing.boundary
  cases state : c.state with
  | running => exact ⟨post, ignored, trigger⟩
  | post =>
    have taken : c.trigger ≠ none := fun none => by simp [trigger.mpr none] at state
    dsimp only
    split
    · exact ⟨Nat.zero_le _, Nat.zero_le _, by simp [CaptureRing.advance]⟩
    · split
      · exact ⟨post, ignored, by simp [taken]⟩
      · exact ⟨few, ignored, by simp [CaptureRing.advance, taken]⟩
  | frozen =>
    have taken : c.trigger ≠ none := fun none => by simp [trigger.mpr none] at state
    dsimp only
    split
    · exact ⟨Nat.zero_le _, Nat.zero_le _, by simp [CaptureRing.advance]⟩
    · split
      · exact ⟨post, ignored, by simp [taken]⟩
      · exact ⟨post, ignored, by simp [state, taken]⟩

end

/-! ### What a release, a completion and a fold do -/

/-- What every single step of a fold keeps, the fold keeps. -/
theorem foldl_invariant {α β : Type} {P : α → Prop} {f : α → β → α} (step : ∀ a b, P a → P (f a b)) (l : List β) {a : α} (h : P a) :
    P (l.foldl f a) :=
  foldl_keeps (R := fun a b => P a → P b) (fun _ => id) (fun h k p => k (h p)) step l a h

section
variable (s : State) (strap : Bool) (reference : Polarity)

@[simp] theorem State.release_ae : (s.release strap reference).ae = AnalysisEngine.fresh := by
  unfold State.release
  dsimp only
  split <;> rfl

@[simp] theorem State.release_gm : (s.release strap reference).gm = Monitors.fresh := by
  unfold State.release
  dsimp only
  split <;> rfl

@[simp] theorem State.release_fc : (s.release strap reference).fc = Comparators.fresh := by
  unfold State.release
  dsimp only
  split <;> rfl

@[simp] theorem State.release_cr : (s.release strap reference).cr = CaptureRing.fresh := by
  unfold State.release
  dsimp only
  split <;> rfl

@[simp] theorem State.release_st : (s.release strap reference).st = Statistics.fresh := by
  unfold State.release
  dsimp only
  split <;> rfl

@[simp] theorem State.release_mode : (s.release strap reference).mode = (startUp strap s.ss.image).2.1 := by
  unfold State.release
  dsimp only
  split <;> rfl

@[simp] theorem State.release_inReset : (s.release strap reference).inReset = false := by
  unfold State.release
  dsimp only
  split <;> rfl

@[simp] theorem State.release_le : (s.release strap reference).le = LimitEvaluator.fresh (startUp strap s.ss.image).1 := by
  unfold State.release
  dsimp only
  split <;> rfl

@[simp] theorem State.release_fe : (s.release strap reference).fe = FrontEnd.fresh (startUp strap s.ss.image).1 := by
  unfold State.release
  dsimp only
  split <;> rfl

@[simp] theorem State.release_ss : (s.release strap reference).ss = SettingsStore.fresh (startUp strap s.ss.image).1 s.ss.image := by
  unfold State.release
  dsimp only
  split <;> rfl

@[simp] theorem State.release_pending : (s.release strap reference).pending = s.pending := by
  unfold State.release
  dsimp only
  split <;> rfl

@[simp] theorem State.release_freeNext : (s.release strap reference).freeNext = s.freeNext := by
  unfold State.release
  dsimp only
  split <;> rfl

end

theorem State.completeJob_cases (s : State) :
    s.completeJob = s ∨
      (∃ g j, s.ae.running = .group g j ∧ ∃ lc, s.completeJob =
        ((s.setAe (s.ae.completeGroup g j)).setSt (s.st.countRecord g (j.record g))).setLc lc) ∨
      ∃ p j, s.ae.running = .pair p j ∧ s.completeJob = (s.setAe (s.ae.completePair p j)).setSt (s.st.bumpPair p) := by
  unfold State.completeJob
  cases running : s.ae.running with
  | none => exact .inl rfl
  | group g j =>
    refine .inr (.inl ⟨g, j, rfl, ?_⟩)
    dsimp only
    unfold State.offerDigest
    dsimp only
    split
    · exact ⟨s.lc, rfl⟩
    · split <;> exact ⟨_, rfl⟩
  | pair p j => exact .inr (.inr ⟨p, j, rfl, rfl⟩)

end Sys2Proof.Machine

namespace Sys2Proof.Safety

open Sys2Proof.Machine

/-! ### The ring over the state -/

/-- What is kept of a ring that follows needs nothing but CT's cycle, the ring and the freeze setup. -/
theorem RingFollows.congr {s t : State} (h : RingFollows s) (same : SameCycle s.ct t.ct) (ring : t.cr = s.cr)
    (setup : t.ss.working.freeze = s.ss.working.freeze) : RingFollows t := by
  obtain ⟨issued, collects, freeze, post⟩ := (ringFollows_iff s).mp h
  refine (ringFollows_iff t).mpr ⟨?_, ?_, ring ▸ freeze, setup ▸ post⟩
  · rwa [same.issued]
  · rwa [ring, same.cycle, same.issued]

theorem RingFollows.of_eq {s t : State} (h : RingFollows s) (tracker : t.ct = s.ct) (ring : t.cr = s.cr)
    (setup : t.ss.working.freeze = s.ss.working.freeze) : RingFollows t :=
  h.congr ⟨congrArg CycleTracker.cycle tracker, congrArg CycleTracker.issued tracker⟩ ring setup

theorem RingFollows.offerTrigger {s : State} (h : RingFollows s) (r : TriggerRecord) : RingFollows (s.offerTrigger r) := by
  obtain ⟨issued, collects, freeze, setup⟩ := (ringFollows_iff s).mp h
  obtain ⟨_, _, _, _, _, -, frame⟩ := s.offerTrigger_only r
  have ring : (s.offerTrigger r).cr =
      (s.cr.considerWhen (s.ss.working.freeze.admits r.cause) s.ss.working.freeze.postCycles r).1 := by
    rw [s.offerTrigger_ring]
    cases s.ss.working.freeze.admits r.cause <;> rfl
  obtain ⟨fits, live⟩ := freeze.considerWhen setup (s.ss.working.freeze.admits r.cause) r
  obtain ⟨slots, current, -⟩ :=
    s.cr.considerWhen_frame (s.ss.working.freeze.admits r.cause) s.ss.working.freeze.postCycles r
  refine (ringFollows_iff _).mpr ⟨?_, fun notFrozen => ?_, ring ▸ fits, ?_⟩
  · rwa [s.offerTrigger_ct]
  · rw [ring] at notFrozen ⊢
    rw [s.offerTrigger_ct]
    exact (collects (live notFrozen)).congr slots current
  · rw [frame]; exact setup

theorem RingFollows.offerVerdict {s : State} (h : RingFollows s) (before : Quad Verdict) (window : Word) (g : GroupId) :
    RingFollows (s.offerVerdict before window g) := by
  unfold State.offerVerdict
  dsimp only
  split
  · exact h
  · split
    · exact h.offerTrigger _
    · exact h.offerTrigger _
    · exact h

theorem RingFollows.carryOut {s : State} (h : RingFollows s) (j : CompJudgement) (gc : GroupId × CompId) :
    RingFollows (s.carryOut j gc) := by
  obtain ⟨issued, collects, freeze, setup⟩ := (ringFollows_iff s).mp h
  obtain ⟨fits, live⟩ := freeze.considerWhen setup j.offers (comparatorRecord s.ct.cycle gc)
  have only := s.carryOut_only j gc
  refine (ringFollows_iff _).mpr ⟨issued, fun notFrozen => ?_, fits, setup⟩
  exact (collects (live notFrozen)).congr only.slots only.current

theorem RingFollows.sampleStep {s : State} (h : RingFollows s) (due : s.ct.issued < 120) (raw : RawCodes) :
    RingFollows (s.sampleStep raw) := by
  obtain ⟨issued, collects, freeze, setup⟩ := (ringFollows_iff s).mp h
  have delivered : RingFollows (s.delivered raw) := by
    refine (ringFollows_iff _).mpr ⟨?_, fun live => ?_, ?_, ?_⟩
    · simpa [CycleTracker.sampled] using due
    · rw [State.delivered_cr] at live ⊢
      rw [State.delivered_cycle, State.delivered_ct]
      have live : s.cr.state ≠ .frozen := by simpa using live
      exact (collects live).write live _
    · rw [State.delivered_cr]
      exact ⟨by simpa using freeze.post, by simpa using freeze.ignored, by simpa using freeze.trigger⟩
    · simpa using setup
  rw [State.sampleStep_eq]
  unfold State.judgeComparators
  split
  · refine foldl_invariant (fun t gc ring => ?_) _ delivered
    rw [State.judgeComparator_eq]
    exact ring.carryOut _ gc
  · exact delivered.of_eq (by simp) (by simp) (by simp)

theorem RingFollows.evaluate {s : State} (h : RingFollows s) (p : Pass) : RingFollows (s.evaluate p) := by
  obtain ⟨_, _, _, edited⟩ := s.applyLimitEdits_eq (some p.window)
  have applied : RingFollows (s.applyLimitEdits (some p.window)) := by
    rw [edited]
    exact h.of_eq (by simp) (by simp) (by simp)
  obtain ⟨_, _, _, -, judged⟩ := (OnlyVerdicts.post ((s.applyLimitEdits (some p.window)).setLe _) _).trans
    (State.recomputeAll_only ((s.applyLimitEdits (some p.window)).judgeRecords p) .evaluation p.window)
  obtain ⟨_, _, _, latched⟩ := foldl_keeps OnlyLatches.refl OnlyLatches.trans
    (State.tripRisen_only (s.applyLimitEdits (some p.window)).le.verdicts) GroupId.all
    (((s.applyLimitEdits (some p.window)).judgeRecords p).recomputeAll .evaluation p.window)
  refine foldl_invariant (P := RingFollows) (fun t g ring => ring.offerVerdict _ _ g) _ ?_
  rw [latched, judged]
  exact applied.of_eq (by simp) (by simp) (by simp)

theorem RingFollows.boundaryStep {s : State} (h : RingFollows s) (inputs : InputLevels) : RingFollows (s.boundaryStep inputs) := by
  obtain ⟨-, -, freeze, setup⟩ := (ringFollows_iff s).mp h
  have cycle : s.begunCt.cycle = s.ct.cycle + 1 := CycleTracker.closeCycle_cycle ..
  refine (ringFollows_iff _).mpr ⟨?_, fun live => ?_, ?_, ?_⟩
  · rw [State.boundaryStep_ct]; exact Nat.zero_le _
  · rw [State.boundaryStep_cr] at live ⊢
    rw [State.boundaryStep_ct, cycle]
    exact s.cr.boundary_collects _ live
  · rw [State.boundaryStep_cr]; exact freeze.boundary _
  · rw [State.boundaryStep_ss]
    rwa [s.appliedSs_freeze]

/-- A fresh ring follows a fresh tracker. -/
theorem ringFollows_fresh {s : State} (issued : s.ct.issued = 0) (cycle : s.ct.cycle = 0) (ring : s.cr = CaptureRing.fresh)
    (setup : s.ss.working.freeze.postCycles ≤ 15) : RingFollows s := by
  refine (ringFollows_iff s).mpr ⟨by omega, fun _ => ?_, ?_, setup⟩
  · rw [ring, issued, cycle]
    constructor <;> simp [CaptureRing.fresh, RingSlot.fresh]
  · rw [ring]
    constructor <;> simp [CaptureRing.fresh]

theorem freezeField_fits {p : List Byte} {f : FreezeSetup} (h : freezeField p = some f) : f.postCycles ≤ 15 := by
  unfold freezeField at h
  simp only [Option.bind_eq_bind, Option.bind_eq_some_iff, Option.pure_def, Option.some.injEq] at h
  obtain ⟨_, -, _, -, _, -, rfl⟩ := h
  exact Nat.min_le_right ..

theorem RingFollows.request {s : State} {c : Instr} {t : State} (h : RingFollows s) (effect : Effect s c t) : RingFollows t := by
  cases effect with
  | setFreeze read =>
    obtain ⟨issued, collects, freeze, -⟩ := (ringFollows_iff s).mp h
    exact (ringFollows_iff _).mpr ⟨issued, collects, freeze, freezeField_fits read⟩
  | forceFreeze normal => exact h.offerTrigger _
  | releaseFreeze normal stopped =>
    obtain ⟨issued, collects, freeze, setup⟩ := (ringFollows_iff s).mp h
    exact (ringFollows_iff _).mpr ⟨issued, fun live => (collects live).congr rfl rfl, ⟨freeze.post, freeze.ignored, freeze.trigger⟩,
      setup⟩
  | setCounter w name => cases name <;> unfold State.setCounter <;> exact h.of_eq (by simp) (by simp) (by simp)
  | setLimit => unfold State.stageLimit; exact h.of_eq (by simp) (by simp) (by simp)
  | deleteLimit => unfold State.stageLimit; exact h.of_eq (by simp) (by simp) (by simp)
  | setChannel => exact h.of_eq (by simp) (by simp) (by simp [SettingsStore.stageChannel])
  | _ => exact h.of_eq (by simp) (by simp) (by simp)

end Sys2Proof.Safety

namespace Sys2Proof.Machine

open Sys2Proof.Safety

/-! ### The obligation -/

theorem ringFollows_moves {c : Instr} {s t : State} (h : Moves c s t) (before : RingFollows s) : RingFollows t := by
  refine h.minor_or ?_ ?_ ?_ ?_ ?_ ?_ ?_ ?_ ?_ ?_
  · rintro ⟨ct, lc, image, flight, freeNext, same, rfl⟩
    exact before.congr same rfl rfl
  · rintro written rfl
    exact ringFollows_fresh rfl rfl rfl (Settings.inRange_freeze Settings.factory_inRange)
  · rintro strap reference - rfl
    refine ringFollows_fresh ?_ ?_ (s.release_cr ..) ?_
    · rw [State.release_ct]; rfl
    · rw [State.release_ct]; rfl
    · rw [State.release_ss]; exact startUp_freeze ..
  · rintro raw due rfl
    exact before.sampleStep due raw
  · rintro inputs - rfl
    exact before.boundaryStep inputs
  · rintro - rfl
    unfold State.startNext
    split
    · exact before.of_eq (by simp) (by simp) (by simp)
    · exact before
  · rintro rfl
    obtain e | ⟨g, j, -, lc, e⟩ | ⟨p, j, -, e⟩ := s.completeJob_cases
    all_goals rw [e]
    · exact before
    · exact before.of_eq (by simp) (by simp) (by simp)
    · exact before.of_eq (by simp) (by simp) (by simp)
  · rintro rfl
    unfold State.passStep
    split
    · exact RingFollows.evaluate (before.of_eq (by simp) (by simp) (by simp)) _
    · exact before
  · rintro u stage readied effect rfl
    exact (before.request effect).of_eq (by simp) (by simp) (by simp)
  · rintro rfl
    exact ringFollows_fresh rfl rfl rfl before.setup

/-- Settles O54, by what every move does to the current slot and to the freeze state. -/
theorem ringFollowsTheCycle : Obligations.RingFollowsTheCycle := by
  unfold Obligations.RingFollowsTheCycle
  intro s t before h
  exact step_keeps (allowed := fun _ => True) (fun s rest h => h.of_eq rfl rfl rfl) (fun _ => ringFollows_moves)
    (fun _ _ => trivial) before h

end Sys2Proof.Machine
end

