-- ==== Sys2Proof/Proofs/LinkFrames.lean ====
section
/-! PROOFS. What a cycle boundary, an evaluation pass and a completed job do to LC: they enqueue, close the classes of a SYNC_POINT, and count
digests; the boundary also counts the report hold down. -/

namespace Sys2Proof.Machine

open Sys2Proof.Safety

/-- LC after reports enqueued and classes of a SYNC_POINT closed: the requests of the pending list keep their places. -/
structure LinkKeeps (l m : LinkController) : Prop where
  receiver : m.receiver = l.receiver
  gapFrom : m.gapFrom = l.gapFrom
  requests : m.entries.map Entry.request = l.entries.map Entry.request
  sending : m.sending = l.sending
  holdCount : m.holdCount = l.holdCount
  masks : m.masks = l.masks
  counters : m.counters = l.counters
  restartDue : m.restartDue = l.restartDue
  fits : QueueFits l → QueueFits m
  flags : ∀ f, flagOf l.flags f = true → flagOf m.flags f = true

theorem LinkKeeps.refl (l : LinkController) : LinkKeeps l l := by constructor <;> first | rfl | exact id | exact fun _ => id

theorem LinkKeeps.trans {l m n : LinkController} (h : LinkKeeps l m) (k : LinkKeeps m n) : LinkKeeps l n where
  receiver := k.receiver.trans h.receiver
  gapFrom := k.gapFrom.trans h.gapFrom
  requests := k.requests.trans h.requests
  sending := k.sending.trans h.sending
  holdCount := k.holdCount.trans h.holdCount
  masks := k.masks.trans h.masks
  counters := k.counters.trans h.counters
  restartDue := k.restartDue.trans h.restartDue
  fits := k.fits ∘ h.fits
  flags := fun f => k.flags f ∘ h.flags f

theorem Enqueues.keeps {l m : LinkController} (h : Enqueues l m) : LinkKeeps l m where
  receiver := h.same.receiver
  gapFrom := h.same.gapFrom
  requests := by rw [h.same.entries]
  sending := h.same.sending
  holdCount := h.same.holdCount
  masks := h.same.masks
  counters := h.same.counters
  restartDue := h.same.restartDue
  fits := h.fits
  flags := h.flags

theorem OnlySync.keeps {l m : LinkController} (h : OnlySync l m) : LinkKeeps l m := by
  obtain ⟨sync, entries, readied, requests, rfl⟩ := h
  exact ⟨rfl, rfl, requests, rfl, rfl, rfl, rfl, rfl, id, fun _ => id⟩

theorem LinkKeeps.of_digests (l : LinkController) (digests : Quad Nat) : LinkKeeps l { l with digests := digests } :=
  ⟨rfl, rfl, rfl, rfl, rfl, rfl, rfl, rfl, id, fun _ => id⟩

theorem OnlySync.digests {l m : LinkController} (h : OnlySync l m) : m.digests = l.digests := by
  obtain ⟨sync, entries, readied, requests, rfl⟩ := h
  rfl

/-! ### Limit edits, GM and a pass -/

theorem OnlyVerdicts.link {s t : State} (h : OnlyVerdicts s t) : Enqueues s.lc t.lc := by
  obtain ⟨_, _, lc, same, rfl⟩ := h
  exact same

theorem OnlyMonitors.link {s t : State} (h : OnlyMonitors s t) : Enqueues s.lc t.lc := by
  obtain ⟨_, _, _, _, lc, same, rfl⟩ := h
  exact same

theorem OnlyFreeze.link {s t : State} (h : OnlyFreeze s t) : Enqueues s.lc t.lc := by
  obtain ⟨_, _, _, _, lc, same, rfl⟩ := h
  exact same

theorem State.editTable_lc (s : State) : s.editTable.lc = s.lc := by rw [State.editTable_eq, State.setSs_lc, State.setLe_lc]

/-- Limit edits enqueue their reports and close the limit class of a SYNC_POINT. -/
theorem State.applyLimitEdits_link (s : State) (point : Option Word) :
    ∃ l, Enqueues s.lc l ∧ (s.applyLimitEdits point).lc = l.closeLimit point := by
  obtain ⟨u, verdicts, e⟩ := s.applyLimitEdits_frame point
  exact ⟨u.lc, s.editTable_lc ▸ verdicts.link, by rw [e, State.setLc_lc]⟩

/-- A pass enqueues its reports and closes the limit class of a SYNC_POINT with its window. -/
theorem State.evaluate_link (s : State) (p : Pass) :
    ∃ l m, Enqueues s.lc l ∧ Enqueues (l.closeLimit (some p.window)) m ∧ (s.evaluate p).lc = m := by
  obtain ⟨u, v, w, edited, judged, ⟨_, _, _, latched⟩, offered⟩ := s.evaluate_frame p
  obtain ⟨l, enqueued, closed⟩ := s.applyLimitEdits_link (some p.window)
  refine ⟨l, _, enqueued, ?_, rfl⟩
  have link : Enqueues u.lc v.lc := by simpa only [State.setLe_lc] using judged.link
  have offers : Enqueues w.lc (s.evaluate p).lc := offered.link
  rw [edited, closed] at link
  rw [latched, State.setLe_lc] at offers
  exact link.trans offers

/-! ### The boundary -/

/-- The classes of a SYNC_POINT that close at a boundary (R162). -/
def State.syncedLink (s : State) : LinkController :=
  let l := if s.ae.stopped then s.lc.closeLimit none else s.lc
  if s.appliesHere then l.closeAnalysis (if s.opensWindow then some s.openingNumber else none) else l

/-- What LC is at a boundary before the report hold counts down. -/
structure LinkAt (s : State) (digests : Quad Nat) (requests l : LinkController) : Prop where
  keeps : LinkKeeps s.lc l
  digests : l.digests = digests
  requests : SameRequests requests l

theorem LinkAt.enqueues {s : State} {digests : Quad Nat} {requests l m : LinkController} (h : LinkAt s digests requests l)
    (k : Enqueues l m) : LinkAt s digests requests m :=
  ⟨h.keeps.trans k.keeps, k.same.digests.trans h.digests, SameRequests.trans h.requests k.same.sameRequests⟩

theorem LinkAt.closeLimit {s : State} {digests : Quad Nat} {requests l : LinkController} (h : LinkAt s digests requests l)
    (point : Option Word) : LinkAt s digests (requests.closeLimit point) (l.closeLimit point) :=
  ⟨h.keeps.trans (l.closeLimit_only point).keeps, (l.closeLimit_only point).digests.trans h.digests,
    LinkController.closeLimit_congr point h.requests⟩

theorem LinkAt.closeAnalysis {s : State} {digests : Quad Nat} {requests l : LinkController} (h : LinkAt s digests requests l)
    (point : Option Word) : LinkAt s digests (requests.closeAnalysis point) (l.closeAnalysis point) :=
  ⟨h.keeps.trans (l.closeAnalysis_only point).keeps, (l.closeAnalysis_only point).digests.trans h.digests,
    LinkController.closeAnalysis_congr point h.requests⟩

theorem State.settled_link (s : State) (inputs : InputLevels) : LinkAt s s.appliedDigests s.lc (s.settled inputs).lc := by
  have closed : Enqueues s.lc (s.closed inputs).lc := by
    rw [State.closed_eq, State.post_lc]
    exact LinkController.post_enqueues ..
  unfold State.settled State.appliedDigests
  have ss : (s.closed inputs).ss = s.ss := by rw [State.closed_eq]; simp
  by_cases applies : s.appliesHere = true
  · simp only [applies, if_true, true_and, State.applyAnalysis_eq, State.setSs_lc, State.setLc_lc, ss]
    refine ⟨closed.keeps.trans (.of_digests _ _), ?_, SameRequests.trans closed.same.sameRequests ⟨rfl, rfl, rfl⟩⟩
    simp only [closed.same.digests]
  · simp only [applies, if_false, false_and, Bool.false_eq_true]
    exact ⟨closed.keeps, closed.same.digests, closed.same.sameRequests⟩

theorem State.applied_link (s : State) (inputs : InputLevels) :
    LinkAt s s.appliedDigests (if s.ae.stopped then s.lc.closeLimit none else s.lc) (s.applied inputs).lc := by
  have settled := s.settled_link inputs
  unfold State.applied
  split
  · obtain ⟨l, enqueued, closed⟩ := (s.settled inputs).applyLimitEdits_link none
    rw [closed]
    exact (settled.enqueues enqueued).closeLimit none
  · exact settled

theorem State.synced_link (s : State) (inputs : InputLevels) : LinkAt s s.appliedDigests s.syncedLink (s.synced inputs).lc := by
  have monitored := (s.applied_link inputs).enqueues ((s.applied inputs).monitorStep_only (s.context inputs)).link
  have opened : (s.openedNext inputs).lc = (s.monitored inputs).lc := by
    unfold State.openedNext
    split <;> rfl
  unfold State.synced State.syncedLink
  generalize (if s.ae.stopped then s.lc.closeLimit none else s.lc) = requests at *
  dsimp only
  by_cases applies : s.appliesHere = true
  · rw [if_pos applies, if_pos applies, State.setLc_lc, opened]
    exact monitored.closeAnalysis _
  · rw [if_neg applies, if_neg applies, opened]
    exact monitored

/-- LC after a boundary: what it was before the hold counted down. -/
theorem State.boundaryStep_lc (s : State) (inputs : InputLevels) :
    ∃ l, LinkAt s s.appliedDigests s.syncedLink l ∧ (s.boundaryStep inputs).lc = { l with holdCount := s.lc.holdCount - 1 } := by
  have ring : LinkAt s s.appliedDigests s.syncedLink (s.synced inputs).ringStep.lc :=
    (s.synced_link inputs).enqueues (LinkController.post_enqueues ..)
  refine ⟨_, ring, ?_⟩
  rw [State.boundaryStep_parts, ← ring.keeps.holdCount]
  rfl

/-- The queue, the flags and the fixed parts of LC over a boundary. -/
theorem State.boundaryStep_keeps (s : State) (inputs : InputLevels) :
    let m := (s.boundaryStep inputs).lc
    m.receiver = s.lc.receiver ∧ m.gapFrom = s.lc.gapFrom ∧ m.sending = s.lc.sending ∧ m.masks = s.lc.masks ∧
      m.counters = s.lc.counters ∧ m.entries.map Entry.request = s.lc.entries.map Entry.request ∧
      (QueueFits s.lc → QueueFits m) := by
  obtain ⟨l, link, e⟩ := s.boundaryStep_lc inputs
  rw [e]
  exact ⟨link.keeps.receiver, link.keeps.gapFrom, link.keeps.sending, link.keeps.masks, link.keeps.counters, link.keeps.requests,
    link.keeps.fits⟩

@[simp] theorem State.boundaryStep_holdCount (s : State) (inputs : InputLevels) :
    (s.boundaryStep inputs).lc.holdCount = s.lc.holdCount - 1 := by
  obtain ⟨l, -, e⟩ := s.boundaryStep_lc inputs
  rw [e]

@[simp] theorem State.boundaryStep_digests (s : State) (inputs : InputLevels) :
    (s.boundaryStep inputs).lc.digests = s.appliedDigests := by
  obtain ⟨l, link, e⟩ := s.boundaryStep_lc inputs
  rw [e]
  exact link.digests

theorem State.boundaryStep_requests (s : State) (inputs : InputLevels) : SameRequests s.syncedLink (s.boundaryStep inputs).lc := by
  obtain ⟨l, link, e⟩ := s.boundaryStep_lc inputs
  rw [e]
  exact SameRequests.trans link.requests ⟨rfl, rfl, rfl⟩

/-! ### A completed job -/

theorem State.offerDigest_link (s : State) (g : GroupId) (r : GroupRecord) : LinkKeeps s.lc (s.offerDigest g r).lc := by
  unfold State.offerDigest
  dsimp only
  split
  · exact .refl _
  · split
    · exact (LinkKeeps.of_digests ..).trans (State.post_enqueues (s.setLc _) _).keeps
    · exact .of_digests ..

theorem State.completeJob_link (s : State) : LinkKeeps s.lc s.completeJob.lc := by
  unfold State.completeJob
  split
  · exact .refl _
  · rename_i g j _
    exact State.offerDigest_link ((s.setAe (s.ae.completeGroup g j)).setSt (s.st.countRecord g (j.record g))) g (j.record g)
  · exact .refl _

end Sys2Proof.Machine
end

