-- ==== Sys2Proof/Proofs/LinkBounds.lean ====
section
/-! PROOFS. The pending list, the report queue, the receiver and LC's counts stay within their bounds (R158, R160, R164, R165). -/

namespace Sys2Proof.Machine

open Sys2Proof.Safety

/-- The bounds of `LinkInBounds`, on LC alone. -/
structure LinkController.InBounds (l : LinkController) : Prop where
  entries : l.entries.length ≤ 4
  queue : QueueFits l
  hold : l.holdCount ≤ 65535
  body : ∀ n got, l.receiver = .body n got → 2 ≤ n ∧ n ≤ 250 ∧ got.length + 1 ≤ n
  check : ∀ n got high, l.receiver = .check n got high → 2 ≤ n ∧ n ≤ 250 ∧ got.length = n
  gap : l.gapFrom.isSome = true ↔ l.receiver ≠ .hunt

theorem linkInBounds_iff (s : State) : LinkInBounds s ↔ s.lc.InBounds :=
  ⟨fun h => ⟨h.entries, ⟨h.queue, h.lost⟩, h.hold, h.body, h.check, h.gap⟩,
    fun h => ⟨h.entries, h.queue.1, h.hold, h.queue.2, h.body, h.check, h.gap⟩⟩

namespace LinkController.InBounds

variable {l : LinkController}

/-- What keeps the requests, the receiver, the hold and the queue's bounds keeps the bounds. -/
theorem keeps {m : LinkController} (h : l.InBounds) (k : LinkKeeps l m) : m.InBounds := by
  have length : m.entries.length = l.entries.length := by simpa using congrArg List.length k.requests
  refine ⟨length ▸ h.entries, k.fits h.queue, k.holdCount ▸ h.hold, ?_, ?_, ?_⟩
  · rw [k.receiver]; exact h.body
  · rw [k.receiver]; exact h.check
  · rw [k.receiver, k.gapFrom]; exact h.gap

theorem bump (h : l.InBounds) (k : Nat) : (l.bump k).InBounds := ⟨h.entries, h.queue, h.hold, h.body, h.check, h.gap⟩

theorem raise (h : l.InBounds) (cycle : Word) (f : Flag) : (l.raise cycle f).InBounds := h.keeps (l.post_enqueues cycle [.flag f]).keeps

theorem withHold (h : l.InBounds) {n : Nat} (few : n ≤ 65535) : InBounds { l with holdCount := n } :=
  ⟨h.entries, h.queue, few, h.body, h.check, h.gap⟩

/-- Another stage of an entry of the list. -/
theorem staged (h : l.InBounds) (stage : Stage) (readied : Nat) : (l.staged stage readied).InBounds :=
  ⟨by simpa [LinkController.staged, restage_length] using h.entries, h.queue, h.hold, h.body, h.check, h.gap⟩

/-- The receiver in HUNT or LENGTH has collected nothing. -/
theorem receive_empty (h : l.InBounds) {r : Receiver} (empty : r = .hunt ∨ r = .length) (now : Count) : (l.receive r now).InBounds := by
  obtain rfl | rfl := empty
  all_goals exact ⟨h.entries, h.queue, h.hold, nofun, nofun, by simp [receive]⟩

theorem receive_body (h : l.InBounds) {n : Nat} {got : List Byte} (size : 2 ≤ n ∧ n ≤ 250 ∧ got.length + 1 ≤ n) (now : Count) :
    (l.receive (.body n got) now).InBounds := by
  refine ⟨h.entries, h.queue, h.hold, fun m gotten e => ?_, nofun, by simp [receive]⟩
  cases e
  exact size

theorem receive_check (h : l.InBounds) {n : Nat} {got : List Byte} {high : Option Byte}
    (size : 2 ≤ n ∧ n ≤ 250 ∧ got.length = n) (now : Count) : (l.receive (.check n got high) now).InBounds := by
  refine ⟨h.entries, h.queue, h.hold, nofun, fun m gotten first e => ?_, by simp [receive]⟩
  cases e
  exact size

theorem abandon (h : l.InBounds) (cycle : Word) : (l.abandon cycle).InBounds := by
  refine InBounds.raise (InBounds.bump ?_ 4) cycle _
  exact ⟨h.entries, h.queue, h.hold, nofun, nofun, by simp⟩

theorem handOn (h : l.InBounds) (cycle : Word) (f : Frame) : (l.handOn cycle f).InBounds := by
  unfold LinkController.handOn
  split
  · rename_i room
    have few : l.entries.length < 4 := room
    exact ⟨by simpa using few, h.queue, h.hold, h.body, h.check, h.gap⟩
  · exact (h.bump 5).raise cycle _

/-- A received character keeps the bounds, in every state of the receiver (R158). -/
theorem character (h : l.InBounds) (cycle : Word) (now : Count) (b : Byte) : (l.character cycle now b).InBounds := by
  have hunt := h.receive_empty (.inl rfl) now
  unfold LinkController.character
  cases receiver : l.receiver with
  | hunt =>
    dsimp only
    split
    · exact h.receive_empty (.inr rfl) now
    · exact h
  | length =>
    dsimp only
    split
    · exact (hunt.bump 2).raise cycle _
    · split
      · exact (hunt.bump 3).raise cycle _
      · exact h.receive_body ⟨by omega, by omega, by simp; omega⟩ now
  | body n got =>
    obtain ⟨least, most, short⟩ := h.body n got receiver
    dsimp only
    split
    · exact h.receive_check ⟨least, most, by simp; omega⟩ now
    · exact h.receive_body ⟨least, most, by simp; omega⟩ now
  | check n got high =>
    have size := h.check n got high receiver
    cases high with
    | none => exact h.receive_check size now
    | some first =>
      dsimp only
      split
      · exact (hunt.bump 0).handOn cycle _
      · exact (hunt.bump 1).raise cycle _

theorem transmit (h : l.InBounds) : l.transmit.InBounds := by
  unfold LinkController.transmit
  split
  · exact ⟨by simpa [restage_length] using h.entries, h.queue, h.hold, h.body, h.check, h.gap⟩
  · split
    · rename_i r rs queue
      split
      · have fits := h.queue
        exact ⟨h.entries, ⟨by have := fits.1; rw [queue, List.length_cons] at this; dsimp only; omega, fits.2⟩, h.hold, h.body, h.check,
          h.gap⟩
      · exact h
    · exact h

theorem sent (h : l.InBounds) : l.sent.InBounds := by
  unfold LinkController.sent
  split
  · exact h
  · split
    · exact ⟨(List.length_filter_le ..).trans h.entries, h.queue, h.hold, h.body, h.check, h.gap⟩
    · exact ⟨h.entries, h.queue, h.hold, h.body, h.check, h.gap⟩

theorem fresh : LinkController.fresh.InBounds := by
  refine ⟨by decide, ⟨by decide, by decide⟩, by decide, nofun, nofun, by decide⟩

theorem restarted (h : l.InBounds) : l.restarted.InBounds :=
  ⟨Nat.zero_le _, ⟨Nat.zero_le _, h.queue.2⟩, Nat.zero_le _, h.body, h.check, h.gap⟩

end LinkController.InBounds

theorem State.release_link (s : State) (strap : Bool) (reference : Polarity) :
    LinkKeeps LinkController.fresh (s.release strap reference).lc := by
  unfold State.release
  dsimp only
  split
  · rw [State.post_lc]
    exact (LinkController.post_enqueues ..).keeps
  · exact .refl _

theorem State.polarityStep_link (s : State) (elapsed : Nat) (p : Polarity) : Enqueues s.lc (s.polarityStep elapsed p).lc := by
  rw [State.polarityStep_eq]
  exact LinkController.post_enqueues ..

theorem State.missStep_link (s : State) : Enqueues s.lc s.missStep.lc := by
  unfold State.missStep
  split
  · exact LinkController.post_enqueues ..
  · exact .refl _

theorem State.startNext_lc (s : State) : s.startNext.lc = s.lc := by
  unfold State.startNext
  split <;> rfl

theorem State.passStep_link (s : State) : LinkKeeps s.lc s.passStep.lc := by
  unfold State.passStep
  split
  · rename_i p _
    obtain ⟨l, m, edits, judged, e⟩ := (s.setAe { s.ae with passes := s.ae.passes.drop 1 }).evaluate_link p
    rw [e]
    exact (edits.keeps.trans (l.closeLimit_only _).keeps).trans judged.keeps
  · exact .refl _

theorem State.completeStore_link (s : State) (readBack : StoredImage) : LinkKeeps s.lc (s.completeStore readBack).lc := by
  unfold State.completeStore
  split
  · rename_i snapshot _
    dsimp only
    rw [State.setLc_lc]
    refine LinkKeeps.trans ?_ (LinkController.replyDeferred_only ..).keeps
    split
    · exact .refl _
    · exact (LinkController.post_enqueues ..).keeps
  · exact .refl _

theorem State.completeCheck_link (s : State) : LinkKeeps s.lc s.completeCheck.lc := (LinkController.replyDeferred_only ..).keeps

theorem u16_le (p : List Byte) (i : Nat) : u16 p i ≤ 65535 := by
  have bound := beNat_lt (slice p i 2)
  have length : (slice p i 2).length ≤ 2 := by simp [slice]
  have : 256 ^ (slice p i 2).length ≤ 256 ^ 2 := Nat.pow_le_pow_right (by decide) length
  unfold u16
  omega

/-- A request keeps LC's bounds; the stage of its entry is another matter. -/
theorem Effect.link_bounds {s : State} {c : Instr} {t : State} (h : Effect s c t) (before : s.lc.InBounds) : t.lc.InBounds := by
  cases h with
  | clearFlags set =>
    refine ⟨before.entries, ⟨before.queue.1, ?_⟩, before.hold, before.body, before.check, before.gap⟩
    have := before.queue.2
    dsimp only [State.setLc_lc]
    split <;> omega
  | setFlagMask set => exact ⟨before.entries, before.queue, before.hold, before.body, before.check, before.gap⟩
  | forceFreeze normal => exact before.keeps (s.offerTrigger_only _).link.keeps
  | setCounter w name =>
    cases name with
    | link k => exact ⟨before.entries, before.queue, before.hold, before.body, before.check, before.gap⟩
    | group g k => exact before
    | pair p => exact before
  | holdReports p => exact before.withHold (u16_le p 0)
  | syncPoint => exact ⟨before.entries, before.queue, before.hold, before.body, before.check, before.gap⟩
  | setLimit => unfold State.stageLimit; simpa using before
  | deleteLimit => unfold State.stageLimit; simpa using before
  | _ => simpa using before

/-- Every move keeps LC within its bounds. -/
theorem linkInBounds_moves {c : Instr} {s t : State} (h : Moves c s t) (before : LinkInBounds s) : LinkInBounds t := by
  rw [linkInBounds_iff] at before ⊢
  cases h with
  | idle => exact before
  | reset written => exact .fresh
  | release strap reference held => exact LinkController.InBounds.fresh.keeps (s.release_link strap reference)
  | polarity elapsed p => exact before.keeps (s.polarityStep_link elapsed p).keeps
  | confirm => exact before.keeps (LinkController.post_enqueues ..).keeps
  | miss due => exact before.keeps s.missStep_link.keeps
  | sample raw due => exact before.keeps (s.sampleStep_link raw).keeps
  | boundary inputs at_end =>
    obtain ⟨l, link, e⟩ := s.boundaryStep_lc inputs
    rw [e]
    have := before.hold
    exact (before.keeps link.keeps).withHold (by omega)
  | jobStart free => rw [State.startNext_lc]; exact before
  | jobCompletion => exact before.keeps s.completeJob_link
  | pass => exact before.keeps s.passStep_link
  | @character _ elapsed b _ received =>
    have found : (if s.lc.gapExceeded (s.ct.elapse elapsed).timebase then s.lc.abandon s.ct.cycle else s.lc).InBounds := by
      split
      · exact before.abandon _
      · exact before
    exact found.character _ _ _
  | gap => exact before.abandon _
  | request effect stage readied => exact (effect.link_bounds before).staged stage readied
  | transmit => exact before.transmit
  | sent => exact before.sent
  | stored readBack => exact before.keeps (s.completeStore_link readBack)
  | checked => exact before.keeps s.completeCheck_link
  | restarted running => exact before.restarted

/-- Settles O55, by the bounds of LC under every move that a step can make. -/
theorem linkStaysInBounds : Obligations.LinkStaysInBounds := by
  unfold Obligations.LinkStaysInBounds
  intro s t before h
  refine step_keeps (allowed := fun _ => True) (fun s rest h => ?_) (fun _ => linkInBounds_moves) (fun _ _ => trivial) before h
  exact ⟨h.entries, h.queue, h.hold, h.lost, h.body, h.check, h.gap⟩

end Sys2Proof.Machine
end

