-- ==== Sys2Proof/Proofs/Monitors.lean ====
section
/-! PROOFS. GM at a cycle boundary: the groups and the pairs that its step leaves (R80 to R90). -/

namespace Sys2Proof.Machine

open Sys2Proof.Safety

/-! ### One group -/

section
variable (cx : GroupContext) (s : State) (g : GroupId)

/-- GM's next state of a group. -/
def State.nextGroup (cx : GroupContext) (s : State) (g : GroupId) : GroupMonitor :=
  (s.gm.groups.get g).boundary s.mode s.ss.working.analysis.settle cx.opens (cx.inputs.get g)

theorem OnlyMonitors.mode {s t : State} (h : OnlyMonitors s t) : t.mode = s.mode := by
  obtain ⟨_, _, _, _, _, -, rfl⟩ := h
  rfl

theorem OnlyMonitors.ss {s t : State} (h : OnlyMonitors s t) : t.ss = s.ss := by
  obtain ⟨_, _, _, _, _, -, rfl⟩ := h
  rfl

theorem OnlyVerdicts.gm {s t : State} (h : OnlyVerdicts s t) : t.gm = s.gm := by
  obtain ⟨_, _, _, -, rfl⟩ := h
  rfl

theorem OnlyVerdicts.ss {s t : State} (h : OnlyVerdicts s t) : t.ss = s.ss := by
  obtain ⟨_, _, _, -, rfl⟩ := h
  rfl

theorem OnlyVerdicts.mode {s t : State} (h : OnlyVerdicts s t) : t.mode = s.mode := by
  obtain ⟨_, _, _, -, rfl⟩ := h
  rfl

theorem State.groupOut_gm : (s.groupOut g).gm = s.gm := by
  unfold State.groupOut
  rw [(State.setVerdict_only ..).gm, State.setLe_gm]

theorem State.groupStep_gm : (s.groupStep cx g).gm = { s.gm with groups := s.gm.groups.set g (s.nextGroup cx g) } := by
  unfold State.groupStep State.nextGroup
  dsimp only
  split
  · rfl
  · split
    · exact State.groupOut_gm _ g
    · rfl

@[simp] theorem State.groupStep_mode : (s.groupStep cx g).mode = s.mode := (s.groupStep_only cx g).mode
@[simp] theorem State.groupStep_ss : (s.groupStep cx g).ss = s.ss := (s.groupStep_only cx g).ss
@[simp] theorem State.groupStep_pairs : (s.groupStep cx g).gm.pairs = s.gm.pairs := by rw [State.groupStep_gm]

/-- The step of one group leaves the others alone. -/
theorem State.groupStep_nextGroup (h : GroupId) (other : h ≠ g) : (s.groupStep cx g).nextGroup cx h = s.nextGroup cx h := by
  unfold State.nextGroup
  rw [State.groupStep_gm, State.groupStep_mode, State.groupStep_ss, Quad.get_set_of_ne _ _ other]

theorem State.groupStep_groups (h : GroupId) :
    (s.groupStep cx g).gm.groups.get h = if h = g then s.nextGroup cx g else s.gm.groups.get h := by
  rw [State.groupStep_gm, Quad.get_set]

end

/-- The four groups one after the other. -/
def State.groupSteps (s : State) (cx : GroupContext) : State := GroupId.all.foldl (State.groupStep cx) s

section
variable (s : State) (cx : GroupContext)

theorem State.groupSteps_groups (g : GroupId) : (s.groupSteps cx).gm.groups.get g = s.nextGroup cx g := by
  unfold State.groupSteps GroupId.all
  simp only [List.foldl_cons, List.foldl_nil, State.groupStep_groups]
  cases g <;> simp [State.groupStep_nextGroup]

theorem State.groupSteps_pairs : (s.groupSteps cx).gm.pairs = s.gm.pairs := by
  unfold State.groupSteps GroupId.all
  simp only [List.foldl_cons, List.foldl_nil, State.groupStep_pairs]

theorem State.groupSteps_only : OnlyMonitors s (s.groupSteps cx) :=
  foldl_keeps OnlyMonitors.refl OnlyMonitors.trans (State.groupStep_only cx) _ s

end

/-! ### One pair -/

section
variable (cx : GroupContext) (before : Quad GroupMonitor) (s : State) (p : PairId)

theorem State.pairRecompute_gm (g : GroupId) : (s.pairRecompute before g).gm = s.gm := (s.pairRecompute_only before g).gm

theorem State.pairBroken_gm : (s.pairBroken before p).gm = s.gm := by
  unfold State.pairBroken
  dsimp only
  split
  · rw [State.pairRecompute_gm, State.pairRecompute_gm, State.setLe_gm]
  · rw [State.setLe_gm]

theorem State.pairStep_gm : (s.pairStep cx before p).gm = { s.gm with pairs := s.gm.pairs.set p (s.pairNow p) } := by
  unfold State.pairStep
  dsimp only
  split
  · rename_i same
    rw [same]
    have : s.gm.pairs.set p (s.gm.pairs.get p) = s.gm.pairs := by cases p <;> rfl
    rw [this]
  · split
    · exact State.pairBroken_gm ..
    · rfl

@[simp] theorem State.pairStep_ss : (s.pairStep cx before p).ss = s.ss := (s.pairStep_only cx before p).ss
@[simp] theorem State.pairStep_groups : (s.pairStep cx before p).gm.groups = s.gm.groups := by rw [State.pairStep_gm]

/-- Whether a pair is INTACT rests on the pairing and on its groups. -/
theorem State.pairNow_congr {s t : State} (ss : t.ss = s.ss) (groups : t.gm.groups = s.gm.groups) (p : PairId) :
    t.pairNow p = s.pairNow p := by
  unfold State.pairNow
  rw [ss, groups]

@[simp] theorem State.pairStep_pairNow (q : PairId) : (s.pairStep cx before p).pairNow q = s.pairNow q :=
  State.pairNow_congr (s.pairStep_ss ..) (s.pairStep_groups ..) q

theorem State.pairStep_pairs (q : PairId) :
    (s.pairStep cx before p).gm.pairs.get q = if q = p then s.pairNow p else s.gm.pairs.get q := by
  rw [State.pairStep_gm, Duo.get_set]

theorem State.pairNow_intact : s.pairNow p = .intact ↔
    s.ss.working.analysis.pairing.paired p = true ∧ (s.gm.groups.get p.first).state = .monitor ∧
      (s.gm.groups.get p.second).state = .monitor := by
  unfold State.pairNow
  split <;> simp_all

end

/-! ### The whole step -/

section
variable (s : State) (cx : GroupContext)

theorem State.monitorStep_parts :
    s.monitorStep cx = PairId.all.foldl (State.pairStep cx s.gm.groups) (s.groupSteps cx) := rfl

/-- Every group takes its own step. -/
theorem State.monitorStep_groups (g : GroupId) : (s.monitorStep cx).gm.groups.get g = s.nextGroup cx g := by
  rw [State.monitorStep_parts, ← s.groupSteps_groups cx g]
  simp [PairId.all]

/-- A pair is INTACT as the working pairing and its groups have it (R88). -/
theorem State.monitorStep_pairs (p : PairId) : (s.monitorStep cx).gm.pairs.get p = (s.monitorStep cx).pairNow p := by
  have settled : (s.monitorStep cx).pairNow p = (s.groupSteps cx).pairNow p := by
    rw [State.monitorStep_parts]
    simp [PairId.all]
  rw [settled, State.monitorStep_parts]
  cases p <;> simp [PairId.all, State.pairStep_pairs]

end

/-! ### At the boundary -/

section
variable (s : State) (inputs : InputLevels)

/-- GM's next state of a group at the boundary of `s`. -/
theorem State.monitored_groups (g : GroupId) :
    (s.monitored inputs).gm.groups.get g =
      (s.gm.groups.get g).boundary s.mode s.appliedSs.working.analysis.settle s.opensWindow (inputs.get g) := by
  unfold State.monitored
  rw [State.monitorStep_groups]
  simp [State.nextGroup, State.context]

/-- A pair is INTACT behind the boundary exactly if it is paired and both its groups are in MONITOR (R88). -/
theorem State.monitored_pairs (p : PairId) :
    (s.monitored inputs).gm.pairs.get p = .intact ↔
      s.appliedSs.working.analysis.pairing.paired p = true ∧ ((s.monitored inputs).gm.groups.get p.first).state = .monitor ∧
        ((s.monitored inputs).gm.groups.get p.second).state = .monitor := by
  have now : (s.monitored inputs).gm.pairs.get p = (s.monitored inputs).pairNow p := State.monitorStep_pairs ..
  rw [now, State.pairNow_intact, State.monitored_ss]

end

@[simp] theorem GroupMonitor.debounced_state (m : GroupMonitor) (closed : Bool) : (m.debounced closed).state = m.state := by
  unfold GroupMonitor.debounced
  split
  · rfl
  · split <;> rfl

/-- A monitored group that does not leave stays in MONITOR. -/
theorem GroupMonitor.boundary_of_monitor {m : GroupMonitor} {closed : Bool} (monitor : m.state = .monitor)
    (stays : m.leaves closed = false) (mode : Mode) (settle : Nat) (opens : Bool) :
    m.boundary mode settle opens closed = m.debounced closed := by
  simp [GroupMonitor.boundary, stays, monitor]

end Sys2Proof.Machine
end

