-- ==== Sys2Proof/Proofs/EngineConsistency.lean ====
section
/-! PROOFS. Sets are open only for watched units under a running clock, and the arithmetic unit runs at most one job (R38, R40, R45, R50). -/

namespace Sys2Proof.Machine

open Sys2Proof.Safety

/-! ### The finishing slots -/

/-- The finishing slot of a unit runs. -/
def AnalysisEngine.runs (a : AnalysisEngine) : UnitId → Bool
  | .group g => (a.groupSlots.get g).isRunning
  | .pair p => (a.pairSlots.get p).isRunning

theorem jobOrder_nodup : jobOrder.Nodup := by decide

theorem runningSlots_eq (a : AnalysisEngine) : runningSlots a = jobOrder.countP a.runs := by
  have groups : [a.groupSlots.g0, a.groupSlots.g1, a.groupSlots.g2, a.groupSlots.g3] = GroupId.all.map a.groupSlots.get := rfl
  have pairs : [a.pairSlots.fst, a.pairSlots.snd] = PairId.all.map a.pairSlots.get := rfl
  rw [runningSlots, ← List.countP_eq_length_filter, ← List.countP_eq_length_filter, groups, pairs, jobOrder, List.countP_append,
    List.countP_map, List.countP_map, List.countP_map, List.countP_map]
  rfl

/-- Fewer slots run where every slot that runs ran before. -/
theorem runningSlots_le {a b : AnalysisEngine} (runs : ∀ u, b.runs u = true → a.runs u = true) : runningSlots b ≤ runningSlots a := by
  rw [runningSlots_eq, runningSlots_eq]
  exact List.countP_mono_left fun u _ => runs u

/-- With the arithmetic unit idle no slot runs. -/
theorem AnalysisEngine.not_runs_of_free {a : AnalysisEngine} (free : a.unitBusy = false) (u : UnitId) : a.runs u = false := by
  unfold AnalysisEngine.unitBusy at free
  simp only [Bool.or_eq_false_iff] at free
  obtain ⟨⟨groups, first⟩, second⟩ := free
  cases u with
  | group g =>
    have idle := (Quad.any_iff _).not.mp (by rw [groups]; decide)
    simpa [AnalysisEngine.runs] using not_exists.mp idle g
  | pair p =>
    cases p
    · exact first
    · exact second

theorem JobSlot.slotAfter_running {α β : Type} (set : Option α) (slot : JobSlot β) (job : α → β) :
    (slotAfter set slot job).isRunning = slot.isRunning := by
  cases set <;> cases slot <;> rfl

/-- The hand-over fills empty slots with WAITING jobs. -/
theorem AnalysisEngine.handOver_runs (a : AnalysisEngine) (x : Settings) (w : WindowClock) (u : UnitId) :
    (a.handOver x w).runs u = a.runs u := by
  cases u <;> simp [AnalysisEngine.handOver, AnalysisEngine.runs, JobSlot.slotAfter_running]

/-- A job that starts is the only one that it makes run. -/
theorem AnalysisEngine.startJob_runs {a : AnalysisEngine} {u v : UnitId} (h : (a.startJob u).runs v = true) :
    v = u ∨ a.runs v = true := by
  cases u with
  | group g =>
    cases v with
    | group k =>
      by_cases same : k = g
      · exact .inl (by rw [same])
      · exact .inr (by simpa [AnalysisEngine.startJob, AnalysisEngine.runs, Quad.get_set, same] using h)
    | pair q => exact .inr h
  | pair p =>
    cases v with
    | group k => exact .inr h
    | pair q =>
      by_cases same : q = p
      · exact .inl (by rw [same])
      · exact .inr (by simpa [AnalysisEngine.startJob, AnalysisEngine.runs, Duo.get_set, same] using h)

theorem AnalysisEngine.startJob_unit {a : AnalysisEngine} (free : a.unitBusy = false) (u : UnitId) :
    runningSlots (a.startJob u) ≤ 1 := by
  have only : ∀ v ∈ jobOrder, (a.startJob u).runs v = true → (v == u) = true := fun v _ runs => by
    obtain same | ran := AnalysisEngine.startJob_runs runs
    · simpa using same
    · simp [AnalysisEngine.not_runs_of_free free] at ran
  calc
    runningSlots (a.startJob u) = jobOrder.countP (a.startJob u).runs := runningSlots_eq _
    _ ≤ jobOrder.countP (· == u) := List.countP_mono_left only
    _ ≤ 1 := List.nodup_iff_count_le_one.mp jobOrder_nodup u

/-- A completed job runs no longer. -/
theorem AnalysisEngine.completeGroup_runs {a : AnalysisEngine} {g : GroupId} {j : GroupJob} {u : UnitId}
    (h : (a.completeGroup g j).runs u = true) : a.runs u = true := by
  cases u with
  | group k =>
    simp only [AnalysisEngine.completeGroup, AnalysisEngine.runs, Quad.get_set] at h ⊢
    split at h
    · cases h
    · exact h
  | pair q => exact h

theorem AnalysisEngine.completePair_runs {a : AnalysisEngine} {p : PairId} {j : PairJob} {u : UnitId}
    (h : (a.completePair p j).runs u = true) : a.runs u = true := by
  cases u with
  | group k => exact h
  | pair q =>
    simp only [AnalysisEngine.completePair, AnalysisEngine.runs, Duo.get_set] at h ⊢
    split at h
    · cases h
    · exact h

/-! ### Sets and clock at a boundary -/

/-- Which finishing slots run is the same behind AE's part of a boundary. -/
theorem State.closedAe_runs (s : State) (inputs : InputLevels) (u : UnitId) : (s.closedAe inputs).runs u = s.ae.runs u := by
  have marked (a : AnalysisEngine) (mark : Bool) : (a.marked mark).runs u = a.runs u := by
    cases mark <;> cases u <;> rfl
  have counted (a : AnalysisEngine) (mark : Bool) (leaving : Quad Bool) : (a.counted mark leaving).runs u = a.runs u := by
    rw [← marked a mark]
    cases u <;> rfl
  unfold State.closedAe AnalysisEngine.afterCycle
  split
  · rfl
  · split
    · rw [← marked s.ae s.ct.holdoverMark]
      cases u <;> rfl
    · split
      · rw [AnalysisEngine.handOver_runs, counted]
      · exact counted ..

theorem State.openedAe_runs (s : State) (inputs : InputLevels) (gm : Monitors) (u : UnitId) :
    (s.openedAe inputs gm).runs u = s.ae.runs u := by
  rw [← s.closedAe_runs inputs u]
  unfold State.openedAe
  split
  · cases u <;> rfl
  · rfl

/-- The sets of the engine that a boundary within a window leaves: those that stay. -/
theorem AnalysisEngine.counted_groupSets (a : AnalysisEngine) (mark : Bool) (leaving : Quad Bool) (g : GroupId) :
    (a.counted mark leaving).groupSets.get g =
      if leaving.get g then none else (a.groupSets.get g).map fun x => if mark then x.setDegraded else x := by
  cases mark <;> simp [AnalysisEngine.counted, AnalysisEngine.marked, AnalysisEngine.countCycle, AnalysisEngine.discardLeaving,
    AnalysisEngine.degrade]

theorem AnalysisEngine.counted_pairSets (a : AnalysisEngine) (mark : Bool) (leaving : Quad Bool) (p : PairId) :
    (a.counted mark leaving).pairSets.get p =
      if leaving.get p.first || leaving.get p.second then none
      else (a.pairSets.get p).map fun x => if mark then x.setDegraded else x := by
  cases mark <;> simp [AnalysisEngine.counted, AnalysisEngine.marked, AnalysisEngine.countCycle, AnalysisEngine.discardLeaving,
    AnalysisEngine.degrade]

theorem AnalysisEngine.counted_clock (a : AnalysisEngine) (mark : Bool) (leaving : Quad Bool) :
    (a.counted mark leaving).clock = a.clock.map fun w => { w with completed := w.completed + 1 } := by
  cases mark <;> rfl

theorem AnalysisEngine.counted_counter (a : AnalysisEngine) (mark : Bool) (leaving : Quad Bool) :
    (a.counted mark leaving).counter = a.counter := by
  cases mark <;> rfl

/-- The three courses that AE takes at a boundary (R38, R40, R41). -/
theorem State.closedAe_cases (s : State) (inputs : InputLevels) :
    (s.ae.clock = none ∧ s.closedAe inputs = s.ae) ∨
    ∃ w, s.ae.clock = some w ∧
      ((s.entersFree = true ∧ s.endsWindow = false ∧ s.closedAe inputs = (s.ae.marked s.ct.holdoverMark).discardWindow) ∨
        (s.entersFree = false ∧ s.endsWindow = true ∧ w.length.cycles ≤ w.completed + 1 ∧
          s.closedAe inputs = (s.ae.counted s.ct.holdoverMark (s.leaving inputs)).handOver s.ss.working w) ∨
        (s.entersFree = false ∧ s.endsWindow = false ∧ w.completed + 1 < w.length.cycles ∧
          s.closedAe inputs = s.ae.counted s.ct.holdoverMark (s.leaving inputs))) := by
  unfold State.closedAe AnalysisEngine.afterCycle
  cases clock : s.ae.clock with
  | none => exact .inl ⟨rfl, rfl⟩
  | some w =>
    refine .inr ⟨w, rfl, ?_⟩
    cases free : s.entersFree with
    | true => exact .inl ⟨rfl, by simp [State.endsWindow, free], rfl⟩
    | false =>
      cases ends : s.endsWindow with
      | true =>
        have complete : w.length.cycles ≤ w.completed + 1 := by
          simpa [State.endsWindow, free, AnalysisEngine.completes, clock] using ends
        exact .inr (.inl ⟨rfl, rfl, complete, rfl⟩)
      | false =>
        have within : w.completed + 1 < w.length.cycles := by
          simpa [State.endsWindow, free, AnalysisEngine.completes, clock] using ends
        exact .inr (.inr ⟨rfl, rfl, within, rfl⟩)

theorem WindowLen.cycles_pos (w : WindowLen) : 1 ≤ w.cycles := by cases w <;> decide

/-- Without an application point the working settings stay. -/
theorem State.appliedSs_of_within {s : State} (running : s.ae.stopped = false) (within : s.endsWindow = false) : s.appliedSs = s.ss := by
  simp [State.appliedSs, State.appliesHere, running, within]

/-! ### The obligation -/

/-- The engine's consistency needs AE's clock, sets and slots, the monitors and the pairing. -/
theorem engineConsistent_congr {s t : State} (h : EngineConsistent s) (ae : t.ae = s.ae) (gm : t.gm = s.gm)
    (pairing : t.ss.working.analysis = s.ss.working.analysis) : EngineConsistent t := by
  obtain ⟨groupSets, pairSets, completed, number, pairs, unit⟩ := h
  constructor <;> simpa only [ae, gm, pairing]

/-- An engine with the clock, counter, open sets and running jobs of another is as consistent. -/
theorem engineConsistent_of_ae {s t : State} (h : EngineConsistent s) (clock : t.ae.clock = s.ae.clock)
    (counter : t.ae.counter = s.ae.counter)
    (groupSets : ∀ g, (t.ae.groupSets.get g).isSome = (s.ae.groupSets.get g).isSome)
    (pairSets : ∀ p, (t.ae.pairSets.get p).isSome = (s.ae.pairSets.get p).isSome) (unit : runningSlots t.ae ≤ 1)
    (gm : t.gm = s.gm) (pairing : t.ss.working.analysis = s.ss.working.analysis) : EngineConsistent t := by
  refine ⟨fun g => ?_, fun p => ?_, ?_, ?_, fun p => ?_, unit⟩
  · rw [groupSets, clock, gm]; exact h.groupSets g
  · rw [pairSets, clock, gm]; exact h.pairSets p
  · rw [clock]; exact h.completed
  · rw [clock, counter]; exact h.number
  · rw [gm, pairing]; exact h.pairs p

/-- No set is open, no clock runs, no pair is INTACT. -/
theorem engineConsistent_fresh {s : State} (ae : s.ae = AnalysisEngine.fresh) (gm : s.gm = Monitors.fresh) : EngineConsistent s := by
  constructor <;> simp [ae, gm, AnalysisEngine.fresh, Monitors.fresh]
  decide

theorem engineConsistent_boundary {s : State} (h : EngineConsistent s) (inputs : InputLevels) :
    EngineConsistent (s.boundaryStep inputs) := by
  have unit : runningSlots (s.boundaryStep inputs).ae ≤ 1 := by
    refine (runningSlots_le fun u runs => ?_).trans h.unit
    rwa [State.boundaryStep_ae, State.openedAe_runs] at runs
  have pairs (p : PairId) := s.monitored_pairs inputs p
  have intact (p : PairId) (hp : (s.boundaryStep inputs).gm.pairs.get p = .intact) :
      (s.boundaryStep inputs).ss.working.analysis.pairing.paired p = true ∧
        ((s.boundaryStep inputs).gm.groups.get p.first).state = .monitor ∧
        ((s.boundaryStep inputs).gm.groups.get p.second).state = .monitor := by
    rw [State.boundaryStep_ss, State.boundaryStep_gm]
    rw [State.boundaryStep_gm] at hp
    exact (pairs p).mp hp
  have stays (g : GroupId) (monitor : (s.gm.groups.get g).state = .monitor) (stays : (s.leaving inputs).get g = false) :
      ((s.boundaryStep inputs).gm.groups.get g).state = .monitor := by
    rw [State.boundaryStep_gm, State.monitored_groups,
      GroupMonitor.boundary_of_monitor monitor (by simpa [State.leaving] using stays), GroupMonitor.debounced_state, monitor]
  cases opens : s.opensWindow with
  | true =>
    have ae : (s.boundaryStep inputs).ae =
        (s.closedAe inputs).openWindow s.appliedSs.working.analysis.window (s.ct.cycle + 1) (s.monitored inputs).gm := by
      simp [State.openedAe, opens]
    refine ⟨fun g some => ?_, fun p some => ?_, fun w clock => ?_, fun w clock => ?_, intact, unit⟩
    · refine ⟨by rw [ae]; rfl, ?_⟩
      rw [ae] at some
      rw [State.boundaryStep_gm]
      by_contra other
      simp [AnalysisEngine.openWindow, other] at some
    · refine ⟨by rw [ae]; rfl, ?_⟩
      rw [ae] at some
      rw [State.boundaryStep_gm]
      by_contra other
      simp [AnalysisEngine.openWindow, other] at some
    · rw [ae] at clock
      cases clock
      simpa using WindowLen.cycles_pos _
    · rw [ae] at clock ⊢
      cases clock
      rfl
  | false =>
    have ae : (s.boundaryStep inputs).ae = s.closedAe inputs := by simp [State.openedAe, opens]
    obtain ⟨stopped, same⟩ | ⟨w, running, ⟨-, -, discarded⟩ | ⟨-, ends, -⟩ | ⟨-, within, few, counted⟩⟩ := s.closedAe_cases inputs
    · rw [same] at ae
      refine ⟨fun g some => ?_, fun p some => ?_, fun w clock => ?_, fun w clock => ?_, intact, unit⟩
      · rw [ae] at some
        simpa [stopped] using (h.groupSets g some).1
      · rw [ae] at some
        simpa [stopped] using (h.pairSets p some).1
      · rw [ae, stopped] at clock; cases clock
      · rw [ae, stopped] at clock; cases clock
    · rw [discarded] at ae
      refine ⟨fun g some => ?_, fun p some => ?_, fun w clock => ?_, fun w clock => ?_, intact, unit⟩
      · rw [ae] at some; simp [AnalysisEngine.discardWindow] at some
      · rw [ae] at some; simp [AnalysisEngine.discardWindow] at some
      · rw [ae] at clock; simp [AnalysisEngine.discardWindow] at clock
      · rw [ae] at clock; simp [AnalysisEngine.discardWindow] at clock
    · simp [State.opensWindow, ends] at opens
    · rw [counted] at ae
      have clock : (s.boundaryStep inputs).ae.clock = some { w with completed := w.completed + 1 } := by
        rw [ae, AnalysisEngine.counted_clock, running]
        rfl
      refine ⟨fun g some => ⟨by rw [clock]; rfl, ?_⟩, fun p some => ⟨by rw [clock]; rfl, ?_⟩, fun w' e => ?_, fun w' e => ?_,
        intact, unit⟩
      · rw [ae, AnalysisEngine.counted_groupSets] at some
        split at some
        · cases some
        · rename_i keeps
          exact stays g (h.groupSets g (by simpa using some)).2 (by simpa using keeps)
      · rw [ae, AnalysisEngine.counted_pairSets] at some
        split at some
        · cases some
        · rename_i keeps
          obtain ⟨first, second⟩ : (s.leaving inputs).get p.first = false ∧ (s.leaving inputs).get p.second = false := by
            simpa using keeps
          have was := h.pairs p (h.pairSets p (by simpa using some)).2
          rw [State.boundaryStep_gm, pairs p, ← State.boundaryStep_gm, State.appliedSs_of_within (by simp [AnalysisEngine.stopped, running]) within]
          exact ⟨was.1, stays _ was.2.1 first, stays _ was.2.2 second⟩
      · rw [clock] at e
        cases e
        exact few
      · rw [clock] at e
        cases e
        rw [ae, AnalysisEngine.counted_counter]
        exact h.number w running

theorem engineConsistent_request {s : State} {c : Instr} {t : State} (h : EngineConsistent s) (effect : Effect s c t) :
    EngineConsistent t := by
  cases effect with
  | forceFreeze normal =>
    obtain ⟨_, _, _, _, _, -, e⟩ := s.offerTrigger_only _
    rw [e]
    exact engineConsistent_congr h (by simp) (by simp) (by simp)
  | setCounter w name => cases name <;> unfold State.setCounter <;> exact engineConsistent_congr h (by simp) (by simp) (by simp)
  | setLimit => unfold State.stageLimit; exact engineConsistent_congr h (by simp) (by simp) (by simp)
  | deleteLimit => unfold State.stageLimit; exact engineConsistent_congr h (by simp) (by simp) (by simp)
  | setChannel => exact engineConsistent_congr h (by simp) (by simp) (by simp [SettingsStore.stageChannel])
  | _ => exact engineConsistent_congr h (by simp) (by simp) (by simp)

/-- Every move keeps the engine consistent. -/
theorem engineConsistent_moves {c : Instr} {s t : State} (h : Moves c s t) (before : EngineConsistent s) : EngineConsistent t := by
  refine h.minor_or ?_ ?_ ?_ ?_ ?_ ?_ ?_ ?_ ?_ ?_
  · rintro ⟨ct, lc, image, flight, freeNext, same, rfl⟩
    exact engineConsistent_congr before (by simp) (by simp) (by simp)
  · rintro written rfl
    exact engineConsistent_fresh rfl rfl
  · rintro strap reference - rfl
    exact engineConsistent_fresh (s.release_ae ..) (s.release_gm ..)
  · rintro raw due rfl
    refine engineConsistent_of_ae before ?_ ?_ (fun g => ?_) (fun p => ?_) ?_ (by simp) (by simp)
    · rw [State.sampleStep_ae]; rfl
    · rw [State.sampleStep_ae]; rfl
    · simp [AnalysisEngine.addSamples]
    · simp [AnalysisEngine.addSamples]
    · rw [State.sampleStep_ae]; exact before.unit
  · rintro inputs - rfl
    exact engineConsistent_boundary before inputs
  · rintro free rfl
    unfold State.startNext
    split
    · rename_i u _
      have started := AnalysisEngine.startJob_unit free u
      cases u <;> exact engineConsistent_of_ae before rfl rfl (fun _ => rfl) (fun _ => rfl) started rfl rfl
    · exact before
  · rintro rfl
    obtain e | ⟨g, j, -, lc, e⟩ | ⟨p, j, -, e⟩ := s.completeJob_cases
    · rwa [e]
    · have unit : runningSlots s.completeJob.ae ≤ 1 := by
        refine (runningSlots_le fun u runs => ?_).trans before.unit
        rw [e] at runs
        exact AnalysisEngine.completeGroup_runs (by simpa using runs)
      exact engineConsistent_of_ae before (by rw [e]; rfl) (by rw [e]; rfl) (fun _ => by rw [e]; rfl) (fun _ => by rw [e]; rfl) unit
        (by rw [e]; simp) (by rw [e]; simp)
    · have unit : runningSlots s.completeJob.ae ≤ 1 := by
        refine (runningSlots_le fun u runs => ?_).trans before.unit
        rw [e] at runs
        exact AnalysisEngine.completePair_runs (by simpa using runs)
      exact engineConsistent_of_ae before (by rw [e]; rfl) (by rw [e]; rfl) (fun _ => by rw [e]; rfl) (fun _ => by rw [e]; rfl) unit
        (by rw [e]; simp) (by rw [e]; simp)
  · rintro rfl
    cases ready : s.ae.nextPass with
    | none => rwa [State.passStep_of_none ready]
    | some p =>
      have only := (s.setAe s.ae.withoutPass).evaluate_only p
      rw [State.passStep_of_ready ready]
      refine engineConsistent_of_ae before ?_ ?_ (fun g => ?_) (fun q => ?_) ?_ only.gm ?_
      all_goals first | rw [only.ae] | rw [only.ss]
      · rfl
      · rfl
      · rfl
      · rfl
      · exact before.unit
      · simp
  · rintro u stage readied effect rfl
    exact engineConsistent_congr (engineConsistent_request before effect) (by simp) (by simp) (by simp)
  · rintro rfl
    exact engineConsistent_fresh rfl rfl

/-- Settles O56, by what every move does to the clock, the sets, the slots and the monitors. -/
theorem engineStaysConsistent : Obligations.EngineStaysConsistent := by
  unfold Obligations.EngineStaysConsistent
  intro s t before h
  exact step_keeps (allowed := fun _ => True) (fun s rest h => engineConsistent_congr h rfl rfl rfl) (fun _ => engineConsistent_moves)
    (fun _ _ => trivial) before h

end Sys2Proof.Machine
end

