-- ==== Sys2Proof/Proofs/RfBins.lean ====
section
/-! PROOFS. The seven RF bins of a group sum to its windows-with-RF counter (R151 to R153). -/

namespace Sys2Proof.Machine

open Sys2Proof.Safety

/-- The seven RF bins of a group's counters, added up (R152). -/
def binSum (n : Vector Word 12) : Word := n[0] + n[1] + n[2] + n[3] + n[4] + n[5] + n[6]

theorem bumpAt_binSum (n : Vector Word 12) (k : Nat) : binSum (bumpAt n k) = binSum n + if k < 7 then 1 else 0 := by
  have bumped (i : Nat) (h : i < 12) : (bumpAt n k)[i] = n[i] + if i = k then 1 else 0 := by
    have := bumpAt_getElem n k ⟨i, h⟩
    simp only [Fin.getElem_fin] at this
    rw [this]
    split <;> simp
  simp only [binSum, bumped]
  by_cases bin : k < 7
  · interval_cases k <;> simp <;> ring
  · simp only [bin, if_false]
    simp [show ¬ 0 = k by omega, show ¬ 1 = k by omega, show ¬ 2 = k by omega, show ¬ 3 = k by omega, show ¬ 4 = k by omega,
      show ¬ 5 = k by omega, show ¬ 6 = k by omega]

/-- The bins of a group sum to its windows-with-RF counter. -/
def Statistics.Agrees (st : Statistics) (g : GroupId) : Prop := binSum (st.groups.get g) = (st.groups.get g)[8]

theorem binsAgree_iff (s : State) (g : GroupId) : BinsAgree s g ↔ s.st.Agrees g := Iff.rfl

theorem Statistics.bumpGroup_binSum (st : Statistics) (g h : GroupId) (k : Nat) :
    binSum ((st.bumpGroup g k).groups.get h) = binSum (st.groups.get h) + if h = g ∧ k < 7 then 1 else 0 := by
  by_cases same : h = g
  · subst same
    simp [Statistics.bumpGroup, bumpAt_binSum]
  · simp [Statistics.bumpGroup, Quad.get_set_of_ne _ _ same, same]

theorem Statistics.bumpGroup_withRf (st : Statistics) (g h : GroupId) (k : Nat) :
    ((st.bumpGroup g k).groups.get h)[8] = (st.groups.get h)[8] + if h = g ∧ k = 8 then 1 else 0 := by
  simpa [eq_comm] using st.bumpGroup_get g h k 8

/-- A counter that is neither a bin nor windows-with-RF does not matter. -/
theorem Statistics.Agrees.bump_other {st : Statistics} {h : GroupId} (agrees : st.Agrees h) (g : GroupId) {k : Nat} (bin : 7 ≤ k)
    (other : k ≠ 8) : (st.bumpGroup g k).Agrees h := by
  unfold Statistics.Agrees at *
  rw [Statistics.bumpGroup_binSum, Statistics.bumpGroup_withRf, if_neg (by omega), if_neg (by omega), agrees]

/-- A window with RF counts once there and once in its bin (R152). -/
theorem Statistics.Agrees.bump_rf {st : Statistics} {h : GroupId} (agrees : st.Agrees h) (g : GroupId) {k : Nat} (bin : k < 7) :
    ((st.bumpGroup g 8).bumpGroup g k).Agrees h := by
  unfold Statistics.Agrees at *
  simp [Statistics.bumpGroup_binSum, Statistics.bumpGroup_withRf, agrees, bin, show k ≠ 8 by omega]

theorem rfBin_lt (rf : Nat) : rfBin rf < 7 := by
  unfold rfBin
  repeat' split
  all_goals decide

theorem Statistics.Agrees.countRecord {st : Statistics} {h : GroupId} (agrees : st.Agrees h) (g : GroupId) (r : GroupRecord) :
    (st.countRecord g r).Agrees h := by
  have analysed := agrees.bump_other g (k := 7) (by decide) (by decide)
  unfold Statistics.countRecord
  dsimp only
  have rf : (match r.rf with
      | some x => ((st.bumpGroup g 7).bumpGroup g 8).bumpGroup g (rfBin x)
      | none => st.bumpGroup g 7).Agrees h := by
    cases r.rf with
    | none => exact analysed
    | some x => exact analysed.bump_rf g (rfBin_lt x)
  split
  · exact rf.bump_other g (by decide) (by decide)
  · exact rf

/-- Counting for the groups of a condition keeps the bins where the counter is none of them. -/
theorem Statistics.Agrees.foldl_bump {h : GroupId} (on : GroupId → Bool) {k : Nat} (bin : 7 ≤ k) (other : k ≠ 8)
    (groups : List GroupId) {st : Statistics} (agrees : st.Agrees h) :
    (groups.foldl (fun st g => if on g then st.bumpGroup g k else st) st).Agrees h := by
  refine foldl_keeps (R := fun a b : Statistics => a.Agrees h → b.Agrees h) (fun _ => id) (fun p q => q ∘ p) (fun a g was => ?_) groups
    st agrees
  split
  · exact was.bump_other g bin other
  · exact was

theorem Statistics.Agrees.afterCycle {st : Statistics} {h : GroupId} (agrees : st.Agrees h) (a : AnalysisEngine) (mark free ends : Bool)
    (leaving : Quad Bool) : (st.afterCycle a mark free ends leaving).Agrees h := by
  have discards (sets : Quad (Option GroupSets)) (gone : Quad Bool) : (st.countDiscards sets gone).Agrees h :=
    agrees.foldl_bump _ (by decide) (by decide) _
  unfold Statistics.afterCycle
  split
  · exact agrees
  · split
    · exact discards _ _
    · split
      · exact (discards _ _).foldl_bump _ (by decide) (by decide) _
      · exact discards _ _

theorem Statistics.fresh_agrees (g : GroupId) : Statistics.fresh.Agrees g := by
  cases g <;> (unfold Statistics.Agrees; decide)

theorem Effect.st {s t : State} {c : Instr} (effect : Effect s c t) (written : c ≠ .setCounter) : t.st = s.st := by
  cases effect with
  | setCounter w name => exact absurd rfl written
  | forceFreeze normal =>
    obtain ⟨_, _, _, _, _, -, e⟩ := s.offerTrigger_only _
    rw [e]
    simp
  | setLimit => unfold State.stageLimit; simp
  | deleteLimit => unfold State.stageLimit; simp
  | _ => simp

/-- Every move but a SET_COUNTER's keeps the bins of each group in step. -/
theorem binsAgree_moves {c : Instr} {s t : State} {g : GroupId} (written : c ≠ .setCounter) (h : Moves c s t) (before : s.st.Agrees g) :
    t.st.Agrees g := by
  refine h.minor_or ?_ ?_ ?_ ?_ ?_ ?_ ?_ ?_ ?_ ?_
  · rintro ⟨ct, lc, image, flight, freeNext, same, rfl⟩
    exact before
  · rintro image rfl
    exact Statistics.fresh_agrees g
  · rintro strap reference - rfl
    rw [State.release_st]
    exact Statistics.fresh_agrees g
  · rintro raw - rfl
    rwa [State.sampleStep_st]
  · rintro inputs - rfl
    rw [State.boundaryStep_st]
    exact before.afterCycle ..
  · rintro - rfl
    unfold State.startNext
    split <;> exact before
  · rintro rfl
    obtain e | ⟨h, j, -, lc, e⟩ | ⟨p, j, -, e⟩ := s.completeJob_cases
    · rwa [e]
    · rw [e]
      exact before.countRecord h _
    · rw [e]
      exact before
  · rintro rfl
    rwa [State.passStep_st]
  · rintro u stage readied effect rfl
    rw [State.setLc_st, effect.st written]
    exact before
  · rintro rfl
    exact before

/-- Settles O60, by what every move counts. -/
theorem binsSumToTheCounter : Obligations.BinsSumToTheCounter := by
  unfold Obligations.BinsSumToTheCounter
  intro s t g before front h
  exact step_keeps (P := fun s => BinsAgree s g) (fun s rest h => h) (fun allowed => binsAgree_moves allowed)
    (fun c first written => front (written ▸ first)) before h

end Sys2Proof.Machine
end

