-- ==== Sys2Proof/Proofs/SharedFs.lean ====
section
/-! PROOFS. The tied current channels keep one FS, staged and working (R7). -/

namespace Sys2Proof.Machine

open Sys2Proof.Safety

/-! ### What is applied -/

theorem StagedChannel.empty_fs : StagedChannel.empty.fs = none := rfl

@[simp] theorem Staging.withoutAnalysis_channels (st : Staging) (c : ChannelId) :
    st.withoutAnalysis.channels.get c = StagedChannel.empty := by simp [Staging.withoutAnalysis, Staging.empty]

@[simp] theorem Staging.withoutAnalysis_analysis (st : Staging) : st.withoutAnalysis.analysis = none := rfl

@[simp] theorem SettingsStore.withAnalysis_channel (ss : SettingsStore) (c : ChannelId) :
    ss.withAnalysis.working.channels.get c = (ss.staged.channels.get c).apply (ss.working.channels.get c) := by
  simp [SettingsStore.withAnalysis, Settings.applyAnalysis]

@[simp] theorem SettingsStore.withAnalysis_analysis (ss : SettingsStore) :
    ss.withAnalysis.working.analysis = ss.staged.analysis.getD ss.working.analysis := rfl

@[simp] theorem SettingsStore.withAnalysis_staged (ss : SettingsStore) : ss.withAnalysis.staged = ss.staged.withoutAnalysis := rfl

/-! ### Tied channels of a settings store -/

/-- The tied channels agree in the working settings and in the prospective ones. -/
structure SettingsStore.TiedAgree (ss : SettingsStore) : Prop where
  working : FsShared (fun c => (ss.working.channels.get c).fs) ss.working.analysis.pairing
  prospective : FsShared ss.prospectiveFs ss.prospectivePairing

theorem fsAgrees_iff (s : State) : FsAgrees s ↔ s.ss.TiedAgree := ⟨fun ⟨w, p⟩ => ⟨w, p⟩, fun ⟨w, p⟩ => ⟨w, p⟩⟩

section
variable {ss : SettingsStore}

/-- Only the channels and the analysis settings, working and staged, matter. -/
theorem SettingsStore.TiedAgree.congr (h : ss.TiedAgree) {x : SettingsStore} (channels : x.working.channels = ss.working.channels)
    (analysis : x.working.analysis = ss.working.analysis) (stagedChannels : x.staged.channels = ss.staged.channels)
    (stagedAnalysis : x.staged.analysis = ss.staged.analysis) : x.TiedAgree := by
  obtain ⟨working, prospective⟩ := h
  constructor
  · simpa only [channels, analysis] using working
  · unfold SettingsStore.prospectiveFs SettingsStore.prospectivePairing at *
    simpa only [channels, analysis, stagedChannels, stagedAnalysis] using prospective

/-- Settings with nothing staged agree as they are. -/
theorem SettingsStore.TiedAgree.of_unstaged (working : FsShared (fun c => (ss.working.channels.get c).fs) ss.working.analysis.pairing)
    (channels : ∀ c, ss.staged.channels.get c = StagedChannel.empty) (analysis : ss.staged.analysis = none) : ss.TiedAgree := by
  refine ⟨working, ?_⟩
  have fs : ss.prospectiveFs = fun c => (ss.working.channels.get c).fs := by
    funext c
    simp [SettingsStore.prospectiveFs, channels, StagedChannel.empty_fs]
  have pairing : ss.prospectivePairing = ss.working.analysis.pairing := by simp [SettingsStore.prospectivePairing, analysis]
  rwa [fs, pairing]

theorem SettingsStore.TiedAgree.withAnalysis (h : ss.TiedAgree) : ss.withAnalysis.TiedAgree := by
  refine .of_unstaged ?_ (fun c => by simp) (by simp)
  simp only [SettingsStore.withAnalysis_channel, SettingsStore.withAnalysis_analysis]
  exact h.prospective

theorem SettingsStore.TiedAgree.withLimits (h : ss.TiedAgree) : ss.withLimits.TiedAgree := h.congr (by simp) (by simp) (by simp) (by simp)

/-! ### SET_CHANNEL and SET_ANALYSIS -/

@[simp] theorem SettingsStore.stageChannel_working (q : ChannelRequest) : (ss.stageChannel q).working = ss.working := rfl

@[simp] theorem SettingsStore.stageChannel_analysis (q : ChannelRequest) : (ss.stageChannel q).staged.analysis = ss.staged.analysis := rfl

theorem SettingsStore.stageChannel_channel (q : ChannelRequest) (c : ChannelId) :
    (ss.stageChannel q).staged.channels.get c =
      if c = q.channel then stageFields c q.settings (ss.staged.channels.get c)
      else if ss.sharesFs q.channel c then { ss.staged.channels.get c with fs := some q.settings.fs } else ss.staged.channels.get c := by
  simp [SettingsStore.stageChannel]

theorem stageFields_fs (c : ChannelId) (x : ChannelSettings) (old : StagedChannel) : (stageFields c x old).fs = some x.fs := by
  unfold stageFields
  split <;> rfl

theorem SettingsStore.sharesFs_self (c : ChannelId) : ss.sharesFs c c = true := by cases c <;> simp [SettingsStore.sharesFs]

/-- SET_CHANNEL writes the FS of the named channel and of those tied to it (R7). -/
theorem SettingsStore.stageChannel_prospectiveFs (q : ChannelRequest) (c : ChannelId) :
    (ss.stageChannel q).prospectiveFs c = if ss.sharesFs q.channel c then q.settings.fs else ss.prospectiveFs c := by
  unfold SettingsStore.prospectiveFs
  rw [SettingsStore.stageChannel_channel]
  by_cases named : c = q.channel
  · rw [if_pos named, stageFields_fs, named, SettingsStore.sharesFs_self]
    rfl
  · rw [if_neg named]
    split <;> rfl

theorem SettingsStore.sharesFs_arms (named : ChannelId) (g : GroupId) : ss.sharesFs named (.ia g) = ss.sharesFs named (.ib g) := by
  cases named <;> simp [SettingsStore.sharesFs]

theorem SettingsStore.sharesFs_pair (named : ChannelId) {p : PairId} (paired : ss.prospectivePairing.paired p = true) :
    ss.sharesFs named (.ia p.first) = ss.sharesFs named (.ia p.second) := by
  cases named with
  | v g => simp [SettingsStore.sharesFs]
  | acref => simp [SettingsStore.sharesFs]
  | ia g =>
    cases p <;> cases g <;> simp [SettingsStore.sharesFs, PairId.first, PairId.second, GroupId.pair, paired]
  | ib g =>
    cases p <;> cases g <;> simp [SettingsStore.sharesFs, PairId.first, PairId.second, GroupId.pair, paired]

theorem SettingsStore.TiedAgree.stageChannel (h : ss.TiedAgree) (q : ChannelRequest) : (ss.stageChannel q).TiedAgree := by
  obtain ⟨working, arms, pairs⟩ := h
  refine ⟨working, fun g => ?_, fun p paired => ?_⟩
  · rw [SettingsStore.stageChannel_prospectiveFs, SettingsStore.stageChannel_prospectiveFs, SettingsStore.sharesFs_arms, arms g]
  · rw [SettingsStore.stageChannel_prospectiveFs, SettingsStore.stageChannel_prospectiveFs,
      SettingsStore.sharesFs_pair (ss := ss) q.channel (by simpa [SettingsStore.prospectivePairing] using paired),
      pairs p (by simpa [SettingsStore.prospectivePairing] using paired)]

/-- What a pair's FS test says, channel by channel. -/
theorem SettingsStore.pairFsAgrees_iff (p : PairId) :
    ss.pairFsAgrees p = true ↔
      ss.prospectiveFs (.ib p.first) = ss.prospectiveFs (.ia p.first) ∧
      ss.prospectiveFs (.ia p.second) = ss.prospectiveFs (.ia p.first) ∧
      ss.prospectiveFs (.ib p.second) = ss.prospectiveFs (.ia p.first) := by
  simp [SettingsStore.pairFsAgrees]

theorem SettingsStore.TiedAgree.stageAnalysis (h : ss.TiedAgree) {x : AnalysisSettings}
    (agree : ∀ q, x.pairing.paired q = true → ss.pairFsAgrees q = true) :
    SettingsStore.TiedAgree { ss with staged := { ss.staged with analysis := some x } } := by
  refine ⟨h.working, h.prospective.1, fun p paired => ?_⟩
  obtain ⟨-, second, -⟩ := (ss.pairFsAgrees_iff p).mp (agree p paired)
  exact second.symm

end

/-! ### The obligation -/

theorem Settings.factory_tied : FsShared (fun c => (Settings.factory.channels.get c).fs) Settings.factory.analysis.pairing := by
  constructor <;> intros <;> simp [Settings.factory]

theorem Effect.tied {s t : State} {c : Instr} (effect : Effect s c t) (before : s.ss.TiedAgree) : t.ss.TiedAgree := by
  cases effect with
  | forceFreeze normal =>
    obtain ⟨_, _, _, _, _, -, e⟩ := s.offerTrigger_only _
    rw [e]
    exact before
  | setChannel => exact before.stageChannel _
  | setAnalysis read agree => exact before.stageAnalysis agree
  | setCounter w name => cases name <;> exact before
  | setLimit => unfold State.stageLimit; exact before.congr (by simp) (by simp) (by simp) (by simp)
  | deleteLimit => unfold State.stageLimit; exact before.congr (by simp) (by simp) (by simp) (by simp)
  | setWeights => exact before.congr (by simp) (by simp) (by simp) (by simp)
  | setFreeze => exact before.congr (by simp) (by simp) (by simp) (by simp)
  | setComparator => exact before.congr (by simp) (by simp) (by simp) (by simp)
  | storeSettings => exact before.congr (by simp) (by simp) (by simp) (by simp)
  | checkSettings => exact before.congr (by simp) (by simp) (by simp) (by simp)
  | _ => simpa using before

/-- Every move but a release keeps the tied channels at one FS. -/
theorem tiedAgree_moves {c : Instr} {s t : State} (loads : ∀ strap reference, c ≠ .resetRelease strap reference) (h : Moves c s t)
    (before : s.ss.TiedAgree) : t.ss.TiedAgree := by
  refine h.minor_or ?_ ?_ ?_ ?_ ?_ ?_ ?_ ?_ ?_ ?_
  · rintro ⟨ct, lc, image, flight, freeNext, same, rfl⟩
    exact before.congr (by simp) (by simp) (by simp) (by simp)
  · rintro image rfl
    exact .of_unstaged Settings.factory_tied (fun c => PerChannel.get_fill _ c) rfl
  · rintro strap reference rfl
    exact absurd rfl (loads strap reference)
  · rintro raw - rfl
    rwa [State.sampleStep_ss]
  · rintro inputs - rfl
    rw [State.boundaryStep_ss]
    have applied : (if s.appliesHere then s.ss.withAnalysis else s.ss).TiedAgree := by
      split
      · exact before.withAnalysis
      · exact before
    unfold State.appliedSs
    dsimp only
    split
    · exact applied.withLimits
    · exact applied
  · rintro - rfl
    unfold State.startNext
    split <;> exact before
  · rintro rfl
    obtain e | ⟨g, j, -, lc, e⟩ | ⟨p, j, -, e⟩ := s.completeJob_cases <;> rw [e] <;> simpa using before
  · rintro rfl
    cases ready : s.ae.nextPass with
    | none => rwa [State.passStep_of_none ready]
    | some p =>
      rw [State.passStep_of_ready ready, ((s.setAe s.ae.withoutPass).evaluate_only p).ss]
      exact before.withLimits
  · rintro u stage readied effect rfl
    rw [State.setLc_ss]
    exact effect.tied before
  · rintro rfl
    refine .of_unstaged ?_ (fun c => PerChannel.get_fill _ c) rfl
    exact before.withAnalysis.withLimits.working

/-- Settles O59, by what every move stages and applies. -/
theorem sharedFsAgree : Obligations.SharedFsAgree := by
  unfold Obligations.SharedFsAgree
  intro s t before front h
  refine step_keeps (P := FsAgrees) (allowed := fun c => ∀ strap reference, c ≠ .resetRelease strap reference) (fun s rest h => ⟨h.working, h.prospective⟩) (fun allowed move before => ?_)
    (fun c first strap reference is => front strap reference (is ▸ first)) before h
  rw [fsAgrees_iff] at before ⊢
  exact tiedAgree_moves allowed move before

end Sys2Proof.Machine
end

