-- ==== Sys2Proof/Proofs/SettingsRanges.lean ====
section
/-! PROOFS. The working settings, everything staged, the filters and the holds keep their ranges (R8, R14, R74, R99, R121, R129, R136, R180). -/

namespace Sys2Proof.Machine

open Sys2Proof.Safety

/-! ### The range tests, field by field -/

theorem GroupId.mem_all (g : GroupId) : g ∈ GroupId.all := by cases g <;> decide
theorem CompId.mem_all (c : CompId) : c ∈ CompId.all := by cases c <;> decide
theorem ChannelId.mem_all (c : ChannelId) : c ∈ ChannelId.all := by
  cases c with
  | acref => decide
  | v g => cases g <;> decide
  | ia g => cases g <;> decide
  | ib g => cases g <;> decide

theorem ChannelSettings.inRange_iff (c : ChannelId) (x : ChannelSettings) :
    x.inRange c = true ↔
      ((1000 ≤ x.fs ∧ x.fs ≤ 65535) ∧ (-2048 ≤ x.offsetLow ∧ x.offsetLow ≤ 2047) ∧ (16384 ≤ x.gainLow ∧ x.gainLow ≤ 49151)) ∧
      (c.isCurrent = true → (-2048 ≤ x.offsetHigh ∧ x.offsetHigh ≤ 2047) ∧ (16384 ≤ x.gainHigh ∧ x.gainHigh ≤ 49151) ∧
        x.rangeMode.known = true ∧ 1 ≤ x.hold ∧ x.hold ≤ 60) := by
  cases current : c.isCurrent <;> simp [ChannelSettings.inRange, calibrationInRange, current] <;> tauto

theorem vector_all_iff {α : Type} {n : Nat} (v : Vector α n) (f : α → Bool) : v.toList.all f = true ↔ ∀ i : Fin n, f v[i] = true := by
  simp [Fin.forall_iff]

/-- Settings within their working ranges, group by group (R180). -/
theorem Settings.inRange_iff (x : Settings) :
    x.inRange = true ↔
      (∀ c, (x.channels.get c).inRange c = true) ∧ x.analysis.inRange = true ∧ (∀ i : Fin 50, x.weights[i] ≤ 1024) ∧
      (∀ (k : Fin 48) e, x.limits[k] = some e → e.valid = true ∧ e.fits = true) ∧
      (∀ g c, (x.comparator g c).inRange = true) ∧ x.freeze.inRange = true := by
  have channels : (ChannelId.all.all fun c => (x.channels.get c).inRange c) = true ↔ ∀ c, (x.channels.get c).inRange c = true := by
    simp [ChannelId.mem_all]
  have comparators : (GroupId.all.all fun g => CompId.all.all fun c => ((x.comparators.get g).comp c).inRange) = true ↔
      ∀ g c, (x.comparator g c).inRange = true := by
    simp [GroupId.mem_all, CompId.mem_all, Settings.comparator]
  unfold Settings.inRange
  simp only [Bool.and_eq_true, vector_all_iff, decide_eq_true_eq, and_assoc]
  rw [channels, comparators]
  constructor
  · rintro ⟨channels, analysis, weights, limits, rest⟩
    refine ⟨channels, analysis, weights, fun k e entry => ?_, rest⟩
    have := limits k
    rw [entry] at this
    simpa using this
  · rintro ⟨channels, analysis, weights, limits, rest⟩
    refine ⟨channels, analysis, weights, fun k => ?_, rest⟩
    cases entry : x.limits[k] with
    | none => rfl
    | some e => simpa using limits k e entry

theorem ChannelSettings.fixUnused_inRange {c : ChannelId} {x : ChannelSettings} (h : x.inRange c = true) : (x.fixUnused c).inRange c = true := by
  unfold ChannelSettings.fixUnused
  split
  · exact h
  · rename_i plain
    obtain ⟨examined, -⟩ := (ChannelSettings.inRange_iff c x).mp h
    exact (ChannelSettings.inRange_iff c _).mpr ⟨examined, fun current => absurd current plain⟩

/-- A copy in range is in range as loaded (R180). -/
theorem Settings.asLoaded_inRange {x : Settings} (h : x.inRange = true) : x.asLoaded.inRange = true := by
  obtain ⟨channels, analysis, weights, limits, comparators, freeze⟩ := (Settings.inRange_iff x).mp h
  refine (Settings.inRange_iff _).mpr ⟨fun c => ?_, analysis, weights, limits, comparators, freeze⟩
  simpa [Settings.asLoaded] using ChannelSettings.fixUnused_inRange (channels c)

theorem startUp_inRange (strap : Bool) (image : StoredImage) : (startUp strap image).1.inRange = true := by
  obtain factory | ⟨copy, range, loaded⟩ := startUp_cases strap image
  · rw [factory]; exact Settings.factory_inRange
  · rw [loaded]; exact Settings.asLoaded_inRange range

/-! ### What is staged, and its application -/

/-- A settings store whose working settings lie in their ranges, with everything staged. -/
structure SettingsStore.InRange (ss : SettingsStore) : Prop where
  working : ss.working.inRange = true
  channels : ∀ c, StagedInRange c (ss.staged.channels.get c)
  analysis : ∀ x, ss.staged.analysis = some x → x.inRange = true
  weights : ∀ (i : Fin 50) w, ss.staged.weights[i] = some w → w ≤ 1024
  limits : ∀ (k : Fin 48) e, ss.staged.limits[k] = some (.replace e) → e.valid = true ∧ e.fits = true

theorem settingsInRange_iff (s : State) :
    SettingsInRange s ↔ s.ss.InRange ∧ (∀ g c, (s.fc.get g c).run + 1 ≤ (s.ss.working.comparator g c).filter) ∧
      ∀ g, (s.fe.ia.get g).hold ≤ 60 ∧ (s.fe.ib.get g).hold ≤ 60 :=
  ⟨fun ⟨a, b, c, d, e, f, g⟩ => ⟨⟨a, b, c, d, e⟩, f, g⟩, fun ⟨⟨a, b, c, d, e⟩, f, g⟩ => ⟨a, b, c, d, e, f, g⟩⟩

theorem stagedInRange_empty (c : ChannelId) : StagedInRange c StagedChannel.empty := by constructor <;> exact nofun

/-- A value that is staged or kept has what both have. -/
theorem getD_of {α : Type} {P : α → Prop} {o : Option α} {d : α} (staged : ∀ v, o = some v → P v) (kept : P d) : P (o.getD d) := by
  cases o with
  | none => exact kept
  | some v => exact staged v rfl

theorem StagedChannel.apply_inRange {c : ChannelId} {st : StagedChannel} {x : ChannelSettings} (staged : StagedInRange c st)
    (kept : x.inRange c = true) : (st.apply x).inRange c = true := by
  rw [ChannelSettings.inRange_iff] at kept ⊢
  obtain ⟨⟨fs, offset, gain⟩, current⟩ := kept
  refine ⟨⟨getD_of staged.fs fs, getD_of staged.low offset, getD_of staged.gainLow gain⟩, fun isCurrent => ?_⟩
  obtain ⟨offsetHigh, gainHigh, mode, hold⟩ := current isCurrent
  exact ⟨getD_of (fun v e => (staged.high v e).2) offsetHigh, getD_of (fun v e => (staged.gainHigh v e).2) gainHigh,
    getD_of (P := fun m : RangeMode => m.known = true) (fun v e => (staged.mode v e).2) mode,
    getD_of (P := fun n : Nat => 1 ≤ n ∧ n ≤ 60) (fun v e => (staged.hold v e).2) hold⟩

section
variable {ss : SettingsStore}

theorem SettingsStore.InRange.withAnalysis (h : ss.InRange) : ss.withAnalysis.InRange := by
  obtain ⟨channels, analysis, weights, limits, comparators, freeze⟩ := (Settings.inRange_iff _).mp h.working
  refine ⟨(Settings.inRange_iff _).mpr ⟨fun c => ?_, ?_, fun i => ?_, ?_, ?_, ?_⟩, fun c => ?_, nofun, fun i w e => ?_, fun k e edit => ?_⟩
  · rw [SettingsStore.withAnalysis_channel]
    exact StagedChannel.apply_inRange (h.channels c) (channels c)
  · rw [SettingsStore.withAnalysis_analysis]
    exact getD_of (P := fun x : AnalysisSettings => x.inRange = true) h.analysis analysis
  · have : ss.withAnalysis.working.weights[i] = ss.staged.weights[i].getD ss.working.weights[i] := tableZip_getElem ..
    rw [this]
    exact getD_of (P := (· ≤ 1024)) (h.weights i) (weights i)
  · simpa using limits
  · simpa [Settings.comparator] using comparators
  · simpa using freeze
  · simpa using stagedInRange_empty c
  · simp [Staging.withoutAnalysis, Staging.empty] at e
  · exact h.limits k e edit

theorem SettingsStore.InRange.withLimits (h : ss.InRange) : ss.withLimits.InRange := by
  obtain ⟨channels, analysis, weights, limits, comparators, freeze⟩ := (Settings.inRange_iff _).mp h.working
  refine ⟨(Settings.inRange_iff _).mpr ⟨by simpa using channels, by simpa using analysis, fun i => by rw [SettingsStore.withLimits_weights]; exact weights i, fun k e entry => ?_,
    fun g c => by rw [Settings.comparator, SettingsStore.withLimits_comparators]; exact comparators g c, by simpa using freeze⟩,
    by simpa using h.channels, by simpa using h.analysis, fun i => by rw [SettingsStore.withLimits_staged_weights]; exact h.weights i, fun k e edit => ?_⟩
  · have : ss.withLimits.working.limits[k] = LimitEdit.apply ss.staged.limits[k] ss.working.limits[k] := tableZip_getElem ..
    rw [this] at entry
    match edit : ss.staged.limits[k] with
    | none => rw [edit] at entry; exact limits k e entry
    | some .delete => rw [edit] at entry; cases entry
    | some (.replace e') =>
      rw [edit] at entry
      cases entry
      exact h.limits k e edit
  · simp [SettingsStore.withLimits, Staging.withoutLimits] at edit

theorem SettingsStore.fresh_inRange {x : Settings} (image : StoredImage) (range : x.inRange = true) : (SettingsStore.fresh x image).InRange := by
  refine ⟨range, fun c => ?_, nofun, fun i w e => ?_, fun k e edit => ?_⟩
  · simpa [SettingsStore.fresh, Staging.empty] using stagedInRange_empty c
  · simp [SettingsStore.fresh, Staging.empty] at e
  · simp [SettingsStore.fresh, Staging.empty] at edit

/-! ### What the writing requests stage -/

theorem u8_le (p : List Byte) (i : Nat) : u8 p i ≤ 255 := by
  unfold u8
  have := (p.getD i 0).isLt
  omega

theorem beInt_bounds (bs : List Byte) : -(256 ^ bs.length : Nat) ≤ 2 * beInt bs ∧ 2 * beInt bs < (256 ^ bs.length : Nat) := by
  have bound := beNat_lt bs
  unfold beInt
  dsimp only
  split <;> omega

theorem i32_bounds (p : List Byte) (i : Nat) : -2147483648 ≤ i32 p i ∧ i32 p i ≤ 2147483647 := by
  have bounds := beInt_bounds (slice p i 4)
  have length : (slice p i 4).length ≤ 4 := by simp [slice]
  have : 256 ^ (slice p i 4).length ≤ 256 ^ 4 := Nat.pow_le_pow_right (by decide) length
  unfold i32
  omega

theorem channelField_inRange {p : List Byte} {q : ChannelRequest} (read : channelField p = some q) :
    q.settings.inRange q.channel = true := by
  simp only [channelField, Option.bind_eq_bind, Option.bind_eq_some_iff] at read
  obtain ⟨c, -, read⟩ := read
  have fits {x : ChannelSettings}
      (read : (if x.inRange c then some { channel := c, settings := x.fixUnused c } else none) = some q) :
      q.settings.inRange q.channel = true := by
    split at read
    · cases read
      exact ChannelSettings.fixUnused_inRange ‹_›
    · cases read
  split at read
  · obtain ⟨m, -, read⟩ := Option.bind_eq_some_iff.mp read
    exact fits read
  · exact fits read

theorem limitField_fits {p : List Byte} {k : Fin 48} {e : LimitEntry} (read : limitField p = some (k, e)) : e.valid = true ∧ e.fits = true := by
  simp only [limitField, Option.bind_eq_bind, Option.bind_eq_some_iff] at read
  obtain ⟨scope, -, q, -, sense, -, sev, -, read⟩ := read
  split at read
  · split at read
    · cases read
      refine ⟨‹_›, ?_⟩
      simp [LimitEntry.fits, i32_bounds, u8_le]
    · cases read
  · cases read

theorem analysisField_inRange {p : List Byte} {x : AnalysisSettings} (read : analysisField p = some x) : x.inRange = true := by
  simp only [analysisField, Option.bind_eq_bind, Option.bind_eq_some_iff] at read
  obtain ⟨w, -, n, -, g, -, read⟩ := read
  split at read
  · cases read
    exact ‹_›
  · cases read

theorem comparatorField_inRange {p : List Byte} {q : ComparatorRequest} (read : comparatorField p = some q) : q.settings.inRange = true := by
  simp only [comparatorField, Option.bind_eq_bind, Option.bind_eq_some_iff] at read
  obtain ⟨g, -, c, -, s, -, m, -, a, -, f, -, r, -, read⟩ := read
  cases read
  simp [CompSettings.inRange, u8_le]

theorem stageFields_inRange {c : ChannelId} {x : ChannelSettings} {old : StagedChannel} (range : x.inRange c = true)
    (before : StagedInRange c old) : StagedInRange c (stageFields c x old) := by
  obtain ⟨⟨fs, offset, gain⟩, current⟩ := (ChannelSettings.inRange_iff c x).mp range
  unfold stageFields
  split
  · rename_i isCurrent
    obtain ⟨offsetHigh, gainHigh, mode, hold⟩ := current isCurrent
    constructor <;> rintro v ⟨⟩
    exacts [fs, offset, gain, ⟨isCurrent, offsetHigh⟩, ⟨isCurrent, gainHigh⟩, ⟨isCurrent, mode⟩, ⟨isCurrent, hold⟩]
  · refine ⟨?_, ?_, ?_, before.high, before.gainHigh, before.mode, before.hold⟩ <;> rintro v ⟨⟩
    exacts [fs, offset, gain]

theorem SettingsStore.InRange.stageChannel (h : ss.InRange) {q : ChannelRequest} (range : q.settings.inRange q.channel = true) :
    (ss.stageChannel q).InRange := by
  refine ⟨h.working, fun c => ?_, h.analysis, h.weights, h.limits⟩
  have before := h.channels c
  rw [SettingsStore.stageChannel_channel]
  split
  · rename_i named
    exact stageFields_inRange (named ▸ range) before
  · split
    · obtain ⟨⟨fs, -⟩, -⟩ := (ChannelSettings.inRange_iff _ _).mp range
      refine ⟨?_, before.low, before.gainLow, before.high, before.gainHigh, before.mode, before.hold⟩
      rintro v ⟨⟩
      exact fs
    · exact before

/-- Weights staged as SET_WEIGHTS clamps them. -/
theorem SettingsStore.InRange.stageWeights (h : ss.InRange) (p : List Byte) (first count : Nat) :
    SettingsStore.InRange { ss with staged := { ss.staged with
      weights := Vector.ofFn fun i => match weightAt p first count i.val with
        | some w => some (min w 1024)
        | none => ss.staged.weights[i] } } := by
  refine ⟨h.working, h.channels, h.analysis, fun i w staged => ?_, h.limits⟩
  simp only [Fin.getElem_fin, Vector.getElem_ofFn] at staged
  split at staged
  · cases staged
    exact Nat.min_le_right ..
  · exact h.weights i w staged

/-- Staging one limit edit. -/
theorem SettingsStore.InRange.stageLimit (h : ss.InRange) (k : Fin 48) {edit : LimitEdit}
    (fits : ∀ e, edit = .replace e → e.valid = true ∧ e.fits = true) :
    SettingsStore.InRange { ss with staged := { ss.staged with limits := ss.staged.limits.set k (some edit) } } := by
  refine ⟨h.working, h.channels, h.analysis, h.weights, fun i e staged => ?_⟩
  by_cases same : k.val = i.val
  · have : edit = .replace e := by simpa [Vector.getElem_set, same] using staged
    exact fits e this
  · exact h.limits i e (by simpa [Vector.getElem_set, same] using staged)

end

/-! ### Filters and holds -/

/-- A filter's run stays below its count (R123, R124). -/
theorem CompState.afterSample_run {x : CompSettings} {c : CompState} (y : Sample) (h : c.run + 1 ≤ x.filter) :
    (c.afterSample x y).run + 1 ≤ x.filter := by
  unfold CompState.afterSample
  split
  · exact h
  · split
    · dsimp only; omega
    · split
      · dsimp only; omega
      · dsimp only; omega

theorem RangeState.afterSample_hold {x : ChannelSettings} {r : RangeState} (raw : RawCode) (setting : x.hold ≤ 60) (h : r.hold ≤ 60) :
    (r.afterSample x raw).hold ≤ 60 := by
  unfold RangeState.afterSample
  dsimp only
  split
  · dsimp only; omega
  · split
    · exact setting
    · exact h

theorem RangeState.applyMode_hold {r : RangeState} (mode : Option RangeMode) (h : r.hold ≤ 60) : (r.applyMode mode).hold ≤ 60 := by
  unfold RangeState.applyMode
  split
  · exact h
  · exact Nat.zero_le _
  · exact h

theorem FrontEnd.fresh_hold (x : Settings) (g : GroupId) : ((FrontEnd.fresh x).ia.get g).hold ≤ 60 ∧ ((FrontEnd.fresh x).ib.get g).hold ≤ 60 := by
  simp [FrontEnd.fresh, RangeState.fresh]

theorem Comparators.fresh_get (g : GroupId) (c : CompId) : Comparators.fresh.get g c = { active := false, run := 0 } := by
  simp [Comparators.fresh, Comparators.get]

theorem Settings.filter_pos {x : Settings} (range : x.inRange = true) (g : GroupId) (c : CompId) : 1 ≤ (x.comparator g c).filter := by
  obtain ⟨-, -, -, -, comparators, -⟩ := (Settings.inRange_iff x).mp range
  have := comparators g c
  simp only [CompSettings.inRange, Bool.and_eq_true, decide_eq_true_eq] at this
  omega

/-- The comparators held inactive fit every filter. -/
theorem Comparators.fresh_run {x : Settings} (range : x.inRange = true) (g : GroupId) (c : CompId) :
    (Comparators.fresh.get g c).run + 1 ≤ (x.comparator g c).filter := by
  have := Settings.filter_pos range g c
  rw [Comparators.fresh_get]
  exact this

theorem Settings.hold_le {x : Settings} (range : x.inRange = true) {c : ChannelId} (current : c.isCurrent = true) :
    (x.channels.get c).hold ≤ 60 := by
  obtain ⟨channels, -⟩ := (Settings.inRange_iff x).mp range
  exact (((ChannelSettings.inRange_iff c _).mp (channels c)).2 current).2.2.2.2

/-- Each comparator after a sample event: it has taken its sample, or is held inactive in MAINTENANCE (R125, R132). -/
theorem State.sampleStep_fc (s : State) (raw : RawCodes) (g : GroupId) (c : CompId) :
    (s.sampleStep raw).fc.get g c =
      if s.mode = .normal then (s.judgement (s.samplesOf raw) s.ct.issued (g, c)).after else { active := false, run := 0 } := by
  cases mode : s.mode with
  | normal =>
    obtain ⟨filters, -⟩ := State.sampleStep_judged mode raw
    rw [filters, Comparators.get_setAll, if_pos (mem_comparatorOrder _), if_pos rfl]
  | maintenance =>
    have held : (s.sampleStep raw).fc = Comparators.fresh := by
      rw [State.sampleStep_eq]
      simp [State.judgeComparators, mode]
    rw [held, Comparators.fresh_get, if_neg nofun]

/-! ### The obligation -/

/-- A store in range, fresh comparators and a fresh front end. -/
theorem settingsInRange_fresh {s : State} {x : Settings} (range : s.ss.InRange) (fe : s.fe = FrontEnd.fresh x)
    (fc : s.fc = Comparators.fresh) : SettingsInRange s := by
  refine (settingsInRange_iff s).mpr ⟨range, fun g c => ?_, fun g => ?_⟩
  · rw [fc]; exact Comparators.fresh_run range.working g c
  · rw [fe]; exact FrontEnd.fresh_hold x g

/-- Where comparators, their settings and FE stay, only the store matters. -/
theorem settingsInRange_of_store {s t : State} (before : SettingsInRange s) (range : t.ss.InRange) (fc : t.fc = s.fc) (fe : t.fe = s.fe)
    (comparators : t.ss.working.comparators = s.ss.working.comparators) : SettingsInRange t := by
  obtain ⟨-, filters, holds⟩ := (settingsInRange_iff s).mp before
  refine (settingsInRange_iff t).mpr ⟨range, fun g c => ?_, fun g => ?_⟩
  · simpa only [fc, Settings.comparator, comparators] using filters g c
  · simpa only [fe] using holds g

theorem settingsInRange_sample {s : State} (before : SettingsInRange s) (raw : RawCodes) : SettingsInRange (s.sampleStep raw) := by
  obtain ⟨range, filters, holds⟩ := (settingsInRange_iff s).mp before
  refine (settingsInRange_iff _).mpr ⟨by rwa [State.sampleStep_ss], fun g c => ?_, fun g => ?_⟩
  · rw [State.sampleStep_fc, State.sampleStep_ss]
    split
    · exact CompState.afterSample_run _ (filters g c)
    · exact Settings.filter_pos range.working g c
  · obtain ⟨ia, ib⟩ := holds g
    rw [State.sampleStep_fe]
    simp only [FrontEnd.afterSample, Quad.get_ofFn]
    exact ⟨RangeState.afterSample_hold _ (Settings.hold_le range.working (c := .ia g) rfl) ia,
      RangeState.afterSample_hold _ (Settings.hold_le range.working (c := .ib g) rfl) ib⟩

theorem State.appliedSs_inRange {s : State} (range : s.ss.InRange) : s.appliedSs.InRange := by
  have applied : (if s.appliesHere then s.ss.withAnalysis else s.ss).InRange := by
    split
    · exact range.withAnalysis
    · exact range
  unfold State.appliedSs
  dsimp only
  split
  · exact applied.withLimits
  · exact applied

theorem State.testedFe_hold {s : State} (g : GroupId) (h : (s.fe.ia.get g).hold ≤ 60 ∧ (s.fe.ib.get g).hold ≤ 60) :
    (s.testedFe.ia.get g).hold ≤ 60 ∧ (s.testedFe.ib.get g).hold ≤ 60 := by
  unfold State.testedFe
  split
  · simpa [FrontEnd.testPoint, RangeState.testPoint] using h
  · exact h

theorem settingsInRange_boundary {s : State} (before : SettingsInRange s) (inputs : InputLevels) :
    SettingsInRange (s.boundaryStep inputs) := by
  obtain ⟨range, filters, holds⟩ := (settingsInRange_iff s).mp before
  refine (settingsInRange_iff _).mpr ⟨?_, fun g c => ?_, fun g => ?_⟩
  · rw [State.boundaryStep_ss]; exact State.appliedSs_inRange range
  · simpa [Settings.comparator] using filters g c
  · obtain ⟨ia, ib⟩ := State.testedFe_hold g (holds g)
    rw [State.boundaryStep_fe]
    unfold State.appliedFe
    split
    · simp only [FrontEnd.applyStaged, Quad.get_ofFn]
      exact ⟨RangeState.applyMode_hold _ ia, RangeState.applyMode_hold _ ib⟩
    · exact ⟨ia, ib⟩

theorem Settings.setComparator_inRange {x : Settings} (range : x.inRange = true) {q : ComparatorRequest} (fits : q.settings.inRange = true) :
    Settings.inRange { x with comparators := x.comparators.set q.group ((x.comparators.get q.group).setComp q.comparator q.settings) } = true := by
  obtain ⟨channels, analysis, weights, limits, comparators, freeze⟩ := (Settings.inRange_iff x).mp range
  refine (Settings.inRange_iff _).mpr ⟨channels, analysis, weights, limits, fun g c => ?_, freeze⟩
  have := comparators g c
  simp only [Settings.comparator, Quad.get_set] at this ⊢
  split
  · rename_i same
    subst same
    rw [Duo.comp_setComp]
    split
    · exact fits
    · exact this
  · exact this

theorem Settings.setFreeze_inRange {x : Settings} (range : x.inRange = true) {f : FreezeSetup} (fits : f.postCycles ≤ 15) :
    Settings.inRange { x with freeze := f } = true := by
  obtain ⟨channels, analysis, weights, limits, comparators, -⟩ := (Settings.inRange_iff x).mp range
  exact (Settings.inRange_iff _).mpr ⟨channels, analysis, weights, limits, comparators, decide_eq_true fits⟩

/-- A store with other working settings that lie in their ranges. -/
theorem SettingsStore.InRange.withWorking {ss : SettingsStore} (h : ss.InRange) {x : Settings} (range : x.inRange = true) :
    SettingsStore.InRange { ss with working := x } := ⟨range, h.channels, h.analysis, h.weights, h.limits⟩

theorem settingsInRange_request {s : State} {c : Instr} {t : State} (before : SettingsInRange s) (effect : Effect s c t) :
    SettingsInRange t := by
  obtain ⟨range, filters, holds⟩ := (settingsInRange_iff s).mp before
  cases effect with
  | forceFreeze normal =>
    obtain ⟨_, _, _, _, _, -, e⟩ := s.offerTrigger_only _
    rw [e]
    exact settingsInRange_of_store before range rfl rfl rfl
  | setCounter w name => cases name <;> exact settingsInRange_of_store before range rfl rfl rfl
  | setFreeze read =>
    exact settingsInRange_of_store before (range.withWorking (Settings.setFreeze_inRange range.working (freezeField_fits read))) rfl rfl
      rfl
  | setLimit read =>
    refine settingsInRange_of_store before (range.stageLimit _ fun e same => ?_) rfl rfl rfl
    cases same
    exact limitField_fits read
  | deleteLimit k => exact settingsInRange_of_store before (range.stageLimit k nofun) rfl rfl rfl
  | setWeights p first count =>
    exact settingsInRange_of_store before (range.stageWeights p first count) (by simp) (by simp) (by simp)
  | setChannel read => exact settingsInRange_of_store before (range.stageChannel (channelField_inRange read)) rfl rfl rfl
  | setComparator read =>
    rename_i p q
    have fits := comparatorField_inRange read
    refine (settingsInRange_iff _).mpr ⟨range.withWorking (Settings.setComparator_inRange range.working fits), fun g c => ?_, holds⟩
    have positive := Settings.filter_pos (Settings.setComparator_inRange range.working fits) g c
    rw [State.setFc_fc, Comparators.get_set]
    split
    · simpa using positive
    · rename_i other
      have same : ((s.ss.working.comparators.set q.group
          ((s.ss.working.comparators.get q.group).setComp q.comparator q.settings)).get g).comp c = (s.ss.working.comparators.get g).comp c := by
        rw [Quad.get_set]
        split
        · rename_i group
          subst group
          rw [Duo.comp_setComp, if_neg fun comp => other (by rw [comp])]
        · rfl
      simpa [Settings.comparator, same] using filters g c
  | setAnalysis read agree =>
    refine settingsInRange_of_store before ⟨range.working, range.channels, fun x staged => ?_, range.weights, range.limits⟩ rfl rfl rfl
    cases staged
    exact analysisField_inRange read
  | storeSettings =>
    exact settingsInRange_of_store before ⟨range.working, range.channels, range.analysis, range.weights, range.limits⟩ rfl rfl rfl
  | checkSettings =>
    exact settingsInRange_of_store before ⟨range.working, range.channels, range.analysis, range.weights, range.limits⟩ rfl rfl rfl
  | _ => exact settingsInRange_of_store before (by simpa using range) (by simp) (by simp) (by simp)

/-- Every move keeps the settings and what runs against them within their ranges. -/
theorem settingsInRange_moves {c : Instr} {s t : State} (h : Moves c s t) (before : SettingsInRange s) : SettingsInRange t := by
  have range := ((settingsInRange_iff s).mp before).1
  refine h.minor_or ?_ ?_ ?_ ?_ ?_ ?_ ?_ ?_ ?_ ?_
  · rintro ⟨ct, lc, image, flight, freeNext, same, rfl⟩
    exact settingsInRange_of_store before ⟨range.working, range.channels, range.analysis, range.weights, range.limits⟩ rfl rfl rfl
  · rintro image rfl
    exact settingsInRange_fresh (SettingsStore.fresh_inRange _ Settings.factory_inRange) rfl rfl
  · rintro strap reference - rfl
    refine settingsInRange_fresh ?_ (s.release_fe ..) (s.release_fc ..)
    rw [State.release_ss]
    exact SettingsStore.fresh_inRange _ (startUp_inRange ..)
  · rintro raw - rfl
    exact settingsInRange_sample before raw
  · rintro inputs - rfl
    exact settingsInRange_boundary before inputs
  · rintro - rfl
    unfold State.startNext
    split <;> exact settingsInRange_of_store before range rfl rfl rfl
  · rintro rfl
    obtain e | ⟨g, j, -, lc, e⟩ | ⟨p, j, -, e⟩ := s.completeJob_cases <;> rw [e]
    · exact before
    · exact settingsInRange_of_store before (by simpa using range) (by simp) (by simp) (by simp)
    · exact settingsInRange_of_store before (by simpa using range) (by simp) (by simp) (by simp)
  · rintro rfl
    cases ready : s.ae.nextPass with
    | none => rwa [State.passStep_of_none ready]
    | some p =>
      have only := (s.setAe s.ae.withoutPass).evaluate_only p
      rw [State.passStep_of_ready ready]
      refine settingsInRange_of_store before ?_ only.fc only.fe (by rw [only.ss]; simp)
      rw [only.ss]
      exact range.withLimits
  · rintro u stage readied effect rfl
    have after := settingsInRange_request before effect
    exact settingsInRange_of_store after ((settingsInRange_iff u).mp after).1 rfl rfl rfl
  · rintro rfl
    refine settingsInRange_fresh ?_ rfl rfl
    have fresh := SettingsStore.fresh_inRange s.ss.image range.withAnalysis.withLimits.working
    exact ⟨fresh.working, fresh.channels, fresh.analysis, fresh.weights, fresh.limits⟩

/-- Settles O58, by what every move applies, stages and counts. -/
theorem settingsStayInRange : Obligations.SettingsStayInRange := by
  unfold Obligations.SettingsStayInRange
  intro s t before h
  exact step_keeps (allowed := fun _ => True)
    (fun s rest h => ⟨h.working, h.channels, h.analysis, h.weights, h.limits, h.filters, h.holds⟩)
    (fun _ => settingsInRange_moves) (fun _ _ => trivial) before h

end Sys2Proof.Machine
end

