-- ==== Sys2Proof/Proofs/Verdicts.lean ====
section
/-! PROOFS. Verdicts and what supports them: the standing records of a group, the verdict they give, and what limit edits and an evaluation
pass make of records, verdicts, latches and lines (R102 to R116). -/

namespace Sys2Proof.Machine

open Sys2Proof.Safety

/-! ### Standing records (R104, R111) -/

theorem CondRecord.standing_iff (r : CondRecord) : r.standing = true ↔ Stands r := by
  cases h : r.state <;> simp [CondRecord.standing, Stands, h]

theorem CondRecord.clear_not_standing : CondRecord.clear.standing = false := rfl

theorem unitAppliesTo_iff (g : GroupId) (u : UnitId) : unitAppliesTo g u = true ↔ AppliesTo g u := by
  cases u with
  | group h => simp [unitAppliesTo, AppliesTo]
  | pair p => simp [unitAppliesTo, AppliesTo, eq_comm]

theorem mem_standingFor {limits : Vector (Option LimitEntry) 48} {records : Vector (List (UnitId × CondRecord)) 48} {g : GroupId}
    {x : Standing} :
    x ∈ standingFor limits records g ↔ ∃ (k : Fin 48) (e : LimitEntry) (u : UnitId) (r : CondRecord), limits[k] = some e ∧
      (u, r) ∈ records[k] ∧ AppliesTo g u ∧ Stands r ∧
      x = { entry := k.val, severity := e.severity, ofPair := decide (u.kindCode = 1) } := by
  unfold standingFor
  simp only [List.mem_flatMap, List.mem_finRange, true_and]
  refine exists_congr fun k => ?_
  generalize records[k] = rs
  cases limits[k] with
  | none => simp
  | some e =>
    simp only [standingIn, List.mem_map, List.mem_filter, Bool.and_eq_true, unitAppliesTo_iff, CondRecord.standing_iff]
    constructor
    · rintro ⟨⟨u, r⟩, ⟨mem, applies, stands⟩, rfl⟩
      exact ⟨e, u, r, rfl, mem, applies, stands, rfl⟩
    · rintro ⟨e', u, r, entry, mem, applies, stands, rfl⟩
      cases entry
      exact ⟨(u, r), ⟨mem, applies, stands⟩, rfl⟩

theorem State.standsFor_iff (s : State) (g : GroupId) (severity : Severity) :
    StandsFor s g severity ↔ ∃ x ∈ s.standing g, x.severity = severity := by
  unfold State.standing
  simp only [mem_standingFor]
  constructor
  · rintro ⟨k, e, u, r, entry, mem, applies, stands, rfl⟩
    exact ⟨_, ⟨k, e, u, r, entry, mem, applies, stands, rfl⟩, rfl⟩
  · rintro ⟨x, ⟨k, e, u, r, entry, mem, applies, stands, rfl⟩, rfl⟩
    exact ⟨k, e, u, r, entry, mem, applies, stands, rfl⟩

theorem State.standing_congr {s t : State} (limits : t.ss.working.limits = s.ss.working.limits) (records : t.le.records = s.le.records)
    (g : GroupId) : t.standing g = s.standing g := by
  unfold State.standing
  rw [limits, records]

/-! ### The verdict that standing records give (R111) -/

theorem Severity.verdict_code (v : Severity) : v.verdict.code = v.code := by cases v <;> rfl
theorem Verdict.code_inj {a b : Verdict} (h : a.code = b.code) : a = b := by cases a <;> cases b <;> first | rfl | cases h
theorem Severity.code_inj {a b : Severity} (h : a.code = b.code) : a = b := by cases a <;> cases b <;> first | rfl | cases h
theorem Severity.verdict_inj {a b : Severity} (h : a.verdict = b.verdict) : a = b := by cases a <;> cases b <;> first | rfl | cases h
theorem Severity.verdict_ne_normal (v : Severity) : v.verdict ≠ .normal := by cases v <;> exact nofun

theorem Verdict.code_max (a b : Verdict) : (a.max b).code = Nat.max a.code b.code := by
  unfold Verdict.max
  split
  · exact (Nat.max_eq_right (Nat.le_of_lt ‹_›)).symm
  · exact (Nat.max_eq_left (Nat.le_of_not_lt ‹_›)).symm

/-- The verdict of standing records bounds each of them and is one of them, or is the one begun with. -/
theorem foldl_verdict (ss : List Standing) (v : Verdict) :
    let w := ss.foldl (fun v s => v.max s.severity.verdict) v
    v.code ≤ w.code ∧ (∀ x ∈ ss, x.severity.code ≤ w.code) ∧ (w = v ∨ ∃ x ∈ ss, w = x.severity.verdict) := by
  induction ss generalizing v with
  | nil => exact ⟨le_refl _, nofun, .inl rfl⟩
  | cons x ss ih =>
    obtain ⟨above, bounds, attained⟩ := ih (v.max x.severity.verdict)
    rw [Verdict.code_max, Severity.verdict_code] at above
    refine ⟨(Nat.le_max_left ..).trans above, fun y mem => ?_, ?_⟩
    · obtain rfl | mem := List.mem_cons.mp mem
      · exact (Nat.le_max_right ..).trans above
      · exact bounds y mem
    · obtain same | ⟨y, mem, same⟩ := attained
      · rw [List.foldl_cons, same]
        unfold Verdict.max
        split
        · exact .inr ⟨x, List.mem_cons_self, rfl⟩
        · exact .inl rfl
      · exact .inr ⟨y, List.mem_cons_of_mem _ mem, same⟩

theorem verdictOf_eq_normal (ss : List Standing) : verdictOf ss = .normal ↔ ss = [] := by
  constructor
  · intro normal
    cases ss with
    | nil => rfl
    | cons x ss =>
      have := (foldl_verdict (x :: ss) .normal).2.1 x List.mem_cons_self
      rw [← verdictOf, normal] at this
      cases h : x.severity <;> simp [h, Severity.code, Verdict.code] at this
  · rintro rfl
    rfl

theorem verdictOf_eq_severity (ss : List Standing) (v : Severity) :
    verdictOf ss = v.verdict ↔ (∃ x ∈ ss, x.severity = v) ∧ ∀ x ∈ ss, x.severity.code ≤ v.code := by
  obtain ⟨-, bounds, attained⟩ := foldl_verdict ss .normal
  rw [← verdictOf] at bounds attained
  constructor
  · intro same
    rw [same, Severity.verdict_code] at bounds
    obtain normal | ⟨x, mem, here⟩ := attained
    · exact absurd (same.symm.trans normal) v.verdict_ne_normal
    · exact ⟨⟨x, mem, (Severity.verdict_inj (same.symm.trans here)).symm⟩, bounds⟩
  · rintro ⟨⟨x, mem, rfl⟩, highest⟩
    obtain normal | ⟨y, mem', here⟩ := attained
    · rw [verdictOf_eq_normal] at normal
      simp [normal] at mem
    · have low := bounds x mem
      have high := highest y mem'
      rw [here, Severity.verdict_code] at low
      rw [here, Severity.code_inj (Nat.le_antisymm high low)]

theorem State.verdictFollows_iff (s : State) (g : GroupId) : VerdictFollows s g ↔ s.le.verdicts.get g = verdictOf (s.standing g) := by
  have severity (v : Severity) : verdictOf (s.standing g) = v.verdict ↔
      StandsFor s g v ∧ ∀ other, StandsFor s g other → other.code ≤ v.code := by
    simp only [verdictOf_eq_severity, State.standsFor_iff]
    refine and_congr_right fun _ => ⟨fun h other => ?_, fun h x mem => h x.severity ⟨x, mem, rfl⟩⟩
    rintro ⟨x, mem, rfl⟩
    exact h x mem
  have normal : verdictOf (s.standing g) = .normal ↔ ∀ v, ¬ StandsFor s g v := by
    simp only [verdictOf_eq_normal, State.standsFor_iff, List.eq_nil_iff_forall_not_mem]
    refine ⟨fun h v => ?_, fun h x mem => h x.severity ⟨x, mem, rfl⟩⟩
    rintro ⟨x, mem, -⟩
    exact h x mem
  constructor
  · rintro ⟨bySeverity, byNormal⟩
    cases v : s.le.verdicts.get g with
    | normal => exact (normal.mpr (byNormal.mp v)).symm
    | watch => exact ((severity .watch).mpr ((bySeverity .watch).mp v)).symm
    | alarm => exact ((severity .alarm).mpr ((bySeverity .alarm).mp v)).symm
    | trip => exact ((severity .trip).mpr ((bySeverity .trip).mp v)).symm
  · intro same
    exact ⟨fun v => by rw [same]; exact severity v, by rw [same]; exact normal⟩

/-- Where verdicts follow, TRIP is the verdict exactly if a TRIP record stands. -/
theorem State.trip_iff {s : State} {g : GroupId} (follows : s.le.verdicts.get g = verdictOf (s.standing g)) :
    s.le.verdicts.get g = .trip ↔ StandsFor s g .trip := by
  obtain ⟨severity, -⟩ := (s.verdictFollows_iff g).mpr follows
  refine (severity .trip).trans ⟨And.left, fun stands => ⟨stands, fun other _ => ?_⟩⟩
  cases other <;> decide

/-! ### What a change of verdicts or latches leaves alone -/

section
variable {s t : State}

theorem OnlyVerdicts.records (h : OnlyVerdicts s t) : t.le.records = s.le.records := by
  obtain ⟨_, _, _, -, rfl⟩ := h
  simp

theorem OnlyVerdicts.latches (h : OnlyVerdicts s t) : t.le.latches = s.le.latches := by
  obtain ⟨_, _, _, -, rfl⟩ := h
  simp

theorem OnlyVerdicts.tripLines (h : OnlyVerdicts s t) : t.le.tripLines = s.le.tripLines := by
  obtain ⟨_, _, _, -, rfl⟩ := h
  simp

theorem OnlyVerdicts.standing (h : OnlyVerdicts s t) (g : GroupId) : t.standing g = s.standing g :=
  State.standing_congr (by rw [h.ss]) h.records g

theorem OnlyFreeze.le (h : OnlyFreeze s t) : t.le = s.le := by
  obtain ⟨_, _, _, _, _, -, rfl⟩ := h
  simp

theorem OnlyFreeze.ss (h : OnlyFreeze s t) : t.ss = s.ss := by
  obtain ⟨_, _, _, _, _, -, rfl⟩ := h
  simp

theorem OnlyFreeze.gm (h : OnlyFreeze s t) : t.gm = s.gm := by
  obtain ⟨_, _, _, _, _, -, rfl⟩ := h
  simp

theorem OnlyFreeze.mode (h : OnlyFreeze s t) : t.mode = s.mode := by
  obtain ⟨_, _, _, _, _, -, rfl⟩ := h
  simp

theorem OnlyLatches.ss (h : OnlyLatches s t) : t.ss = s.ss := by
  obtain ⟨_, _, _, rfl⟩ := h
  simp

theorem OnlyLatches.gm (h : OnlyLatches s t) : t.gm = s.gm := by
  obtain ⟨_, _, _, rfl⟩ := h
  simp

theorem OnlyLatches.mode (h : OnlyLatches s t) : t.mode = s.mode := by
  obtain ⟨_, _, _, rfl⟩ := h
  simp

theorem OnlyLatches.records (h : OnlyLatches s t) : t.le.records = s.le.records := by
  obtain ⟨_, _, _, rfl⟩ := h
  simp

theorem OnlyLatches.verdicts (h : OnlyLatches s t) : t.le.verdicts = s.le.verdicts := by
  obtain ⟨_, _, _, rfl⟩ := h
  simp

end

/-! ### The discrete lines (R114, R116) -/

section
variable {s t : State}

/-- The lines follow the latches, the verdicts and the mode. -/
theorem outputsFollow_of_fields (h : OutputsFollow s) (tripLines : t.le.tripLines = s.le.tripLines) (latches : t.le.latches = s.le.latches)
    (verdicts : t.le.verdicts = s.le.verdicts) (alert : t.le.alert = s.le.alert) (mode : t.mode = s.mode) : OutputsFollow t :=
  ⟨by rw [tripLines, latches]; exact h.tripLine, by rw [alert, mode, verdicts, latches]; exact h.alert⟩

theorem outputsFollow_congr (h : OutputsFollow s) (le : t.le = s.le) (mode : t.mode = s.mode) : OutputsFollow t :=
  outputsFollow_of_fields h (by rw [le]) (by rw [le]) (by rw [le]) (by rw [le]) mode

theorem outputsFollow_refresh {l : LimitEvaluator} (lines : ∀ g, l.tripLines.get g = l.latches.get g)
    (le : t.le = l.refreshAlert t.mode) : OutputsFollow t := by
  refine ⟨fun g => by rw [le]; exact lines g, ?_⟩
  rw [le]
  exact l.refreshAlert_alert t.mode

@[simp] theorem LimitEvaluator.clearUnit_tripLines (l : LimitEvaluator) (u : UnitId) : (l.clearUnit u).tripLines = l.tripLines := by
  simp only [LimitEvaluator.clearUnit]
@[simp] theorem LimitEvaluator.clearUnit_latches (l : LimitEvaluator) (u : UnitId) : (l.clearUnit u).latches = l.latches := by
  simp only [LimitEvaluator.clearUnit]
@[simp] theorem LimitEvaluator.clearUnit_verdicts (l : LimitEvaluator) (u : UnitId) : (l.clearUnit u).verdicts = l.verdicts := by
  simp only [LimitEvaluator.clearUnit]
@[simp] theorem LimitEvaluator.clearUnit_alert (l : LimitEvaluator) (u : UnitId) : (l.clearUnit u).alert = l.alert := by
  simp only [LimitEvaluator.clearUnit]

theorem outputsFollow_clearUnit (h : OutputsFollow s) (u : UnitId) : OutputsFollow (s.setLe (s.le.clearUnit u)) :=
  outputsFollow_of_fields h (by simp) (by simp) (by simp) (by simp) (by simp)

theorem outputsFollow_post (h : OutputsFollow s) (ns : List Notice) : OutputsFollow (s.post ns) := outputsFollow_congr h (by simp) (by simp)

theorem outputsFollow_setVerdict (h : OutputsFollow s) (g : GroupId) (v : Verdict) (holder : Option (Nat × Bool)) (cause : VerdictCause)
    (window : Word) : OutputsFollow (s.setVerdict g v holder cause window) := by
  unfold State.setVerdict
  dsimp only
  split
  · exact h
  · exact outputsFollow_refresh (l := { s.le with verdicts := s.le.verdicts.set g v }) h.tripLine (by simp)

theorem outputsFollow_setLatch (h : OutputsFollow s) (g : GroupId) (on : Bool) : OutputsFollow (s.setLe (s.le.setLatch s.mode g on)) := by
  refine outputsFollow_refresh (l := { s.le with latches := s.le.latches.set g on, tripLines := s.le.tripLines.set g on }) (fun k => ?_) ?_
  · simp only [Quad.get_set, h.tripLine k]
  · simp [LimitEvaluator.setLatch]

/-- What holds before a fold and is kept by each of its steps holds after it. -/
theorem foldl_holds {α β : Type} {P : α → Prop} {f : α → β → α} (step : ∀ a b, P a → P (f a b)) (l : List β) {a : α} (h : P a) :
    P (l.foldl f a) := by
  induction l generalizing a with
  | nil => exact h
  | cons b l ih => exact ih (step a b h)

theorem outputsFollow_recomputeAll (h : OutputsFollow s) (cause : VerdictCause) (window : Word) : OutputsFollow (s.recomputeAll cause window) := by
  unfold State.recomputeAll
  refine foldl_holds (P := OutputsFollow) (fun t g h => ?_) _ h
  exact outputsFollow_setVerdict h ..

theorem outputsFollow_tripRisen (h : OutputsFollow s) (before : Quad Verdict) (g : GroupId) : OutputsFollow (s.tripRisen before g) := by
  unfold State.tripRisen
  split
  · exact outputsFollow_setLatch h g true
  · exact h

end

/-! ### Records that support the verdicts -/

/-- The units of a slot's records, in their order (R104). -/
def slotUnits : Option LimitEntry → List UnitId
  | some e => e.scope.units
  | none => []

/-- Lines, records and verdicts as R104, R111, R114 and R116 have them. -/
structure State.Supported (s : State) : Prop where
  outputs : OutputsFollow s
  units : ∀ k : Fin 48, s.le.records[k].map Prod.fst = slotUnits s.ss.working.limits[k]
  counts : ∀ (k : Fin 48) (e : LimitEntry), s.ss.working.limits[k] = some e → ∀ ur ∈ s.le.records[k], CountFits e ur.2
  unwatched : ∀ (k : Fin 48), ∀ ur ∈ s.le.records[k], ¬ Watched s ur.1 → ur.2 = CondRecord.clear
  follows : ∀ g, s.le.verdicts.get g = verdictOf (s.standing g)

/-- What Judged asks beside the supported verdicts: the pairs' states. -/
def PairsFollow (s : State) : Prop :=
  ∀ p, s.gm.pairs.get p = .intact ↔ s.ss.working.analysis.pairing.paired p = true ∧ (s.gm.groups.get p.first).state = .monitor ∧
    (s.gm.groups.get p.second).state = .monitor

theorem judged_iff (s : State) : Safety.Judged s ↔ s.Supported ∧ PairsFollow s ∧ TripLatched s ∧ MaintenanceQuiet s := by
  have units (k : Fin 48) : slotUnits s.ss.working.limits[k] = (match s.ss.working.limits[k] with
     | some e => e.scope.units
     | none => []) := by cases s.ss.working.limits[k] <;> rfl
  constructor
  · rintro ⟨outputs, quiet, ⟨shape, counts, unwatched, pairs, verdict, normal⟩, latched⟩
    exact ⟨⟨outputs, fun k => (shape k).trans (units k).symm, counts, unwatched,
      fun g => (s.verdictFollows_iff g).mp ⟨verdict g, normal g⟩⟩, pairs, latched, quiet⟩
  · rintro ⟨⟨outputs, shape, counts, unwatched, follows⟩, pairs, latched, quiet⟩
    exact ⟨outputs, quiet, ⟨fun k => (shape k).trans (units k), counts, unwatched, pairs,
      fun g => ((s.verdictFollows_iff g).mpr (follows g)).severity, fun g => ((s.verdictFollows_iff g).mpr (follows g)).normal⟩, latched⟩

theorem watched_congr {s t : State} (gm : t.gm = s.gm) (u : UnitId) : Watched t u ↔ Watched s u := by
  cases u <;> simp [Watched, gm]

theorem State.Supported.congr {s t : State} (h : s.Supported) (le : t.le = s.le) (mode : t.mode = s.mode) (gm : t.gm = s.gm)
    (limits : t.ss.working.limits = s.ss.working.limits) : t.Supported where
  outputs := outputsFollow_congr h.outputs le mode
  units := by rw [le, limits]; exact h.units
  counts := by rw [le, limits]; exact h.counts
  unwatched := by
    rw [le]
    exact fun k ur mem watched => h.unwatched k ur mem fun w => watched ((watched_congr gm ur.1).mpr w)
  follows g := by rw [State.standing_congr limits (by rw [le]), le]; exact h.follows g

/-- A verdict of TRIP stays latched where no TRIP record newly stands. -/
theorem tripLatched_of_fewer {s t : State} (latched : TripLatched s) (before : ∀ g, s.le.verdicts.get g = verdictOf (s.standing g))
    (after : ∀ g, t.le.verdicts.get g = verdictOf (t.standing g)) (fewer : ∀ g, StandsFor t g .trip → StandsFor s g .trip)
    (latches : t.le.latches = s.le.latches) : TripLatched t := fun g trip => by
  rw [latches]
  exact latched g ((State.trip_iff (before g)).mpr (fewer g ((State.trip_iff (after g)).mp trip)))

/-! ### Limit edits (R102, R103) -/

section
variable (s : State)

/-- A record behind the staged edits is CLEAR, or was there and its entry is not edited. -/
theorem mem_editedRecords {s : State} {k : Fin 48} {ur : UnitId × CondRecord} : ur ∈ (editedRecords s)[k] →
    ur.2 = CondRecord.clear ∨ (s.ss.staged.limits[k] = none ∧ ur ∈ s.le.records[k]) := by
  intro mem
  unfold editedRecords at mem
  rw [tableZip_getElem] at mem
  cases edit : s.ss.staged.limits[k] with
  | none => rw [edit] at mem; exact .inr ⟨rfl, mem⟩
  | some edit' =>
    rw [edit] at mem
    cases edit' with
    | delete => cases mem
    | replace e =>
      obtain ⟨u, -, rfl⟩ := List.mem_map.mp mem
      exact .inl rfl

theorem SettingsStore.withLimits_limit (ss : SettingsStore) (k : Fin 48) :
    ss.withLimits.working.limits[k] = LimitEdit.apply ss.staged.limits[k] ss.working.limits[k] := tableZip_getElem ..

theorem SettingsStore.withLimits_of_unedited {ss : SettingsStore} {k : Fin 48} (unedited : ss.staged.limits[k] = none) :
    ss.withLimits.working.limits[k] = ss.working.limits[k] := by rw [SettingsStore.withLimits_limit, unedited]; rfl

theorem editedRecords_units (units : ∀ k : Fin 48, s.le.records[k].map Prod.fst = slotUnits s.ss.working.limits[k]) (k : Fin 48) :
    (editedRecords s)[k].map Prod.fst = slotUnits s.ss.withLimits.working.limits[k] := by
  unfold editedRecords
  rw [tableZip_getElem, SettingsStore.withLimits_limit]
  cases s.ss.staged.limits[k] with
  | none => exact units k
  | some edit =>
    cases edit with
    | delete => rfl
    | replace e =>
      change (e.scope.units.map fun u => (u, CondRecord.clear)).map Prod.fst = e.scope.units
      simp [Function.comp_def]

variable (point : Option Word)

@[simp] theorem State.applyLimitEdits_records : (s.applyLimitEdits point).le.records = editedRecords s := by
  obtain ⟨verdicts, alert, lc, e⟩ := s.applyLimitEdits_eq point
  simp [e]

@[simp] theorem State.applyLimitEdits_latches : (s.applyLimitEdits point).le.latches = s.le.latches := by
  obtain ⟨verdicts, alert, lc, e⟩ := s.applyLimitEdits_eq point
  simp [e]

@[simp] theorem State.applyLimitEdits_ss : (s.applyLimitEdits point).ss = s.ss.withLimits := by
  obtain ⟨verdicts, alert, lc, e⟩ := s.applyLimitEdits_eq point
  simp [e]

@[simp] theorem State.applyLimitEdits_gm : (s.applyLimitEdits point).gm = s.gm := by
  obtain ⟨verdicts, alert, lc, e⟩ := s.applyLimitEdits_eq point
  simp [e]

@[simp] theorem State.applyLimitEdits_mode : (s.applyLimitEdits point).mode = s.mode := by
  obtain ⟨verdicts, alert, lc, e⟩ := s.applyLimitEdits_eq point
  simp [e]

/-- Behind the edits each verdict follows the edited table and its records. -/
theorem State.applyLimitEdits_verdict (g : GroupId) : (s.applyLimitEdits point).le.verdicts.get g = editedVerdict s g := by
  unfold State.applyLimitEdits
  dsimp only
  rw [State.setLc_le, State.recomputeAll_verdict]
  simp only [State.standing, State.post_ss, State.post_le, State.editTable_eq, State.setSs_ss, State.setSs_le, State.setLe_le]
  rfl

theorem State.applyLimitEdits_follows (g : GroupId) :
    (s.applyLimitEdits point).le.verdicts.get g = verdictOf ((s.applyLimitEdits point).standing g) := by
  rw [State.applyLimitEdits_verdict]
  unfold State.standing
  rw [State.applyLimitEdits_records, State.applyLimitEdits_ss]
  rfl

/-- Edits withdraw records and raise none. -/
theorem State.applyLimitEdits_fewer (g : GroupId) (severity : Severity) (stands : StandsFor (s.applyLimitEdits point) g severity) :
    StandsFor s g severity := by
  obtain ⟨k, e, u, r, entry, mem, applies, active, same⟩ := stands
  rw [State.applyLimitEdits_records] at mem
  rw [State.applyLimitEdits_ss] at entry
  obtain clear | ⟨unedited, mem⟩ := mem_editedRecords mem
  · cases clear
    simp at active
  · rw [SettingsStore.withLimits_of_unedited unedited] at entry
    exact ⟨k, e, u, r, entry, mem, applies, active, same⟩

end

theorem State.Supported.applyLimitEdits {s : State} (h : s.Supported) (point : Option Word) : (s.applyLimitEdits point).Supported where
  outputs := by
    have edited : OutputsFollow s.editTable := by
      rw [State.editTable_eq]
      exact outputsFollow_of_fields h.outputs (by simp) (by simp) (by simp) (by simp) (by simp)
    unfold State.applyLimitEdits
    have posted := outputsFollow_post edited (editNotices s (point.getD 0))
    exact outputsFollow_congr (outputsFollow_recomputeAll posted .limitEdit (point.getD 0)) (by simp) (by simp)
  units := by
    rw [State.applyLimitEdits_records, State.applyLimitEdits_ss]
    exact editedRecords_units s h.units
  counts k e entry ur mem := by
    rw [State.applyLimitEdits_records] at mem
    rw [State.applyLimitEdits_ss] at entry
    obtain clear | ⟨unedited, mem⟩ := mem_editedRecords mem
    · rw [clear]; rfl
    · rw [SettingsStore.withLimits_of_unedited unedited] at entry
      exact h.counts k e entry ur mem
  unwatched k ur mem unwatched := by
    rw [State.applyLimitEdits_records] at mem
    obtain clear | ⟨-, mem⟩ := mem_editedRecords mem
    · exact clear
    · exact h.unwatched k ur mem fun w => unwatched ((watched_congr (s.applyLimitEdits_gm point) ur.1).mpr w)
  follows := s.applyLimitEdits_follows point

theorem tripLatched_applyLimitEdits {s : State} (latched : TripLatched s) (h : s.Supported) (point : Option Word) :
    TripLatched (s.applyLimitEdits point) :=
  tripLatched_of_fewer latched h.follows (s.applyLimitEdits_follows point) (fun g => s.applyLimitEdits_fewer point g .trip)
    (s.applyLimitEdits_latches point)

/-! ### The judgements of a pass (R108 to R113) -/

theorem judgeRecord_unit (m : Monitors) (p : Pass) (e : LimitEntry) (ur : UnitId × CondRecord) : (judgeRecord m p e ur).1 = ur.1 := by
  unfold judgeRecord
  split <;> rfl

theorem judgeRecord_fits {m : Monitors} {p : Pass} {e : LimitEntry} {ur : UnitId × CondRecord} (fits : CountFits e ur.2) :
    CountFits e (judgeRecord m p e ur).2 := by
  unfold judgeRecord
  split
  · exact countFits_judge _ fits
  · exact fits

/-- Only a record of a watched unit is judged (R108). -/
theorem judgeRecord_of_unwatched {s : State} {p : Pass} {e : LimitEntry} {ur : UnitId × CondRecord} (unwatched : ¬ Watched s ur.1) :
    judgeRecord s.gm p e ur = ur := by
  have judges : s.gm.judges ur.1 = false := by
    obtain ⟨u, r⟩ := ur
    cases u <;> simpa [Monitors.judges, Watched] using unwatched
  simp [judgeRecord, judgedValue, judges]

section
variable {s : State} {p : Pass}

theorem judgeTable_entry (m : Monitors) (limits : Vector (Option LimitEntry) 48) (records : Vector (List (UnitId × CondRecord)) 48)
    (k : Fin 48) : (judgeTable m p limits records)[k] = judgeSlot m p limits[k] records[k] := tableZip_getElem ..

/-- The verdicts recomputed after the judgements, before latches and freeze triggers. -/
def State.judgedBy (s : State) (p : Pass) : State := (s.judgeRecords p).recomputeAll .evaluation p.window

theorem State.judgedBy_only (s : State) (p : Pass) : OnlyVerdicts (s.judgeRecords p) (s.judgedBy p) := State.recomputeAll_only ..

@[simp] theorem State.judgedBy_records (s : State) (p : Pass) :
    (s.judgedBy p).le.records = judgeTable s.gm p s.ss.working.limits s.le.records := by
  rw [(s.judgedBy_only p).records]
  simp [State.judgeRecords]

@[simp] theorem State.judgedBy_ss (s : State) (p : Pass) : (s.judgedBy p).ss = s.ss := by
  rw [(s.judgedBy_only p).ss]
  simp [State.judgeRecords]

@[simp] theorem State.judgedBy_gm (s : State) (p : Pass) : (s.judgedBy p).gm = s.gm := by
  rw [(s.judgedBy_only p).gm]
  simp [State.judgeRecords]

@[simp] theorem State.judgedBy_mode (s : State) (p : Pass) : (s.judgedBy p).mode = s.mode := by
  rw [(s.judgedBy_only p).mode]
  simp [State.judgeRecords]

@[simp] theorem State.judgedBy_latches (s : State) (p : Pass) : (s.judgedBy p).le.latches = s.le.latches := by
  rw [(s.judgedBy_only p).latches]
  simp [State.judgeRecords]

@[simp] theorem State.judgedBy_tripLines (s : State) (p : Pass) : (s.judgedBy p).le.tripLines = s.le.tripLines := by
  rw [(s.judgedBy_only p).tripLines]
  simp [State.judgeRecords]

theorem State.judgedBy_follows (s : State) (p : Pass) (g : GroupId) :
    (s.judgedBy p).le.verdicts.get g = verdictOf ((s.judgedBy p).standing g) := by
  rw [(s.judgedBy_only p).standing]
  unfold State.judgedBy
  rw [State.recomputeAll_verdict]

theorem State.Supported.judgedBy (h : s.Supported) (p : Pass) : (s.judgedBy p).Supported where
  outputs := by
    have judged : OutputsFollow (s.judgeRecords p) :=
      outputsFollow_of_fields h.outputs (by simp [State.judgeRecords]) (by simp [State.judgeRecords]) (by simp [State.judgeRecords])
        (by simp [State.judgeRecords]) (by simp [State.judgeRecords])
    exact outputsFollow_recomputeAll judged .evaluation _
  units k := by
    rw [State.judgedBy_records, State.judgedBy_ss, judgeTable_entry, ← h.units k]
    unfold judgeSlot
    split
    · simp [Function.comp_def, judgeRecord_unit]
    · rfl
  counts k e entry ur mem := by
    rw [State.judgedBy_ss] at entry
    rw [State.judgedBy_records, judgeTable_entry, entry] at mem
    obtain ⟨before, was, rfl⟩ := List.mem_map.mp mem
    exact judgeRecord_fits (h.counts k e entry before was)
  unwatched k ur mem unwatched := by
    have unwatched : ¬ Watched s ur.1 := fun w => unwatched ((watched_congr (s.judgedBy_gm p) ur.1).mpr w)
    rw [State.judgedBy_records, judgeTable_entry] at mem
    unfold judgeSlot at mem
    split at mem
    · obtain ⟨before, was, rfl⟩ := List.mem_map.mp mem
      rw [judgeRecord_unit] at unwatched
      rw [judgeRecord_of_unwatched unwatched]
      exact h.unwatched k before was unwatched
    · exact h.unwatched k ur mem unwatched
  follows := s.judgedBy_follows p

end

/-- The latches of the groups whose verdict rose to TRIP are set (R113). -/
def State.latchRisen (s : State) (before : Quad Verdict) : State := GroupId.all.foldl (State.tripRisen before) s

section
variable (s : State) (before : Quad Verdict)

theorem State.latchRisen_only : OnlyLatches s (s.latchRisen before) :=
  foldl_keeps OnlyLatches.refl OnlyLatches.trans (State.tripRisen_only before) _ s

@[simp] theorem State.tripRisen_verdicts (g : GroupId) : (s.tripRisen before g).le.verdicts = s.le.verdicts :=
  (State.tripRisen_only before s g).verdicts

theorem State.tripRisen_latches (g h : GroupId) :
    (s.tripRisen before g).le.latches.get h =
      if h = g ∧ s.le.verdicts.get g = .trip ∧ before.get g ≠ .trip then true else s.le.latches.get h := by
  unfold State.tripRisen
  by_cases risen : s.le.verdicts.get g = .trip ∧ before.get g ≠ .trip
  · simp [risen, Quad.get_set]
  · rw [if_neg risen, if_neg fun both => risen both.2]

theorem State.tripRisen_tripLines (g h : GroupId) :
    (s.tripRisen before g).le.tripLines.get h =
      if h = g ∧ s.le.verdicts.get g = .trip ∧ before.get g ≠ .trip then true else s.le.tripLines.get h := by
  unfold State.tripRisen
  by_cases risen : s.le.verdicts.get g = .trip ∧ before.get g ≠ .trip
  · simp [risen, Quad.get_set]
  · rw [if_neg risen, if_neg fun both => risen both.2]

theorem State.latchRisen_latches (g : GroupId) :
    (s.latchRisen before).le.latches.get g = if s.le.verdicts.get g = .trip ∧ before.get g ≠ .trip then true else s.le.latches.get g := by
  unfold State.latchRisen GroupId.all
  simp only [List.foldl_cons, List.foldl_nil, State.tripRisen_latches, State.tripRisen_verdicts]
  cases g <;> simp

theorem State.latchRisen_tripLines (g : GroupId) :
    (s.latchRisen before).le.tripLines.get g =
      if s.le.verdicts.get g = .trip ∧ before.get g ≠ .trip then true else s.le.tripLines.get g := by
  unfold State.latchRisen GroupId.all
  simp only [List.foldl_cons, List.foldl_nil, State.tripRisen_tripLines, State.tripRisen_verdicts]
  cases g <;> simp

end

/-- The freeze triggers of a pass (R110). -/
def State.offerVerdicts (s : State) (before : Quad Verdict) (window : Word) : State := GroupId.all.foldl (State.offerVerdict before window) s

theorem State.offerVerdicts_only (s : State) (before : Quad Verdict) (window : Word) : OnlyFreeze s (s.offerVerdicts before window) :=
  foldl_keeps OnlyFreeze.refl OnlyFreeze.trans (State.offerVerdict_only before window) _ s

/-- A pass, step by step (R108). -/
theorem State.evaluate_parts (s : State) (p : Pass) :
    s.evaluate p =
      (((s.applyLimitEdits (some p.window)).judgedBy p).latchRisen (s.applyLimitEdits (some p.window)).le.verdicts).offerVerdicts
        (s.applyLimitEdits (some p.window)).le.verdicts p.window := rfl

theorem State.Supported.latchRisen {s : State} (h : s.Supported) (before : Quad Verdict) : (s.latchRisen before).Supported := by
  have only := s.latchRisen_only before
  have standing (g : GroupId) : (s.latchRisen before).standing g = s.standing g := State.standing_congr (by rw [only.ss]) only.records g
  refine ⟨foldl_holds (P := OutputsFollow) (fun _ g h => outputsFollow_tripRisen h before g) GroupId.all h.outputs, ?_, ?_, ?_, fun g => ?_⟩
  · rw [only.records, only.ss]; exact h.units
  · rw [only.records, only.ss]; exact h.counts
  · rw [only.records]
    exact fun k ur mem unwatched => h.unwatched k ur mem fun w => unwatched ((watched_congr only.gm ur.1).mpr w)
  · rw [only.verdicts, standing]; exact h.follows g

theorem State.Supported.evaluate {s : State} (h : s.Supported) (p : Pass) : (s.evaluate p).Supported := by
  rw [State.evaluate_parts]
  have only := State.offerVerdicts_only
    (((s.applyLimitEdits (some p.window)).judgedBy p).latchRisen (s.applyLimitEdits (some p.window)).le.verdicts)
    (s.applyLimitEdits (some p.window)).le.verdicts p.window
  exact (((h.applyLimitEdits _).judgedBy p).latchRisen _).congr only.le only.mode only.gm (by rw [only.ss])

/-- A verdict of TRIP behind a pass was latched before, or rose and is latched by it. -/
theorem tripLatched_evaluate {s : State} (latched : TripLatched s) (h : s.Supported) (p : Pass) : TripLatched (s.evaluate p) := by
  intro g trip
  rw [State.evaluate_parts, (State.offerVerdicts_only ..).le] at trip ⊢
  rw [(State.latchRisen_only ..).verdicts] at trip
  rw [State.latchRisen_latches]
  split
  · rfl
  · rename_i stood
    have edited : (s.applyLimitEdits (some p.window)).le.verdicts.get g = .trip := by
      by_contra other
      exact stood ⟨trip, other⟩
    rw [State.judgedBy_latches]
    exact tripLatched_applyLimitEdits latched h _ g edited

end Sys2Proof.Machine
end

