-- ==== Sys2Proof/Proofs/MonitorVerdicts.lean ====
section
/-! PROOFS. What GM's step at a boundary does to records and verdicts, and which reports it enqueues (R84 to R91). -/

namespace Sys2Proof.Machine

open Sys2Proof.Safety

/-! ### Records cleared -/

/-- The records with those of some units set to CLEAR (R85, R89). -/
def clearWhere (cleared : UnitId → Bool) (records : Vector (List (UnitId × CondRecord)) 48) : Vector (List (UnitId × CondRecord)) 48 :=
  tableMap (List.map fun ur => if cleared ur.1 then (ur.1, CondRecord.clear) else ur) records

theorem clearWhere_entry (cleared : UnitId → Bool) (records : Vector (List (UnitId × CondRecord)) 48) (k : Fin 48) :
    (clearWhere cleared records)[k] = records[k].map fun ur => if cleared ur.1 then (ur.1, CondRecord.clear) else ur := tableMap_getElem ..

/-- Two tables with the same slots are the same. -/
theorem records_ext {a b : Vector (List (UnitId × CondRecord)) 48} (slots : ∀ k : Fin 48, a[k] = b[k]) : a = b :=
  Vector.ext fun k small => slots ⟨k, small⟩

theorem LimitEvaluator.clearUnit_records (l : LimitEvaluator) (u : UnitId) :
    (l.clearUnit u).records = clearWhere (fun v => decide (v = u)) l.records := by
  refine records_ext fun k => ?_
  rw [clearWhere_entry]
  unfold LimitEvaluator.clearUnit Sys2Proof.Machine.clearUnit
  rw [tableMap_getElem]
  simp

theorem clearWhere_none (records : Vector (List (UnitId × CondRecord)) 48) : clearWhere (fun _ => false) records = records := by
  refine records_ext fun k => ?_
  rw [clearWhere_entry]
  simp

theorem clearWhere_clearWhere (a b : UnitId → Bool) (records : Vector (List (UnitId × CondRecord)) 48) :
    clearWhere b (clearWhere a records) = clearWhere (fun u => a u || b u) records := by
  refine records_ext fun k => ?_
  rw [clearWhere_entry, clearWhere_entry, clearWhere_entry, List.map_map]
  refine List.map_congr_left fun ur _ => ?_
  cases first : a ur.1 <;> cases second : b ur.1 <;> simp [first, second]

theorem mem_clearWhere {cleared : UnitId → Bool} {records : Vector (List (UnitId × CondRecord)) 48} {k : Fin 48} {ur : UnitId × CondRecord} :
    ur ∈ (clearWhere cleared records)[k] ↔
      (cleared ur.1 = true ∧ ur.2 = CondRecord.clear ∧ ∃ r, (ur.1, r) ∈ records[k]) ∨ (cleared ur.1 = false ∧ ur ∈ records[k]) := by
  rw [clearWhere_entry, List.mem_map]
  constructor
  · rintro ⟨was, mem, rfl⟩
    cases cleared? : cleared was.1 with
    | true => exact .inl (by simpa [cleared?] using ⟨_, mem⟩)
    | false => exact .inr (by simpa [cleared?] using mem)
  · rintro (⟨is, clear, r, mem⟩ | ⟨isNot, mem⟩)
    · exact ⟨_, mem, by simp [is, ← clear]⟩
    · exact ⟨ur, mem, by simp [isNot]⟩

/-- Clearing records that do not stand for a group leaves its standing records alone. -/
theorem standingFor_clearWhere {cleared : UnitId → Bool} {limits : Vector (Option LimitEntry) 48}
    {records : Vector (List (UnitId × CondRecord)) 48} {g : GroupId}
    (silent : ∀ (k : Fin 48), ∀ ur ∈ records[k], AppliesTo g ur.1 → cleared ur.1 = true → ¬ Stands ur.2) :
    standingFor limits (clearWhere cleared records) g = standingFor limits records g := by
  unfold standingFor
  refine List.flatMap_congr fun k _ => ?_
  cases limits[k] with
  | none => rfl
  | some e =>
    have kept (ur : UnitId × CondRecord) (mem : ur ∈ records[k]) :
        (if cleared ur.1 then (ur.1, CondRecord.clear) else ur) = ur ∨
        (unitAppliesTo g ur.1 && ur.2.standing) = false := by
      cases is : cleared ur.1 with
      | false => exact .inl rfl
      | true =>
        refine .inr (Bool.eq_false_iff.mpr fun both => ?_)
        obtain ⟨applies, stands⟩ := Bool.and_eq_true_iff.mp both
        exact silent k ur mem ((unitAppliesTo_iff g _).mp applies) is ((CondRecord.standing_iff _).mp stands)
    change standingIn k.val e g (clearWhere cleared records)[k] = standingIn k.val e g records[k]
    rw [clearWhere_entry]
    generalize records[k] = rs at kept
    unfold standingIn
    congr 1
    induction rs with
    | nil => rfl
    | cons ur rs ih =>
      have rest := ih fun v mem => kept v (List.mem_cons_of_mem _ mem)
      rw [List.map_cons, List.filter_cons, List.filter_cons, rest]
      obtain same | silent := kept ur List.mem_cons_self
      · rw [same]
      · by_cases is : cleared ur.1 = true
        · simp [is, silent, CondRecord.clear_not_standing]
        · simp [is]

theorem LimitEvaluator.stands_iff (l : LimitEvaluator) (u : UnitId) :
    l.stands u = true ↔ ∃ (k : Fin 48) (r : CondRecord), (u, r) ∈ l.records[k] ∧ Stands r := by
  unfold LimitEvaluator.stands
  simp only [List.any_eq_true, Vector.mem_toList_iff, Vector.mem_iff_getElem, Bool.and_eq_true, decide_eq_true_eq, CondRecord.standing_iff]
  constructor
  · rintro ⟨rs, ⟨k, small, rfl⟩, ⟨v, r⟩, mem, rfl, stands⟩
    exact ⟨⟨k, small⟩, r, mem, stands⟩
  · rintro ⟨k, r, mem, stands⟩
    exact ⟨_, ⟨k.val, k.isLt, rfl⟩, (u, r), mem, rfl, stands⟩

/-- A step that leaves LC and CT alone posts nothing. -/
theorem Posts.quiet {s t : State} (lc : t.lc = s.lc) (ct : t.ct = s.ct) : Posts s t [] :=
  .silent (by rw [lc]; exact ⟨rfl, rfl, rfl, rfl⟩) (by rw [ct])

/-! ### One group -/

/-- The group enters OUT at this boundary (R84). -/
def State.groupLeft (cx : GroupContext) (s : State) (g : GroupId) : Bool :=
  decide ((s.gm.groups.get g).state ≠ .out) && decide ((s.nextGroup cx g).state = .out)

/-- The reports of one group: its GROUP_EVENT, and the VERDICT_CHANGE of a departure behind it (R91). -/
def State.groupNotices (cx : GroupContext) (s : State) (g : GroupId) : List Notice :=
  let old := (s.gm.groups.get g).state
  let new := (s.nextGroup cx g).state
  if new = old then []
  else .report (.groupEvent g old new (monitorCause new) (monitorWindow new cx.opening)) ::
    (if new = .out ∧ s.le.verdicts.get g ≠ .normal then [.report (.verdictChange g (s.le.verdicts.get g) .normal .out 0 none)] else [])

/-- The groups of `l` have taken their steps. -/
structure GroupsStepped (cx : GroupContext) (l : List GroupId) (s t : State) : Prop where
  records : t.le.records = clearWhere (fun u => l.any fun g => decide (u = .group g) && s.groupLeft cx g) s.le.records
  verdicts : ∀ h, t.le.verdicts.get h = if h ∈ l ∧ s.groupLeft cx h = true then .normal else s.le.verdicts.get h
  posts : Posts s t (l.flatMap (s.groupNotices cx))

section
variable (cx : GroupContext) (s : State) (g : GroupId)

theorem State.groupOut_records : (s.groupOut g).le.records = clearWhere (fun u => decide (u = .group g)) s.le.records := by
  unfold State.groupOut
  rw [(State.setVerdict_only ..).records, State.setLe_le, LimitEvaluator.clearUnit_records]

theorem State.groupOut_verdict (h : GroupId) : (s.groupOut g).le.verdicts.get h = if h = g then .normal else s.le.verdicts.get h := by
  unfold State.groupOut
  rw [State.setVerdict_verdict, State.setLe_le, LimitEvaluator.clearUnit_verdicts]

theorem State.groupOut_posts :
    Posts s (s.groupOut g)
      (if s.le.verdicts.get g ≠ .normal then [.report (.verdictChange g (s.le.verdicts.get g) .normal .out 0 none)] else []) := by
  unfold State.groupOut
  have changed := (s.setLe (s.le.clearUnit (.group g))).setVerdict_posts g .normal none .out 0
  rw [State.setLe_le, LimitEvaluator.clearUnit_verdicts] at changed
  have silent : Posts s (s.setLe (s.le.clearUnit (.group g))) [] := .quiet (by simp) (by simp)
  have both := silent.trans changed
  by_cases normal : s.le.verdicts.get g = .normal
  · simpa [normal] using both
  · simpa [normal, Ne.symm normal] using both

/-- GM with the next state of one group. -/
def State.withNextGroup (cx : GroupContext) (s : State) (g : GroupId) : State :=
  s.setGm { s.gm with groups := s.gm.groups.set g (s.nextGroup cx g) }

theorem State.groupStep_eq :
    s.groupStep cx g =
      if (s.nextGroup cx g).state = (s.gm.groups.get g).state then s.withNextGroup cx g
      else
        let t := (s.withNextGroup cx g).post [.report (.groupEvent g (s.gm.groups.get g).state (s.nextGroup cx g).state
          (monitorCause (s.nextGroup cx g).state) (monitorWindow (s.nextGroup cx g).state cx.opening))]
        if (s.nextGroup cx g).state = .out then t.groupOut g else t := rfl

theorem State.withNextGroup_post (ns : List Notice) : Posts s ((s.withNextGroup cx g).post ns) ns :=
  (Posts.quiet (t := s.withNextGroup cx g) (by simp [State.withNextGroup]) (by simp [State.withNextGroup])).trans (.post _ _)

/-- A group that does not leave keeps its records and its verdict. -/
theorem GroupsStepped.of_stays {cx : GroupContext} {s t : State} {g : GroupId} (stays : s.groupLeft cx g = false) (le : t.le = s.le)
    (posts : Posts s t (s.groupNotices cx g)) : GroupsStepped cx [g] s t := by
  refine ⟨?_, fun h => ?_, by simpa using posts⟩
  · simpa [stays, le] using (clearWhere_none _).symm
  · rw [le, if_neg]
    rintro ⟨mem, is⟩
    cases List.mem_singleton.mp mem
    simp [stays] at is

theorem State.groupStep_stepped : GroupsStepped cx [g] s (s.groupStep cx g) := by
  have le : (s.withNextGroup cx g).le = s.le := by simp [State.withNextGroup]
  have posts := s.withNextGroup_post cx g
  rw [State.groupStep_eq]
  by_cases still : (s.nextGroup cx g).state = (s.gm.groups.get g).state
  · rw [if_pos still]
    refine .of_stays ?_ le ?_
    · unfold State.groupLeft
      rw [still]
      cases (s.gm.groups.get g).state <;> rfl
    · have : s.groupNotices cx g = [] := by simp [State.groupNotices, still]
      rw [this]
      exact .quiet (by simp [State.withNextGroup]) (by simp [State.withNextGroup])
  · rw [if_neg still]
    dsimp only
    by_cases out : (s.nextGroup cx g).state = .out
    · have old : (s.gm.groups.get g).state ≠ .out := fun e => still (out.trans e.symm)
      have left : s.groupLeft cx g = true := by simp [State.groupLeft, out, old]
      rw [if_pos out]
      refine ⟨?_, fun h => ?_, ?_⟩
      · rw [State.groupOut_records, State.post_le, le]
        simp [left]
      · rw [State.groupOut_verdict, State.post_le, le]
        by_cases here : h = g
        · simp [here, left]
        · simp [here]
      · have behind (ns : List Notice) := (posts ns).trans (State.groupOut_posts _ g)
        simp only [State.post_le, le] at behind
        have notices : s.groupNotices cx g = [.report (.groupEvent g (s.gm.groups.get g).state (s.nextGroup cx g).state
            (monitorCause (s.nextGroup cx g).state) (monitorWindow (s.nextGroup cx g).state cx.opening))] ++
            (if s.le.verdicts.get g ≠ .normal then [.report (.verdictChange g (s.le.verdicts.get g) .normal .out 0 none)] else []) := by
          simp [State.groupNotices, out, Ne.symm old]
        rw [List.flatMap_singleton, notices]
        exact behind _
    · rw [if_neg out]
      refine .of_stays (by simp [State.groupLeft, out]) (by rw [State.post_le, le]) ?_
      unfold State.groupNotices
      simpa [out, still] using posts _

theorem State.groupStep_left {h : GroupId} (other : h ≠ g) : (s.groupStep cx g).groupLeft cx h = s.groupLeft cx h := by
  unfold State.groupLeft
  rw [State.groupStep_nextGroup _ _ _ _ other, State.groupStep_groups, if_neg other]

end

theorem groupsStepped_foldl (cx : GroupContext) {l : List GroupId} (nodup : l.Nodup) (s : State) :
    GroupsStepped cx l s (l.foldl (State.groupStep cx) s) := by
  induction l generalizing s with
  | nil => exact ⟨(clearWhere_none _).symm, fun h => by simp, .refl s⟩
  | cons g l ih =>
    obtain ⟨new, nodup⟩ := List.nodup_cons.mp nodup
    have apart {h : GroupId} (mem : h ∈ l) : h ≠ g := fun e => new (e ▸ mem)
    obtain ⟨records, verdicts, posts⟩ := s.groupStep_stepped cx g
    obtain ⟨records', verdicts', posts'⟩ := ih nodup (s.groupStep cx g)
    refine ⟨?_, fun h => ?_, ?_⟩
    · rw [List.foldl_cons, records', records, clearWhere_clearWhere]
      congr 1
      funext u
      have rest : (l.any fun h => decide (u = .group h) && (s.groupStep cx g).groupLeft cx h) =
          l.any fun h => decide (u = .group h) && s.groupLeft cx h :=
        Bool.eq_iff_iff.mpr (by
          simp only [List.any_eq_true]
          exact exists_congr fun h => and_congr_right fun mem => by rw [State.groupStep_left _ _ _ (apart mem)])
      simp only [rest, List.any_cons, List.any_nil, Bool.or_false]
    · rw [List.foldl_cons, verdicts', verdicts]
      by_cases mem : h ∈ l
      · simp [mem, State.groupStep_left _ _ _ (apart mem), apart mem]
      · by_cases here : h = g <;> simp [mem, here, new]
    · rw [List.foldl_cons]
      have rest : l.flatMap ((s.groupStep cx g).groupNotices cx) = l.flatMap (s.groupNotices cx) := by
        refine List.flatMap_congr fun h mem => ?_
        have verdict : (s.groupStep cx g).le.verdicts.get h = s.le.verdicts.get h := by
          rw [verdicts, if_neg fun both => apart mem (List.mem_singleton.mp both.1)]
        unfold State.groupNotices
        rw [State.groupStep_nextGroup _ _ _ _ (apart mem), State.groupStep_groups, if_neg (apart mem), verdict]
      rw [rest] at posts'
      simpa using posts.trans posts'

/-! ### One pair -/

section
variable (cx : GroupContext) (before : Quad GroupMonitor) (s : State) (p : PairId)

/-- The pair goes BROKEN (R88). -/
def State.pairBreaks (s : State) (p : PairId) : Bool := decide (s.gm.pairs.get p = .intact) && decide (s.pairNow p = .broken)

/-- The group entered OUT at this boundary, `before` being the groups before it. -/
def State.hasLeft (before : Quad GroupMonitor) (s : State) (g : GroupId) : Bool :=
  decide ((before.get g).state ≠ .out) && decide ((s.gm.groups.get g).state = .out)

theorem State.pairRecompute_eq (g : GroupId) :
    s.pairRecompute before g = if s.hasLeft before g then s else s.recompute .pairBroken 0 g := by
  unfold State.pairRecompute State.hasLeft
  simp only [Bool.and_eq_true, decide_eq_true_eq]

theorem State.pairRecompute_records (g : GroupId) : (s.pairRecompute before g).le.records = s.le.records :=
  (State.pairRecompute_only before s g).records

theorem State.pairRecompute_standing (g h : GroupId) : (s.pairRecompute before g).standing h = s.standing h :=
  (State.pairRecompute_only before s g).standing h

theorem State.pairRecompute_verdict (g h : GroupId) :
    (s.pairRecompute before g).le.verdicts.get h =
      if h = g ∧ s.hasLeft before g = false then verdictOf (s.standing g) else s.le.verdicts.get h := by
  rw [State.pairRecompute_eq]
  cases s.hasLeft before g with
  | true => simp
  | false => simpa using State.recompute_verdict ..

/-- The VERDICT_CHANGE of one group of a broken pair (R91). -/
def State.pairVerdictNotices (before : Quad GroupMonitor) (s : State) (g : GroupId) : List Notice :=
  if s.hasLeft before g = true ∨ s.le.verdicts.get g = verdictOf (s.standing g) then []
  else [.report (.verdictChange g (s.le.verdicts.get g) (verdictOf (s.standing g)) .pairBroken 0 (holderOf (s.standing g)))]

theorem State.pairRecompute_posts (g : GroupId) : Posts s (s.pairRecompute before g) (s.pairVerdictNotices before g) := by
  rw [State.pairRecompute_eq]
  unfold State.pairVerdictNotices
  cases s.hasLeft before g with
  | true => simpa using Posts.refl s
  | false => simpa [State.recompute, eq_comm] using s.setVerdict_posts g (verdictOf (s.standing g)) (holderOf (s.standing g)) .pairBroken 0

theorem State.pairRecompute_notices {g h : GroupId} (other : h ≠ g) :
    (s.pairRecompute before g).pairVerdictNotices before h = s.pairVerdictNotices before h := by
  have verdict : (s.pairRecompute before g).le.verdicts.get h = s.le.verdicts.get h := by
    rw [State.pairRecompute_verdict]
    exact if_neg fun both => other both.1
  unfold State.pairVerdictNotices State.hasLeft
  rw [verdict, State.pairRecompute_standing, State.pairRecompute_gm]

theorem second_ne_first : p.second ≠ p.first := by cases p <;> decide

theorem pair_eq_iff (h : GroupId) : h.pair = p ↔ h = p.first ∨ h = p.second := by cases p <;> cases h <;> decide

/-- The VERDICT_CHANGE of one group of a broken pair, by the verdicts before and after (R91). -/
def pairChange (before : Quad GroupMonitor) (s t : State) (g : GroupId) : List Notice :=
  if t.hasLeft before g = true ∨ s.le.verdicts.get g = t.le.verdicts.get g then []
  else [.report (.verdictChange g (s.le.verdicts.get g) (t.le.verdicts.get g) .pairBroken 0 (holderOf (t.standing g)))]

/-- What the break of a pair does: its records are CLEAR, and where one stood the verdicts of its groups follow what stands, but for a group
that left (R89). -/
structure PairCleared (before : Quad GroupMonitor) (p : PairId) (stood : Bool) (s t : State) : Prop where
  records : t.le.records = clearWhere (fun u => decide (u = .pair p)) s.le.records
  ss : t.ss = s.ss
  gm : t.gm = s.gm
  verdicts : ∀ h, t.le.verdicts.get h =
    if stood = true ∧ h.pair = p ∧ s.hasLeft before h = false then verdictOf (t.standing h) else s.le.verdicts.get h
  posts : Posts s t (if stood then [p.first, p.second].flatMap (pairChange before s t) else [])

theorem State.pairBroken_cleared : PairCleared before p (s.le.stands (.pair p)) s (s.pairBroken before p) := by
  unfold State.pairBroken
  dsimp only
  cases s.le.stands (.pair p) with
  | false =>
    refine ⟨?_, by simp, by simp, fun h => by simp, ?_⟩
    · simp [LimitEvaluator.clearUnit_records]
    · exact .quiet (by simp) (by simp)
  | true =>
    simp only [if_true]
    generalize clears : s.setLe (s.le.clearUnit (.pair p)) = u
    have ugm : u.gm = s.gm := by rw [← clears]; simp
    have uverdicts : u.le.verdicts = s.le.verdicts := by rw [← clears]; simp
    have left (g : GroupId) : u.hasLeft before g = s.hasLeft before g := by unfold State.hasLeft; rw [ugm]
    have left' (g : GroupId) : (u.pairRecompute before p.first).hasLeft before g = s.hasLeft before g := by
      unfold State.hasLeft; rw [State.pairRecompute_gm, ugm]
    have standing (h : GroupId) : ((u.pairRecompute before p.first).pairRecompute before p.second).standing h = u.standing h := by
      rw [State.pairRecompute_standing, State.pairRecompute_standing]
    have verdicts (h : GroupId) : ((u.pairRecompute before p.first).pairRecompute before p.second).le.verdicts.get h =
        if h.pair = p ∧ s.hasLeft before h = false then verdictOf (u.standing h) else s.le.verdicts.get h := by
      rw [State.pairRecompute_verdict, State.pairRecompute_verdict, State.pairRecompute_standing, left, left', uverdicts]
      simp only [pair_eq_iff]
      have apart := (second_ne_first p)
      by_cases first : h = p.first
      · subst first
        rw [if_neg fun both => apart both.1.symm]
        simp
      · by_cases second : h = p.second
        · subst second
          simp [apart]
        · simp [first, second]
    refine ⟨?_, ?_, ?_, fun h => ?_, ?_⟩
    · rw [State.pairRecompute_records, State.pairRecompute_records, ← clears]
      simp [LimitEvaluator.clearUnit_records]
    · rw [(State.pairRecompute_only ..).ss, (State.pairRecompute_only ..).ss, ← clears]
      simp
    · rw [State.pairRecompute_gm, State.pairRecompute_gm, ugm]
    · rw [verdicts, standing]
      simp
    · have posts := (u.pairRecompute_posts before p.first).trans ((u.pairRecompute before p.first).pairRecompute_posts before p.second)
      rw [State.pairRecompute_notices _ _ (second_ne_first p)] at posts
      have silent : Posts s u [] := .quiet (by rw [← clears]; simp) (by rw [← clears]; simp)
      have notice (g : GroupId) (mem : g ∈ [p.first, p.second]) : u.pairVerdictNotices before g =
          pairChange before s ((u.pairRecompute before p.first).pairRecompute before p.second) g := by
        have pair : g.pair = p := (pair_eq_iff p g).mpr (by simpa using mem)
        have behind : ((u.pairRecompute before p.first).pairRecompute before p.second).hasLeft before g = s.hasLeft before g := by
          unfold State.hasLeft; rw [State.pairRecompute_gm, State.pairRecompute_gm, ugm]
        unfold State.pairVerdictNotices pairChange
        rw [verdicts, standing, left, uverdicts, behind]
        cases s.hasLeft before g <;> simp [pair]
      have both := silent.trans posts
      rw [notice _ (by simp), notice _ (by simp)] at both
      simpa using both

/-- The reports of one pair (R91). -/
def pairNotices (cx : GroupContext) (before : Quad GroupMonitor) (s t : State) (p : PairId) : List Notice :=
  let old := s.gm.pairs.get p
  let new := t.gm.pairs.get p
  if new = old then []
  else .report (.pairEvent p old new (pairCause before t p new) (if new = .intact ∧ cx.opens = true then cx.opening else 0)) ::
    (if new = .broken ∧ s.le.stands (.pair p) = true then [p.first, p.second].flatMap (pairChange before s t) else [])

theorem pairNotices_congr {s s' t t' : State} (old : s'.gm.pairs.get p = s.gm.pairs.get p) (new : t'.gm.pairs.get p = t.gm.pairs.get p)
    (groups : t'.gm.groups = t.gm.groups) (stands : s'.le.stands (.pair p) = s.le.stands (.pair p))
    (change : ∀ g, g.pair = p → pairChange before s' t' g = pairChange before s t g) :
    pairNotices cx before s' t' p = pairNotices cx before s t p := by
  have cause (state : PairState) : pairCause before t' p state = pairCause before t p state := by cases state <;> simp [pairCause, groups]
  unfold pairNotices
  simp only [old, new, stands, cause, List.flatMap_cons, List.flatMap_nil, change p.first ((pair_eq_iff p _).mpr (.inl rfl)),
    change p.second ((pair_eq_iff p _).mpr (.inr rfl))]

/-- One pair has taken its step. -/
structure PairStepped (cx : GroupContext) (before : Quad GroupMonitor) (p : PairId) (s t : State) : Prop where
  records : t.le.records = clearWhere (fun u => decide (u = .pair p) && s.pairBreaks p) s.le.records
  verdicts : ∀ h, t.le.verdicts.get h =
    if s.pairBreaks p = true ∧ s.le.stands (.pair p) = true ∧ h.pair = p ∧ s.hasLeft before h = false then verdictOf (t.standing h)
    else s.le.verdicts.get h
  posts : Posts s t (pairNotices cx before s t p)

theorem pairCause_congr {s t : State} (groups : t.gm.groups = s.gm.groups) (new : PairState) :
    pairCause before t p new = pairCause before s p new := by
  cases new <;> simp [pairCause, groups]

theorem State.pairStep_stepped : PairStepped cx before p s (s.pairStep cx before p) := by
  have now : (s.pairStep cx before p).gm.pairs.get p = s.pairNow p := by rw [State.pairStep_pairs, if_pos rfl]
  have cause : pairCause before (s.pairStep cx before p) p (s.pairNow p) = pairCause before s p (s.pairNow p) :=
    pairCause_congr before p (s.pairStep_groups cx before p) _
  have notices : pairNotices cx before s (s.pairStep cx before p) p =
      if s.pairNow p = s.gm.pairs.get p then [] else
      .report (.pairEvent p (s.gm.pairs.get p) (s.pairNow p) (pairCause before s p (s.pairNow p))
        (if s.pairNow p = .intact ∧ cx.opens = true then cx.opening else 0)) ::
      (if s.pairNow p = .broken ∧ s.le.stands (.pair p) = true then
        [p.first, p.second].flatMap (pairChange before s (s.pairStep cx before p)) else []) := by
    unfold pairNotices
    dsimp only
    rw [now, cause]
  by_cases still : s.pairNow p = s.gm.pairs.get p
  · have same : s.pairStep cx before p = s := by
      unfold State.pairStep
      dsimp only
      rw [if_pos still]
    have breaks : s.pairBreaks p = false := by
      unfold State.pairBreaks
      rw [still]
      cases s.gm.pairs.get p <;> rfl
    rw [if_pos still] at notices
    refine ⟨?_, fun h => ?_, ?_⟩
    · simpa [breaks, same] using (clearWhere_none _).symm
    · rw [same]; simp [breaks]
    · rw [notices, same]; exact .refl s
  · generalize announced : (s.setGm { s.gm with pairs := s.gm.pairs.set p (s.pairNow p) }).post
      [.report (.pairEvent p (s.gm.pairs.get p) (s.pairNow p) (pairCause before s p (s.pairNow p))
        (if s.pairNow p = .intact ∧ cx.opens = true then cx.opening else 0))] = u
    have step : s.pairStep cx before p = if s.pairNow p = .broken then u.pairBroken before p else u := by
      unfold State.pairStep
      dsimp only
      rw [if_neg still, announced]
    have posts : Posts s u _ := announced ▸ (Posts.quiet (t := s.setGm { s.gm with pairs := s.gm.pairs.set p (s.pairNow p) }) (by simp) (by simp)).trans (.post _ _)
    have le : u.le = s.le := by rw [← announced]; simp
    have left (g : GroupId) : u.hasLeft before g = s.hasLeft before g := by unfold State.hasLeft; rw [← announced]; simp
    rw [if_neg still] at notices
    by_cases broken : s.pairNow p = .broken
    · have breaks : s.pairBreaks p = true := by
        unfold State.pairBreaks
        rw [broken] at still ⊢
        cases was : s.gm.pairs.get p with
        | intact => rfl
        | broken => exact absurd was.symm still
      rw [if_pos broken] at step
      obtain ⟨records, -, -, verdicts, posts'⟩ := u.pairBroken_cleared before p
      rw [← step, le] at records verdicts posts'
      simp only [left] at verdicts
      have change : pairChange before u (s.pairStep cx before p) = pairChange before s (s.pairStep cx before p) := by
        funext g
        unfold pairChange
        rw [le]
      rw [change] at posts'
      refine ⟨?_, fun h => ?_, ?_⟩
      · simpa [breaks] using records
      · rw [verdicts]; simp [breaks]
      · rw [notices]
        simpa [broken] using posts.trans posts'
    · have breaks : s.pairBreaks p = false := by simp [State.pairBreaks, broken]
      rw [if_neg broken] at step
      refine ⟨?_, fun h => ?_, ?_⟩
      · rw [step, le]
        simpa [breaks] using (clearWhere_none _).symm
      · rw [step, le]; simp [breaks]
      · rw [notices, step]
        simpa [broken] using posts

end

/-! ### The whole step of GM -/

section
variable (cx : GroupContext) (s : State)

/-- The units whose records GM clears: the groups that leave and the pairs that break. -/
def State.unitCleared (cx : GroupContext) (s : State) : UnitId → Bool
  | .group g => s.groupLeft cx g
  | .pair p => (s.groupSteps cx).pairBreaks p

theorem State.groupSteps_stepped : GroupsStepped cx GroupId.all s (s.groupSteps cx) := groupsStepped_foldl cx (by decide) s

/-- A group has left behind GM's step exactly if it leaves at it. -/
theorem State.hasLeft_of_groups {t : State} (groups : ∀ g, t.gm.groups.get g = s.nextGroup cx g) (g : GroupId) :
    t.hasLeft s.gm.groups g = s.groupLeft cx g := by
  unfold State.hasLeft State.groupLeft
  rw [groups]

/-- GM has taken its step. -/
structure MonitorsStepped (cx : GroupContext) (s t : State) : Prop where
  records : t.le.records = clearWhere (s.unitCleared cx) s.le.records
  left : ∀ g, s.groupLeft cx g = true → t.le.verdicts.get g = .normal
  broken : ∀ g, s.groupLeft cx g = false → (s.groupSteps cx).pairBreaks g.pair = true → s.le.stands (.pair g.pair) = true →
    t.le.verdicts.get g = verdictOf (t.standing g)
  kept : ∀ g, s.groupLeft cx g = false → ¬ ((s.groupSteps cx).pairBreaks g.pair = true ∧ s.le.stands (.pair g.pair) = true) →
    t.le.verdicts.get g = s.le.verdicts.get g
  posts : Posts s t (GroupId.all.flatMap (s.groupNotices cx) ++ PairId.all.flatMap (pairNotices cx s.gm.groups s t))

/-- Clearing records of other units leaves it alone whether one of a unit's records stands. -/
theorem stands_clearWhere {l m : LimitEvaluator} {cleared : UnitId → Bool} (records : m.records = clearWhere cleared l.records) {u : UnitId}
    (other : cleared u = false) : m.stands u = l.stands u := by
  rw [Bool.eq_iff_iff, LimitEvaluator.stands_iff, LimitEvaluator.stands_iff]
  refine exists_congr fun k => exists_congr fun r => and_congr_left fun _ => ?_
  rw [records, mem_clearWhere]
  simp [other]

theorem State.monitorStep_stepped : MonitorsStepped cx s (s.monitorStep cx) := by
  obtain ⟨records, verdicts, posts⟩ := s.groupSteps_stepped cx
  have steps : s.monitorStep cx = ((s.groupSteps cx).pairStep cx s.gm.groups .p0).pairStep cx s.gm.groups .p1 := rfl
  generalize groups : s.groupSteps cx = u at records verdicts posts steps
  obtain ⟨records₀, verdicts₀, posts₀⟩ := u.pairStep_stepped cx s.gm.groups .p0
  have groups₀ := u.pairStep_groups cx s.gm.groups .p0
  have pairs₀ := u.pairStep_pairs cx s.gm.groups .p0 .p1
  have now₀ := u.pairStep_pairNow cx s.gm.groups .p0 .p1
  have now₀' := u.pairStep_pairs cx s.gm.groups .p0 .p0
  have ss₀ := u.pairStep_ss cx s.gm.groups .p0
  generalize first : u.pairStep cx s.gm.groups .p0 = v at records₀ verdicts₀ posts₀ groups₀ pairs₀ now₀ now₀' ss₀ steps
  obtain ⟨records₁, verdicts₁, posts₁⟩ := v.pairStep_stepped cx s.gm.groups .p1
  have groups₁ := v.pairStep_groups cx s.gm.groups .p1
  have pairs₁ := v.pairStep_pairs cx s.gm.groups .p1 .p0
  have ss₁ := v.pairStep_ss cx s.gm.groups .p1
  rw [← steps] at records₁ verdicts₁ posts₁ groups₁ pairs₁ ss₁
  have breaks₁ : v.pairBreaks .p1 = u.pairBreaks .p1 := by
    unfold State.pairBreaks
    rw [now₀, pairs₀, if_neg (by decide)]
  have stands (p : PairId) : u.le.stands (.pair p) = s.le.stands (.pair p) := stands_clearWhere records (by simp)
  have stands₁ : v.le.stands (.pair .p1) = s.le.stands (.pair .p1) := (stands_clearWhere records₀ (by simp)).trans (stands .p1)
  have left : ∀ g, u.hasLeft s.gm.groups g = s.groupLeft cx g := s.hasLeft_of_groups cx (groups ▸ s.groupSteps_groups cx)
  have left₁ (g : GroupId) : v.hasLeft s.gm.groups g = s.groupLeft cx g := by
    rw [← left]
    unfold State.hasLeft
    rw [groups₀]
  rw [breaks₁] at records₁
  simp only [breaks₁, stands₁, left₁] at verdicts₁
  simp only [stands, left] at verdicts₀
  have standing (h : GroupId) (pair : h.pair = .p0) : (s.monitorStep cx).standing h = v.standing h := by
    unfold State.standing
    rw [records₁, ss₁]
    refine standingFor_clearWhere fun k ur _ applies is => ?_
    obtain ⟨isPair, -⟩ := Bool.and_eq_true_iff.mp is
    rw [of_decide_eq_true isPair] at applies
    exact absurd (applies.trans pair) (by decide)
  have verdict (h : GroupId) : (s.monitorStep cx).le.verdicts.get h =
      if u.pairBreaks h.pair = true ∧ s.le.stands (.pair h.pair) = true ∧ s.groupLeft cx h = false then
        verdictOf ((s.monitorStep cx).standing h)
      else u.le.verdicts.get h := by
    rw [verdicts₁, verdicts₀]
    cases pair : h.pair with
    | p0 => simp [standing h pair]
    | p1 => simp
  have counted (h : GroupId) : u.le.verdicts.get h = if s.groupLeft cx h = true then .normal else s.le.verdicts.get h := by
    rw [verdicts]
    simp [GroupId.mem_all]
  refine ⟨?_, fun g is => ?_, fun g is breaks stood => ?_, fun g is kept => ?_, ?_⟩
  · rw [records₁, records₀, records, clearWhere_clearWhere, clearWhere_clearWhere]
    congr 1
    funext unit
    unfold State.unitCleared
    rw [groups]
    cases unit with
    | group g => cases g <;> simp [GroupId.all]
    | pair p => cases p <;> simp
  · rw [verdict, counted]
    simp [is]
  · rw [groups] at breaks
    rw [verdict]
    simp [is, breaks, stood]
  · rw [groups] at kept
    rw [verdict, counted, if_neg fun all => kept ⟨all.1, all.2.1⟩]
    simp [is]
  · have leftT (t : State) (same : t.gm.groups = u.gm.groups) (g : GroupId) : t.hasLeft s.gm.groups g = s.groupLeft cx g := by
      rw [← left]
      unfold State.hasLeft
      rw [same]
    have old : u.gm.pairs = s.gm.pairs := groups ▸ s.groupSteps_pairs cx
    have notice₀ : pairNotices cx s.gm.groups u v .p0 = pairNotices cx s.gm.groups s (s.monitorStep cx) .p0 := by
      refine pairNotices_congr _ _ _ (by rw [old]) (by rw [pairs₁, if_neg (by decide)]) groups₁.symm (stands .p0) fun h pair => ?_
      have same : (s.monitorStep cx).le.verdicts.get h = v.le.verdicts.get h := by rw [verdicts₁]; simp [pair]
      unfold pairChange
      rw [leftT v groups₀, leftT _ (groups₁.trans groups₀), same, standing h pair, counted]
      cases is : s.groupLeft cx h <;> simp
    have notice₁ : pairNotices cx s.gm.groups v (s.monitorStep cx) .p1 = pairNotices cx s.gm.groups s (s.monitorStep cx) .p1 := by
      refine pairNotices_congr _ _ _ (by rw [pairs₀, if_neg (by decide), old]) rfl rfl stands₁ fun h pair => ?_
      have same : v.le.verdicts.get h = u.le.verdicts.get h := by rw [verdicts₀]; simp [pair]
      unfold pairChange
      rw [leftT _ (groups₁.trans groups₀), same, counted]
      cases is : s.groupLeft cx h <;> simp
    have all := posts.trans (posts₀.trans posts₁)
    rw [notice₀, notice₁] at all
    simpa [PairId.all] using all

end

end Sys2Proof.Machine
end

