-- ==== Sys2Proof/Proofs/VerdictsSupported.lean ====
section
/-! PROOFS. Every step keeps verdicts, latches and lines true to the standing records, and MAINTENANCE quiet (R94, R104, R111 to R118). -/

namespace Sys2Proof.Machine

open Sys2Proof.Safety

/-! ### Fresh records -/

theorem freshRecords_units (e : Option LimitEntry) : (freshRecords e).map Prod.fst = slotUnits e := by
  cases e with
  | none => rfl
  | some e => simp [freshRecords, slotUnits, Function.comp_def]

theorem mem_freshRecords {e : Option LimitEntry} {ur : UnitId × CondRecord} (mem : ur ∈ freshRecords e) : ur.2 = CondRecord.clear := by
  cases e with
  | none => cases mem
  | some e =>
    obtain ⟨u, -, rfl⟩ := List.mem_map.mp mem
    rfl

/-- Where every record is CLEAR none stands. -/
theorem State.standing_of_clear {s : State} (clear : ∀ k : Fin 48, ∀ ur ∈ s.le.records[k], ur.2 = CondRecord.clear) (g : GroupId) :
    s.standing g = [] := by
  refine List.eq_nil_iff_forall_not_mem.mpr fun x mem => ?_
  obtain ⟨k, e, u, r, -, mem, -, stands, -⟩ := mem_standingFor.mp mem
  have : r = CondRecord.clear := clear k (u, r) mem
  rw [this] at stands
  simp [Stands, CondRecord.clear] at stands

/-- Fresh records and NORMAL verdicts support each other. -/
theorem State.supported_of_fresh {s : State} (outputs : OutputsFollow s) (records : s.le.records = tableMap freshRecords s.ss.working.limits)
    (verdicts : s.le.verdicts = Quad.fill .normal) : s.Supported := by
  have entry (k : Fin 48) : s.le.records[k] = freshRecords s.ss.working.limits[k] := by rw [records]; exact tableMap_getElem ..
  have clear : ∀ k : Fin 48, ∀ ur ∈ s.le.records[k], ur.2 = CondRecord.clear := fun k ur => by
    rw [entry]; exact mem_freshRecords
  refine ⟨outputs, fun k => by rw [entry, freshRecords_units], fun k e _ ur mem => ?_, fun k ur mem _ => clear k ur mem, fun g => ?_⟩
  · rw [clear k ur mem]; rfl
  · rw [State.standing_of_clear clear, verdicts, Quad.get_fill]; rfl

theorem outputsFollow_fresh {s : State} {x : Settings} (le : s.le = LimitEvaluator.fresh x) : OutputsFollow s := by
  constructor
  · intro g
    rw [le]
    simp [LimitEvaluator.fresh]
  · rw [le]
    simp [LimitEvaluator.fresh]

theorem tripLatched_of_normal {s : State} (verdicts : s.le.verdicts = Quad.fill .normal) : TripLatched s := fun g trip => by
  rw [verdicts, Quad.get_fill] at trip
  cases trip

/-! ### What MAINTENANCE holds still -/

/-- Nothing is open, waiting or running. -/
structure AnalysisEngine.Still (a : AnalysisEngine) : Prop where
  clock : a.clock = none
  groupSets : ∀ g, a.groupSets.get g = none
  pairSets : ∀ p, a.pairSets.get p = none
  groupSlots : ∀ g, a.groupSlots.get g = .empty
  pairSlots : ∀ p, a.pairSlots.get p = .empty
  passes : a.passes = []

/-- The ring runs, with no trigger recorded or ignored and no release pending. -/
structure CaptureRing.Still (c : CaptureRing) : Prop where
  freeze : c.state = .running
  trigger : c.trigger = none
  ignored : c.ignored = 0
  release : c.releasePending = false

/-- GM has every group OUT and every pair BROKEN. -/
structure Monitors.Still (m : Monitors) : Prop where
  groups : ∀ g, (m.groups.get g).state = .out
  pairs : ∀ p, m.pairs.get p = .broken

/-- With supported verdicts a part is quiet when its blocks stand still and no latch is set. -/
theorem quiet_iff {s : State} (h : s.Supported) :
    Quiet s ↔ s.ae.Still ∧ s.gm.Still ∧ s.cr.Still ∧ (∀ g, s.le.latches.get g = false) ∧
      ∀ g c, s.fc.get g c = { active := false, run := 0 } := by
  constructor
  · intro q
    exact ⟨⟨q.clock, q.groupSets, q.pairSets, q.groupSlots, q.pairSlots, q.passes⟩, ⟨q.groups, q.pairs⟩,
      ⟨q.freeze, q.trigger, q.ignored, q.release⟩, q.latches, q.comparators⟩
  · rintro ⟨ae, gm, cr, latches, comparators⟩
    have clear : ∀ k : Fin 48, ∀ ur ∈ s.le.records[k], ur.2 = CondRecord.clear := fun k ur mem => by
      refine h.unwatched k ur mem fun watched => ?_
      obtain ⟨u, r⟩ := ur
      cases u with
      | group g => simp [Watched, gm.groups] at watched
      | pair p => simp [Watched, gm.pairs] at watched
    exact ⟨ae.clock, ae.groupSets, ae.pairSets, ae.groupSlots, ae.pairSlots, ae.passes, gm.groups, gm.pairs, clear,
      fun g => by rw [h.follows, State.standing_of_clear clear]; rfl, latches, comparators, cr.freeze, cr.trigger, cr.ignored, cr.release⟩

theorem AnalysisEngine.fresh_still : AnalysisEngine.fresh.Still := by constructor <;> simp [AnalysisEngine.fresh]
theorem Monitors.fresh_still : Monitors.fresh.Still := by constructor <;> simp [Monitors.fresh, GroupMonitor.fresh]
theorem CaptureRing.fresh_still : CaptureRing.fresh.Still := by constructor <;> rfl

theorem pairsFollow_of_still {s : State} (still : s.gm.Still) : PairsFollow s := fun p => by
  rw [still.pairs, still.groups]
  simp

theorem pairsFollow_congr {s t : State} (h : PairsFollow s) (gm : t.gm = s.gm)
    (analysis : t.ss.working.analysis = s.ss.working.analysis) : PairsFollow t := by
  unfold PairsFollow
  rw [gm, analysis]
  exact h

section
variable (l : LimitEvaluator) (x : Settings) (m : Mode)

@[simp] theorem LimitEvaluator.restarted_records : (l.restarted x m).records = tableMap freshRecords x.limits := by
  simp only [LimitEvaluator.restarted, LimitEvaluator.refreshAlert]

@[simp] theorem LimitEvaluator.restarted_verdicts : (l.restarted x m).verdicts = Quad.fill .normal := by
  simp only [LimitEvaluator.restarted, LimitEvaluator.refreshAlert]

@[simp] theorem LimitEvaluator.restarted_latches : (l.restarted x m).latches = l.latches := by
  simp only [LimitEvaluator.restarted, LimitEvaluator.refreshAlert]

end

/-- With the blocks of a reset or of a restart. -/
theorem judged_of_fresh {s : State} (outputs : OutputsFollow s) (records : s.le.records = tableMap freshRecords s.ss.working.limits)
    (verdicts : s.le.verdicts = Quad.fill .normal) (ae : s.ae = AnalysisEngine.fresh) (gm : s.gm = Monitors.fresh)
    (cr : s.cr = CaptureRing.fresh) (fc : s.fc = Comparators.fresh)
    (latches : s.mode = .maintenance → ∀ g, s.le.latches.get g = false) : Safety.Judged s := by
  have supported := State.supported_of_fresh outputs records verdicts
  refine (judged_iff s).mpr ⟨supported, pairsFollow_of_still (gm ▸ Monitors.fresh_still), tripLatched_of_normal verdicts, fun mode => ?_⟩
  refine (quiet_iff supported).mpr ⟨ae ▸ AnalysisEngine.fresh_still, gm ▸ Monitors.fresh_still, cr ▸ CaptureRing.fresh_still,
    latches mode, fun g c => ?_⟩
  rw [fc, Comparators.fresh_get]

/-- Where LE, GM, AE, FC, the freeze state, the mode, the table and the pairing stay. -/
theorem judged_congr {s t : State} (h : Safety.Judged s) (le : t.le = s.le) (gm : t.gm = s.gm) (ae : t.ae = s.ae) (fc : t.fc = s.fc)
    (cr : t.cr = s.cr) (mode : t.mode = s.mode) (limits : t.ss.working.limits = s.ss.working.limits)
    (analysis : t.ss.working.analysis = s.ss.working.analysis) : Safety.Judged t := by
  obtain ⟨supported, pairs, latched, quiet⟩ := (judged_iff s).mp h
  have supported' := supported.congr le mode gm limits
  refine (judged_iff t).mpr ⟨supported', pairsFollow_congr pairs gm analysis, ?_, fun maintenance => ?_⟩
  · unfold TripLatched
    rw [le]
    exact latched
  · rw [quiet_iff supported', le, gm, ae, fc, cr]
    exact (quiet_iff supported).mp (quiet (mode ▸ maintenance))

/-- In NORMAL nothing is asked to stand still. -/
theorem judged_of_normal {s t : State} (h : Safety.Judged s) (supported : t.Supported) (latched : TripLatched t) (gm : t.gm = s.gm)
    (analysis : t.ss.working.analysis = s.ss.working.analysis) (normal : t.mode = .normal) : Safety.Judged t :=
  (judged_iff t).mpr ⟨supported, pairsFollow_congr ((judged_iff s).mp h).2.1 gm analysis, latched, fun m => by rw [normal] at m; cases m⟩

/-! ### The sample event -/

/-- Latches set in NORMAL, with their lines and the alert line. -/
theorem outputsFollow_latchAll {s t : State} (h : OutputsFollow s) (normal : s.mode = .normal) {gs : List GroupId}
    (le : t.le = s.le.latchAll gs) (verdicts : t.le.verdicts = s.le.verdicts) (mode : t.mode = s.mode) : OutputsFollow t := by
  refine ⟨fun g => ?_, ?_⟩
  · rw [le, LimitEvaluator.latchAll_tripLines, Bool.eq_iff_iff, LimitEvaluator.latchAll_latches, h.tripLine]
    by_cases mem : g ∈ gs <;> simp [mem]
  · rw [mode, verdicts, le]
    simp only [LimitEvaluator.latchAll_latches]
    cases gs with
    | nil => simpa [LimitEvaluator.latchAll] using h.alert
    | cons g gs =>
      rw [LimitEvaluator.latchAll_alert _ (List.cons_ne_nil g gs)]
      exact iff_of_true rfl ⟨normal, .inr ⟨g, .inr List.mem_cons_self⟩⟩

theorem judged_sample {s : State} (h : Safety.Judged s) (raw : RawCodes) : Safety.Judged (s.sampleStep raw) := by
  cases mode : s.mode with
  | normal =>
    obtain ⟨supported, pairs, latched, -⟩ := (judged_iff s).mp h
    obtain ⟨-, le, -, -⟩ := State.sampleStep_judged mode raw
    rw [State.delivered_le] at le
    have outputs := outputsFollow_latchAll supported.outputs mode le (s.sampleStep_verdicts raw) (s.sampleStep_mode raw)
    have standing (g : GroupId) : (s.sampleStep raw).standing g = s.standing g :=
      State.standing_congr (by rw [State.sampleStep_ss]) (s.sampleStep_records raw) g
    refine judged_of_normal h ⟨outputs, ?_, ?_, ?_, fun g => ?_⟩ (fun g trip => ?_) (s.sampleStep_gm raw) (by rw [State.sampleStep_ss])
      (by rw [State.sampleStep_mode, mode])
    · rw [State.sampleStep_records, State.sampleStep_ss]; exact supported.units
    · rw [State.sampleStep_records, State.sampleStep_ss]; exact supported.counts
    · rw [State.sampleStep_records]
      exact fun k ur mem w => supported.unwatched k ur mem fun is => w ((watched_congr (s.sampleStep_gm raw) ur.1).mpr is)
    · rw [State.sampleStep_verdicts, standing]; exact supported.follows g
    · rw [State.sampleStep_verdicts] at trip
      rw [le]
      exact (LimitEvaluator.latchAll_latches ..).mpr (.inl (latched g trip))
  | maintenance =>
    obtain ⟨supported, pairs, latched, quiet⟩ := (judged_iff s).mp h
    obtain ⟨ae, gm, cr, latches, -⟩ := (quiet_iff supported).mp (quiet mode)
    have held : s.sampleStep raw = (s.delivered raw).setFc Comparators.fresh := by
      rw [State.sampleStep_eq]
      simp [State.judgeComparators, mode]
    have le : (s.sampleStep raw).le = s.le := by rw [held, State.setFc_le, State.delivered_le]
    have supported' := supported.congr le (s.sampleStep_mode raw) (s.sampleStep_gm raw) (by rw [State.sampleStep_ss])
    refine (judged_iff _).mpr ⟨supported', pairsFollow_congr pairs (s.sampleStep_gm raw) (by rw [State.sampleStep_ss]), ?_, fun _ => ?_⟩
    · unfold TripLatched
      rw [le]
      exact latched
    · rw [quiet_iff supported', le, State.sampleStep_gm, State.sampleStep_ae]
      refine ⟨⟨ae.clock, fun g => ?_, fun p => ?_, ae.groupSlots, ae.pairSlots, ae.passes⟩, gm, ?_, latches, fun g c => ?_⟩
      · simp [AnalysisEngine.addSamples, ae.groupSets]
      · simp [AnalysisEngine.addSamples, ae.pairSets]
      · rw [held, State.setFc_cr, State.delivered_cr]
        exact ⟨by simpa using cr.freeze, by simpa using cr.trigger, by simpa using cr.ignored,
          by rw [CaptureRing.write_frame]; exact cr.release⟩
      · rw [State.sampleStep_fc, mode, if_neg nofun]

/-! ### The boundary -/

section
variable (s : State) (inputs : InputLevels)

theorem State.settled_le : (s.settled inputs).le = s.le := by
  obtain ⟨lc, e⟩ := s.settled_eq inputs
  simp [e]

theorem State.settled_gm : (s.settled inputs).gm = s.gm := by
  obtain ⟨lc, e⟩ := s.settled_eq inputs
  simp [e]

theorem State.settled_mode : (s.settled inputs).mode = s.mode := by
  obtain ⟨lc, e⟩ := s.settled_eq inputs
  simp [e]

theorem State.settled_ss : (s.settled inputs).ss = if s.appliesHere then s.ss.withAnalysis else s.ss := by
  obtain ⟨lc, e⟩ := s.settled_eq inputs
  simp [e]

theorem State.settled_limits : (s.settled inputs).ss.working.limits = s.ss.working.limits := by
  rw [State.settled_ss]
  split
  · exact SettingsStore.withAnalysis_limits _
  · rfl

theorem State.settled_edits : (s.settled inputs).ss.staged.limits = s.ss.staged.limits := by
  rw [State.settled_ss]
  split
  · exact SettingsStore.withAnalysis_edits _
  · rfl

theorem State.settled_editedVerdict (g : GroupId) : editedVerdict (s.settled inputs) g = editedVerdict s g := by
  have table : ((s.settled inputs).ss.working.applyLimits (s.settled inputs).ss.staged).limits =
      (s.ss.working.applyLimits s.ss.staged).limits := by
    simp only [Settings.applyLimits, State.settled_limits, State.settled_edits]
  unfold editedVerdict
  rw [table, State.settled_editedRecords]

/-- The verdicts that GM finds: those that the limit edits leave, where the boundary applies them (R103). -/
theorem State.applied_verdict (g : GroupId) :
    (s.applied inputs).le.verdicts.get g = if s.ae.stopped then editedVerdict s g else s.le.verdicts.get g := by
  unfold State.applied
  split
  · rw [State.applyLimitEdits_verdict, State.settled_editedVerdict]
  · rw [State.settled_le]

@[simp] theorem State.applied_latches : (s.applied inputs).le.latches = s.le.latches := by
  unfold State.applied
  split
  · rw [State.applyLimitEdits_latches, State.settled_le]
  · rw [State.settled_le]

end

theorem State.Supported.applied {s : State} (h : s.Supported) (inputs : InputLevels) : (s.applied inputs).Supported := by
  have settled := h.congr (s.settled_le inputs) (s.settled_mode inputs) (s.settled_gm inputs) (s.settled_limits inputs)
  unfold State.applied
  split
  · exact settled.applyLimitEdits none
  · exact settled

theorem tripLatched_applied {s : State} (latched : TripLatched s) (h : s.Supported) (inputs : InputLevels) :
    TripLatched (s.applied inputs) := by
  have settled := h.congr (s.settled_le inputs) (s.settled_mode inputs) (s.settled_gm inputs) (s.settled_limits inputs)
  have latched' : TripLatched (s.settled inputs) := by
    unfold TripLatched
    rw [State.settled_le]
    exact latched
  unfold State.applied
  split
  · exact tripLatched_applyLimitEdits latched' settled none
  · exact latched'

/-! ### GM's step -/

section
variable {s : State}

theorem outputsFollow_groupStep (h : OutputsFollow s) (cx : GroupContext) (g : GroupId) : OutputsFollow (s.groupStep cx g) := by
  have next : OutputsFollow (s.withNextGroup cx g) := outputsFollow_congr h (by simp [State.withNextGroup]) (by simp [State.withNextGroup])
  rw [State.groupStep_eq]
  split
  · exact next
  · dsimp only
    split
    · unfold State.groupOut
      exact outputsFollow_setVerdict (outputsFollow_clearUnit (outputsFollow_post next _) _) ..
    · exact outputsFollow_post next _

theorem outputsFollow_pairRecompute (h : OutputsFollow s) (before : Quad GroupMonitor) (g : GroupId) :
    OutputsFollow (s.pairRecompute before g) := by
  unfold State.pairRecompute
  split
  · exact h
  · exact outputsFollow_setVerdict h ..

theorem outputsFollow_pairBroken (h : OutputsFollow s) (before : Quad GroupMonitor) (p : PairId) :
    OutputsFollow (s.pairBroken before p) := by
  unfold State.pairBroken
  dsimp only
  split
  · exact outputsFollow_pairRecompute (outputsFollow_pairRecompute (outputsFollow_clearUnit h _) _ _) _ _
  · exact outputsFollow_clearUnit h _

theorem outputsFollow_pairStep (h : OutputsFollow s) (cx : GroupContext) (before : Quad GroupMonitor) (p : PairId) :
    OutputsFollow (s.pairStep cx before p) := by
  have announced (gm : Monitors) (ns : List Notice) : OutputsFollow ((s.setGm gm).post ns) := outputsFollow_congr h (by simp) (by simp)
  unfold State.pairStep
  dsimp only
  split
  · exact h
  · split
    · exact outputsFollow_pairBroken (announced _ _) before p
    · exact announced _ _

theorem outputsFollow_monitorStep (h : OutputsFollow s) (cx : GroupContext) : OutputsFollow (s.monitorStep cx) := by
  have groups : OutputsFollow (s.groupSteps cx) := foldl_holds (P := OutputsFollow) (fun _ g h => outputsFollow_groupStep h cx g) _ h
  exact foldl_holds (P := OutputsFollow) (fun _ p h => outputsFollow_pairStep h cx _ p) PairId.all groups

end

/-- A monitored group stays in MONITOR or leaves. -/
theorem State.nextGroup_of_monitor {s : State} {g : GroupId} (cx : GroupContext) (monitor : (s.gm.groups.get g).state = .monitor) :
    (s.nextGroup cx g).state = .monitor ∨ s.groupLeft cx g = true := by
  cases leaves : (s.gm.groups.get g).leaves (cx.inputs.get g) with
  | false =>
    refine .inl ?_
    unfold State.nextGroup
    rw [GroupMonitor.boundary_of_monitor monitor leaves, GroupMonitor.debounced_state, monitor]
  | true =>
    refine .inr ?_
    simp [State.groupLeft, State.nextGroup, GroupMonitor.boundary, leaves, monitor]

/-- A pair breaks exactly if it was INTACT and GM leaves it BROKEN. -/
theorem State.groupSteps_pairBreaks (s : State) (cx : GroupContext) (p : PairId) :
    (s.groupSteps cx).pairBreaks p = true ↔ s.gm.pairs.get p = .intact ∧ (s.monitorStep cx).gm.pairs.get p = .broken := by
  have now : (s.monitorStep cx).gm.pairs.get p = (s.groupSteps cx).pairNow p := by
    rw [State.monitorStep_pairs, State.monitorStep_parts]
    simp [PairId.all]
  unfold State.pairBreaks
  rw [now, State.groupSteps_pairs]
  simp

theorem PairState.ne_intact {p : PairState} : p ≠ .intact ↔ p = .broken := by cases p <;> simp

/-- A record behind GM's step that is not CLEAR was there, and its unit neither left nor broke. -/
theorem MonitorsStepped.record {cx : GroupContext} {s t : State} (h : MonitorsStepped cx s t) {k : Fin 48} {ur : UnitId × CondRecord} :
    ur ∈ t.le.records[k] → ur.2 = CondRecord.clear ∨ (s.unitCleared cx ur.1 = false ∧ ur ∈ s.le.records[k]) := by
  intro mem
  rw [h.records] at mem
  obtain ⟨-, clear, -⟩ | kept := mem_clearWhere.mp mem
  · exact .inl clear
  · exact .inr kept

theorem State.Supported.monitorStep {s : State} (h : s.Supported) (cx : GroupContext) : (s.monitorStep cx).Supported := by
  have stepped := s.monitorStep_stepped cx
  have ss : (s.monitorStep cx).ss = s.ss := (s.monitorStep_only cx).ss
  have unwatched : ∀ (k : Fin 48), ∀ ur ∈ (s.monitorStep cx).le.records[k], ¬ Watched (s.monitorStep cx) ur.1 → ur.2 = CondRecord.clear := by
    intro k ur mem unwatched
    obtain clear | ⟨kept, mem⟩ := stepped.record mem
    · exact clear
    · refine h.unwatched k ur mem fun watched => unwatched ?_
      obtain ⟨u, r⟩ := ur
      cases u with
      | group g =>
        obtain monitor | left := State.nextGroup_of_monitor cx watched
        · exact (congrArg GroupMonitor.state (s.monitorStep_groups cx g)).trans monitor
        · exact absurd (left.symm.trans kept) nofun
      | pair p =>
        by_contra broken
        have breaks := (s.groupSteps_pairBreaks cx p).mpr ⟨watched, PairState.ne_intact.mp broken⟩
        exact absurd (breaks.symm.trans kept) nofun
  refine ⟨outputsFollow_monitorStep h.outputs cx, fun k => ?_, fun k e entry ur mem => ?_, unwatched, fun g => ?_⟩
  · rw [stepped.records, ss, clearWhere_entry, ← h.units k, List.map_map]
    refine List.map_congr_left fun ur _ => ?_
    simp only [Function.comp_apply]
    split <;> rfl
  · rw [ss] at entry
    obtain clear | ⟨-, mem⟩ := stepped.record mem
    · rw [clear]; rfl
    · exact h.counts k e entry ur mem
  · cases left : s.groupLeft cx g with
    | true =>
      have out : ((s.monitorStep cx).gm.groups.get g).state = .out := by
        rw [State.monitorStep_groups]
        simp only [State.groupLeft, Bool.and_eq_true, decide_eq_true_eq] at left
        exact left.2
      have none : (s.monitorStep cx).standing g = [] := by
        refine List.eq_nil_iff_forall_not_mem.mpr fun x mem => ?_
        obtain ⟨k, e, u, r, -, mem, applies, stands, -⟩ := mem_standingFor.mp mem
        have watched : Watched (s.monitorStep cx) u := by
          by_contra other
          have : r = CondRecord.clear := unwatched k (u, r) mem other
          rw [this] at stands
          simp [Stands, CondRecord.clear] at stands
        cases u with
        | group h =>
          rw [AppliesTo] at applies
          subst applies
          rw [Watched, out] at watched
          cases watched
        | pair p =>
          rw [AppliesTo] at applies
          have both := (s.monitorStep cx).pairNow_intact p |>.mp ((s.monitorStep_pairs cx p).symm.trans watched)
          obtain here | here := (pair_eq_iff p g).mp applies.symm
          · rw [here, both.2.1] at out; cases out
          · rw [here, both.2.2] at out; cases out
      rw [stepped.left g left, none]
      rfl
    | false =>
      by_cases broke : (s.groupSteps cx).pairBreaks g.pair = true ∧ s.le.stands (.pair g.pair) = true
      · exact stepped.broken g left broke.1 broke.2
      · rw [stepped.kept g left broke, h.follows g]
        unfold State.standing
        rw [ss, stepped.records, standingFor_clearWhere]
        intro k ur mem applies cleared stands
        obtain ⟨u, r⟩ := ur
        cases u with
        | group h =>
          rw [AppliesTo] at applies
          subst applies
          exact absurd (left.symm.trans cleared) nofun
        | pair p =>
          rw [AppliesTo] at applies
          subst applies
          exact broke ⟨cleared, (s.le.stands_iff _).mpr ⟨k, r, mem, stands⟩⟩

theorem tripLatched_monitorStep {s : State} (latched : TripLatched s) (h : s.Supported) (cx : GroupContext) :
    TripLatched (s.monitorStep cx) := by
  have only := s.monitorStep_only cx
  have latches : (s.monitorStep cx).le.latches = s.le.latches := by
    obtain ⟨_, _, _, _, _, -, e⟩ := only
    simp [e]
  refine tripLatched_of_fewer latched h.follows (h.monitorStep cx).follows (fun g => ?_) latches
  rintro ⟨k, e, u, r, entry, mem, applies, stands, trip⟩
  rw [only.ss] at entry
  obtain clear | ⟨-, mem⟩ := (s.monitorStep_stepped cx).record mem
  · have : r = CondRecord.clear := clear
    rw [this] at stands
    simp [CondRecord.clear] at stands
  · exact ⟨k, e, u, r, entry, mem, applies, stands, trip⟩

/-! ### The boundary as a whole -/

theorem GroupMonitor.boundary_of_maintenance {m : GroupMonitor} (out : m.state = .out) (settle : Nat) (opens closed : Bool) :
    (m.boundary .maintenance settle opens closed).state = .out := by
  simp [GroupMonitor.boundary, GroupMonitor.leaves, out]

theorem judged_boundary {s : State} (h : Safety.Judged s) (inputs : InputLevels) : Safety.Judged (s.boundaryStep inputs) := by
  obtain ⟨supported, -, latched, quiet⟩ := (judged_iff s).mp h
  have found := supported.applied inputs
  have monitored : (s.monitored inputs).Supported := found.monitorStep (s.context inputs)
  have supported' : (s.boundaryStep inputs).Supported := monitored.congr (by simp) (by simp) (by simp) (by simp)
  refine (judged_iff _).mpr ⟨supported', fun p => ?_, ?_, fun maintenance => ?_⟩
  · simpa using s.monitored_pairs inputs p
  · unfold TripLatched
    rw [State.boundaryStep_le]
    exact tripLatched_monitorStep (tripLatched_applied latched supported inputs) found (s.context inputs)
  · rw [State.boundaryStep_mode] at maintenance
    obtain ⟨ae, gm, cr, latches, comparators⟩ := (quiet_iff supported).mp (quiet maintenance)
    have stays : s.opensWindow = false := by
      simp [State.opensWindow, State.endsWindow, AnalysisEngine.completes, ae.clock, maintenance]
    have engine : (s.boundaryStep inputs).ae = s.ae := by
      rw [State.boundaryStep_ae, State.openedAe, stays]
      simp [State.closedAe, AnalysisEngine.afterCycle, ae.clock]
    have groups (g : GroupId) : ((s.monitored inputs).gm.groups.get g).state = .out := by
      rw [State.monitored_groups, maintenance]
      exact GroupMonitor.boundary_of_maintenance (gm.groups g) ..
    rw [quiet_iff supported', engine, State.boundaryStep_gm, State.boundaryStep_cr, State.boundaryStep_le, State.boundaryStep_fc,
      State.monitored_latches]
    refine ⟨ae, ⟨groups, fun p => ?_⟩, ?_, latches, comparators⟩
    · refine PairState.ne_intact.mp fun intact => ?_
      have := ((s.monitored_pairs inputs p).mp intact).2.1
      rw [groups] at this
      cases this
    · have running : (s.cr.boundary (s.ct.cycle + 1)).1 = s.cr.advance (s.ct.cycle + 1) := by
        simp [CaptureRing.boundary, cr.freeze]
      rw [running]
      exact ⟨cr.freeze, cr.trigger, cr.ignored, cr.release⟩

/-! ### Requests -/

theorem judged_clearTrip {s : State} (h : Safety.Judged s) {g : GroupId} (normal : s.mode = .normal) (fallen : s.tripStands g = false) :
    Safety.Judged (s.setLe (s.le.setLatch s.mode g false)) := by
  obtain ⟨supported, -, latched, -⟩ := (judged_iff s).mp h
  have supported' : (s.setLe (s.le.setLatch s.mode g false)).Supported := by
    refine ⟨outputsFollow_setLatch supported.outputs g false, supported.units, supported.counts, supported.unwatched, supported.follows⟩
  refine judged_of_normal h supported' (fun k trip => ?_) (by simp) (by simp) (by simpa using normal)
  simp only [State.setLe_le, LimitEvaluator.setLatch_verdicts] at trip
  simp only [State.setLe_le, LimitEvaluator.setLatch_latches, Quad.get_set]
  split
  · rename_i same
    subst same
    obtain ⟨x, mem, is⟩ := (s.standsFor_iff k .trip).mp ((State.trip_iff (supported.follows k)).mp trip)
    have : s.tripStands k = true := List.any_eq_true.mpr ⟨x, mem, decide_eq_true is⟩
    simp [this] at fallen
  · exact latched k trip

theorem judged_leaveMaintenance {s : State} (h : Safety.Judged s) : Safety.Judged (s.setMode .normal) := by
  cases mode : s.mode with
  | normal => exact judged_congr h (by simp) (by simp) (by simp) (by simp) (by simp) (by simpa using mode.symm) (by simp) (by simp)
  | maintenance =>
    obtain ⟨supported, -, latched, quiet⟩ := (judged_iff s).mp h
    have still := quiet mode
    have dark : s.le.alert = false := by
      refine Bool.eq_false_iff.mpr fun on => ?_
      have := (supported.outputs.alert.mp on).1
      rw [mode] at this
      cases this
    have outputs : OutputsFollow (s.setMode .normal) := by
      refine ⟨by simpa using supported.outputs.tripLine, ?_⟩
      simp [dark, still.verdicts, still.latches]
    exact judged_of_normal h ⟨outputs, supported.units, supported.counts, supported.unwatched, supported.follows⟩ latched (by simp)
      (by simp) (by simp)

theorem judged_request {s : State} {c : Instr} {t : State} (h : Safety.Judged s) (effect : Effect s c t) : Safety.Judged t := by
  cases effect with
  | forceFreeze normal =>
    have only := s.offerTrigger_only
      { cause := .force, group := none, comparator := none, window := none, cycle := s.ct.cycle }
    obtain ⟨supported, -, latched, -⟩ := (judged_iff s).mp h
    refine judged_of_normal h (supported.congr only.le only.mode only.gm (by rw [only.ss])) ?_ only.gm (by rw [only.ss])
      (by rw [only.mode, normal])
    unfold TripLatched
    rw [only.le]
    exact latched
  | releaseFreeze normal stopped =>
    obtain ⟨supported, -, latched, -⟩ := (judged_iff s).mp h
    exact judged_of_normal h (supported.congr (by simp) (by simp) (by simp) (by simp)) (by simpa [TripLatched] using latched) (by simp)
      (by simp) (by simpa using normal)
  | setCounter w name =>
    cases name <;> unfold State.setCounter <;>
      exact judged_congr h (by simp) (by simp) (by simp) (by simp) (by simp) (by simp) (by simp) (by simp)
  | clearTrip g normal fallen => exact judged_clearTrip h normal fallen
  | leaveMaintenance => exact judged_leaveMaintenance h
  | setComparator read =>
    rename_i p q
    obtain ⟨supported, pairs, latched, quiet⟩ := (judged_iff s).mp h
    generalize written : (s.setSs _).setFc _ = t
    have supported' : t.Supported := by
      rw [← written]
      exact supported.congr (by simp) (by simp) (by simp) (by simp)
    refine (judged_iff _).mpr ⟨supported', pairsFollow_congr pairs (by rw [← written]; simp) (by rw [← written]; simp), ?_,
      fun maintenance => ?_⟩
    · rw [← written]
      simpa [TripLatched] using latched
    · obtain ⟨ae, gm, cr, latches, comparators⟩ := (quiet_iff supported).mp (quiet (by simpa [← written] using maintenance))
      rw [quiet_iff supported', ← written]
      refine ⟨by simpa using ae, by simpa using gm, by simpa using cr, by simpa using latches, fun g c => ?_⟩
      rw [State.setFc_fc, Comparators.get_set]
      split
      · rfl
      · exact comparators g c
  | setLimit =>
    unfold State.stageLimit
    exact judged_congr h (by simp) (by simp) (by simp) (by simp) (by simp) (by simp) (by simp) (by simp)
  | deleteLimit =>
    unfold State.stageLimit
    exact judged_congr h (by simp) (by simp) (by simp) (by simp) (by simp) (by simp) (by simp) (by simp)
  | setChannel =>
    exact judged_congr h (by simp) (by simp) (by simp) (by simp) (by simp) (by simp) (by simp) (by simp)
  | _ => exact judged_congr h (by simp) (by simp) (by simp) (by simp) (by simp) (by simp) (by simp) (by simp)

/-! ### The obligation -/

/-- With empty slots there is no job to start, and none to complete. -/
theorem AnalysisEngine.Still.nextJob {a : AnalysisEngine} (still : a.Still) : a.nextJob = none := by
  have waits (u : UnitId) : a.waitingOrder u = none := by
    cases u with
    | group g => simp [AnalysisEngine.waitingOrder, still.groupSlots]
    | pair p => simp [AnalysisEngine.waitingOrder, still.pairSlots]
  have nothing : (jobOrder.filterMap fun u => (a.waitingOrder u).map fun n => (u, n)) = [] := by simp [waits]
  unfold AnalysisEngine.nextJob
  rw [nothing]
  rfl

theorem AnalysisEngine.Still.running {a : AnalysisEngine} (still : a.Still) : a.running = .none := by
  have g0 : a.groupSlots.g0 = .empty := still.groupSlots .g0
  have g1 : a.groupSlots.g1 = .empty := still.groupSlots .g1
  have g2 : a.groupSlots.g2 = .empty := still.groupSlots .g2
  have g3 : a.groupSlots.g3 = .empty := still.groupSlots .g3
  have p0 : a.pairSlots.fst = .empty := still.pairSlots .p0
  have p1 : a.pairSlots.snd = .empty := still.pairSlots .p1
  simp [AnalysisEngine.running, g0, g1, g2, g3, p0, p1]

theorem AnalysisEngine.Still.nextPass {a : AnalysisEngine} (still : a.Still) : a.nextPass = none := by
  simp [AnalysisEngine.nextPass, still.passes]

/-- Where only AE, ST and LC change, and AE not in MAINTENANCE. -/
theorem judged_of_engine {s t : State} (h : Safety.Judged s) (le : t.le = s.le) (gm : t.gm = s.gm) (fc : t.fc = s.fc) (cr : t.cr = s.cr)
    (mode : t.mode = s.mode) (ss : t.ss = s.ss) (idle : s.ae.Still → t.ae = s.ae) : Safety.Judged t := by
  obtain ⟨supported, pairs, latched, quiet⟩ := (judged_iff s).mp h
  have supported' := supported.congr le mode gm (by rw [ss])
  refine (judged_iff t).mpr ⟨supported', pairsFollow_congr pairs gm (by rw [ss]), ?_, fun maintenance => ?_⟩
  · unfold TripLatched
    rw [le]
    exact latched
  · have still := (quiet_iff supported).mp (quiet (mode ▸ maintenance))
    rw [quiet_iff supported', le, gm, fc, cr, idle still.1]
    exact still

/-- Every move keeps verdicts supported, lines and latches true, and MAINTENANCE quiet. -/
theorem judged_moves {c : Instr} {s t : State} (move : Moves c s t) (h : Safety.Judged s) : Safety.Judged t := by
  obtain ⟨supported, pairs, latched, quiet⟩ := (judged_iff s).mp h
  refine move.minor_or ?_ ?_ ?_ ?_ ?_ ?_ ?_ ?_ ?_ ?_
  · rintro ⟨ct, lc, image, flight, freeNext, same, rfl⟩
    exact judged_congr h (by simp) (by simp) (by simp) (by simp) (by simp) (by simp) (by simp) (by simp)
  · rintro image rfl
    have le : (s.heldInReset image).le = LimitEvaluator.fresh Settings.factory := by simp only [State.heldInReset, State.released]
    have ss : (s.heldInReset image).ss.working = Settings.factory := rfl
    refine judged_of_fresh (outputsFollow_fresh le) ?_ ?_ rfl rfl rfl rfl fun mode => by cases mode
    · rw [le, ss]; rfl
    · rw [le]; rfl
  · rintro strap reference - rfl
    have le := s.release_le strap reference
    refine judged_of_fresh (outputsFollow_fresh le) ?_ ?_ (s.release_ae ..) (s.release_gm ..) (s.release_cr ..) (s.release_fc ..)
      fun _ g => ?_
    · rw [le, State.release_ss]; rfl
    · rw [le]; rfl
    · rw [le]; exact Quad.get_fill ..
  · rintro raw - rfl
    exact judged_sample h raw
  · rintro inputs - rfl
    exact judged_boundary h inputs
  · rintro - rfl
    unfold State.startNext
    split
    · rename_i u next
      exact judged_of_engine h rfl rfl rfl rfl rfl rfl fun still => by rw [still.nextJob] at next; cases next
    · exact h
  · rintro rfl
    obtain e | ⟨g, j, running, lc, e⟩ | ⟨p, j, running, e⟩ := s.completeJob_cases <;> rw [e]
    · exact h
    · exact judged_of_engine h (by simp) (by simp) (by simp) (by simp) (by simp) (by simp) fun still => by
        rw [still.running] at running; cases running
    · exact judged_of_engine h (by simp) (by simp) (by simp) (by simp) (by simp) (by simp) fun still => by
        rw [still.running] at running; cases running
  · rintro rfl
    cases ready : s.ae.nextPass with
    | none => rwa [State.passStep_of_none ready]
    | some p =>
      have normal : s.mode = .normal := by
        cases mode : s.mode with
        | normal => rfl
        | maintenance =>
          have still := ((quiet_iff supported).mp (quiet mode)).1
          rw [still.nextPass] at ready
          cases ready
      rw [State.passStep_of_ready ready]
      have only := (s.setAe s.ae.withoutPass).evaluate_only p
      have front : (s.setAe s.ae.withoutPass).Supported := supported.congr (by simp) (by simp) (by simp) (by simp)
      have latched' : TripLatched (s.setAe s.ae.withoutPass) := by simpa [TripLatched] using latched
      refine judged_of_normal h (front.evaluate p) (tripLatched_evaluate latched' front p) only.gm ?_ ?_
      · rw [only.ss]; simp
      · rw [only.mode]; simpa using normal
  · rintro u stage readied effect rfl
    exact judged_congr (judged_request h effect) (by simp) (by simp) (by simp) (by simp) (by simp) (by simp) (by simp) (by simp)
  · rintro rfl
    have le : s.restartStep.le = s.le.restarted s.restartStep.ss.working s.restartStep.mode := rfl
    refine judged_of_fresh (outputsFollow_refresh ?_ le) ?_ ?_ rfl rfl rfl rfl fun mode g => ?_
    · exact supported.outputs.tripLine
    · exact (congrArg LimitEvaluator.records le).trans (s.le.restarted_records ..)
    · exact (congrArg LimitEvaluator.verdicts le).trans (s.le.restarted_verdicts ..)
    · have latches : s.restartStep.le.latches = s.le.latches := (congrArg LimitEvaluator.latches le).trans (s.le.restarted_latches ..)
      rw [latches]
      exact (quiet mode).latches g

/-- Settles O57, by what every move does to records, verdicts, latches and lines. -/
theorem verdictsStaySupported : Obligations.VerdictsStaySupported := by
  unfold Obligations.VerdictsStaySupported
  intro s t before h
  exact step_keeps (allowed := fun _ => True) (fun s rest h => judged_congr h rfl rfl rfl rfl rfl rfl rfl rfl) (fun _ => judged_moves)
    (fun _ _ => trivial) before h

end Sys2Proof.Machine
end

