-- ==== Sys2Proof/Proofs/ResetAndRelease.lean ====
section
/-! PROOFS. The command queue, RESET and RESET_RELEASE, commands that are not due, and the invariants at the reset state. -/

namespace Sys2Proof.Machine

open Sys2Proof.Safety

/-! ### The queue -/

/-- Settles O1, by the definition of a step. -/
theorem stepRunsTheFrontCommand : Obligations.StepRunsTheFrontCommand := by
  unfold Obligations.StepRunsTheFrontCommand
  refine ⟨fun c rest s => rfl, fun s empty => ?_⟩
  unfold step
  rw [empty]

/-! ### RESET -/

theorem State.imageAfterReset_eq (s : State) (written : Option StoredImage) :
    s.imageAfterReset written = (match s.ss.flight with
      | some (.store _) => written.getD .torn
      | some .check => s.ss.image
      | none => s.ss.image) := by
  unfold State.imageAfterReset
  cases s.ss.flight with
  | none => rfl
  | some flight => cases flight <;> rfl

theorem State.freeAfterWrite_eq (s : State) :
    s.freeAfterWrite = (match s.ss.flight with
      | some (.store _) => s.freeNext + 1
      | some .check => s.freeNext
      | none => s.freeNext) := by
  unfold State.freeAfterWrite State.storing
  cases s.ss.flight with
  | none => rfl
  | some flight => cases flight <;> rfl

/-- Settles O2, by the fields of a part held in reset. -/
theorem resetLeavesOnlyTheImage : Obligations.ResetLeavesOnlyTheImage := by
  unfold Obligations.ResetLeavesOnlyTheImage
  intro written s
  refine ⟨s.heldInReset written, rfl, rfl, rfl, s.imageAfterReset_eq written, rfl, rfl, fun g => ?_, rfl, rfl, rfl, rfl, rfl, rfl, rfl,
    rfl, rfl, rfl, rfl, rfl, rfl, rfl, rfl, rfl, s.freeAfterWrite_eq⟩
  simp [State.heldInReset, State.released, LimitEvaluator.fresh]

/-! ### RESET_RELEASE -/

theorem StoredImage.load_of_loadable {copy : Settings} (range : copy.inRange = true) :
    (StoredImage.whole copy (imageCrc copy)).load = some copy.asLoaded := by
  simp [StoredImage.load, range]

theorem StoredImage.load_of_unloadable {image : StoredImage}
    (unloadable : ∀ copy, image = .whole copy (imageCrc copy) → copy.inRange = false) : image.load = none := by
  cases image with
  | torn => rfl
  | foreign computed stored => rfl
  | whole copy stored =>
    refine if_neg fun loadable => ?_
    obtain ⟨crc, range⟩ := loadable
    rw [unloadable copy (by rw [crc])] at range
    cases range

/-- LC once start-up has set SETTINGS_DEFAULTED (R171, R183). -/
theorem settingsDefaulted_link :
    LinkController.fresh.post 0 [.flag .settingsDefaulted] = { LinkController.fresh with
      flags := 0x400#12
      queue := [{ cycle := 0, body := .flagEvent .settingsDefaulted 0x400#12 }] } := rfl

section
variable (s : State) (strap : Bool) (reference : Polarity)

theorem State.post_eq_setLc {s : State} {ns : List Notice} {l : LinkController} (lc : s.lc.post s.ct.cycle ns = l) :
    s.post ns = s.setLc l :=
  congrArg s.setLc lc

theorem State.release_lc :
    (s.release strap reference).lc =
      if (startUp strap s.ss.image).2.2 then LinkController.fresh.post 0 [.flag .settingsDefaulted] else LinkController.fresh := by
  unfold State.release
  dsimp only
  split
  · rw [State.post_lc]
    rfl
  · rfl

end

/-- Settles O3, by what start-up loads. -/
theorem releaseLoadsTheSettings : Obligations.ReleaseLoadsTheSettings := by
  unfold Obligations.ReleaseLoadsTheSettings
  intro strap reference s held
  have ss := s.release_ss strap reference
  have working : (s.release strap reference).ss.working = (startUp strap s.ss.image).1 := by rw [ss]; rfl
  have mode := s.release_mode strap reference
  have lc := s.release_lc strap reference
  refine ⟨s.release strap reference, ?_, s.release_inReset .., s.release_pending .., by rw [ss]; rfl, by rw [ss]; rfl, by rw [ss]; rfl,
    by rw [working]; exact s.release_fe .., by rw [working]; exact s.release_ct .., s.release_ae .., s.release_gm ..,
    by rw [working]; exact s.release_le .., s.release_fc .., s.release_cr .., s.release_st .., ?_, ?_, ?_, ?_⟩
  · calc
      exec (.resetRelease strap reference) s = .next (if s.inReset then s.release strap reference else s) := rfl
      _ = .next (s.release strap reference) := by rw [if_pos held]
  · rintro rfl
    exact ⟨mode, working, lc⟩
  · rintro copy rfl image range
    have start : startUp false s.ss.image = (copy.asLoaded, .normal, false) := by
      simp [startUp, image, StoredImage.load_of_loadable range]
    rw [start] at mode working lc
    exact ⟨mode, working, lc⟩
  · rintro rfl unloadable
    have start : startUp false s.ss.image = (Settings.factory, .normal, true) := by
      simp [startUp, StoredImage.load_of_unloadable unloadable]
    rw [start] at mode working lc
    exact ⟨mode, working, lc.trans settingsDefaulted_link⟩
  · rintro rfl rfl torn
    have start : startUp false StoredImage.torn = (Settings.factory, .normal, true) := rfl
    unfold State.release
    rw [torn, start]
    simp only [if_true]
    exact (State.post_eq_setLc settingsDefaulted_link).trans rfl

/-! ### Commands that are not due -/

theorem handle_of_reset {s : State} (held : s.inReset = true) (kind : Byte) (rule : List Byte → State → Answer) :
    handle kind rule s = .next s := by
  unfold handle
  cases s.nextRequest with
  | none => rfl
  | some request => exact whenDue_of_reset _ held

theorem nonRequestKind_of_reset {s : State} (held : s.inReset = true) : execNonRequestKind s = .next s := by
  unfold execNonRequestKind
  cases s.nextRequest with
  | none => rfl
  | some request => exact whenDue_of_reset _ held

theorem holdoverEntry_of_reset {s : State} (held : s.inReset = true) (kind : MissKind) : execHoldoverEntry kind s = .next s := by
  cases kind <;> exact whenDue_of_reset _ held

/-- A part held in reset takes no command but RESET and RESET_RELEASE. -/
theorem exec_of_reset {c : Instr} {s : State} (held : s.inReset = true) (reset : ∀ w, c ≠ .reset w)
    (release : ∀ x p, c ≠ .resetRelease x p) : exec c s = .next s := by
  cases c with
  | reset w => exact absurd rfl (reset w)
  | resetRelease x p => exact absurd rfl (release x p)
  | holdoverEntry kind => exact holdoverEntry_of_reset held kind
  | nonRequestKind => exact nonRequestKind_of_reset held
  | linkCharacter elapsed b stop => exact whenRunning_of_reset held
  | referencePolarityChange | polarityConfirmed | lockAchieved | missTimer | relock | holdoverLimit | sampleEvent | holdEnd
  | filteredOutputChange | cycleBoundary | inputClosed | inputOpen | settleCountExpiry | ringFrozen | reportHoldEnd | windowBoundary
  | jobStart | jobCompletion | evaluationPass | gapTimeout | frameAccepted | transmitStart | frameSent | storeCompletion
  | checkCompletion | restartExecution => exact whenDue_of_reset _ held
  | _ => exact handle_of_reset held _ _

/-- A command whose occurrence has not arisen changes nothing. -/
theorem whenDue_of_not_due {s t : State} {due : Bool} (absent : due = false) : whenDue s due t = .next s := by
  rw [absent]
  exact whenDue_false s t

/-- Settles O4: each occurrence is absent where its condition is. -/
theorem commandsThatAreNotDue : Obligations.CommandsThatAreNotDue := by
  unfold Obligations.CommandsThatAreNotDue
  refine ⟨fun c s => exec_of_reset, fun s running => ⟨fun x p => ?_, fun n => ?_, fun none => ?_, fun none => ?_, fun raw issued => ?_,
    fun inputs issued => ?_, fun hunt => ?_, fun none => ?_, fun none => ⟨fun image => ?_, ?_⟩, fun none => ?_⟩⟩
  · calc
      exec (.resetRelease x p) s = .next (if s.inReset then s.release x p else s) := rfl
      _ = .next s := by rw [running]; rfl
  · exact whenDue_of_not_due (by simp)
  · exact whenDue_of_not_due (by rw [none]; rfl)
  · exact whenDue_of_not_due (by simp [CycleTracker.missDue, none])
  · exact whenDue_of_not_due (by simp [State.sampleDue, issued, Config.samplesPerCycle])
  · exact whenDue_of_not_due (by simp [State.boundaryDue, Config.samplesPerCycle, issued.ne])
  · exact whenDue_of_not_due (by simp [LinkController.collecting, hunt])
  · exact whenDue_of_not_due (by rw [none]; rfl)
  · exact whenDue_of_not_due (by simp [State.storing, none])
  · exact whenDue_of_not_due (by simp [State.checking, none])
  · exact whenDue_of_not_due none

/-! ### The invariants at the reset state -/

theorem trackerInBounds_reset : TrackerInBounds State.reset := by
  constructor <;> simp [State.reset, State.released, CycleTracker.fresh, Settings.factory, AnalysisSettings.factory, Nominal.period]

theorem linkInBounds_reset : LinkInBounds State.reset := by
  refine (linkInBounds_iff _).mpr ((show LinkController.fresh.InBounds from .fresh).keeps ?_)
  exact (LinkController.post_enqueues 0 LinkController.fresh [.flag .settingsDefaulted]).keeps

theorem judged_reset : Safety.Judged State.reset :=
  judged_of_fresh (outputsFollow_fresh (x := Settings.factory) rfl) rfl rfl rfl rfl rfl rfl fun mode => by cases mode

/-- Settles O52, from the fresh states of the blocks. -/
theorem resetSatisfiesTheInvariants : Obligations.ResetSatisfiesTheInvariants := by
  unfold Obligations.ResetSatisfiesTheInvariants
  refine ⟨trackerInBounds_reset, ringFollows_fresh rfl rfl rfl ?_, linkInBounds_reset, engineConsistent_fresh rfl rfl, judged_reset,
    settingsInRange_fresh (SettingsStore.fresh_inRange .torn Settings.factory_inRange) rfl rfl, (fsAgrees_iff _).mpr ?_, fun g => ?_⟩
  · decide
  · exact .of_unstaged Settings.factory_tied (fun c => PerChannel.get_fill _ c) rfl
  · exact Statistics.fresh_agrees g

/-! ### The table of marks (R12) -/

section
variable (x : ChannelSettings) (r : RangeState) (raw : RawCode)

theorem downSwitches_iff (c : Conversion) :
    downSwitches x r c = true ↔ r.hold = 0 ∧ x.rangeMode = .auto ∧ r.range = .high ∧ c.clipped = true := by
  simp [downSwitches, and_assoc]

/-- Settles O10, row by row. -/
theorem sampleTable : Obligations.SampleTable := by
  unfold Obligations.SampleTable
  intro x r raw c down y after
  have switches (free : r.hold = 0) : downSwitches x r c = true ↔ down := by simp [downSwitches_iff, free, down]
  obtain holding | free : 0 < r.hold ∨ r.hold = 0 := by omega
  · have sample : y = { value := r.last, held := true, clipped := c.clipped, judged := false } := if_pos holding
    have state : after = { r with hold := r.hold - 1, steady := r.steady && keepsSteady x r y c, last := y.value } := if_pos holding
    refine ⟨by rw [state], fun _ => ?_, fun free => by omega, fun free => by omega⟩
    rw [state, sample]
    simp
  · have notHolding : ¬ 0 < r.hold := by omega
    by_cases isDown : down
    · have sample : y = { value := c.code, held := true, clipped := false, judged := true } :=
        (if_neg notHolding).trans (if_pos ((switches free).mpr isDown))
      have state : after = { range := .low, hold := x.hold, steady := r.steady && keepsSteady x r y c, last := y.value } :=
        (if_neg notHolding).trans (if_pos ((switches free).mpr isDown))
      refine ⟨by rw [state], fun holding => by omega, fun _ _ => ?_, fun _ other => absurd isDown other⟩
      rw [state, sample]
      simp
    · have sample : y = { value := c.code, held := false, clipped := c.clipped, judged := true } :=
        (if_neg notHolding).trans (if_neg fun is => isDown ((switches free).mp is))
      have state : after = { r with steady := r.steady && keepsSteady x r y c, last := y.value } :=
        (if_neg notHolding).trans (if_neg fun is => isDown ((switches free).mp is))
      refine ⟨by rw [state], fun holding => by omega, fun _ is => absurd is isDown, fun _ _ => ?_⟩
      rw [state, sample]
      simp [free]

end

end Sys2Proof.Machine
end

