-- ==== Sys2Proof/Proofs/RequestTests.lean ====
section
/-! PROOFS. The first three tests of a request, and the state that a handled request leaves for each answer of its rule. -/

namespace Sys2Proof.Machine

open Sys2Proof.Safety

/-! ### A handled request by its rule's answer -/

section
variable {s t : State} {before after : List Entry} {q : Frame} {kind : Byte} {rule : List Byte → State → Answer} {fields : List Byte}
  {r : Reason}

theorem handle_refused (takes : HandlerTakes s before after q) (isKind : q.kind = kind) (length : lengthFits kind q.payload = true)
    (mode : s.mode = .normal ∨ refusedInMaintenance kind.toNat = false) (answers : rule q.payload s = .refused r) :
    handle kind rule s = .next { s with lc := answered s.lc before after q (refusal q (BitVec.ofNat 8 r.code)) } := by
  rw [handle_rule takes isKind length mode, answers, answer_refused takes]

theorem handle_replied (takes : HandlerTakes s before after q) (isKind : q.kind = kind) (length : lengthFits kind q.payload = true)
    (mode : s.mode = .normal ∨ refusedInMaintenance kind.toNat = false) (answers : rule q.payload s = .replied t 0 fields)
    (entries : t.lc.entries = s.lc.entries) :
    handle kind rule s = .next { t with lc := answered t.lc before after q (okReply q fields) } := by
  rw [handle_rule takes isKind length mode, answers, answer_replied takes entries]

theorem handle_deferred (takes : HandlerTakes s before after q) (isKind : q.kind = kind) (length : lengthFits kind q.payload = true)
    (mode : s.mode = .normal ∨ refusedInMaintenance kind.toNat = false) (answers : rule q.payload s = .deferred t)
    (entries : t.lc.entries = s.lc.entries) :
    handle kind rule s = .next { t with lc := putOff t.lc before after q } := by
  rw [handle_rule takes isKind length mode, answers, answer_deferred takes entries]

end

/-! ### Tests 1 to 3 (R161) -/

/-- The command of a row handles the row's kind by a rule of its own, with the row's length and mode. -/
theorem requestTable_handles {row : RequestRow} (mem : row ∈ requestTable) :
    ∃ rule, (∀ s, exec row.command s = handle (BitVec.ofNat 8 row.kind) rule s) ∧ row.kind < 256 ∧
      kindLength row.kind = row.length ∧ refusedInMaintenance row.kind = row.refusedInMaintenance := by
  fin_cases mem <;> exact ⟨_, fun _ => rfl, by decide, rfl, rfl⟩

section
variable {s : State} {before after : List Entry} {q : Frame} {kind : Byte} (rule : List Byte → State → Answer)

theorem handle_of_misfit (takes : HandlerTakes s before after q) (isKind : q.kind = kind) (length : lengthFits kind q.payload = false) :
    handle kind rule s = .next { s with lc := answered s.lc before after q (refusal q 2) } := by
  have tested : s.tested q rule = .refused .badLength := by simp [State.tested, isKind, length]
  rw [handle_of_kind takes isKind, tested, answer_refused takes]
  rfl

theorem handle_in_maintenance (takes : HandlerTakes s before after q) (isKind : q.kind = kind) (length : lengthFits kind q.payload = true)
    (mode : s.mode = .maintenance) (refused : refusedInMaintenance kind.toNat = true) :
    handle kind rule s = .next { s with lc := answered s.lc before after q (refusal q 7) } := by
  have tested : s.tested q rule = .refused .mode := by simp [State.tested, isKind, length, mode, refused]
  rw [handle_of_kind takes isKind, tested, answer_refused takes]
  rfl

theorem exec_nonRequestKind (takes : HandlerTakes s before after q) (unknown : q.kind.toNat = 0 ∨ 0x1C < q.kind.toNat) :
    exec .nonRequestKind s = .next { s with lc := answered s.lc before after q (refusal q 1) } := by
  have notRequest : isRequestKind q.kind = false := by
    simp only [isRequestKind, Bool.and_eq_false_iff, decide_eq_false_iff_not]
    omega
  calc
    exec .nonRequestKind s = whenDue s (!isRequestKind q.kind) (s.answer q (.refused .unknownKind)) := by
      change execNonRequestKind s = _
      rw [execNonRequestKind, nextRequest_of_handlerTakes takes]
    _ = .next (s.answer q (.refused .unknownKind)) := by simp [whenDue, takes.running, notRequest]
    _ = _ := by rw [answer_refused takes]; rfl

end

theorem lengthFits_of_fixed {kind : Byte} {n : Nat} (fixed : kindLength kind.toNat = some n) (payload : List Byte) :
    lengthFits kind payload = decide (payload.length = n) := by
  simp [lengthFits, fixed]

theorem lengthFits_of_free {kind : Byte} (free : kindLength kind.toNat = none) (payload : List Byte) :
    lengthFits kind payload = (decide (2 ≤ payload.length) && decide ((payload.length - 2) % 2 = 0)) := by
  simp [lengthFits, free]

/-- Settles O30: each row's command is the handling of its kind. -/
theorem firstThreeTests : Obligations.FirstThreeTests := by
  unfold Obligations.FirstThreeTests
  intro s before after q takes refusedWith
  refine ⟨exec_nonRequestKind takes, fun row mem => ?_⟩
  obtain ⟨rule, handles, small, length, mode⟩ := requestTable_handles mem
  have number : (BitVec.ofNat 8 row.kind).toNat = row.kind := Nat.mod_eq_of_lt small
  have isKind (same : q.kind.toNat = row.kind) : q.kind = BitVec.ofNat 8 row.kind := BitVec.eq_of_toNat_eq (same.trans number.symm)
  rw [handles]
  refine ⟨fun other => ?_, fun n same fixed wrong => ?_, fun same free wrong => ?_, fun same fixed maintenance refused => ?_⟩
  · exact handle_of_other takes (fun same => other (by rw [same, number])) rule
  · refine handle_of_misfit rule takes (isKind same) ?_
    rw [lengthFits_of_fixed (by rw [number, length, fixed])]
    exact decide_eq_false wrong
  · refine handle_of_misfit rule takes (isKind same) ?_
    rw [lengthFits_of_free (by rw [number, length, free]), Bool.and_eq_false_iff, decide_eq_false_iff_not, decide_eq_false_iff_not]
    omega
  · refine handle_in_maintenance rule takes (isKind same) ?_ maintenance (by rw [number, mode, refused])
    rw [lengthFits_of_fixed (by rw [number, length, fixed])]
    exact decide_eq_true rfl

end Sys2Proof.Machine
end

