-- ==== Sys2Proof/Proofs/PayloadFields.lean ====
section
/-! PROOFS. The fields of a payload read back as they were written, and the names behind their codes (R172, R177). -/

namespace Sys2Proof

/-! ### Names by their codes -/

theorem CompId.toNat_lt (c : CompId) : c.toNat < 2 := by cases c <;> decide

theorem ChannelId.toNat_lt (c : ChannelId) : c.toNat < 13 := by
  match c with
  | .v g | .ia g | .ib g =>
    have := g.toNat_lt
    simp only [toNat]
    omega
  | .acref => decide

theorem CompId.ofNat?_toNat (c : CompId) : ofNat? c.toNat = some c := by cases c <;> rfl

theorem ChannelId.ofNat?_toNat (c : ChannelId) : ofNat? c.toNat = some c := by
  match c with
  | .v g | .ia g | .ib g => cases g <;> rfl
  | .acref => rfl

theorem CompId.ofNat?_eq_none {n : Nat} (h : 1 < n) : ofNat? n = none :=
  match n, h with
  | _ + 2, _ => rfl

theorem ChannelId.ofNat?_eq_none {n : Nat} (h : 12 < n) : ofNat? n = none :=
  match n, h with
  | _ + 13, _ => rfl

namespace Machine

open Sys2Proof.Safety

theorem RangeMode.ofCode?_code {m : RangeMode} (known : m.known = true) : ofCode? m.code = some m := by
  cases m with
  | auto | fixedLow | fixedHigh => rfl
  | other k => cases known

theorem RangeMode.ofCode?_other (k : Fin 253) : ofCode? (RangeMode.other k).code = none := rfl

theorem WindowLen.ofCycles?_cycles (w : WindowLen) : ofCycles? w.cycles = some w := by cases w <;> rfl

theorem Nominal.ofHertz?_hertz (n : Nominal) : ofHertz? n.hertz = some n := by cases n <;> rfl

theorem Pairing.ofCode?_code (p : Pairing) : ofCode? p.code = some p := by
  cases p <;> rfl

theorem Quantity.ofCode?_code (q : Quantity) : ofCode? q.code = some q := by cases q <;> rfl

theorem Sense.ofCode?_code (x : Sense) : ofCode? x.code = some x := by cases x <;> rfl

theorem Severity.ofCode?_code (x : Severity) : ofCode? x.code = some x := by cases x <;> rfl

theorem CompSource.ofCode?_code (x : CompSource) : ofCode? x.code = some x := by cases x <;> rfl

theorem CompMode.ofCode?_code (x : CompMode) : ofCode? x.code = some x := by cases x <;> rfl

theorem WindowLen.cycles_lt (w : WindowLen) : w.cycles < 256 := by cases w <;> decide

theorem Nominal.hertz_lt (n : Nominal) : n.hertz < 256 := by cases n <;> decide

theorem Pairing.code_lt (p : Pairing) : p.code < 256 := by
  cases p <;> decide

theorem Quantity.code_lt (q : Quantity) : q.code < 256 := by cases q <;> decide

theorem Sense.code_lt (x : Sense) : x.code < 256 := by cases x <;> decide

theorem Severity.code_lt (x : Severity) : x.code < 256 := by cases x <;> decide

theorem CompSource.code_lt (x : CompSource) : x.code < 256 := by cases x <;> decide

theorem CompMode.code_lt (x : CompMode) : x.code < 256 := by cases x <;> decide

theorem RangeMode.code_lt (m : RangeMode) : m.code < 256 := by
  cases m with
  | auto | fixedLow | fixedHigh => decide
  | other k =>
    have := k.isLt
    simp only [RangeMode.code]
    omega

theorem WindowLen.ofCycles?_eq_none {n : Nat} (h : n ≠ 1 ∧ n ≠ 2 ∧ n ≠ 4 ∧ n ≠ 8) : ofCycles? n = none := by
  unfold ofCycles?
  split <;> simp_all

theorem Nominal.ofHertz?_eq_none {n : Nat} (h : n ≠ 50 ∧ n ≠ 60) : ofHertz? n = none := by
  unfold ofHertz?
  split <;> simp_all

theorem Pairing.ofCode?_eq_none {n : Nat} (h : 3 < n) : ofCode? n = Option.none :=
  match n, h with
  | _ + 4, _ => rfl

theorem Sense.ofCode?_eq_none {n : Nat} (h : 1 < n) : ofCode? n = none :=
  match n, h with
  | _ + 2, _ => rfl

theorem CompSource.ofCode?_eq_none {n : Nat} (h : 2 < n) : ofCode? n = none :=
  match n, h with
  | _ + 3, _ => rfl

theorem CompMode.ofCode?_eq_none {n : Nat} (h : 1 < n) : ofCode? n = none :=
  match n, h with
  | _ + 2, _ => rfl

theorem byteBool?_ite (b : Bool) : byteBool? (if b then 1#8 else 0#8) = some b := by cases b <;> rfl

theorem byteBool?_eq_none {b : Byte} (h : 1 < b.toNat) : byteBool? b = none := by
  unfold byteBool?
  rw [if_neg (by rintro rfl; simp at h), if_neg (by rintro rfl; simp at h)]

/-! ### Fields by their places -/

section
variable (b : Byte) (p pre : List Byte) (i n x : Nat)

@[simp] theorem u8_cons_zero : u8 (b :: p) 0 = b.toNat := rfl

@[simp] theorem u8_cons_succ : u8 (b :: p) (i + 1) = u8 p i := rfl

@[simp] theorem slice_cons_succ : slice (b :: p) (i + 1) n = slice p i n := rfl

variable {pre i}

theorem u8_append (past : pre.length ≤ i) : u8 (pre ++ p) i = u8 p (i - pre.length) := by
  rw [u8, u8, List.getD_append_right _ _ _ _ past]

theorem slice_append (past : pre.length ≤ i) : slice (pre ++ p) i n = slice p (i - pre.length) n := by
  simp [slice, List.drop_append, List.drop_eq_nil_of_le past]

variable (pre)

theorem slice_prefix : slice (pre ++ p) 0 pre.length = pre := by simp [slice]

theorem slice_all : slice pre 0 pre.length = pre := by simp [slice]

@[simp] theorem slice_beBytes_append : slice (beBytes n x ++ p) 0 n = beBytes n x := by
  simpa using slice_prefix p (beBytes n x)

@[simp] theorem slice_beBytes : slice (beBytes n x) 0 n = beBytes n x := by
  simpa using slice_all (beBytes n x)

@[simp] theorem slice_beBytesInt_append (x : Int) : slice (beBytesInt n x ++ p) 0 n = beBytesInt n x := by
  simpa using slice_prefix p (beBytesInt n x)

@[simp] theorem slice_beBytesInt (x : Int) : slice (beBytesInt n x) 0 n = beBytesInt n x := by
  simpa using slice_all (beBytesInt n x)

end

theorem beNat_word (w : Word) : beNat (beBytes 4 w.toNat) = w.toNat := beNat_beBytes_of_lt w.isLt

theorem beNat_short {v : Nat} (h : v < 65536) : beNat (beBytes 2 v) = v := beNat_beBytes_of_lt h

theorem beInt_short {v : Int} (lo : -32768 ≤ v) (hi : v ≤ 32767) : beInt (beBytesInt 2 v) = v :=
  beInt_beBytesInt (by norm_num; omega) (by norm_num; omega)

theorem flagField_eq (p : List Byte) (i : Nat) : flagField p i = byteBool? (p.getD i 0) := rfl

end Machine

end Sys2Proof
end

