-- ==== Sys2Proof/Proofs/StatusReads.lean ====
section
/-! PROOFS. IDENTIFY, GET_STATUS and GET_COUNTERS, byte by byte (R143, R154, R155, R170). -/

namespace Sys2Proof.Machine

open Sys2Proof.Safety

/-! ### A piece of a list of fields by its place -/

section
variable {α : Type*} {pre piece post : List α} {i n : Nat}

theorem piece_at (before : pre.length = i) (length : piece.length = n) : ((pre ++ (piece ++ post)).drop i).take n = piece := by
  rw [List.drop_left' before, List.take_left' length]

/-- A piece inside a stretch of a list of fields. -/
theorem piece_within {p : List α} {a m j : Nat} (stretch : (p.drop a).take m = piece) (within : j + n ≤ m) :
    (p.drop (a + j)).take n = (piece.drop j).take n := by
  rw [← stretch, List.drop_take, List.take_take, List.drop_drop, min_eq_left (by omega)]

/-- The `k`-th of the equally wide pieces that a list of fields consists of. -/
theorem flatMap_piece {f : α → List Byte} {width : Nat} (wide : ∀ x, (f x).length = width) :
    ∀ (xs : List α) (k : Nat) (h : k < xs.length), ((xs.flatMap f).drop (width * k)).take width = f xs[k]
  | x :: xs, 0, _ => by simp [wide x]
  | x :: xs, k + 1, h => by
    have past : (f x ++ xs.flatMap f).drop (width * (k + 1)) = (xs.flatMap f).drop (width * k) := by
      rw [Nat.mul_succ, Nat.add_comm, ← List.drop_drop, List.drop_left' (wide x)]
    rw [List.flatMap_cons, past]
    exact flatMap_piece wide xs k (by simpa using h)

theorem flatMap_length {f : α → List Byte} {width : Nat} (wide : ∀ x, (f x).length = width) (xs : List α) :
    (xs.flatMap f).length = width * xs.length := by
  simp [List.length_flatMap, wide, Nat.mul_comm]

end

theorem GroupId.all_getElem (g : GroupId) : GroupId.all[g.toNat]'(g.toNat_lt) = g := by cases g <;> rfl

/-! ### GET_STATUS -/

theorem optBytes_length {width : Nat} {field : Option (List Byte)} (h : ∀ x, field = some x → x.length = width) :
    (optBytes width field).length = 1 + width := by
  cases field with
  | none => simp [optBytes]; omega
  | some x => simp [optBytes, h x rfl]; omega

theorem optBytes_some (width : Nat) (field : List Byte) : optBytes width (some field) = 1 :: field := rfl

theorem word4_eq : word4 = fun w => beBytes 4 w.toNat := rfl

theorem triggerFields_of_none : triggerFields none = List.replicate 16 0 := rfl

theorem triggerFields_of_some (r : TriggerRecord) :
    triggerFields (some r) = [1, one r.cause.code] ++ optBytes 1 (r.group.map fun g => [one g.toNat]) ++
      optBytes 1 (r.comparator.map fun c => [one c.toNat]) ++ optBytes 4 (r.window.map fun w => beBytes 4 w.toNat) ++
      1 :: beBytes 4 r.cycle.toNat := by
  unfold triggerFields
  simp only [Option.map_some, Option.bind_some, byte1_eq, optBytes_some]
  simp [word4_eq]

theorem optBytes_map_length {α : Type*} {width : Nat} {f : α → List Byte} (h : ∀ x, (f x).length = width) (field : Option α) :
    (optBytes width (field.map f)).length = 1 + width := by
  refine optBytes_length fun x named => ?_
  obtain ⟨a, -, rfl⟩ := Option.map_eq_some_iff.mp named
  exact h a

theorem triggerFields_length (t : Option TriggerRecord) : (triggerFields t).length = 16 := by
  unfold triggerFields
  simp only [List.length_append]
  repeat rw [optBytes_map_length fun x => by simp [byte1, word4]]

theorem groupStatus_length (s : State) (g : GroupId) : (groupStatus s g).length = 3 := by simp [groupStatus, byte1]

theorem groupsStatus_length (s : State) : (GroupId.all.flatMap (groupStatus s)).length = 12 :=
  flatMap_length (groupStatus_length s) _

section
variable (s : State)

/-- The fields of GET_STATUS before those of the groups (R170). -/
def statusHead : List Byte := byte1 s.mode.code ++ byte1 s.ct.tracker.code ++ byte4 s.ct.frequency ++ word4 s.ct.cycle

/-- The fields of the freeze state (R143). -/
def statusFreeze : List Byte := byte1 s.cr.state.code ++ [boolByte s.cr.releasePending] ++ byte1 s.cr.postCount

/-- The fields of GET_STATUS behind the trigger record. -/
def statusTail : List Byte := byte2 s.cr.ignored ++ byte2 s.lc.holdCount ++ byte2 s.lc.lost ++ flagBytes s.lc.flags

theorem statusFields_eq :
    statusFields s = statusHead s ++ (GroupId.all.flatMap (groupStatus s) ++ (statusFreeze s ++ (triggerFields s.cr.trigger ++ statusTail s))) := by
  simp [statusFields, statusHead, statusFreeze, statusTail]

theorem statusHead_length : (statusHead s).length = 10 := by simp [statusHead, byte1, byte4, word4]

theorem statusFreeze_length : (statusFreeze s).length = 3 := by simp [statusFreeze, byte1]

theorem statusTail_length : (statusTail s).length = 8 := by simp [statusTail, byte2, flagBytes]

theorem statusFields_length : (statusFields s).length = 49 := by
  simp only [statusFields_eq, List.length_append, statusHead_length, groupsStatus_length, statusFreeze_length, triggerFields_length,
    statusTail_length]

theorem statusFields_groups : ((statusFields s).drop 10).take 12 = GroupId.all.flatMap (groupStatus s) := by
  rw [statusFields_eq]
  exact piece_at (statusHead_length s) (groupsStatus_length s)

theorem statusFields_freeze : ((statusFields s).drop 22).take 3 = statusFreeze s := by
  rw [statusFields_eq, ← List.append_assoc]
  exact piece_at (by simp only [List.length_append, statusHead_length, groupsStatus_length]) (statusFreeze_length s)

theorem statusFields_trigger : ((statusFields s).drop 25).take 16 = triggerFields s.cr.trigger := by
  rw [statusFields_eq, ← List.append_assoc, ← List.append_assoc]
  exact piece_at (by simp only [List.length_append, statusHead_length, groupsStatus_length, statusFreeze_length]) (triggerFields_length _)

theorem statusFields_tail : (statusFields s).drop 41 = statusTail s := by
  rw [statusFields_eq, ← List.append_assoc, ← List.append_assoc, ← List.append_assoc]
  exact List.drop_left' (by
    simp only [List.length_append, statusHead_length, groupsStatus_length, statusFreeze_length, triggerFields_length])

theorem statusFields_group (g : GroupId) : ((statusFields s).drop (10 + 3 * g.toNat)).take 3 = groupStatus s g := by
  have within : 3 * g.toNat + 3 ≤ 12 := by have := g.toNat_lt; omega
  rw [piece_within (statusFields_groups s) within, flatMap_piece (groupStatus_length s) _ _ (by exact g.toNat_lt), GroupId.all_getElem]

/-! ### GET_COUNTERS -/

/-- The twelve counters of a group (R154). -/
def groupCounters (g : GroupId) : List Byte := (s.st.groups.get g).toList.flatMap word4

theorem counterFields_eq :
    counterFields s = GroupId.all.flatMap (groupCounters s) ++
      ((word4 s.st.pairs.fst ++ word4 s.st.pairs.snd) ++ (s.lc.counters.toList.flatMap word4 ++ [])) := by
  simp only [counterFields, List.append_assoc, List.append_nil]
  rfl

theorem word4_length (w : Word) : (word4 w).length = 4 := beBytes_length ..

theorem groupCounters_length (g : GroupId) : (groupCounters s g).length = 48 := by
  rw [groupCounters, flatMap_length word4_length, Vector.length_toList]

theorem groupsCounters_length : (GroupId.all.flatMap (groupCounters s)).length = 192 :=
  flatMap_length (groupCounters_length s) _

theorem linkCounters_length : (s.lc.counters.toList.flatMap word4).length = 24 := by
  rw [flatMap_length word4_length, Vector.length_toList]

theorem counterFields_length : (counterFields s).length = 224 := by
  simp only [counterFields_eq, List.length_append, groupsCounters_length, linkCounters_length, word4_length, List.length_nil]

theorem counterFields_group (g : GroupId) : ((counterFields s).drop (48 * g.toNat)).take 48 = groupCounters s g := by
  have all : ((counterFields s).drop 0).take 192 = GroupId.all.flatMap (groupCounters s) := by
    rw [counterFields_eq, List.drop_zero, List.take_left' (groupsCounters_length s)]
  have within : 48 * g.toNat + 48 ≤ 192 := by have := g.toNat_lt; omega
  have inner := piece_within all within
  rw [Nat.zero_add] at inner
  rw [inner, flatMap_piece (groupCounters_length s) _ _ (by exact g.toNat_lt), GroupId.all_getElem]

theorem counterFields_pairs : ((counterFields s).drop 192).take 8 = word4 s.st.pairs.fst ++ word4 s.st.pairs.snd := by
  rw [counterFields_eq]
  exact piece_at (groupsCounters_length s) (by simp [word4_length])

theorem counterFields_link : ((counterFields s).drop 200).take 24 = s.lc.counters.toList.flatMap word4 := by
  rw [counterFields_eq, ← List.append_assoc]
  exact piece_at (by simp only [List.length_append, groupsCounters_length, word4_length]) (linkCounters_length s)

theorem counterFields_groupCounter (g : GroupId) (k : Fin 12) :
    ((counterFields s).drop (48 * g.toNat + 4 * k.val)).take 4 = word4 (s.st.groups.get g)[k] := by
  rw [piece_within (counterFields_group s g) (by omega), groupCounters, flatMap_piece word4_length _ _ (by simp [k.isLt])]
  simp

theorem counterFields_pairCounter (p : PairId) : ((counterFields s).drop (192 + 4 * p.toNat)).take 4 = word4 (s.st.pairs.get p) := by
  have within : 4 * p.toNat + 4 ≤ 8 := by have := p.toNat_lt; omega
  rw [piece_within (counterFields_pairs s) within]
  cases p with
  | p0 => exact List.take_left' (word4_length _)
  | p1 =>
    rw [show 4 * PairId.p1.toNat = 4 from rfl, List.drop_left' (word4_length _), List.take_of_length_le (word4_length _).le]
    rfl

theorem counterFields_linkCounter (k : Fin 6) : ((counterFields s).drop (200 + 4 * k.val)).take 4 = word4 s.lc.counters[k] := by
  rw [piece_within (counterFields_link s) (by omega), flatMap_piece word4_length _ _ (by simp [k.isLt])]
  simp

end

/-! ### The obligation -/

/-- Settles O34: each stretch of the fields at its place. -/
theorem statusAndCountersAreRead : Obligations.StatusAndCountersAreRead := by
  unfold Obligations.StatusAndCountersAreRead
  intro s before after q takes empty replied
  have fits {kind : Byte} (fixed : kindLength kind.toNat = some 0) : lengthFits kind q.payload = true := by
    rw [lengthFits_of_fixed fixed, empty]
    rfl
  refine ⟨fun kind => ?_, fun kind => ⟨statusFields s, ?_, statusFields_length s, ?_, fun g => ?_, ?_, fun none => ?_, fun r some => ?_, ?_⟩,
    fun kind => ⟨counterFields s, ?_, counterFields_length s, counterFields_groupCounter s, counterFields_pairCounter s,
      counterFields_linkCounter s⟩⟩
  · exact handle_replied takes kind (fits rfl) (.inr rfl) rfl rfl
  · exact handle_replied takes kind (fits rfl) (.inr rfl) rfl rfl
  · rw [statusFields_eq, List.take_left' (statusHead_length s)]
    cases accepted : s.ct.accepted <;> simp [statusHead, byte1_eq, byte4, word4, CycleTracker.frequency, accepted, roundDiv]
  · rw [statusFields_group]
    simp [groupStatus, byte1_eq, boolByte]
  · rw [statusFields_freeze]
    simp [statusFreeze, byte1_eq, boolByte]
  · rw [statusFields_trigger, none, triggerFields_of_none]
  · rw [statusFields_trigger, some, triggerFields_of_some]
  · rw [statusFields_tail]
    rfl
  · exact handle_replied takes kind (fits rfl) (.inr rfl) rfl rfl

end Sys2Proof.Machine
end

