-- ==== Sys2Proof/Proofs/SampleAndLimitReads.lean ====
section
/-! PROOFS. READ_SAMPLES and GET_LIMIT: the slot that answers, the clamps, the fields of an entry (R101, R144, R172). -/

namespace Sys2Proof.Machine

open Sys2Proof.Safety

/-! ### READ_SAMPLES -/

theorem CaptureRing.find_eq_none {c : CaptureRing} {cycle : Word} (untagged : ∀ k : Fin 16, c.slots[k].tag ≠ some cycle) :
    c.find cycle = none := by
  refine List.find?_eq_none.mpr fun slot mem => ?_
  obtain ⟨i, lt, rfl⟩ := List.getElem_of_mem mem
  simpa using untagged ⟨i, by simpa using lt⟩

/-- The lowest-numbered slot with the tag answers (log entry 34). -/
theorem CaptureRing.find_eq_some {c : CaptureRing} {cycle : Word} {k : Fin 16} (tagged : c.slots[k].tag = some cycle)
    (lowest : ∀ j : Fin 16, j < k → c.slots[j].tag ≠ some cycle) : c.find cycle = some c.slots[k] := by
  refine List.find?_eq_some_iff_getElem.mpr ⟨decide_eq_true tagged, k.val, by simp, by simp, fun j lt => ?_⟩
  simpa using lowest ⟨j, by omega⟩ lt

/-- The payload of a READ_SAMPLES (R144). -/
def samplesPayload (c : ChannelId) (cycle : Word) (first count : Nat) : List Byte :=
  one c.toNat :: beBytes 4 cycle.toNat ++ [one first, one count]

section
variable {c : ChannelId} {cycle : Word} {first count : Nat}

theorem samplesField_samplesPayload (hi : first ≤ 119) (some_count : 1 ≤ count) (countByte : count ≤ 255) :
    samplesField (samplesPayload c cycle first count) = some { channel := c, cycle := cycle, first := first, count := count } := by
  have channelRead : (one c.toNat).toNat = c.toNat := toNat_one (by have := c.toNat_lt; omega)
  have firstRead : (one first).toNat = first := toNat_one (by omega)
  have countRead : (one count).toNat = count := toNat_one (by omega)
  have cycleRead : u32 (samplesPayload c cycle first count) 1 = cycle.toNat := by
    simp [samplesPayload, u32, beNat_word]
  have at5 : u8 (samplesPayload c cycle first count) 5 = first := by simp [samplesPayload, u8_append, firstRead]
  have at6 : u8 (samplesPayload c cycle first count) 6 = count := by simp [samplesPayload, u8_append, countRead]
  have at0 : u8 (samplesPayload c cycle first count) 0 = c.toNat := channelRead
  simp [samplesField, at0, at5, at6, cycleRead, ChannelId.ofNat?_toNat, hi, some_count]

theorem samplesField_eq_none {channel c₃ c₂ c₁ c₀ first count : Byte} (h : 12 < channel.toNat ∨ 119 < first.toNat ∨ count = 0) :
    samplesField [channel, c₃, c₂, c₁, c₀, first, count] = none := by
  cases named : ChannelId.ofNat? channel.toNat with
  | none => simp [samplesField, named]
  | some c =>
    have channelLe : ¬ 12 < channel.toNat := fun beyond => by simp [ChannelId.ofNat?_eq_none beyond] at named
    by_cases firstLe : first.toNat ≤ 119
    · have noCount : count = 0 := (h.resolve_left channelLe).resolve_left (by omega)
      simp [samplesField, named, noCount]
    · simp [samplesField, named, firstLe]

variable {s : State} {p : List Byte} {x : SamplesRequest} {slot : RingSlot}

theorem readSamplesRule_of_no_request (asked : samplesField p = none) : readSamplesRule p s = .refused .badValue := by
  simp [readSamplesRule, asked]

theorem readSamplesRule_of_no_slot (asked : samplesField p = some x) (absent : s.cr.find x.cycle = none) :
    readSamplesRule p s = .refused .notAvailable := by
  simp [readSamplesRule, asked, absent]

theorem readSamplesRule_of_unwritten (asked : samplesField p = some x) (found : s.cr.find x.cycle = some slot)
    (unwritten : (slot.channels.get x.channel).samples.length ≤ x.first) : readSamplesRule p s = .refused .notAvailable := by
  simp [readSamplesRule, asked, found, unwritten]

theorem readSamplesRule_of_slot (asked : samplesField p = some x) (found : s.cr.find x.cycle = some slot)
    (written : x.first < (slot.channels.get x.channel).samples.length) :
    readSamplesRule p s = .replied s 0 (byte1 x.channel.toNat ++ word4 x.cycle ++ byte1 x.first ++
      byte1 (samplesCount (slot.channels.get x.channel).samples.length x.first x.count) ++
      [boolByte (slot.channels.get x.channel).marks.clip] ++ [boolByte (slot.channels.get x.channel).marks.held] ++
      (((slot.channels.get x.channel).samples.drop x.first).take
        (samplesCount (slot.channels.get x.channel).samples.length x.first x.count)).flatMap signed4) := by
  simp [readSamplesRule, asked, found, not_le.mpr written]

end

/-- Settles O38: by whether a slot has the tag and how much of it is written. -/
theorem samplesAreRead : Obligations.SamplesAreRead := by
  unfold Obligations.SamplesAreRead
  intro s before after q takes kind refusedWith
  have refuses {r : Reason} (length : q.payload.length = 7) (answers : readSamplesRule q.payload s = .refused r) :
      exec .readSamples s = .next (refusedWith (BitVec.ofNat 8 r.code)) :=
    handle_refused takes kind (decide_eq_true length) (.inr rfl) answers
  refine ⟨?outside, ?inside⟩
  case outside =>
    intro channel c₃ c₂ c₁ c₀ first count payload bad
    refine refuses (r := .badValue) (by rw [payload]; rfl) (readSamplesRule_of_no_request ?_)
    rw [payload, samplesField_eq_none bad]
  case inside =>
    intro c cycle first count hi some_count countByte payload
    have length : q.payload.length = 7 := by simp [payload]
    have asked : samplesField q.payload = some { channel := c, cycle := cycle, first := first, count := count } :=
      payload ▸ samplesField_samplesPayload hi some_count countByte
    refine ⟨fun untagged => ?_, fun k tagged lowest => ?_⟩
    · exact refuses (r := .notAvailable) length (readSamplesRule_of_no_slot asked (CaptureRing.find_eq_none untagged))
    · have found := CaptureRing.find_eq_some tagged lowest
      refine ⟨fun unwritten => ?_, fun written => ?_⟩
      · exact refuses (r := .notAvailable) length (readSamplesRule_of_unwritten asked found unwritten)
      · have answers := readSamplesRule_of_slot asked found written
        refine (handle_replied takes kind (decide_eq_true length) (.inr rfl) answers rfl).trans ?_
        simp [byte1_eq, word4, boolByte, samplesCount, show signed4 = beBytesInt 4 from rfl]

/-! ### GET_LIMIT -/

theorem slotField_of_lt {n : Byte} {k : Fin 48} (h : n.toNat = k.val) : slotField [n] = some k := by
  simp [slotField, h]

theorem slotField_eq_none {n : Byte} (h : 47 < n.toNat) : slotField [n] = none := by
  simp [slotField, show ¬ n.toNat < 48 by omega]

theorem entryFields_of_none : entryFields none = List.replicate 30 0 := rfl

theorem entryFields_of_some (e : LimitEntry) :
    entryFields (some e) = [1, one e.scope.kindCode, 1, one e.scope.valueCode, 1, one e.quantity.code, 1, e.bridge, 1, e.first, 1,
      e.last, 1, one e.sense.code, 1] ++ beBytesInt 4 e.limit ++ 1 :: beBytesInt 4 e.release ++
      [1, one e.onCount, 1, one e.offCount, 1, one e.severity.code] := by
  simp only [entryFields, Option.map_some, byte1_eq, optBytes_some, signed4]
  simp

theorem getLimitRule_of_slot {s : State} {p : List Byte} {k : Fin 48} (named : slotField p = some k) :
    getLimitRule p s = .replied s 0 ([boolByte s.ss.working.limits[k].isSome] ++ entryFields s.ss.working.limits[k] ++
      byte1 (editCode s.ss.staged.limits[k]) ++
      (if s.ss.working.limits[k].isSome then s.le.records[k].flatMap recordFields else [])) := by
  unfold getLimitRule
  rw [named]

theorem recordFields_eq (ur : UnitId × CondRecord) : recordFields ur = [one ur.2.state.code, one ur.2.count] := by
  simp [recordFields, byte1_eq]

/-- Settles O39: an empty slot answers absent fields, an entry each field behind its presence byte. -/
theorem limitIsRead : Obligations.LimitIsRead := by
  unfold Obligations.LimitIsRead
  intro s before after q n takes kind payload replied
  have fits : lengthFits 0x0D q.payload = true := by rw [payload]; rfl
  refine ⟨fun beyond => ?_, fun k number => ?_⟩
  · refine handle_refused takes kind fits (.inr rfl) (r := .badValue) ?_
    simp [getLimitRule, payload, slotField_eq_none beyond]
  · have answers := getLimitRule_of_slot (s := s) (slotField_of_lt number)
    rw [← payload] at answers
    have handled := handle_replied takes kind fits (.inr rfl) answers rfl
    refine ⟨fun empty => ?_, fun e entry => ?_⟩
    · refine handled.trans ?_
      rw [empty, entryFields_of_none, byte1_eq]
      cases s.ss.staged.limits[k] with
      | none => rfl
      | some edit => cases edit <;> rfl
    · refine handled.trans ?_
      rw [entry, entryFields_of_some, byte1_eq, show recordFields = _ from funext recordFields_eq]
      cases s.ss.staged.limits[k] with
      | none => simp [boolByte, editCode, one, replied]
      | some edit => cases edit <;> simp [boolByte, editCode, one, replied]

end Sys2Proof.Machine
end

