-- ==== Sys2Proof/Proofs/SettingsReads.lean ====
section
/-! PROOFS. GET_SETTINGS: the settings group named and its fields (R17, R131, R179). -/

namespace Sys2Proof.Machine

open Sys2Proof.Safety

/-! ### The settings group by its code and index -/

theorem settingsField_channel (c : ChannelId) : settingsField [0, one c.toNat] = some (.channel c) := by
  have read : (one c.toNat).toNat = c.toNat := toNat_one (by have := c.toNat_lt; omega)
  simp [settingsField, read, ChannelId.ofNat?_toNat]

theorem settingsField_comparator (g : GroupId) (c : CompId) : settingsField [3, one (2 * g.toNat + c.toNat)] = some (.comparator g c) := by
  cases g <;> cases c <;> rfl

/-- A code or an index outside the table names no settings group. -/
theorem settingsField_eq_none {code index : Byte}
    (h : (code = 0 ∧ 12 < index.toNat) ∨ (code = 3 ∧ 7 < index.toNat) ∨ 5 < code.toNat ∨ (code ≠ 0 ∧ code ≠ 3 ∧ index ≠ 0)) :
    settingsField [code, index] = none := by
  obtain ⟨rfl, beyond⟩ | ⟨rfl, beyond⟩ | beyond | ⟨notChannel, notComparator, nonzero⟩ := h
  · simp [settingsField, ChannelId.ofNat?_eq_none beyond]
  · have group : 3 < index.toNat / 2 := by omega
    simp [settingsField, GroupId.ofNat?_eq_none group]
  · unfold settingsField
    simp only [u8_cons_zero, u8_cons_succ]
    split <;> simp_all
  · have code0 : code.toNat ≠ 0 := fun zero => notChannel (BitVec.eq_of_toNat_eq zero)
    have code3 : code.toNat ≠ 3 := fun three => notComparator (BitVec.eq_of_toNat_eq three)
    have index0 : index.toNat ≠ 0 := fun zero => nonzero (BitVec.eq_of_toNat_eq zero)
    unfold settingsField
    simp only [u8_cons_zero, u8_cons_succ]
    split <;> simp_all

/-! ### The fields (R179) -/

section
variable {s : State} {before after : List Entry} {q : Frame}

theorem exec_getSettings_replied (takes : HandlerTakes s before after q) (kind : q.kind = 0x13) {code index : Byte} {x : SettingsGroup}
    (payload : q.payload = [code, index]) (named : settingsField [code, index] = some x) :
    exec .getSettings s = .next { s with
      lc := answered s.lc before after q (okReply q ([code, index, boolByte (settingsFields s x).1] ++ (settingsFields s x).2)) } := by
  have answers : getSettingsRule q.payload s =
      .replied s 0 ([code, index, boolByte (settingsFields s x).1] ++ (settingsFields s x).2) := by
    simp [getSettingsRule, payload, named]
  exact handle_replied takes kind (by rw [payload]; rfl) (.inr rfl) answers rfl

end

theorem StagedChannel.isEmpty_iff (c : StagedChannel) : c.isEmpty = true ↔ c = StagedChannel.empty := by
  obtain ⟨fs, offsetLow, gainLow, offsetHigh, gainHigh, rangeMode, hold⟩ := c
  simp [isEmpty, empty, and_assoc]

theorem Range.code_eq (r : Range) : one r.code = if r = .low then 0 else 1 := by cases r <;> rfl

theorem channelFields_eq (c : ChannelId) (x : ChannelSettings) :
    channelFields c x = [one c.toNat] ++ beBytes 2 x.fs ++ beBytesInt 2 x.offsetLow ++ beBytes 2 x.gainLow ++ beBytesInt 2 x.offsetHigh ++
      beBytes 2 x.gainHigh ++ [one x.rangeMode.code, one x.hold] := by
  simp [channelFields, byte1_eq, byte2]

theorem analysisFields_eq (x : AnalysisSettings) :
    analysisFields x = [one x.window.cycles, one x.nominal.hertz] ++ beBytes 2 x.baseMin ++ beBytes 2 x.lightLoad ++ beBytes 2 x.settle ++
      [one x.pairing.code, one x.digest] := by
  simp [analysisFields, byte1_eq, byte2]

theorem comparatorFields_eq (g : GroupId) (c : CompId) (x : CompSettings) :
    comparatorFields g c x = [one g.toNat, one c.toNat, one x.source.code, one x.mode.code, one x.level, one x.filter,
      boolByte x.tripArmed, boolByte x.freezeTrigger, boolByte x.report] := by
  simp [comparatorFields, byte1_eq]

section
variable (s : State) (c : ChannelId)

/-- The reply for a channel, before what R17 adds for a current channel. -/
theorem settingsFields_channel :
    [0, one c.toNat, boolByte (settingsFields s (.channel c)).1] ++ (settingsFields s (.channel c)).2 =
      [0, one c.toNat, if s.ss.staged.channels.get c = StagedChannel.empty then 0 else 1, one c.toNat] ++
        beBytes 2 (s.ss.working.channels.get c).fs ++ beBytesInt 2 (s.ss.working.channels.get c).offsetLow ++
        beBytes 2 (s.ss.working.channels.get c).gainLow ++ beBytesInt 2 (s.ss.working.channels.get c).offsetHigh ++
        beBytes 2 (s.ss.working.channels.get c).gainHigh ++
        [one (s.ss.working.channels.get c).rangeMode.code, one (s.ss.working.channels.get c).hold] ++ rangeFields s c := by
  have pending : boolByte (!(s.ss.staged.channels.get c).isEmpty) =
      if s.ss.staged.channels.get c = StagedChannel.empty then 0 else 1 := by
    by_cases empty : s.ss.staged.channels.get c = StagedChannel.empty
    · rw [if_pos empty, (StagedChannel.isEmpty_iff _).mpr empty]
      rfl
    · rw [if_neg empty, Bool.eq_false_of_not_eq_true fun is => empty ((StagedChannel.isEmpty_iff _).mp is)]
      rfl
  simp only [settingsFields, channelFields_eq, pending]
  simp

end

/-- Settles O40: each settings group by its code, and a code or index outside the table. -/
theorem settingsAreRead : Obligations.SettingsAreRead := by
  unfold Obligations.SettingsAreRead
  intro s before after q takes kind w flag replied channel
  have reads {code index : Byte} {x : SettingsGroup} (payload : q.payload = [code, index]) (named : settingsField [code, index] = some x) :
      exec .getSettings s = .next (replied ([code, index, boolByte (settingsFields s x).1] ++ (settingsFields s x).2)) :=
    exec_getSettings_replied takes kind payload named
  have readsChannel {c : ChannelId} (payload : q.payload = [0, one c.toNat]) :
      exec .getSettings s = .next (replied (channel c ++ rangeFields s c)) := by
    rw [reads payload (settingsField_channel c), settingsFields_channel]
  refine ⟨fun g payload => ?_, fun payload => ?_, fun g payload => ?_, fun g payload => ?_, fun payload => ?_, fun pending staged payload => ?_,
    fun g c payload => ?_, fun payload => ?_, fun payload => ?_, fun code index payload outside => ?_⟩
  · simpa [rangeFields] using readsChannel payload
  · simpa [rangeFields] using readsChannel (c := .acref) payload
  · simpa [rangeFields, byte1_eq, Range.code_eq] using readsChannel payload
  · simpa [rangeFields, byte1_eq, Range.code_eq] using readsChannel payload
  · rw [reads payload (x := .analysis) rfl, settingsFields, analysisFields_eq]
    simp [boolByte, flag, w]
  · have any : s.ss.staged.weights.toList.any Option.isSome = pending := by
      rw [Bool.eq_iff_iff, staged, List.any_eq_true]
      simp only [Vector.mem_toList_iff, Vector.mem_iff_getElem, Option.isSome_iff_ne_none]
      exact ⟨fun ⟨x, ⟨i, lt, at_i⟩, present⟩ => ⟨⟨i, lt⟩, by rw [Fin.getElem_fin, at_i]; exact present⟩,
        fun ⟨i, present⟩ => ⟨_, ⟨i.val, i.isLt, rfl⟩, present⟩⟩
    rw [reads payload (x := .weights) rfl, settingsFields, any, show byte2 = beBytes 2 from rfl]
    simp [boolByte, flag, w]
  · rw [reads payload (settingsField_comparator g c), settingsFields, comparatorFields_eq, byte1_eq]
    simp [boolByte, flag, w]
  · rw [reads payload (x := .freeze) rfl, settingsFields, freezeFields]
    simp [boolByte, flag, w, byte2]
  · rw [reads payload (x := .flagMask) rfl, settingsFields, flagBytes]
    simp [boolByte]
  · refine handle_refused takes kind (by rw [payload]; rfl) (.inr rfl) (r := .badValue) ?_
    simp [getSettingsRule, payload, settingsField_eq_none outside]

end Sys2Proof.Machine
end

