-- ==== Sys2Proof/Proofs/ControlWrites.lean ====
section
/-! PROOFS. Flags, holds, counters, the freeze controls, the deferred requests and the mode: what each request writes and answers. -/

namespace Sys2Proof.Machine

open Sys2Proof.Safety

/-! ### Flags, holds and counters (R155, R165, R168) -/

theorem u16_beBytes {v : Nat} (h : v < 65536) : u16 (beBytes 2 v) 0 = v := by
  simp [u16, beNat_short h]

theorem flagSetField_of_lt {v : Nat} (h : v < 4096) : flagSetField (beBytes 2 v) = some (BitVec.ofNat 12 v) := by
  simp [flagSetField, u16_beBytes (show v < 65536 by omega), h]

theorem flagSetField_eq_none {v : Nat} (lo : 4096 ≤ v) (hi : v < 65536) : flagSetField (beBytes 2 v) = none := by
  simp [flagSetField, u16_beBytes hi, lo]

theorem flagOf_reportLost (v : Nat) : flagOf (BitVec.ofNat 12 v) .reportLost = v.testBit 5 := by
  rw [flagOf, Flag.number, BitVec.getLsbD_ofNat]
  rfl

section
variable {s : State} {p : List Byte} {set : FlagSet}

theorem clearFlagsRule_of_set (named : flagSetField p = some set) :
    clearFlagsRule p s = .replied (s.setLc { s.lc with
      flags := s.lc.flags &&& ~~~set
      lost := if flagOf set .reportLost then 0 else s.lc.lost }) 0 (flagBytes s.lc.flags) := by
  unfold clearFlagsRule
  rw [named]

theorem setFlagMaskRule_of_set (named : flagSetField p = some set) :
    setFlagMaskRule p s = .replied (s.setLc { s.lc with masks := set }) 0 [] := by
  unfold setFlagMaskRule
  rw [named]

theorem clearFlagsRule_of_none (named : flagSetField p = none) : clearFlagsRule p s = .refused .badValue := by
  unfold clearFlagsRule
  rw [named]

theorem setFlagMaskRule_of_none (named : flagSetField p = none) : setFlagMaskRule p s = .refused .badValue := by
  unfold setFlagMaskRule
  rw [named]

theorem setCounterRule_of_name {c : CounterName} (named : counterField p = some c) :
    setCounterRule p s = .replied (s.setCounter (BitVec.ofNat 32 (u32 p 3)) c) 0 (word4 (s.counter c)) := by
  unfold setCounterRule
  rw [named]

theorem setCounterRule_of_none (named : counterField p = none) : setCounterRule p s = .refused .badValue := by
  unfold setCounterRule
  rw [named]

end

/-- The payload of a SET_COUNTER (R155). -/
def counterPayload (unit index number : Byte) (v : Word) : List Byte := [unit, index, number] ++ beBytes 4 v.toNat

section
variable (v : Word)

theorem counterPayload_word (unit index number : Byte) : BitVec.ofNat 32 (u32 (counterPayload unit index number v) 3) = v := by
  simp [counterPayload, u32, beNat_word]

theorem counterField_group (g : GroupId) (k : Fin 12) : counterField (counterPayload 0 (one g.toNat) (one k.val) v) = some (.group g k) := by
  have group : (one g.toNat).toNat = g.toNat := toNat_one (by have := g.toNat_lt; omega)
  have number : (one k.val).toNat = k.val := toNat_one (by omega)
  simp [counterField, counterPayload, group, number, GroupId.ofNat?_toNat]

theorem counterField_pair (p : PairId) : counterField (counterPayload 1 (one p.toNat) 0 v) = some (.pair p) := by
  have pair : (one p.toNat).toNat = p.toNat := toNat_one (by have := p.toNat_lt; omega)
  simp [counterField, counterPayload, pair, PairId.ofNat?_toNat]

theorem counterField_link (k : Fin 6) : counterField (counterPayload 2 0 (one k.val) v) = some (.link k) := by
  have number : (one k.val).toNat = k.val := toNat_one (by omega)
  simp [counterField, counterPayload, number]

/-- A counter outside the table (R155). -/
theorem counterField_eq_none {unit index number : Byte}
    (h : 2 < unit.toNat ∨ (unit = 0 ∧ (3 < index.toNat ∨ 11 < number.toNat)) ∨ (unit = 1 ∧ (1 < index.toNat ∨ number ≠ 0)) ∨
      (unit = 2 ∧ (index ≠ 0 ∨ 5 < number.toNat))) : counterField (counterPayload unit index number v) = none := by
  have nonzero {b : Byte} (h : b ≠ 0) : ¬ b.toNat = 0 := fun zero => h (BitVec.eq_of_toNat_eq zero)
  obtain beyond | ⟨rfl, beyond | beyond⟩ | ⟨rfl, beyond | other⟩ | ⟨rfl, other | beyond⟩ := h
  · unfold counterField
    simp only [counterPayload, List.cons_append, u8_cons_zero]
    split <;> simp_all
  · simp [counterField, counterPayload, GroupId.ofNat?_eq_none beyond]
  · cases named : GroupId.ofNat? index.toNat <;> simp [counterField, counterPayload, named, not_lt.mpr (Nat.succ_le_of_lt beyond)]
  · simp [counterField, counterPayload, PairId.ofNat?_eq_none beyond]
  · cases named : PairId.ofNat? index.toNat <;> simp [counterField, counterPayload, named, nonzero other]
  · simp [counterField, counterPayload, nonzero other]
  · simp [counterField, counterPayload, not_lt.mpr (Nat.succ_le_of_lt beyond)]

end

/-- Settles O41: each write by the field that it reads. -/
theorem flagsHoldAndCountersAreWritten : Obligations.FlagsHoldAndCountersAreWritten := by
  unfold Obligations.FlagsHoldAndCountersAreWritten
  refine ⟨fun s before after q v takes small payload => ?short, fun s before after q unit index number v takes kind (payload : q.payload = counterPayload unit index number v) => ?counter⟩
  case short =>
    have length : q.payload.length = 2 := by simp [payload]
    have named (known : v < 4096) : flagSetField q.payload = some (BitVec.ofNat 12 v) := payload ▸ flagSetField_of_lt known
    have unnamed (beyond : 4096 ≤ v) : flagSetField q.payload = none := payload ▸ flagSetField_eq_none beyond small
    refine ⟨fun kind known => ?_, fun kind known => ?_, fun kind beyond => ?_, fun kind beyond => ?_, fun kind => ?_⟩
    · have handled := handle_replied takes kind (decide_eq_true length) (.inr rfl) (clearFlagsRule_of_set (named known)) rfl
      rw [flagOf_reportLost] at handled
      exact handled
    · exact handle_replied takes kind (decide_eq_true length) (.inr rfl) (setFlagMaskRule_of_set (named known)) rfl
    · exact handle_refused takes kind (decide_eq_true length) (.inr rfl) (clearFlagsRule_of_none (unnamed beyond))
    · exact handle_refused takes kind (decide_eq_true length) (.inr rfl) (setFlagMaskRule_of_none (unnamed beyond))
    · have answers : holdReportsRule q.payload s = .replied (s.setLc { s.lc with holdCount := v }) 0 (beBytes 2 s.lc.holdCount) := by
        rw [holdReportsRule, payload, u16_beBytes small, byte2]
      exact handle_replied takes kind (decide_eq_true length) (.inr rfl) answers rfl
  case counter =>
    have length : q.payload.length = 7 := by simp [payload, counterPayload]
    have writes {c : CounterName} (named : counterField q.payload = some c) :
        exec .setCounter s = .next { s.setCounter v c with
          lc := answered (s.setCounter v c).lc before after q (okReply q (word4 (s.counter c))) } := by
      have answers := setCounterRule_of_name (s := s) named
      rw [show u32 q.payload 3 = _ from congrArg (u32 · 3) payload, counterPayload_word] at answers
      exact handle_replied takes kind (decide_eq_true length) (.inr rfl) answers (by cases c <;> rfl)
    refine ⟨?_, ?_, ?_, fun outside => ?_⟩
    · rintro g k rfl rfl rfl
      exact writes (payload ▸ counterField_group v g k)
    · rintro p rfl rfl rfl
      exact writes (payload ▸ counterField_pair v p)
    · rintro k rfl rfl rfl
      exact writes (payload ▸ counterField_link v k)
    · exact handle_refused takes kind (decide_eq_true length) (.inr rfl) (setCounterRule_of_none (payload ▸ counterField_eq_none v outside))

/-! ### The freeze controls (R136 to R141) -/

theorem freezeField_of_flags {n : Nat} (small : n < 65536) (a t c : Bool) :
    freezeField (beBytes 2 n ++ [if a then 1 else 0, if t then 1 else 0, if c then 1 else 0]) =
      some { postCycles := min n 15, verdictAlarm := a, verdictTrip := t, comparator := c } := by
  have count : u16 (beBytes 2 n ++ [if a then 1 else 0, if t then 1 else 0, if c then 1 else 0]) 0 = n := by simp [u16, beNat_short small]
  simp only [freezeField, count]
  simp [flagField, beBytes_two, byteBool?_ite]

theorem freezeField_eq_none {hi lo a t c : Byte} (h : 1 < a.toNat ∨ 1 < t.toNat ∨ 1 < c.toNat) : freezeField [hi, lo, a, t, c] = none := by
  obtain beyond | beyond | beyond := h
  · simp [freezeField, flagField, byteBool?_eq_none beyond]
  · cases read : byteBool? a <;> simp [freezeField, flagField, byteBool?_eq_none beyond, read]
  · cases read : byteBool? a <;> cases read' : byteBool? t <;> simp [freezeField, flagField, byteBool?_eq_none beyond, read, read']

theorem setFreezeRule_of_setup {s : State} {p : List Byte} {f : FreezeSetup} (named : freezeField p = some f) :
    setFreezeRule p s =
      .replied (s.setSs { s.ss with working := { s.ss.working with freeze := f } }) 0 (byte1 f.postCycles) := by
  unfold setFreezeRule
  rw [named]

/-- The trigger record of FORCE_FREEZE (R140). -/
def forceRecord (cycle : Word) : TriggerRecord := { cause := .force, group := none, comparator := none, window := none, cycle := cycle }

section
variable {s : State}

/-- FORCE has no source flag (R136). -/
theorem State.offerTrigger_force :
    s.offerTrigger (forceRecord s.ct.cycle) =
      (s.setCr (s.cr.consider s.ss.working.freeze.postCycles (forceRecord s.ct.cycle)).1).post
        (s.cr.consider s.ss.working.freeze.postCycles (forceRecord s.ct.cycle)).2 := rfl

theorem forceFreezeRule_eq (p : List Byte) :
    forceFreezeRule p s = .replied (s.offerTrigger (forceRecord s.ct.cycle)) 0 (byte1 (if s.cr.state = .running then 0 else 1)) := rfl

theorem releaseFreezeRule_of_running (running : s.cr.state = .running) (p : List Byte) :
    releaseFreezeRule p s = .replied s 0 (triggerFields s.cr.trigger ++ byte2 s.cr.ignored) := by
  rw [releaseFreezeRule, if_pos running]

theorem releaseFreezeRule_of_frozen (frozen : s.cr.state ≠ .running) (p : List Byte) :
    releaseFreezeRule p s =
      .replied (s.setCr { s.cr with releasePending := true }) 0 (triggerFields s.cr.trigger ++ byte2 s.cr.ignored) := by
  rw [releaseFreezeRule, if_neg frozen]

end

/-- Settles O42: the setup read, the trigger considered, the mark set. -/
theorem freezeControls : Obligations.FreezeControls := by
  unfold Obligations.FreezeControls
  intro s before after q takes
  have fits {kind : Byte} (fixed : kindLength kind.toNat = some 0) (empty : q.payload = []) : lengthFits kind q.payload = true := by
    rw [lengthFits_of_fixed fixed, empty]
    rfl
  refine ⟨fun n a t c kind small payload => ?_, fun hi lo a t c kind payload outside => ?_, fun kind empty normal running => ?_,
    fun kind empty normal frozen => ?_, fun kind empty normal frozen r trigger => ?_, fun kind empty normal running noTrigger => ?_⟩
  · have named := freezeField_of_flags small a t c
    rw [← payload] at named
    have length : q.payload.length = 5 := by simp [payload]
    have handled := handle_replied takes kind (decide_eq_true length) (.inr rfl) (setFreezeRule_of_setup (s := s) named) rfl
    rw [byte1_eq] at handled
    exact handled
  · refine handle_refused takes kind (by rw [payload]; rfl) (.inr rfl) (r := .badValue) ?_
    rw [payload, setFreezeRule, freezeField_eq_none outside]
  · refine ⟨_, rfl, (LinkController.post_same ..).entries, ?_⟩
    obtain ⟨-, taken⟩ := (s.cr.consider_cases s.ss.working.freeze.postCycles (forceRecord s.ct.cycle)).resolve_right fun frozen => frozen.1 running
    have answers := forceFreezeRule_eq (s := s) q.payload
    rw [State.offerTrigger_force, taken, if_pos running] at answers
    exact handle_replied takes kind (fits rfl empty) (.inl normal) answers (LinkController.post_same ..).entries
  · obtain ⟨-, ignored⟩ := (s.cr.consider_cases s.ss.working.freeze.postCycles (forceRecord s.ct.cycle)).resolve_left fun taken => frozen taken.1
    have answers := forceFreezeRule_eq (s := s) q.payload
    rw [State.offerTrigger_force, ignored, if_neg frozen] at answers
    exact handle_replied takes kind (fits rfl empty) (.inl normal) answers rfl
  · have answers := releaseFreezeRule_of_frozen frozen q.payload
    rw [trigger, triggerFields_of_some] at answers
    exact handle_replied takes kind (fits rfl empty) (.inl normal) answers rfl
  · have answers := releaseFreezeRule_of_running running q.payload
    rw [noTrigger, triggerFields_of_none] at answers
    exact handle_replied takes kind (fits rfl empty) (.inl normal) answers rfl

/-! ### Deferred requests and the mode (R162, R181, R182, R184, R185) -/

theorem isSome_of_ne_none {α : Type*} {o : Option α} (h : o ≠ none) : o.isSome = true := Option.isSome_iff_ne_none.mpr h

section
variable {s : State} (p : List Byte)

theorem syncPointRule_of_none (none : s.lc.sync = none) :
    syncPointRule p s = .deferred (s.setLc { s.lc with sync := some { analysis := Option.none, limit := Option.none } }) := by
  simp [syncPointRule, none]

theorem syncPointRule_of_busy (busy : s.lc.sync ≠ none) : syncPointRule p s = .refused .busy := by
  simp [syncPointRule, isSome_of_ne_none busy]

theorem storeSettingsRule_of_none (none : s.ss.flight = none) :
    storeSettingsRule p s =
      .deferred (s.setSs { s.ss with image := .torn, flight := some (.store (s.ss.working.prospective s.ss.staged)) }) := by
  simp [storeSettingsRule, none]

theorem storeSettingsRule_of_busy (busy : s.ss.flight ≠ none) : storeSettingsRule p s = .refused .busy := by
  simp [storeSettingsRule, isSome_of_ne_none busy]

theorem checkSettingsRule_of_none (none : s.ss.flight = none) :
    checkSettingsRule p s = .deferred (s.setSs { s.ss with flight := some .check }) := by
  simp [checkSettingsRule, none]

theorem checkSettingsRule_of_busy (busy : s.ss.flight ≠ none) : checkSettingsRule p s = .refused .busy := by
  simp [checkSettingsRule, isSome_of_ne_none busy]

theorem restartRule_of_none (none : s.ss.flight = none) : restartRule p s = .replied s 0 [] := by
  simp [restartRule, none]

theorem restartRule_of_busy (busy : s.ss.flight ≠ none) : restartRule p s = .refused .busy := by
  simp [restartRule, isSome_of_ne_none busy]

end

/-- An OK reply to a RESTART holds the handler (R171). -/
theorem handlerHeld_of_restart {l : LinkController} {before after : List Entry} {q : Frame} (kind : q.kind = 0x1B) (fields : List Byte) :
    (answered l before after q (okReply q fields)).handlerHeld = true := by
  have restart : (Stage.ready l.readied (okReply q fields)).isRestartReply = true := by
    simp [Stage.isRestartReply, okReply, kind, restartReplyKind]
  simp [answered, LinkController.handlerHeld, restart]

/-- Settles O49: each request by what is in flight. -/
theorem deferredAndModeRequests : Obligations.DeferredAndModeRequests := by
  unfold Obligations.DeferredAndModeRequests
  intro s before after q takes empty busy
  have fits {kind : Byte} (fixed : kindLength kind.toNat = some 0) : lengthFits kind q.payload = true := by
    rw [lengthFits_of_fixed fixed, empty]
    rfl
  refine ⟨fun kind none => ?_, fun kind flying => ?_, fun kind none => ?_, fun kind flying => ?_, fun kind none => ?_, fun kind flying => ?_,
    fun kind none => ⟨_, ?_, rfl, handlerHeld_of_restart kind _⟩, fun kind flying => ?_, fun kind => ?_⟩
  · exact handle_deferred takes kind (fits rfl) (.inr rfl) (syncPointRule_of_none _ none) rfl
  · exact handle_refused takes kind (fits rfl) (.inr rfl) (syncPointRule_of_busy _ flying)
  · exact handle_deferred takes kind (fits rfl) (.inr rfl) (storeSettingsRule_of_none _ none) rfl
  · exact handle_refused takes kind (fits rfl) (.inr rfl) (storeSettingsRule_of_busy _ flying)
  · exact handle_deferred takes kind (fits rfl) (.inr rfl) (checkSettingsRule_of_none _ none) rfl
  · exact handle_refused takes kind (fits rfl) (.inr rfl) (checkSettingsRule_of_busy _ flying)
  · exact handle_replied takes kind (fits rfl) (.inr rfl) (restartRule_of_none _ none) rfl
  · exact handle_refused takes kind (fits rfl) (.inr rfl) (restartRule_of_busy _ flying)
  · exact handle_replied takes kind (fits rfl) (.inr rfl) (rule := leaveMaintenanceRule) rfl rfl

end Sys2Proof.Machine
end

