-- ==== Sys2Proof/Proofs/Scans.lean ====
section
/-! PROOFS. SCAN_LINES: its payload, the walk over the figures, and its refusals (R146, R149, R150). -/

namespace Sys2Proof.Machine

open Sys2Proof.Safety

/-! ### The payload (R146, R149) -/

theorem Target.ofCode?_eq_none {n : Nat} (h : 6 < n) : ofCode? n = none :=
  match n, h with
  | _ + 7, _ => rfl

theorem Target.exists_ofCode? {n : Nat} (h : n ≤ 6) : ∃ t, ofCode? n = some t := by
  interval_cases n <;> exact ⟨_, rfl⟩

theorem Direction.ofCode?_eq_none {n : Nat} (h : 1 < n) : ofCode? n = none :=
  match n, h with
  | _ + 2, _ => rfl

theorem Direction.exists_ofCode? {n : Nat} (h : n ≤ 1) : ∃ d, ofCode? n = some d := by
  interval_cases n <;> exact ⟨_, rfl⟩

theorem Sense.exists_ofCode? {n : Nat} (h : n ≤ 1) : ∃ x, ofCode? n = some x := by
  interval_cases n <;> exact ⟨_, rfl⟩

/-- Targets 0 to 4 are those of a group, 5 and 6 those of a pair. -/
theorem Target.fits_iff {n : Nat} {t : Target} (named : ofCode? n = some t) (u : UnitId) :
    t.fits u = true ↔ (n ≤ 4 ↔ u.kindCode = 0) := by
  have le : n ≤ 6 := not_lt.mp fun gt => by simp [ofCode?_eq_none gt] at named
  interval_cases n <;> cases named <;> cases u <;> simp [fits, UnitId.kindCode]

/-- The kind byte of a record's unit is the unit's. -/
theorem kindCode_of_recordField {unit index choice : Byte} {rest : List Byte} {u : UnitId} {c : RecordChoice}
    (record : recordField (unit :: index :: choice :: rest) = some (u, c)) : unit.toNat = u.kindCode := by
  have le : unit.toNat ≤ 1 := not_lt.mp fun gt => by simp [recordField_eq_none rest (.inl gt)] at record
  simp only [recordField, u8_cons_zero, u8_cons_succ, Option.bind_eq_bind, Option.bind_eq_some_iff] at record
  obtain ⟨v, named, r, -, same⟩ := record
  cases same
  interval_cases unit.toNat
  · obtain ⟨g, -, rfl⟩ := Option.map_eq_some_iff.mp named
    rfl
  · obtain ⟨p, -, rfl⟩ := Option.map_eq_some_iff.mp named
    rfl

/-- The tests of R149 on the fields of a SCAN_LINES, behind those of its unit and record. -/
structure ScanFits (u : UnitId) (target start direction count sense : Nat) : Prop where
  target : target ≤ 6 ∧ (target ≤ 4 ↔ u.kindCode = 0)
  start : 1 ≤ start ∧ start ≤ 50
  direction : direction ≤ 1
  count : 1 ≤ count ∧ count ≤ 50
  sense : sense ≤ 1

section
variable {unit index which target start direction count sense : Byte} {value : List Byte} {u : UnitId} {c : RecordChoice}

theorem scanField_eq_some {t : Target} {d : Direction} {x : Sense}
    (record : recordField (unit :: index :: which :: target :: start :: direction :: count :: sense :: value) = some (u, c))
    (targetNamed : Target.ofCode? target.toNat = some t) (directionNamed : Direction.ofCode? direction.toNat = some d)
    (senseNamed : Sense.ofCode? sense.toNat = some x)
    (fits : ScanFits u target.toNat start.toNat direction.toNat count.toNat sense.toNat) :
    scanField (unit :: index :: which :: target :: start :: direction :: count :: sense :: value) =
      some { unit := u, record := c, target := t, start := start.toNat, direction := d, count := count.toNat, sense := x,
             value := u32 value 0 } := by
  have fitsUnit := (Target.fits_iff targetNamed u).mpr fits.target.2
  rw [scanField, record]
  simp [targetNamed, directionNamed, senseNamed, fitsUnit, fits.start, fits.count, u32]

theorem scanField_exists
    (record : recordField (unit :: index :: which :: target :: start :: direction :: count :: sense :: value) = some (u, c))
    (fits : ScanFits u target.toNat start.toNat direction.toNat count.toNat sense.toNat) :
    ∃ x, scanField (unit :: index :: which :: target :: start :: direction :: count :: sense :: value) = some x ∧ x.unit = u ∧ x.record = c := by
  obtain ⟨t, targetNamed⟩ := Target.exists_ofCode? fits.target.1
  obtain ⟨d, directionNamed⟩ := Direction.exists_ofCode? fits.direction
  obtain ⟨x, senseNamed⟩ := Sense.exists_ofCode? fits.sense
  exact ⟨_, scanField_eq_some record targetNamed directionNamed senseNamed fits, rfl, rfl⟩

/-- A request that is read passed every test. -/
theorem scanFits_of_scanField {x : ScanRequest}
    (asked : scanField (unit :: index :: which :: target :: start :: direction :: count :: sense :: value) = some x) :
    ∃ u c, recordField (unit :: index :: which :: target :: start :: direction :: count :: sense :: value) = some (u, c) ∧
      ScanFits u target.toNat start.toNat direction.toNat count.toNat sense.toNat := by
  simp only [scanField, u8_cons_zero, u8_cons_succ, Option.bind_eq_bind, Option.bind_eq_some_iff] at asked
  obtain ⟨⟨u, c⟩, record, t, targetNamed, d, directionNamed, y, senseNamed, tests⟩ := asked
  have passed := (Option.ite_none_right_eq_some.mp tests).1
  simp only [Bool.and_eq_true] at passed
  obtain ⟨⟨⟨⟨fits, startLo⟩, startHi⟩, countLo⟩, countHi⟩ := passed
  refine ⟨u, c, record, ⟨?_, (Target.fits_iff targetNamed u).mp fits⟩,
    ⟨of_decide_eq_true startLo, of_decide_eq_true startHi⟩, ?_, ⟨of_decide_eq_true countLo, of_decide_eq_true countHi⟩, ?_⟩
  · exact not_lt.mp fun gt => by simp [Target.ofCode?_eq_none gt] at targetNamed
  · exact not_lt.mp fun gt => by simp [Direction.ofCode?_eq_none gt] at directionNamed
  · exact not_lt.mp fun gt => by simp [Sense.ofCode?_eq_none gt] at senseNamed

end

/-! ### The walk (R150) -/

/-- The order examined `i` steps into the walk. -/
def scanOrder (up : Bool) (start i : Nat) : Nat := if up then start + i else start - i

/-- The direction by its field. -/
def scanDirection (up : Bool) : Direction := if up then .up else .down

theorem scanOrders_eq (up : Bool) (start n : Nat) :
    scanOrders (scanDirection up) start n = (List.range n).map (scanOrder up start) := by
  cases up <;> rfl

theorem scanCount_eq (up : Bool) (start count : Nat) :
    scanCount (scanDirection up) start count = if up then min count (51 - start) else min count start := by
  cases up <;> rfl

theorem scanLast_eq {up : Bool} {start n : Nat} (some_order : 1 ≤ n) (within : up = false → n ≤ start) :
    scanLast (scanDirection up) start n = scanOrder up start (n - 1) := by
  cases up with
  | true =>
    change start + n - 1 = start + (n - 1)
    omega
  | false =>
    have := within rfl
    change start + 1 - n = start - (n - 1)
    omega

/-- The first of the figures walked over that meets a condition. -/
theorem find?_scan {p : Nat → Bool} {f : Nat → Nat} {n i : Nat} (lt : i < n) (meets : p (f i) = true) (first : ∀ j < i, p (f j) = false) :
    ((List.range n).map f).find? p = some (f i) := by
  have found : (List.range n).find? (p ∘ f) = some i :=
    List.find?_range_eq_some.mpr ⟨meets, List.mem_range.mpr lt, fun j lt => by simp [first j lt]⟩
  rw [List.find?_map, found]
  rfl

theorem find?_scan_eq_none {p : Nat → Bool} {f : Nat → Nat} {n : Nat} (misses : ∀ i < n, p (f i) = false) :
    ((List.range n).map f).find? p = none := by
  refine List.find?_eq_none.mpr fun o mem => ?_
  obtain ⟨i, lt, rfl⟩ := List.mem_map.mp mem
  simp [misses i (List.mem_range.mp lt)]

section
variable {s : State} {p : List Byte} {x : ScanRequest} {r : AnyRecord} {v : Lines}

theorem scanLinesRule_of_no_request (asked : scanField p = none) : scanLinesRule p s = .refused .badValue := by
  simp [scanLinesRule, asked]

theorem scanLinesRule_of_no_record (asked : scanField p = some x) (absent : s.recordOf x.unit x.record = none) :
    scanLinesRule p s = .refused .notAvailable := by
  simp [scanLinesRule, asked, absent]

theorem scanLinesRule_of_no_ratios (asked : scanField p = some x) (stored : s.recordOf x.unit x.record = some r)
    (absent : r.figures x.target = none) : scanLinesRule p s = .refused .notAvailable := by
  simp [scanLinesRule, asked, stored, absent]

theorem scanLinesRule_of_figures (asked : scanField p = some x) (stored : s.recordOf x.unit x.record = some r)
    (figures : r.figures x.target = some v) : scanLinesRule p s = .replied s 0 (scanReply r.window v x) := by
  simp [scanLinesRule, asked, stored, figures]

theorem scanReply_of_found {w : Word} {o : Nat}
    (found : (scanOrders x.direction x.start (scanCount x.direction x.start x.count)).find?
      (fun o => scanMeets x.sense x.value (atOrder v o)) = some o) :
    scanReply w v x = 1 :: beBytes 4 w.toNat ++ one o :: beBytes 4 (atOrder v o) := by
  unfold scanReply
  dsimp only
  rw [found]
  simp [byte1_eq, word4, byte4, one]

theorem scanReply_of_none {w : Word}
    (found : (scanOrders x.direction x.start (scanCount x.direction x.start x.count)).find?
      (fun o => scanMeets x.sense x.value (atOrder v o)) = none) :
    scanReply w v x = 0 :: beBytes 4 w.toNat ++
      [one (scanCount x.direction x.start x.count), one (scanLast x.direction x.start (scanCount x.direction x.start x.count))] := by
  unfold scanReply
  dsimp only
  rw [found]
  simp [byte1_eq, word4, one]

end

/-- The sense by its field. -/
def scanSense (above : Bool) : Sense := if above then .above else .below

theorem scanMeets_eq (above : Bool) (value figure : Nat) :
    scanMeets (scanSense above) value figure = decide (if above then value < figure else figure < value) := by
  cases above <;> rfl

/-- A record in a group's store is a group's. -/
theorem State.unit_of_group {s : State} {u : UnitId} {c : RecordChoice} {r : GroupRecord} (stored : s.recordOf u c = some (.group r)) :
    u.kindCode = 0 := by
  cases u with
  | group g => rfl
  | pair p =>
    obtain ⟨x, -, same⟩ := Option.map_eq_some_iff.mp stored
    cases same

theorem State.unit_of_pair {s : State} {u : UnitId} {c : RecordChoice} {r : PairRecord} (stored : s.recordOf u c = some (.pair r)) :
    u.kindCode = 1 := by
  cases u with
  | pair p => rfl
  | group g =>
    obtain ⟨x, -, same⟩ := Option.map_eq_some_iff.mp stored
    cases same

/-! ### The obligation -/

/-- The code of a target (R149). -/
def Target.code : Target → Nat
  | .vAmp => 0
  | .vRatio => 1
  | .iaAmp => 2
  | .ibAmp => 3
  | .igAmp => 4
  | .ipAmp => 5
  | .ipRatio => 6

theorem Target.ofCode?_code (t : Target) : ofCode? (one t.code).toNat = some t := by cases t <;> rfl

theorem Target.code_le (t : Target) : (one t.code).toNat ≤ 6 := by cases t <;> decide

/-- The payload of a SCAN_LINES (R149). -/
def scanPayload (u : UnitId) (c : RecordChoice) (t : Target) (start count value : Nat) (up above : Bool) : List Byte :=
  [one u.kindCode, one u.index, if c = .latest then 0 else 1, one t.code, one start, if up then 0 else 1, one count,
    if above then 0 else 1] ++ beBytes 4 value

theorem scanField_scanPayload {u : UnitId} {c : RecordChoice} {t : Target} {start count value : Nat} (up above : Bool)
    (small : value < 4294967296) (startLo : 1 ≤ start) (startHi : start ≤ 50) (countLo : 1 ≤ count) (countHi : count ≤ 50)
    (fits : t.code ≤ 4 ↔ u.kindCode = 0) :
    scanField (scanPayload u c t start count value up above) =
      some { unit := u, record := c, target := t, start := start, direction := scanDirection up, count := count, sense := scanSense above,
             value := value } := by
  have startRead : (one start).toNat = start := toNat_one (by omega)
  have countRead : (one count).toNat = count := toNat_one (by omega)
  have code : (one t.code).toNat = t.code := by cases t <;> rfl
  have direction : Direction.ofCode? (if up then (0 : Byte) else 1).toNat = some (scanDirection up) := by cases up <;> rfl
  have sense : Sense.ofCode? (if above then (0 : Byte) else 1).toNat = some (scanSense above) := by cases above <;> rfl
  have named := scanField_eq_some (recordField_code u c _) t.ofCode?_code direction sense (value := beBytes 4 value)
    (start := one start) (count := one count)
    ⟨⟨t.code_le, by rw [code]; exact fits⟩, by rw [startRead]; exact ⟨startLo, startHi⟩, by cases up <;> decide,
      by rw [countRead]; exact ⟨countLo, countHi⟩, by cases above <;> decide⟩
  have read : u32 (beBytes 4 value) 0 = value := by
    rw [u32, slice_beBytes]
    exact beNat_beBytes_of_lt small
  rw [startRead, countRead, read] at named
  exact named

/-- Settles O37: the walk's first order that meets the condition, or its end; and each refusal by the field or the store at fault. -/
theorem scanWalksTheLines : Obligations.ScanWalksTheLines := by
  unfold Obligations.ScanWalksTheLines
  refine ⟨?walks, ?refusals⟩
  case walks =>
    intro s before after q u which record target start count value up above takes normal kind small startLo startHi countLo countHi stored
      targetCode payload n order replied figures given
    have read : record.figures target = figures ∧ (target.code ≤ 4 ↔ u.kindCode = 0) := by
      obtain ⟨r, rfl, target⟩ | ⟨r, rfl, target⟩ := given
      · rw [State.unit_of_group stored]
        obtain ⟨rfl, rfl⟩ | ⟨rfl, rfl⟩ | ⟨rfl, rfl⟩ | ⟨rfl, rfl⟩ | ⟨rfl, rfl⟩ := target <;> exact ⟨rfl, by decide⟩
      · rw [State.unit_of_pair stored]
        obtain ⟨rfl, rfl⟩ | ⟨rfl, rfl⟩ := target <;> exact ⟨rfl, by decide⟩
    obtain ⟨named, fits⟩ := read
    have bytes : q.payload = scanPayload u which target start count value up above := by
      rw [payload, scanPayload, show targetCode = one target.code by cases target <;> rfl]
    have asked := scanField_scanPayload (u := u) (c := which) up above small startLo startHi countLo countHi fits
    rw [← bytes] at asked
    have length : q.payload.length = 12 := by simp [bytes, scanPayload]
    refine ⟨fun absent => ?_, fun v present => ?_⟩
    · exact handle_refused takes kind (decide_eq_true length) (.inl normal) (scanLinesRule_of_no_ratios asked stored (named.trans absent))
    · intro figure meets
      have replies {fields : List Byte} (reply : scanReply record.window v _ = fields) :
          exec .scanLines s = .next (replied fields) :=
        reply ▸ handle_replied takes kind (decide_eq_true length) (.inl normal)
          (scanLinesRule_of_figures asked stored (named.trans present)) rfl
      have meets_iff (i : Nat) : scanMeets (scanSense above) value (atOrder v (scanOrder up start i)) = decide (meets i) :=
        scanMeets_eq ..
      refine ⟨fun i lt met first => ?_, fun missed => ?_⟩
      · refine replies (scanReply_of_found (o := scanOrder up start i) ?_)
        simp only [scanOrders_eq, scanCount_eq]
        refine find?_scan (p := fun o => scanMeets (scanSense above) value (atOrder v o)) lt ?_ fun j lt => ?_
        · rw [meets_iff]; exact decide_eq_true met
        · rw [meets_iff]; exact decide_eq_false (first j lt)
      · have last : scanLast (scanDirection up) start n = order (n - 1) := by
          refine scanLast_eq ?_ ?_
          · simp only [n]; split <;> omega
          · rintro rfl
            exact min_le_right ..
        refine replies ((scanReply_of_none ?_).trans ?_)
        · simp only [scanOrders_eq, scanCount_eq]
          refine find?_scan_eq_none (p := fun o => scanMeets (scanSense above) value (atOrder v o)) fun i lt => ?_
          rw [meets_iff]; exact decide_eq_false (missed i lt)
        · simp only [scanCount_eq]
          exact congrArg (fun o => 0 :: beBytes 4 record.window.toNat ++ [one n, one o]) last
  case refusals =>
    intro s before after q unit index which target start direction count sense value takes normal kind length payload outside
    have lengths : q.payload.length = 12 := by simp [payload, length]
    have zero {b : Byte} (h : b.toNat = 0) : b = 0 := BitVec.eq_of_toNat_eq h
    refine ⟨fun bad => ?_, fun u choice inside unitIs indexIs whichIs absent => ?_⟩
    · have none : scanField q.payload = none := by
        rw [payload, Option.eq_none_iff_forall_ne_some]
        intro x asked
        obtain ⟨u, c, record, fits⟩ := scanFits_of_scanField asked
        have unitCode := kindCode_of_recordField record
        have named : ¬ (1 < unit.toNat ∨ (unit = 0 ∧ 3 < index.toNat) ∨ (unit = 1 ∧ 1 < index.toNat) ∨ 1 < which.toNat) := fun bad => by
          simp [recordField_eq_none _ bad] at record
        obtain ⟨⟨targetLe, targetFits⟩, startIn, directionLe, countIn, senseLe⟩ := fits
        have unit0 : unit = 0 → u.kindCode = 0 := by rintro rfl; exact unitCode.symm
        have unit1 : unit = 1 → u.kindCode = 1 := by rintro rfl; exact unitCode.symm
        have start0 : start ≠ 0 := by rintro rfl; simp at startIn
        have count0 : count ≠ 0 := by rintro rfl; simp at countIn
        obtain bad | bad | bad | bad | ⟨is0, beyond⟩ | ⟨is1, beyond⟩ | bad | bad | bad | bad | bad | bad := bad
        · exact named (.inl bad)
        · exact named (.inr (.inl bad))
        · exact named (.inr (.inr (.inl bad)))
        · exact named (.inr (.inr (.inr bad)))
        · have := targetFits.mpr (unit0 is0)
          omega
        · have := unit1 is1
          omega
        · exact start0 bad
        · omega
        · omega
        · exact count0 bad
        · omega
        · omega
      exact handle_refused takes kind (decide_eq_true lengths) (.inl normal) (scanLinesRule_of_no_request none)
    · have record : recordField q.payload = some (u, choice) := by
        rw [payload, unitIs, indexIs, whichIs]
        exact recordField_code ..
      have unitCode : unit.toNat = u.kindCode := by
        rw [unitIs]
        exact toNat_one (by have := u.kindCode_lt; omega)
      have nonzero {b : Byte} (h : b ≠ 0) : 1 ≤ b.toNat := Nat.one_le_iff_ne_zero.mpr fun is => h (zero is)
      simp only [outside, not_or, not_and] at inside
      obtain ⟨-, -, -, -, groupTarget, pairTarget, startLo, startHi, directionLe, countLo, countHi, senseLe⟩ := inside
      have targetFits : target.toNat ≤ 6 ∧ (target.toNat ≤ 4 ↔ u.kindCode = 0) := by
        cases u with
        | group g =>
          have := groupTarget (zero unitCode)
          exact ⟨by omega, fun _ => rfl, fun _ => by omega⟩
        | pair p =>
          have := pairTarget (BitVec.eq_of_toNat_eq unitCode)
          exact ⟨by omega, fun _ => by omega, fun is => by cases is⟩
      have fits : ScanFits u target.toNat start.toNat direction.toNat count.toNat sense.toNat :=
        ⟨targetFits, ⟨nonzero startLo, not_lt.mp startHi⟩, not_lt.mp directionLe, ⟨nonzero countLo, not_lt.mp countHi⟩, not_lt.mp senseLe⟩
      rw [payload] at record
      obtain ⟨x, asked, rfl, rfl⟩ := scanField_exists record fits
      exact handle_refused takes kind (decide_eq_true lengths) (.inl normal)
        (scanLinesRule_of_no_record ((congrArg scanField payload).trans asked) absent)

end Sys2Proof.Machine
end

