-- ==== Sys2Proof/Proofs/LimitEdits.lean ====
section
/-! PROOFS. SET_LIMIT, DELETE_LIMIT: a payload is read exactly when it writes an entry that passes the tests (R99, R100). -/

namespace Sys2Proof.Machine

open Sys2Proof.Safety

/-! ### Fields that were read are written by the same bytes -/

theorem beBytes_add (n x y : Nat) : beBytes n (y * 256 ^ n + x) = beBytes n x := by
  induction n generalizing y with
  | zero => rfl
  | succ n ih =>
    have regroup : y * 256 ^ (n + 1) + x = (y * 256) * 256 ^ n + x := by ring
    have high : ((y * 256) * 256 ^ n + x) / 256 ^ n = y * 256 + x / 256 ^ n := by
      rw [Nat.add_comm, Nat.add_mul_div_right _ _ (by positivity), Nat.add_comm]
    have byte : BitVec.ofNat 8 (y * 256 + x / 256 ^ n) = BitVec.ofNat 8 (x / 256 ^ n) :=
      BitVec.eq_of_toNat_eq (by simp only [BitVec.toNat_ofNat]; omega)
    rw [beBytes, beBytes, regroup, ih, high, byte]

theorem beBytes_beNat : (bs : List Byte) → beBytes bs.length (beNat bs) = bs
  | [] => rfl
  | b :: bs => by
    have head : (b.toNat * 256 ^ bs.length + beNat bs) / 256 ^ bs.length = b.toNat := by
      rw [Nat.add_comm, Nat.add_mul_div_right _ _ (by positivity), Nat.div_eq_of_lt (beNat_lt bs), Nat.zero_add]
    rw [List.length_cons, beBytes, beNat_cons, head, beBytes_add, beBytes_beNat bs, BitVec.ofNat_toNat, BitVec.setWidth_eq]

theorem beBytesInt_beInt (bs : List Byte) : beBytesInt bs.length (beInt bs) = bs := by
  have lt := beNat_lt bs
  have unsigned : (beInt bs % (256 ^ bs.length : Nat)).toNat = beNat bs := by
    unfold beInt
    dsimp only
    split
    · rw [Int.emod_eq_of_lt (by positivity) (by exact_mod_cast lt)]
      rfl
    · rw [Int.sub_emod_right, Int.emod_eq_of_lt (by positivity) (by exact_mod_cast lt)]
      rfl
  rw [beBytesInt, unsigned, beBytes_beNat]

theorem one_toNat (b : Byte) : one b.toNat = b := by simp [one]

theorem Quantity.code_of_ofCode? {n : Nat} {q : Quantity} (named : ofCode? n = some q) : n = q.code := by
  unfold ofCode? at named
  split at named <;> cases named <;> rfl

theorem Sense.code_of_ofCode? {n : Nat} {x : Sense} (named : ofCode? n = some x) : n = x.code := by
  unfold ofCode? at named
  split at named <;> cases named <;> rfl

theorem Severity.code_of_ofCode? {n : Nat} {x : Severity} (named : ofCode? n = some x) : n = x.code := by
  unfold ofCode? at named
  split at named <;> cases named <;> rfl

theorem PairId.toNat_of_ofNat? {n : Nat} {p : PairId} (named : PairId.ofNat? n = some p) : n = p.toNat := by
  unfold PairId.ofNat? at named
  split at named <;> cases named <;> rfl

/-! ### The scope -/

theorem scopeField_code (scope : Scope) : scopeField scope.kindCode scope.valueCode = some scope := by
  cases scope with
  | groups m =>
    obtain ⟨a, b, c, d⟩ := m
    revert a b c d
    decide
  | pair p => cases p <;> rfl

theorem Scope.kindCode_lt (scope : Scope) : scope.kindCode < 256 := by cases scope <;> simp [kindCode]

theorem Scope.valueCode_lt (scope : Scope) : scope.valueCode < 256 := by
  cases scope with
  | groups m =>
    obtain ⟨a, b, c, d⟩ := m
    revert a b c d
    decide
  | pair p => exact p.toNat_lt.trans (by decide)

theorem code_of_scopeField {kind value : Nat} {scope : Scope} (named : scopeField kind value = some scope) :
    kind = scope.kindCode ∧ value = scope.valueCode := by
  unfold scopeField at named
  split at named
  · split at named
    · cases named
      refine ⟨rfl, ?_⟩
      interval_cases value <;> rfl
    · cases named
  · obtain ⟨p, is, rfl⟩ := Option.map_eq_some_iff.mp named
    exact ⟨rfl, PairId.toNat_of_ofNat? is⟩
  · cases named

/-! ### The tests of an entry (R99) -/

theorem Bridge.isSome_ofCode?_iff (n : Nat) : (Bridge.ofCode? n).isSome = true ↔ n ≤ 2 := by
  match n with
  | 0 | 1 | 2 => decide
  | n + 3 => simp [Bridge.ofCode?]

theorem Scope.isPair_iff (scope : Scope) : scope.isPair = true ↔ ∃ p, scope = .pair p := by
  cases scope <;> simp [Scope.isPair]

theorem Scope.valid_iff (scope : Scope) :
    scope.valid = true ↔ (∃ p, scope = .pair p) ∨ ∃ m g, scope = .groups m ∧ m.get g = true := by
  cases scope with
  | pair p => simp [Scope.valid]
  | groups m => simp [Scope.valid, Quad.any_iff]

theorem Quantity.isPair_iff (q : Quantity) : q.isPair = true ↔ q = .pHarm ∨ q = .jp := by cases q <;> decide

theorem Quantity.hasBridge_iff (q : Quantity) : q.hasBridge = true ↔ q = .iHarm ∨ q = .armK := by cases q <;> decide

theorem Quantity.hasOrders_iff (q : Quantity) : q.hasOrders = true ↔ q = .vHarm ∨ q = .iHarm ∨ q = .pHarm := by cases q <;> decide

/-- The tests one by one, limit and release ordered by the sense. -/
theorem LimitEntry.valid_iff (e : LimitEntry) :
    e.valid = true ↔ e.scope.valid = true ∧ e.quantity.isPair = e.scope.isPair ∧
      (!e.quantity.hasBridge || (Bridge.ofCode? e.bridge.toNat).isSome) = true ∧
      (!e.quantity.hasOrders || (decide (1 ≤ e.first.toNat) && decide (e.first.toNat ≤ e.last.toNat) &&
        decide (e.last.toNat ≤ 50))) = true ∧
      (decide (e.quantity = .iMean) || (decide (0 ≤ e.limit) && decide (0 ≤ e.release))) = true ∧
      (e.sense = .above → e.release ≤ e.limit) ∧ (e.sense = .below → e.limit ≤ e.release) ∧ 1 ≤ e.onCount ∧ 1 ≤ e.offCount := by
  unfold valid
  cases e.sense <;>
    simp only [Bool.and_eq_true, beq_iff_eq, decide_eq_true_eq, reduceCtorEq, forall_const, false_implies, true_and, and_assoc]

theorem LimitEntry.fits_iff (e : LimitEntry) :
    e.fits = true ↔ (-2147483648 ≤ e.limit ∧ e.limit ≤ 2147483647) ∧ (-2147483648 ≤ e.release ∧ e.release ≤ 2147483647) ∧
      e.onCount ≤ 255 ∧ e.offCount ≤ 255 := by
  simp [fits, and_assoc]

theorem entryAccepted_iff (e : LimitEntry) : EntryAccepted e ↔ e.valid = true ∧ e.fits = true := by
  have parts : e.quantity.isPair = e.scope.isPair ↔ ((e.quantity = .pHarm ∨ e.quantity = .jp) ↔ ∃ p, e.scope = .pair p) := by
    rw [← Quantity.isPair_iff, ← Scope.isPair_iff, Bool.eq_iff_iff]
  have bridge : (!e.quantity.hasBridge || (Bridge.ofCode? e.bridge.toNat).isSome) = true ↔
      (e.quantity = .iHarm ∨ e.quantity = .armK → e.bridge.toNat ≤ 2) := by
    rw [← Quantity.hasBridge_iff, ← Bridge.isSome_ofCode?_iff]
    cases e.quantity.hasBridge <;> simp
  have orders : (!e.quantity.hasOrders || (decide (1 ≤ e.first.toNat) && decide (e.first.toNat ≤ e.last.toNat) &&
      decide (e.last.toNat ≤ 50))) = true ↔
      (e.quantity = .vHarm ∨ e.quantity = .iHarm ∨ e.quantity = .pHarm →
        1 ≤ e.first.toNat ∧ e.first.toNat ≤ e.last.toNat ∧ e.last.toNat ≤ 50) := by
    rw [← Quantity.hasOrders_iff]
    cases e.quantity.hasOrders <;> simp [and_assoc]
  have sign : (decide (e.quantity = .iMean) || (decide (0 ≤ e.limit) && decide (0 ≤ e.release))) = true ↔
      (e.quantity ≠ .iMean → 0 ≤ e.limit ∧ 0 ≤ e.release) := by
    by_cases h : e.quantity = .iMean <;> simp [h]
  rw [LimitEntry.valid_iff, LimitEntry.fits_iff, parts, bridge, orders, sign, Scope.valid_iff]
  constructor
  · rintro ⟨scope, quantity, bridge, orders, sign, above, below, ⟨onLo, onHi⟩, ⟨offLo, offHi⟩, limit, release⟩
    exact ⟨⟨scope, quantity, bridge, orders, sign, above, below, onLo, offLo⟩, limit, release, onHi, offHi⟩
  · rintro ⟨⟨scope, quantity, bridge, orders, sign, above, below, onLo, offLo⟩, limit, release, onHi, offHi⟩
    exact ⟨scope, quantity, bridge, orders, sign, above, below, ⟨onLo, onHi⟩, ⟨offLo, offHi⟩, limit, release⟩

/-! ### The payload of SET_LIMIT -/

theorem entryPayload_length (k : Nat) (e : LimitEntry) : (entryPayload k e).length = 19 := by simp [entryPayload]

theorem limitField_entryPayload {k : Fin 48} {e : LimitEntry} (accepted : EntryAccepted e) : limitField (entryPayload k e) = some (k, e) := by
  have slot : (one k.val).toNat = k.val := toNat_one (by omega)
  have kind := toNat_one e.scope.kindCode_lt
  have value := toNat_one e.scope.valueCode_lt
  have quantity := toNat_one e.quantity.code_lt
  have sense := toNat_one e.sense.code_lt
  have severity := toNat_one e.severity.code_lt
  have onCount : (one e.onCount).toNat = e.onCount := toNat_one (by have := accepted.onCount.2; omega)
  have offCount : (one e.offCount).toNat = e.offCount := toNat_one (by have := accepted.offCount.2; omega)
  have limit : i32 (entryPayload k e) 8 = e.limit := by
    simp only [i32, entryPayload, List.cons_append, List.nil_append, List.append_assoc, slice_cons_succ, slice_beBytesInt_append]
    exact beInt_beBytesInt (by have := accepted.limit; norm_num; omega) (by have := accepted.limit; norm_num; omega)
  have release : i32 (entryPayload k e) 12 = e.release := by
    simp only [i32, entryPayload, List.cons_append, List.nil_append, List.append_assoc, slice_cons_succ]
    rw [slice_append _ _ (by simp), beBytesInt_length, slice_beBytesInt_append]
    exact beInt_beBytesInt (by have := accepted.release; norm_num; omega) (by have := accepted.release; norm_num; omega)
  have counts : u8 (entryPayload k e) 16 = e.onCount ∧ u8 (entryPayload k e) 17 = e.offCount ∧ u8 (entryPayload k e) 18 = e.severity.code := by
    simp [entryPayload, u8_append, onCount, offCount, severity]
  obtain ⟨on, off, sev⟩ := counts
  have valid := ((entryAccepted_iff e).mp accepted).1
  unfold limitField
  simp only [limit, release, on, off, sev]
  simp [entryPayload, slot, kind, value, quantity, sense, scopeField_code, Quantity.ofCode?_code, Sense.ofCode?_code, Severity.ofCode?_code,
    valid]

/-- A payload that is read is that of the entry read, and the entry passes the tests. -/
theorem entryPayload_of_limitField {p : List Byte} {k : Fin 48} {e : LimitEntry} (length : p.length = 19) (read : limitField p = some (k, e)) :
    EntryAccepted e ∧ p = entryPayload k e := by
  refine ⟨(entryAccepted_iff e).mpr (limitField_fits read), ?_⟩
  match p, length with
  | [b0, b1, b2, b3, b4, b5, b6, b7, l3, l2, l1, l0, r3, r2, r1, r0, b16, b17, b18], _ =>
    simp only [limitField, Option.bind_eq_bind, Option.bind_eq_some_iff] at read
    obtain ⟨scope, scopeNamed, q, quantityNamed, sense, senseNamed, sev, severityNamed, read⟩ := read
    split at read
    · split at read
      · cases read
        obtain ⟨kind, value⟩ := code_of_scopeField scopeNamed
        simp only [entryPayload, ← kind, ← value, ← Quantity.code_of_ofCode? quantityNamed, ← Sense.code_of_ofCode? senseNamed,
          ← Severity.code_of_ofCode? severityNamed]
        have limit := beBytesInt_beInt [l3, l2, l1, l0]
        have release := beBytesInt_beInt [r3, r2, r1, r0]
        simp [i32, slice, u8, one_toNat] at limit release ⊢
        simp [limit, release]
      · cases read
    · cases read

/-! ### The obligation -/

section
variable {s : State} {p : List Byte}

theorem setLimitRule_of_entry {k : Fin 48} {e : LimitEntry} (read : limitField p = some (k, e)) :
    setLimitRule p s = .replied (s.stageLimit k (.replace e)) 0 [] := by
  unfold setLimitRule
  rw [read]

theorem setLimitRule_of_none (read : limitField p = none) : setLimitRule p s = .refused .badValue := by
  unfold setLimitRule
  rw [read]

theorem deleteLimitRule_of_empty {k : Fin 48} (read : slotField p = some k) (empty : s.prospectiveSlot k = none) :
    deleteLimitRule p s = .refused .notAvailable := by
  simp [deleteLimitRule, read, empty]

theorem deleteLimitRule_of_entry {k : Fin 48} (read : slotField p = some k) (filled : s.prospectiveSlot k ≠ none) :
    deleteLimitRule p s = .replied (s.stageLimit k .delete) 0 [] := by
  simp [deleteLimitRule, read, filled]

end

/-- Settles O43: what is read is staged, and a deletion needs an entry in the prospective slot. -/
theorem limitEditsAreStaged : Obligations.LimitEditsAreStaged := by
  unfold Obligations.LimitEditsAreStaged
  intro s before after q takes staged refusedWith
  refine ⟨fun k e kind accepted payload => ?_, fun kind length foreign => ?_, fun n kind payload => ⟨fun beyond => ?_, fun k number => ?_⟩⟩
  · have read := limitField_entryPayload (k := k) accepted
    rw [← payload] at read
    exact handle_replied takes kind (decide_eq_true (by rw [payload, entryPayload_length])) (.inr rfl) (setLimitRule_of_entry read) rfl
  · have unread : limitField q.payload = none := by
      rw [Option.eq_none_iff_forall_ne_some]
      rintro ⟨k, e⟩ read
      obtain ⟨accepted, same⟩ := entryPayload_of_limitField length read
      exact foreign k e accepted same
    exact handle_refused takes kind (decide_eq_true length) (.inr rfl) (setLimitRule_of_none unread)
  · refine handle_refused takes kind (by rw [payload]; rfl) (.inr rfl) (r := .badValue) ?_
    simp [deleteLimitRule, payload, slotField_eq_none beyond]
  · have read : slotField q.payload = some k := payload ▸ slotField_of_lt number
    have length : q.payload.length = 1 := by simp [payload]
    refine ⟨fun empty => ?_, fun filled => ?_⟩
    · have prospective : s.prospectiveSlot k = none := by
        unfold State.prospectiveSlot
        obtain edit | ⟨edit, slot⟩ := empty
        · rw [edit]; rfl
        · rw [edit, slot]; rfl
      exact handle_refused takes kind (decide_eq_true length) (.inr rfl) (deleteLimitRule_of_empty read prospective)
    · have prospective : s.prospectiveSlot k ≠ none := by
        unfold State.prospectiveSlot
        obtain ⟨e, edit⟩ | ⟨edit, slot⟩ := filled
        · rw [edit]; exact Option.some_ne_none e
        · rw [edit]; exact slot
      exact handle_replied takes kind (decide_eq_true length) (.inr rfl) (deleteLimitRule_of_entry read prospective) rfl

end Sys2Proof.Machine
end

