-- ==== Sys2Proof/Proofs/Staging.lean ====
section
/-! PROOFS. SET_WEIGHTS, SET_CHANNEL, SET_COMPARATOR, SET_ANALYSIS: what is staged or written, and the refusals (R7, R14, R74, R129, R178). -/

namespace Sys2Proof.Machine

open Sys2Proof.Safety

/-! ### SET_WEIGHTS (R74) -/

/-- The payload of a SET_WEIGHTS (R74). -/
def weightsPayload (first count : Nat) (ws : List Nat) : List Byte := [one first, one count] ++ ws.flatMap (beBytes 2)

section
variable {first count : Nat} {ws : List Nat}

theorem weightsPayload_length : (weightsPayload first count ws).length = 2 + 2 * ws.length := by
  rw [weightsPayload, List.length_append, flatMap_length (beBytes_length 2)]
  rfl

theorem lengthFits_weightsPayload : lengthFits 0x0F (weightsPayload first count ws) = true := by
  rw [lengthFits_of_free rfl, weightsPayload_length, Bool.and_eq_true]
  exact ⟨decide_eq_true (by omega), decide_eq_true (by omega)⟩

theorem u16_weightsPayload (small : ∀ w ∈ ws, w < 65536) {j : Nat} (lt : j < ws.length) :
    u16 (weightsPayload first count ws) (2 + 2 * j) = ws[j] := by
  have piece : slice (weightsPayload first count ws) (2 + 2 * j) 2 = beBytes 2 ws[j] := by
    rw [weightsPayload, slice_append _ _ (by simp)]
    simpa [slice] using flatMap_piece (beBytes_length 2) ws j lt
  rw [u16, piece, beNat_short (small _ (List.getElem_mem lt))]

theorem u16s_weightsPayload (small : ∀ w ∈ ws, w < 65536) :
    (List.range ws.length).map (fun j => u16 (weightsPayload first count ws) (2 + 2 * j)) = ws :=
  List.ext_getElem (by simp) fun j _ lt => by simp [u16_weightsPayload small lt]

theorem clampedCount_weightsPayload (small : ∀ w ∈ ws, w < 65536) :
    clampedCount (weightsPayload first count ws) ws.length = (ws.filter fun w => decide (1024 < w)).length := by
  conv_rhs => rw [← u16s_weightsPayload (first := first) (count := count) small, List.filter_map, List.length_map]
  rfl

variable {s : State} {p : List Byte}

theorem setWeightsRule_of_outside (firstRead : u8 p 0 = first) (countRead : u8 p 1 = count)
    (outside : first = 0 ∨ 50 < first ∨ count = 0 ∨ 50 < count ∨ 51 < first + count) : setWeightsRule p s = .refused .badValue := by
  simp only [setWeightsRule, firstRead, countRead]
  exact if_pos (by omega)

theorem setWeightsRule_of_misfit (firstRead : u8 p 0 = first) (countRead : u8 p 1 = count)
    (inside : 1 ≤ first ∧ 1 ≤ count ∧ first + count ≤ 51) (misfit : (p.length - 2) / 2 ≠ count) :
    setWeightsRule p s = .refused .badLength := by
  simp only [setWeightsRule, firstRead, countRead]
  rw [if_neg (by omega), if_pos misfit]

/-- The weights staged once a block is (R74). -/
def stagedWeights (s : State) (p : List Byte) (first count : Nat) : Vector (Option Nat) 50 :=
  Vector.ofFn fun i => match weightAt p first count i.val with
    | some w => some (min w 1024)
    | none => s.ss.staged.weights[i]

theorem setWeightsRule_of_block (firstRead : u8 p 0 = first) (countRead : u8 p 1 = count)
    (inside : 1 ≤ first ∧ 1 ≤ count ∧ first + count ≤ 51) (fits : (p.length - 2) / 2 = count) :
    setWeightsRule p s = .replied (s.setSs { s.ss with staged := { s.ss.staged with weights := stagedWeights s p first count } }) 0
      (byte1 (clampedCount p count)) := by
  simp only [setWeightsRule, firstRead, countRead]
  rw [if_neg (by omega), if_neg (not_not.mpr fits)]
  rfl

theorem stagedWeights_of_block (i : Fin 50) (within : first ≤ i.val + 1 ∧ i.val + 1 < first + count) :
    (stagedWeights s p first count)[i] = some (min (u16 p (2 + 2 * (i.val + 1 - first))) 1024) := by
  simp [stagedWeights, weightAt, within]

theorem stagedWeights_of_other (i : Fin 50) (beyond : i.val + 1 < first ∨ first + count ≤ i.val + 1) :
    (stagedWeights s p first count)[i] = s.ss.staged.weights[i] := by
  have : ¬ (first ≤ i.val + 1 ∧ i.val + 1 < first + count) := by omega
  simp [stagedWeights, weightAt, this]

end

/-- Settles O44: the block's place, its length, and each weight by its order. -/
theorem weightsAreStaged : Obligations.WeightsAreStaged := by
  unfold Obligations.WeightsAreStaged
  intro s before after q first count ws takes kind firstByte countByte small (payload : q.payload = weightsPayload first count ws) refusedWith
  have length : lengthFits 0x0F q.payload = true := by rw [payload, lengthFits_weightsPayload]
  have firstRead : u8 q.payload 0 = first := by rw [payload]; exact toNat_one firstByte
  have countRead : u8 q.payload 1 = count := by rw [payload]; exact toNat_one countByte
  have held : (q.payload.length - 2) / 2 = ws.length := by rw [payload, weightsPayload_length]; omega
  refine ⟨fun outside => ?_, fun firstLo countLo hi misfit => ?_, fun firstLo countLo hi fits => ?_⟩
  · exact handle_refused takes kind length (.inr rfl) (setWeightsRule_of_outside firstRead countRead outside)
  · exact handle_refused takes kind length (.inr rfl)
      (setWeightsRule_of_misfit firstRead countRead ⟨firstLo, countLo, hi⟩ (by rw [held]; exact misfit))
  · refine ⟨stagedWeights s q.payload first count, fun i lo hi => ?_, fun i beyond => ?_, ?_⟩
    · have lt : i.val + 1 - first < ws.length := by omega
      rw [stagedWeights_of_block i ⟨lo, hi⟩, payload, u16_weightsPayload small lt]
      simp [lt]
    · exact stagedWeights_of_other (s := s) (p := q.payload) i beyond
    · have answers := setWeightsRule_of_block (s := s) firstRead countRead ⟨firstLo, countLo, hi⟩ (held.trans fits)
      have clamped : clampedCount q.payload count = (ws.filter fun w => decide (1024 < w)).length := by
        rw [payload, ← fits, clampedCount_weightsPayload small]
      rw [clamped, byte1_eq] at answers
      generalize stagedWeights s q.payload first count = table at answers ⊢
      exact handle_replied takes kind length (.inr rfl) answers rfl

/-! ### SET_CHANNEL (R7, R14) -/

/-- The part of a SET_CHANNEL that is examined for every channel, and the bytes behind it (R14). -/
def channelPayload (c : ChannelId) (x : ChannelSettings) (rest : List Byte) : List Byte :=
  one c.toNat :: beBytes 2 x.fs ++ beBytesInt 2 x.offsetLow ++ beBytes 2 x.gainLow ++ rest

/-- The part of a SET_CHANNEL that is examined for a current channel alone. -/
def highFields (x : ChannelSettings) : List Byte :=
  beBytesInt 2 x.offsetHigh ++ beBytes 2 x.gainHigh ++ [one x.rangeMode.code, one x.hold]

/-- The fields fit their bytes (R172). -/
structure ChannelBytes (x : ChannelSettings) : Prop where
  fs : x.fs < 65536
  gainLow : x.gainLow < 65536
  gainHigh : x.gainHigh < 65536
  hold : x.hold < 256
  offsetLow : -32768 ≤ x.offsetLow ∧ x.offsetLow ≤ 32767
  offsetHigh : -32768 ≤ x.offsetHigh ∧ x.offsetHigh ≤ 32767

section
variable {c : ChannelId} {x : ChannelSettings} {rest : List Byte}

theorem channelPayload_low (bytes : ChannelBytes x) :
    u8 (channelPayload c x rest) 0 = c.toNat ∧ u16 (channelPayload c x rest) 1 = x.fs ∧ i16 (channelPayload c x rest) 3 = x.offsetLow ∧
      u16 (channelPayload c x rest) 5 = x.gainLow := by
  have channel : (one c.toNat).toNat = c.toNat := toNat_one (by have := c.toNat_lt; omega)
  simp [channelPayload, u16, i16, slice_append, channel, beNat_short bytes.fs, beNat_short bytes.gainLow,
    beInt_short bytes.offsetLow.1 bytes.offsetLow.2]

theorem channelPayload_high (bytes : ChannelBytes x) :
    i16 (channelPayload c x (highFields x)) 7 = x.offsetHigh ∧ u16 (channelPayload c x (highFields x)) 9 = x.gainHigh ∧
      u8 (channelPayload c x (highFields x)) 11 = x.rangeMode.code ∧ u8 (channelPayload c x (highFields x)) 12 = x.hold := by
  have mode := toNat_one x.rangeMode.code_lt
  have hold := toNat_one bytes.hold
  simp [channelPayload, highFields, u16, i16, slice_append, u8_append, mode, hold, beNat_short bytes.gainHigh,
    beInt_short bytes.offsetHigh.1 bytes.offsetHigh.2]

theorem channelField_of_unknown_mode {p : List Byte} (channel : u8 p 0 = c.toNat) (current : c.isCurrent = true)
    (unknown : RangeMode.ofCode? (u8 p 11) = none) : channelField p = none := by
  simp [channelField, channel, ChannelId.ofNat?_toNat, current, unknown]

theorem channelField_of_current (bytes : ChannelBytes x) (current : c.isCurrent = true) (known : x.rangeMode.known = true) :
    channelField (channelPayload c x (highFields x)) =
      if x.inRange c then some { channel := c, settings := x } else none := by
  obtain ⟨channel, fs, offsetLow, gainLow⟩ := channelPayload_low (c := c) (rest := highFields x) bytes
  obtain ⟨offsetHigh, gainHigh, mode, hold⟩ := channelPayload_high (c := c) bytes
  have unfixed : x.fixUnused c = x := if_pos current
  simp [channelField, channel, fs, offsetLow, gainLow, offsetHigh, gainHigh, mode, hold, ChannelId.ofNat?_toNat, current,
    RangeMode.ofCode?_code known, unfixed]

/-- The settings that SET_CHANNEL reads for a channel without a HIGH range: the fields examined, and the fixed values. -/
def lowSettings (x : ChannelSettings) : ChannelSettings :=
  { x with offsetHigh := 0, gainHigh := 32768, rangeMode := .auto, hold := 6 }

theorem channelField_of_other (bytes : ChannelBytes x) (other : c.isCurrent = false) :
    channelField (channelPayload c x rest) =
      if 1000 ≤ x.fs ∧ -2048 ≤ x.offsetLow ∧ x.offsetLow ≤ 2047 ∧ 16384 ≤ x.gainLow ∧ x.gainLow ≤ 49151 then
        some { channel := c, settings := lowSettings x } else none := by
  obtain ⟨channel, fs, offsetLow, gainLow⟩ := channelPayload_low (c := c) (rest := rest) bytes
  have fsLe : x.fs ≤ 65535 := by have := bytes.fs; omega
  simp [channelField, channel, fs, offsetLow, gainLow, ChannelId.ofNat?_toNat, other, ChannelSettings.inRange_iff,
    ChannelSettings.fixUnused, lowSettings, fsLe, and_assoc]

end

theorem currentFieldsInRange_iff {c : ChannelId} {x : ChannelSettings} (current : c.isCurrent = true) (bytes : ChannelBytes x) :
    CurrentFieldsInRange x ↔ x.inRange c = true := by
  have fsLe : x.fs ≤ 65535 := by have := bytes.fs; omega
  have mode : x.rangeMode.known = true ↔ x.rangeMode = .auto ∨ x.rangeMode = .fixedLow ∨ x.rangeMode = .fixedHigh := by
    cases x.rangeMode <;> simp [RangeMode.known]
  rw [ChannelSettings.inRange_iff, mode]
  constructor
  · rintro ⟨fs, offsetLow, gainLow, offsetHigh, gainHigh, mode, hold⟩
    exact ⟨⟨fs, offsetLow, gainLow⟩, fun _ => ⟨offsetHigh, gainHigh, mode, hold⟩⟩
  · rintro ⟨⟨fs, offsetLow, gainLow⟩, high⟩
    obtain ⟨offsetHigh, gainHigh, mode, hold⟩ := high current
    exact ⟨fs, offsetLow, gainLow, offsetHigh, gainHigh, mode, hold⟩

theorem GroupId.together_iff (g h : GroupId) (P : Prop) : g = h ∨ (g.pair = h.pair ∧ P) ↔ h = g ∨ (P ∧ h = g.partner) := by
  cases g <;> cases h <;> simp [GroupId.pair, GroupId.partner]

/-- Besides itself a channel shares its FS with those R7 ties to it. -/
theorem SettingsStore.sharesFs_iff (ss : SettingsStore) {c d : ChannelId} (other : d ≠ c) :
    ss.sharesFs c d = true ↔ SharesFs ss.prospectivePairing c d := by
  have current (g h : GroupId) :
      (decide (g = h) || (decide (g.pair = h.pair) && ss.prospectivePairing.paired g.pair)) = true ↔
        h = g ∨ (ss.prospectivePairing.paired g.pair = true ∧ h = g.partner) := by
    simp only [Bool.or_eq_true, Bool.and_eq_true, decide_eq_true_eq]
    exact GroupId.together_iff g h _
  cases c <;> cases d <;> simp [SettingsStore.sharesFs, SharesFs, current] at other ⊢
  all_goals exact fun h => other h.symm

/-- A channel without a HIGH range shares its FS with none. -/
theorem SettingsStore.sharesFs_of_other (ss : SettingsStore) {c : ChannelId} (other : c.isCurrent = false) (d : ChannelId) :
    ss.sharesFs c d = decide (c = d) := by
  cases c with
  | v g | acref => cases d <;> rfl
  | ia g | ib g => cases other

/-- Settles O45: what is read is staged with the FS of the channels that share it. -/
theorem channelIsStaged : Obligations.ChannelIsStaged := by
  unfold Obligations.ChannelIsStaged
  refine ⟨fun s before after q channel fields takes kind payload length beyond => ?_,
    fun s before after q c x rest takes kind fs gainLow gainHigh hold offLo offHi offLo' offHi' payload => ?_⟩
  · refine handle_refused takes kind (decide_eq_true (by simp [payload, length])) (.inr rfl) (r := .badValue) ?_
    simp [setChannelRule, channelField, payload, ChannelId.ofNat?_eq_none beyond]
  · replace payload : q.payload = channelPayload c x rest := payload
    have bytes : ChannelBytes x := ⟨fs, gainLow, gainHigh, hold, ⟨offLo, offHi⟩, ⟨offLo', offHi'⟩⟩
    intro high lowInRange staged refused
    have fits (length : rest.length = 6) : lengthFits 0x10 q.payload = true := decide_eq_true (by simp [payload, channelPayload, length])
    have highLength : (highFields x).length = 6 := by simp [highFields]
    have stages {y : ChannelRequest} (length : rest.length = 6) (read : channelField q.payload = some y) :
        exec .setChannel s = .next (staged (s.ss.stageChannel y).staged.channels) :=
      handle_replied takes kind (fits length) (.inr rfl) (t := s.setSs (s.ss.stageChannel y)) (by rw [setChannelRule, read]) rfl
    have refuses (length : rest.length = 6) (read : channelField q.payload = none) : exec .setChannel s = .next refused :=
      handle_refused takes kind (fits length) (.inr rfl) (r := .badValue) (by rw [setChannelRule, read])
    refine ⟨fun current isHigh range => ?_, fun current isHigh outside => ?_, fun other length range => ?_, fun other length outside => ?_⟩
    · replace isHigh : rest = highFields x := isHigh
      have inRange := (currentFieldsInRange_iff current bytes).mp range
      have known := (((ChannelSettings.inRange_iff c x).mp inRange).2 current).2.2.1
      have read : channelField q.payload = some { channel := c, settings := x } := by
        rw [payload, isHigh, channelField_of_current bytes current known, if_pos inRange]
      refine ⟨_, stages (isHigh ▸ highLength) read, ?_, fun d other => ⟨fun shares => ?_, fun apart => ?_⟩⟩
      · rw [SettingsStore.stageChannel_channel, if_pos rfl]
        exact if_pos current
      · rw [SettingsStore.stageChannel_channel, if_neg other, if_pos ((s.ss.sharesFs_iff other).mpr shares)]
      · rw [SettingsStore.stageChannel_channel, if_neg other, if_neg fun shares => apart ((s.ss.sharesFs_iff other).mp shares)]
    · replace isHigh : rest = highFields x := isHigh
      refine refuses (isHigh ▸ highLength) ?_
      rw [payload, isHigh]
      by_cases known : x.rangeMode.known = true
      · rw [channelField_of_current bytes current known]
        exact if_neg fun inRange => outside ((currentFieldsInRange_iff current bytes).mpr inRange)
      · obtain ⟨channel, -⟩ := channelPayload_low (c := c) (rest := highFields x) bytes
        obtain ⟨-, -, mode, -⟩ := channelPayload_high (c := c) bytes
        refine channelField_of_unknown_mode channel current ?_
        rw [mode]
        cases unknown : x.rangeMode with
        | other k => exact RangeMode.ofCode?_other k
        | auto | fixedLow | fixedHigh => exact absurd (by rw [unknown]; rfl) known
    · have read : channelField q.payload = some { channel := c, settings := lowSettings x } := by
        rw [payload, channelField_of_other bytes other]
        exact if_pos range
      rw [stages length read]
      have table : (s.ss.stageChannel { channel := c, settings := lowSettings x }).staged.channels =
          s.ss.staged.channels.set c { s.ss.staged.channels.get c with
            fs := some x.fs, offsetLow := some x.offsetLow, gainLow := some x.gainLow } := by
        refine PerChannel.ext_get fun d => ?_
        rw [SettingsStore.stageChannel_channel, PerChannel.get_set]
        by_cases same : d = c
        · rw [if_pos same, if_pos same, same, stageFields, if_neg (by simp [other])]
          rfl
        · have apart : s.ss.sharesFs c d = false := by
            rw [s.ss.sharesFs_of_other other]
            exact decide_eq_false fun is => same is.symm
          rw [if_neg same, if_neg same, apart]
          rfl
      rw [table]
    · refine refuses length ?_
      rw [payload, channelField_of_other bytes other]
      exact if_neg outside

end Sys2Proof.Machine
end

