-- ==== Sys2Proof/Proofs/ComparatorAndTripWrites.lean ====
section
/-! PROOFS. SET_COMPARATOR, SET_ANALYSIS, CLEAR_TRIP (R87, R115, R116, R129, R178). -/

namespace Sys2Proof.Machine

open Sys2Proof.Safety

/-! ### SET_COMPARATOR (R129, R130) -/

/-- The payload of a SET_COMPARATOR (R129). -/
def comparatorPayload (g : GroupId) (c : CompId) (x : CompSettings) (filter : Nat) : List Byte :=
  [one g.toNat, one c.toNat, one x.source.code, one x.mode.code, one x.level, one filter,
    if x.tripArmed then 1 else 0, if x.freezeTrigger then 1 else 0, if x.report then 1 else 0]

theorem comparatorField_comparatorPayload {g : GroupId} {c : CompId} {x : CompSettings} {filter : Nat} (level : x.level < 256)
    (small : filter < 256) (least : x.filter = max filter 1) :
    comparatorField (comparatorPayload g c x filter) = some { group := g, comparator := c, settings := x } := by
  have group : (one g.toNat).toNat = g.toNat := toNat_one (by have := g.toNat_lt; omega)
  have comp : (one c.toNat).toNat = c.toNat := toNat_one (by have := c.toNat_lt; omega)
  have source := toNat_one x.source.code_lt
  have mode := toNat_one x.mode.code_lt
  obtain ⟨src, m, lev, filt, armed, freeze, report⟩ := x
  simp only at level least
  subst least
  simp [comparatorField, comparatorPayload, flagField, group, comp, source, mode, toNat_one level, toNat_one small, GroupId.ofNat?_toNat,
    CompId.ofNat?_toNat, CompSource.ofCode?_code, CompMode.ofCode?_code, byteBool?_ite]

/-- A code or flag outside its values (R129). -/
theorem comparatorField_eq_none {g c source mode level filter a f r : Byte}
    (h : 3 < g.toNat ∨ 1 < c.toNat ∨ 2 < source.toNat ∨ 1 < mode.toNat ∨ 1 < a.toNat ∨ 1 < f.toNat ∨ 1 < r.toNat) :
    comparatorField [g, c, source, mode, level, filter, a, f, r] = none := by
  rw [Option.eq_none_iff_forall_ne_some]
  intro x read
  simp only [comparatorField, flagField, u8_cons_zero, u8_cons_succ, List.getD_cons_zero, List.getD_cons_succ, Option.bind_eq_bind,
    Option.bind_eq_some_iff] at read
  obtain ⟨group, groupRead, comp, compRead, src, sourceRead, m, modeRead, armed, armedRead, freeze, freezeRead, report, reportRead, -⟩ := read
  obtain beyond | beyond | beyond | beyond | beyond | beyond | beyond := h
  · simp [GroupId.ofNat?_eq_none beyond] at groupRead
  · simp [CompId.ofNat?_eq_none beyond] at compRead
  · simp [CompSource.ofCode?_eq_none beyond] at sourceRead
  · simp [CompMode.ofCode?_eq_none beyond] at modeRead
  · simp [byteBool?_eq_none beyond] at armedRead
  · simp [byteBool?_eq_none beyond] at freezeRead
  · simp [byteBool?_eq_none beyond] at reportRead

theorem setComparatorRule_of_read {s : State} {p : List Byte} {x : ComparatorRequest} (read : comparatorField p = some x) :
    setComparatorRule p s = .replied
      ((s.setSs { s.ss with working := { s.ss.working with
          comparators := s.ss.working.comparators.set x.group ((s.ss.working.comparators.get x.group).setComp x.comparator x.settings) } }).setFc
        (s.fc.set x.group x.comparator { active := false, run := 0 }))
      0 [boolByte (s.fc.get x.group x.comparator).active] := by
  unfold setComparatorRule
  rw [read]

/-- Settles O46: the settings read become working and the filter starts anew. -/
theorem comparatorIsWritten : Obligations.ComparatorIsWritten := by
  unfold Obligations.ComparatorIsWritten
  intro s before after q takes kind
  refine ⟨fun g c x filter level small least payload => ?_, fun g c source mode level filter a f r payload outside => ?_⟩
  · have read := (congrArg comparatorField payload).trans (comparatorField_comparatorPayload level small least)
    exact handle_replied takes kind (by rw [payload]; rfl) (.inr rfl) (setComparatorRule_of_read (s := s) read) rfl
  · refine handle_refused takes kind (by rw [payload]; rfl) (.inr rfl) (r := .badValue) ?_
    rw [setComparatorRule, payload, comparatorField_eq_none outside]

/-! ### SET_ANALYSIS (R87, R178) -/

/-- The payload of a SET_ANALYSIS (R178). -/
def analysisPayload (x : AnalysisSettings) : List Byte :=
  [one x.window.cycles, one x.nominal.hertz] ++ beBytes 2 x.baseMin ++ beBytes 2 x.lightLoad ++ beBytes 2 x.settle ++
    [one x.pairing.code, one x.digest]

/-- The number fields fit their bytes (R172). -/
structure AnalysisBytes (x : AnalysisSettings) : Prop where
  baseMin : x.baseMin < 65536
  lightLoad : x.lightLoad < 65536
  settle : x.settle < 65536
  digest : x.digest < 256

theorem analysisField_analysisPayload {x : AnalysisSettings} (bytes : AnalysisBytes x) :
    analysisField (analysisPayload x) =
      if x.baseMin ≤ 40000 ∧ x.lightLoad ≤ 40000 ∧ 1 ≤ x.settle then some { x with settle := min x.settle 1000 } else none := by
  have window := toNat_one x.window.cycles_lt
  have nominal := toNat_one x.nominal.hertz_lt
  have pairing := toNat_one x.pairing.code_lt
  have digest := toNat_one bytes.digest
  have numbers : u16 (analysisPayload x) 2 = x.baseMin ∧ u16 (analysisPayload x) 4 = x.lightLoad ∧ u16 (analysisPayload x) 6 = x.settle := by
    simp [analysisPayload, u16, slice_append, beNat_short bytes.baseMin, beNat_short bytes.lightLoad, beNat_short bytes.settle]
  have codes : u8 (analysisPayload x) 0 = x.window.cycles ∧ u8 (analysisPayload x) 1 = x.nominal.hertz ∧
      u8 (analysisPayload x) 8 = x.pairing.code ∧ u8 (analysisPayload x) 9 = x.digest := by
    simp [analysisPayload, u8_append, window, nominal, pairing, digest]
  obtain ⟨baseRead, lightRead, settleRead⟩ := numbers
  obtain ⟨windowRead, nominalRead, pairingRead, digestRead⟩ := codes
  have digestLe : x.digest ≤ 255 := by have := bytes.digest; omega
  simp [analysisField, baseRead, lightRead, settleRead, windowRead, nominalRead, pairingRead, digestRead, WindowLen.ofCycles?_cycles,
    Nominal.ofHertz?_hertz, Pairing.ofCode?_code, AnalysisSettings.inRange, digestLe, and_assoc]

theorem analysisField_eq_none {w nominal pairing digest : Byte} {fields : List Byte} (length : fields.length = 6)
    (h : (w.toNat ≠ 1 ∧ w.toNat ≠ 2 ∧ w.toNat ≠ 4 ∧ w.toNat ≠ 8) ∨ (nominal.toNat ≠ 50 ∧ nominal.toNat ≠ 60) ∨ 3 < pairing.toNat) :
    analysisField (w :: nominal :: fields ++ [pairing, digest]) = none := by
  have pairingAt : u8 (w :: nominal :: fields ++ [pairing, digest]) 8 = pairing.toNat := by simp [u8_append, length]
  rw [Option.eq_none_iff_forall_ne_some]
  intro x read
  simp only [analysisField, pairingAt] at read
  simp only [List.cons_append, u8_cons_zero, u8_cons_succ, Option.bind_eq_bind, Option.bind_eq_some_iff] at read
  obtain ⟨window, windowRead, hertz, hertzRead, paired, pairingRead, -⟩ := read
  obtain unknown | unknown | beyond := h
  · simp [WindowLen.ofCycles?_eq_none unknown] at windowRead
  · simp [Nominal.ofHertz?_eq_none unknown] at hertzRead
  · simp [Pairing.ofCode?_eq_none beyond] at pairingRead

/-- Every pair paired under a setting has one prospective FS (R7). -/
def SettingsStore.PairedAgree (ss : SettingsStore) (pairing : Pairing) : Prop :=
  ∀ p, pairing.paired p = true → ss.pairFsAgrees p = true

theorem any_disagrees_iff (ss : SettingsStore) (pairing : Pairing) :
    (PairId.all.any fun p => pairing.paired p && !ss.pairFsAgrees p) = true ↔ ¬ ss.PairedAgree pairing := by
  simp only [List.any_eq_true, SettingsStore.PairedAgree, not_forall, Bool.and_eq_true, Bool.not_eq_true', exists_prop, Bool.not_eq_true]
  exact ⟨fun ⟨p, _, disagrees⟩ => ⟨p, disagrees⟩, fun ⟨p, disagrees⟩ => ⟨p, PairId.mem_all p, disagrees⟩⟩

section
variable {s : State} {p : List Byte} {x : AnalysisSettings}

theorem setAnalysisRule_of_none (read : analysisField p = none) : setAnalysisRule p s = .refused .badValue := by
  unfold setAnalysisRule
  rw [read]

theorem setAnalysisRule_of_disagreement (read : analysisField p = some x) (disagrees : ¬ s.ss.PairedAgree x.pairing) :
    setAnalysisRule p s = .refused .badValue := by
  unfold setAnalysisRule
  rw [read]
  exact if_pos ((any_disagrees_iff _ _).mpr disagrees)

theorem setAnalysisRule_of_agreement (read : analysisField p = some x) (agrees : s.ss.PairedAgree x.pairing) :
    setAnalysisRule p s = .replied (s.setSs { s.ss with staged := { s.ss.staged with analysis := some x } }) 0 (byte2 x.settle) := by
  unfold setAnalysisRule
  rw [read]
  exact if_neg fun any => (any_disagrees_iff _ _).mp any agrees

end

/-- Settles O47: the seven fields pass their tests and the pairs agree, or nothing is staged. -/
theorem analysisIsStaged : Obligations.AnalysisIsStaged := by
  unfold Obligations.AnalysisIsStaged
  refine ⟨fun s before after q w nominal pairing digest fields takes kind payload length unknown => ?_,
    fun s before after q x takes kind baseMin lightLoad settle digest payload => ?_⟩
  · have fits : q.payload.length = 10 := by simp [payload, length]
    refine handle_refused takes kind (decide_eq_true fits) (.inr rfl) (setAnalysisRule_of_none ?_)
    rw [payload, analysisField_eq_none length unknown]
  · replace payload : q.payload = analysisPayload x := payload
    have bytes : AnalysisBytes x := ⟨baseMin, lightLoad, settle, digest⟩
    have fits : q.payload.length = 10 := by simp [payload, analysisPayload]
    have read := analysisField_analysisPayload bytes
    rw [← payload] at read
    intro agree
    have agree_iff : s.ss.PairedAgree x.pairing ↔ agree :=
      forall_congr' fun p => imp_congr_right fun _ => s.ss.pairFsAgrees_iff p
    refine ⟨fun base light some_settle agrees => ?_, fun outside => ?_⟩
    · rw [if_pos ⟨base, light, some_settle⟩] at read
      exact handle_replied takes kind (decide_eq_true fits) (.inr rfl) (setAnalysisRule_of_agreement read (agree_iff.mpr agrees)) rfl
    · refine handle_refused takes kind (decide_eq_true fits) (.inr rfl) (r := .badValue) ?_
      by_cases inside : x.baseMin ≤ 40000 ∧ x.lightLoad ≤ 40000 ∧ 1 ≤ x.settle
      · rw [if_pos inside] at read
        refine setAnalysisRule_of_disagreement read fun agrees => ?_
        obtain ⟨base, light, some_settle⟩ := inside
        obtain beyond | beyond | beyond | disagrees := outside
        · omega
        · omega
        · omega
        · exact disagrees (agree_iff.mp agrees)
      · rw [if_neg inside] at read
        exact setAnalysisRule_of_none read

/-! ### CLEAR_TRIP (R115, R116) -/

theorem GroupId.toNat_injective {g h : GroupId} (same : g.toNat = h.toNat) : g = h := by cases g <;> cases h <;> simp_all [GroupId.toNat]

theorem State.tripStands_iff (s : State) (g : GroupId) : s.tripStands g = true ↔ StandsFor s g .trip := by
  rw [standsFor_iff]
  simp [State.tripStands]

theorem State.armedActive_iff (s : State) (g : GroupId) :
    s.armedActive g = true ↔ ∃ c, (s.ss.working.comparator g c).tripArmed = true ∧ (s.fc.get g c).active = true := by
  simp only [State.armedActive, List.any_eq_true, Bool.and_eq_true]
  exact ⟨fun ⟨c, _, active⟩ => ⟨c, active⟩, fun ⟨c, active⟩ => ⟨c, CompId.mem_all c, active⟩⟩

theorem Verdict.alerting_iff (v : Verdict) : v.alerting = true ↔ v = .alarm ∨ v = .trip := by cases v <;> decide

/-- The alert line once the latch of a group is cleared in NORMAL (R116). -/
theorem LimitEvaluator.alert_of_cleared (l : LimitEvaluator) (g : GroupId) :
    (l.setLatch .normal g false).alert = true ↔
      (∃ h, l.verdicts.get h = .alarm ∨ l.verdicts.get h = .trip) ∨ ∃ h, h ≠ g ∧ l.latches.get h = true := by
  simp only [LimitEvaluator.setLatch, LimitEvaluator.refreshAlert, decide_true, Bool.true_and, Bool.or_eq_true, Quad.any_iff, Quad.get_map,
    Verdict.alerting_iff, Quad.get_set]
  refine or_congr_right (exists_congr fun h => ?_)
  by_cases same : h = g <;> simp [same]

/-- Settles O48: by whether a cause is present. -/
theorem tripIsCleared : Obligations.TripIsCleared := by
  unfold Obligations.TripIsCleared
  intro s before after q n takes kind normal payload refusedWith
  have fits : lengthFits 0x16 q.payload = true := by rw [payload]; rfl
  refine ⟨fun beyond => ?_, fun g number => ?_⟩
  · refine handle_refused takes kind fits (.inl normal) (r := .badValue) ?_
    rw [clearTripRule, payload, u8_cons_zero, GroupId.ofNat?_eq_none beyond]
  · intro present
    have causes : (s.tripStands g || s.armedActive g) = true ↔ present := by
      rw [Bool.or_eq_true, s.tripStands_iff, s.armedActive_iff]
    have rule : clearTripRule q.payload s =
        if s.tripStands g || s.armedActive g then .refused .causePresent else .replied (s.setLe (s.le.setLatch s.mode g false)) 0 [] := by
      rw [clearTripRule, payload, u8_cons_zero, number, GroupId.ofNat?_toNat]
    refine ⟨fun cause => ?_, fun absent => ⟨(s.le.setLatch .normal g false).alert, s.le.alert_of_cleared g, ?_⟩⟩
    · rw [if_pos (causes.mpr cause)] at rule
      exact handle_refused takes kind fits (.inl normal) rule
    · rw [if_neg fun cause => absent (causes.mp cause), normal] at rule
      exact handle_replied takes kind fits (.inl normal) rule rfl

end Sys2Proof.Machine
end

