-- ==== Sys2Proof/Proofs/Receiver.lean ====
section
/-! PROOFS. LC's receiver: a character in each state, the gap timer, and a whole frame (R157 to R159). -/

namespace Sys2Proof.Machine

open Sys2Proof.Safety

/-! ### The check characters (R157) -/

theorem checkMatches_iff (n : Nat) (got : List Byte) (high low : Byte) :
    checkMatches n got high low = true ↔ (crc16 (one n :: got)).toNat = high.toNat * 256 + low.toNat := by
  have same : beBytes 2 (crc16 (one n :: got)).toNat = [high, low] ↔ (crc16 (one n :: got)).toNat = high.toNat * 256 + low.toNat := by
    have small := (crc16 (one n :: got)).isLt
    have highLt := high.isLt
    have lowLt := low.isLt
    rw [beBytes_two]
    simp only [List.cons.injEq, and_true, ← BitVec.toNat_inj, BitVec.toNat_ofNat]
    omega
  exact decide_eq_true_iff.trans same

theorem bumpAt_zero {n : Nat} (v : Vector Word (n + 1)) : bumpAt v 0 = v.set 0 (v[0] + 1) := by
  ext i lt
  cases i with
  | zero => simp [bumpAt]
  | succ i => simp [bumpAt]

/-! ### A character (R158) -/

section
variable {s : State} {elapsed : Nat} {b : Byte}

theorem gapExceeded_eq_false {now : Count} (within : ∀ u, s.lc.gapFrom = some u → (now - u).toNat ≤ 10217) :
    s.lc.gapExceeded now = false := by
  unfold LinkController.gapExceeded
  split
  · rename_i u from_u
    exact decide_eq_false (not_lt.mpr (within u from_u))
  · rfl

theorem exec_linkCharacter (running : s.inReset = false) (stop : Bool) :
    exec (.linkCharacter elapsed b stop) s = .next (s.receiveCharacter elapsed b) := by
  change whenRunning s _ = _
  rw [whenRunning, running]
  rfl

/-- A character within the gap is taken in the receiver's state. -/
theorem receiveCharacter_within
    (within : ∀ u, s.lc.gapFrom = some u → (s.ct.timebase + BitVec.ofNat 64 elapsed - u).toNat ≤ 10217) :
    s.receiveCharacter elapsed b = { s with
      ct := { s.ct with timebase := s.ct.timebase + BitVec.ofNat 64 elapsed }
      lc := s.lc.character s.ct.cycle (s.ct.timebase + BitVec.ofNat 64 elapsed) b } := by
  have taken : s.lc.gapExceeded (s.ct.elapse elapsed).timebase = false := gapExceeded_eq_false within
  unfold State.receiveCharacter
  dsimp only
  rw [taken]
  rfl

/-- One past the gap finds the frame abandoned (log entry 10). -/
theorem receiveCharacter_beyond {u : Count} (from_u : s.lc.gapFrom = some u)
    (beyond : 10217 < (s.ct.timebase + BitVec.ofNat 64 elapsed - u).toNat) :
    s.receiveCharacter elapsed b = { s with
      ct := { s.ct with timebase := s.ct.timebase + BitVec.ofNat 64 elapsed }
      lc := (s.lc.abandon s.ct.cycle).character s.ct.cycle (s.ct.timebase + BitVec.ofNat 64 elapsed) b } := by
  have abandoned : s.lc.gapExceeded (s.ct.elapse elapsed).timebase = true := by
    unfold LinkController.gapExceeded
    rw [from_u]
    exact decide_eq_true beyond
  unfold State.receiveCharacter
  dsimp only
  rw [abandoned]
  rfl

end

section
variable {l : LinkController} {cycle : Word} {now : Count} {b : Byte}

theorem character_hunt (hunt : l.receiver = .hunt) :
    l.character cycle now b = if b = 0xA5 then { l with receiver := .length, gapFrom := some now } else l := by
  rw [LinkController.character, hunt]
  rfl

theorem character_runt (length : l.receiver = .length) (runt : b.toNat < 2) :
    l.character cycle now b = LinkController.raise cycle
      { l with receiver := .hunt, gapFrom := none, counters := bumpAt l.counters 2 } .linkRunt := by
  rw [LinkController.character, length]
  exact if_pos runt

theorem character_overlong (length : l.receiver = .length) (overlong : 250 < b.toNat) :
    l.character cycle now b = LinkController.raise cycle
      { l with receiver := .hunt, gapFrom := none, counters := bumpAt l.counters 3 } .linkOverlong := by
  rw [LinkController.character, length]
  exact (if_neg (by omega)).trans (if_pos overlong)

theorem character_length (length : l.receiver = .length) (lo : 2 ≤ b.toNat) (hi : b.toNat ≤ 250) :
    l.character cycle now b = { l with receiver := .body b.toNat [], gapFrom := some now } := by
  rw [LinkController.character, length]
  exact (if_neg (by omega)).trans (if_neg (by omega))

theorem character_body {n : Nat} {got : List Byte} (body : l.receiver = .body n got) (more : got.length + 1 < n) :
    l.character cycle now b = { l with receiver := .body n (got ++ [b]), gapFrom := some now } := by
  rw [LinkController.character, body]
  exact if_neg (by omega)

theorem character_body_end {n : Nat} {got : List Byte} (body : l.receiver = .body n got) (last : got.length + 1 = n) :
    l.character cycle now b = { l with receiver := .check n (got ++ [b]) none, gapFrom := some now } := by
  rw [LinkController.character, body]
  exact if_pos last.ge

theorem character_check {n : Nat} {got : List Byte} (check : l.receiver = .check n got none) :
    l.character cycle now b = { l with receiver := .check n got (some b), gapFrom := some now } := by
  rw [LinkController.character, check]
  rfl

theorem character_mismatch {n : Nat} {got : List Byte} {high : Byte} (check : l.receiver = .check n got (some high))
    (mismatch : (crc16 (one n :: got)).toNat ≠ high.toNat * 256 + b.toNat) :
    l.character cycle now b = LinkController.raise cycle
      { l with receiver := .hunt, gapFrom := none, counters := bumpAt l.counters 1 } .linkCheck := by
  rw [LinkController.character, check]
  exact if_neg fun good => mismatch ((checkMatches_iff ..).mp good)

theorem character_good {n : Nat} {got : List Byte} {high : Byte} (check : l.receiver = .check n got (some high))
    (good : (crc16 (one n :: got)).toNat = high.toNat * 256 + b.toNat) :
    l.character cycle now b = LinkController.handOn cycle
      { l with receiver := .hunt, gapFrom := none, counters := bumpAt l.counters 0 } (frameOfBody got) := by
  rw [LinkController.character, check]
  exact if_pos ((checkMatches_iff ..).mpr good)

end

theorem gapStep_of_due {s : State} {due : Count} (is : s.lc.gapDue s.ct.timebase = due) :
    s.gapStep = { s with
      ct := s.ct.reach due
      lc := LinkController.raise s.ct.cycle
        { s.lc with receiver := .hunt, gapFrom := none, counters := bumpAt s.lc.counters 4 } .linkGap } := by
  subst is
  rfl

theorem LinkController.abandon_receiver (l : LinkController) (cycle : Word) : (l.abandon cycle).receiver = .hunt :=
  (LinkController.post_same cycle (LinkController.bump { l with receiver := .hunt, gapFrom := none } 4) [.flag .linkGap]).receiver

/-- Settles O29, by the receiver's state. -/
theorem receiverStates : Obligations.ReceiverStates := by
  unfold Obligations.ReceiverStates
  refine ⟨?within, ?timeout, ?beyond, ?accepted⟩
  case within =>
    intro s elapsed b stop running now within
    refine ⟨s.lc.character s.ct.cycle now b, ?_, fun hunt other => ?_, fun hunt start => ?_, character_runt, character_overlong,
      character_length, fun n got => character_body, fun n got => character_body_end, fun n got => character_check,
      fun n got high => character_mismatch⟩
    · rw [exec_linkCharacter running, receiveCharacter_within within]
    · rw [character_hunt hunt, if_neg other]
    · rw [character_hunt hunt, if_pos start]
  case timeout =>
    intro s u running collecting from_u
    have due : s.lc.gapDue s.ct.timebase = u + 10001#64 := by
      unfold LinkController.gapDue
      rw [from_u]
      rfl
    calc
      exec .gapTimeout s = whenDue s s.lc.collecting s.gapStep := rfl
      _ = .next s.gapStep := by simp [whenDue, running, LinkController.collecting, collecting]
      _ = _ := by rw [gapStep_of_due due]
  case beyond =>
    intro s u elapsed b stop running from_u now beyond abandoned
    rw [exec_linkCharacter running, receiveCharacter_beyond (elapsed := elapsed) from_u beyond,
      character_hunt (s.lc.abandon_receiver s.ct.cycle)]
    rfl
  case accepted =>
    intro s elapsed b high stop n kind tag payload running check good now within free after
    have taken : s.receiveCharacter elapsed b = after := by
      rw [receiveCharacter_within within, character_good check good]
      rfl
    refine ⟨?_, by rw [exec_linkCharacter running, taken]⟩
    have completes : s.completesFrame elapsed b = true := by
      unfold State.completesFrame
      rw [show s.lc.gapExceeded (s.ct.elapse elapsed).timebase = false from gapExceeded_eq_false within, check]
      exact (checkMatches_iff ..).mpr good
    calc
      exec (.frameAccepted elapsed b stop) s = whenDue s (s.completesFrame elapsed b) (s.receiveCharacter elapsed b) := rfl
      _ = .next after := by rw [completes, taken]; simp [whenDue, running]

/-! ### A whole frame (R157) -/

/-- The part `j` characters into a frame, each `gap` counts after the one before, with the receiver at `r`. -/
def receivingAt (s : State) (gap j : Nat) (r : Receiver) : State :=
  { s with
    ct := { s.ct with timebase := s.ct.timebase + BitVec.ofNat 64 (gap * j) }
    lc := { s.lc with receiver := r, gapFrom := some (s.ct.timebase + BitVec.ofNat 64 (gap * j)) } }

theorem next_character (t : Count) (gap j : Nat) :
    t + BitVec.ofNat 64 (gap * j) + BitVec.ofNat 64 gap = t + BitVec.ofNat 64 (gap * (j + 1)) := by
  rw [BitVec.add_assoc, ← BitVec.ofNat_add, Nat.mul_succ]

theorem feed_next {gap : Nat} {b : Byte} {s t : State} (taken : exec (.linkCharacter gap b true) s = .next t) (bs : List Byte) :
    feed gap (b :: bs) s = feed gap bs t := by
  rw [feed, taken]

section
variable {s : State} {gap : Nat} (running : s.inReset = false) (short : gap ≤ 10217)
include running short

/-- A character within a frame that is being received. -/
theorem exec_receivingAt (j : Nat) (r : Receiver) (b : Byte) :
    exec (.linkCharacter gap b true) (receivingAt s gap j r) = .next { s with
      ct := { s.ct with timebase := s.ct.timebase + BitVec.ofNat 64 (gap * (j + 1)) }
      lc := (receivingAt s gap j r).lc.character s.ct.cycle (s.ct.timebase + BitVec.ofNat 64 (gap * (j + 1))) b } := by
  have within : ∀ u, (receivingAt s gap j r).lc.gapFrom = some u →
      ((receivingAt s gap j r).ct.timebase + BitVec.ofNat 64 gap - u).toNat ≤ 10217 := by
    intro u from_u
    cases from_u
    have elapsed : (receivingAt s gap j r).ct.timebase + BitVec.ofNat 64 gap - (s.ct.timebase + BitVec.ofNat 64 (gap * j)) =
        BitVec.ofNat 64 gap := by
      rw [BitVec.add_comm]
      exact BitVec.add_sub_cancel _ _
    rw [elapsed, BitVec.toNat_ofNat]
    exact (Nat.mod_le ..).trans short
  rw [exec_linkCharacter (s := receivingAt s gap j r) running, receiveCharacter_within within]
  rw [show (receivingAt s gap j r).ct.timebase + BitVec.ofNat 64 gap = _ from next_character ..]
  rfl

/-- A character that leaves the frame incomplete. -/
theorem feed_receivingAt {j : Nat} {r r' : Receiver} {b : Byte}
    (taken : (receivingAt s gap j r).lc.character s.ct.cycle (s.ct.timebase + BitVec.ofNat 64 (gap * (j + 1))) b =
      (receivingAt s gap (j + 1) r').lc) (bs : List Byte) :
    feed gap (b :: bs) (receivingAt s gap j r) = feed gap bs (receivingAt s gap (j + 1) r') := by
  refine feed_next ?_ bs
  rw [exec_receivingAt running short, taken]
  rfl

/-- The rest of a body, up to its length. -/
theorem feed_body (n : Nat) (rest : List Byte) : ∀ (bs got : List Byte) (j : Nat), bs ≠ [] → got.length + bs.length = n →
    feed gap (bs ++ rest) (receivingAt s gap j (.body n got)) =
      feed gap rest (receivingAt s gap (j + bs.length) (.check n (got ++ bs) none))
  | [b], got, j, _, length => feed_receivingAt running short (character_body_end rfl (by simpa using length)) rest
  | b :: b' :: bs, got, j, _, length => by
    have more : got.length + 1 < n := by simp at length; omega
    have step := feed_receivingAt running short (r' := .body n (got ++ [b])) (character_body (l := (receivingAt s gap j (.body n got)).lc) rfl more)
      (b' :: bs ++ rest)
    rw [List.cons_append, step, feed_body n rest (b' :: bs) (got ++ [b]) (j + 1) (by simp) (by simp at length ⊢; omega)]
    have place : j + 1 + (b' :: bs).length = j + (b :: b' :: bs).length := by simp; omega
    rw [place, List.append_assoc]
    rfl

/-- The whole of a frame behind its start mark. -/
theorem feed_frame {f : Frame} (payload : f.payload.length ≤ 248) :
    feed gap (f.checked ++ beBytes 2 (crc16 f.checked).toNat) (receivingAt s gap 1 .length) = .next { s with
      ct := { s.ct with timebase := s.ct.timebase + BitVec.ofNat 64 (gap * f.wire.length) }
      lc := LinkController.handOn s.ct.cycle
        { s.lc with receiver := .hunt, gapFrom := none, counters := bumpAt s.lc.counters 0 } f } := by
  have number : (one (f.payload.length + 2)).toNat = f.payload.length + 2 := toNat_one (by omega)
  have checked : f.checked = one (f.payload.length + 2) :: (f.kind :: f.tag :: f.payload) := rfl
  have length := feed_receivingAt running short
    (character_length (l := (receivingAt s gap 1 .length).lc) (b := one (f.payload.length + 2)) rfl (by omega) (by omega))
    ((f.kind :: f.tag :: f.payload) ++ beBytes 2 (crc16 f.checked).toNat)
  have body := feed_body running short (f.payload.length + 2) (beBytes 2 (crc16 f.checked).toNat) (f.kind :: f.tag :: f.payload) [] 2
    (by simp) (by simp)
  rw [number] at length
  conv_lhs => rw [checked, List.cons_append, ← checked, length, body, beBytes_two]
  rw [feed_receivingAt running short (character_check rfl)]
  refine (feed_next (exec_receivingAt running short _ _ _) []).trans ?_
  have crcSmall := (crc16 f.checked).isLt
  have good : (crc16 (one (f.payload.length + 2) :: ([] ++ f.kind :: f.tag :: f.payload))).toNat =
      (BitVec.ofNat 8 ((crc16 f.checked).toNat / 256)).toNat * 256 + (BitVec.ofNat 8 (crc16 f.checked).toNat).toNat := by
    rw [List.nil_append, ← checked, BitVec.toNat_ofNat, BitVec.toNat_ofNat]
    omega
  have wireLength : 2 + (f.kind :: f.tag :: f.payload).length + 1 + 1 = f.wire.length := by
    simp only [Frame.wire, checked, List.length_cons, List.length_append, beBytes_length]
    omega
  rw [character_good rfl good, wireLength]
  rfl

end

/-- Settles O28, by induction over the characters of the body. -/
theorem frameOnTheWireIsReceived : Obligations.FrameOnTheWireIsReceived := by
  unfold Obligations.FrameOnTheWireIsReceived
  intro s f gap running payload short hunt idle room
  have mark : exec (.linkCharacter gap 0xA5 true) s = .next (receivingAt s gap 1 .length) := by
    rw [exec_linkCharacter running, receiveCharacter_within (fun u from_u => by rw [idle] at from_u; cases from_u), character_hunt hunt,
      receivingAt, Nat.mul_one]
    rfl
  have kept : { s.lc with receiver := .hunt, gapFrom := none } = s.lc := by rw [← hunt, ← idle]
  calc
    feed gap f.wire s = feed gap (f.checked ++ beBytes 2 (crc16 f.checked).toNat) (receivingAt s gap 1 .length) := feed_next mark _
    _ = _ := feed_frame running short payload
    _ = _ := by
      rw [LinkController.handOn, if_pos (show _ < Config.pendingMax from room), bumpAt_zero, ← hunt, ← idle]

end Sys2Proof.Machine
end

