-- ==== Sys2Proof/Proofs/Transmission.lean ====
section
/-! PROOFS. The transmitter and its arbiter, and the bytes of every report (R163, R171 to R174, R177). -/

namespace Sys2Proof.Machine

open Sys2Proof.Safety

/-! ### The reply READY earliest (R163) -/

theorem readyReply_eq_some {e : Entry} {x : Nat × Frame} : e.readyReply = some x ↔ e.stage = .ready x.1 x.2 := by
  unfold Entry.readyReply
  split
  · rename_i n r stage
    rw [stage]
    simp [Prod.ext_iff]
  · rename_i notReady
    exact ⟨nofun, fun h => absurd h (notReady _ _)⟩

/-- Later replies do not displace the earliest. -/
theorem foldl_earlierReply_of_least {best : Nat × Frame} :
    ∀ {xs : List (Nat × Frame)}, (∀ x ∈ xs, best.1 < x.1) → xs.foldl earlierReply (some best) = some best
  | [], _ => rfl
  | x :: xs, least => by
    have later : ¬ x.1 < best.1 := not_lt.mpr (least x (by simp)).le
    rw [List.foldl_cons, earlierReply, if_neg later]
    exact foldl_earlierReply_of_least fun y mem => least y (by simp [mem])

/-- What is chosen among replies is one of them. -/
theorem foldl_earlierReply_mem : ∀ (xs : List (Nat × Frame)) (best : Option (Nat × Frame)) {b : Nat × Frame},
    xs.foldl earlierReply best = some b → best = some b ∨ b ∈ xs
  | [], _, _, chosen => .inl chosen
  | x :: xs, best, b, chosen => by
    obtain kept | mem := foldl_earlierReply_mem xs (earlierReply best x) chosen
    · cases best with
      | none => cases kept; simp
      | some a =>
        simp only [earlierReply] at kept
        split at kept <;> cases kept <;> simp
    · simp [mem]

section
variable {l : LinkController} {before after : List Entry} {q r : Frame} {n : Nat}

theorem nextReply_of_least (entries : l.entries = before ++ { request := q, stage := .ready n r } :: after)
    (least : ∀ e ∈ before ++ after, ∀ m f, e.stage = .ready m f → n < m) : l.nextReply = some (n, r) := by
  have later {es : List Entry} (sub : ∀ e ∈ es, e ∈ before ++ after) : ∀ x ∈ es.filterMap Entry.readyReply, n < x.1 := by
    intro x mem
    obtain ⟨e, inside, ready⟩ := List.mem_filterMap.mp mem
    exact least e (sub e inside) x.1 x.2 (readyReply_eq_some.mp ready)
  have taken : earlierReply ((before.filterMap Entry.readyReply).foldl earlierReply none) (n, r) = some (n, r) := by
    cases chosen : (before.filterMap Entry.readyReply).foldl earlierReply none with
    | none => rfl
    | some b =>
      obtain none | mem := foldl_earlierReply_mem _ _ chosen
      · cases none
      · exact if_pos (later (by simp +contextual) b mem)
  unfold LinkController.nextReply
  rw [entries, List.filterMap_append, List.filterMap_cons, List.foldl_append]
  change List.foldl earlierReply (earlierReply _ (n, r)) _ = _
  rw [taken]
  exact foldl_earlierReply_of_least (later (by simp +contextual))

theorem nextReply_eq_none (unready : ∀ e ∈ l.entries, ∀ m f, e.stage ≠ .ready m f) : l.nextReply = none := by
  have none : l.entries.filterMap Entry.readyReply = [] := by
    refine List.filterMap_eq_nil_iff.mpr fun e mem => ?_
    rw [Option.eq_none_iff_forall_ne_some]
    exact fun x ready => unready e mem x.1 x.2 (readyReply_eq_some.mp ready)
  unfold LinkController.nextReply
  rw [none]
  rfl

theorem readyAt_iff (e : Entry) : e.readyAt n = true ↔ ∃ f, e.stage = .ready n f := by
  unfold Entry.readyAt
  split
  · rename_i m f stage
    rw [decide_eq_true_iff, stage]
    exact ⟨fun same => ⟨f, by rw [same]⟩, fun ⟨g, same⟩ => by cases same; rfl⟩
  · rename_i notReady
    exact ⟨nofun, fun ⟨f, h⟩ => absurd h (notReady _ _)⟩

/-- The entry of the earliest reply becomes SENDING. -/
theorem restage_readyAt (least : ∀ e ∈ before ++ after, ∀ m f, e.stage = .ready m f → n < m) :
    restage (Entry.readyAt n) .sending (before ++ { request := q, stage := .ready n r } :: after) =
      before ++ { request := q, stage := .sending } :: after := by
  refine restage_append (fun e mem => ?_) ((readyAt_iff _).mpr ⟨r, rfl⟩)
  rw [Bool.eq_false_iff]
  intro ready
  obtain ⟨f, stage⟩ := (readyAt_iff e).mp ready
  exact absurd (least e (by simp [mem]) n f stage) (lt_irrefl n)

end

section
variable {s : State}

theorem exec_transmitStart (running : s.inReset = false) (idle : s.lc.sending = none) (notDue : s.lc.restartDue = false) :
    exec .transmitStart s = .next (if s.lc.hasFrame then s.setLc s.lc.transmit else s) := by
  change whenDue s _ _ = _
  simp [whenDue, running, LinkController.mayTransmit, idle, notDue]

theorem exec_frameSent (running : s.inReset = false) {t : Sending} (sending : s.lc.sending = some t) :
    exec .frameSent s = .next (s.setLc s.lc.sent) := by
  change whenDue s _ _ = _
  simp [whenDue, running, sending]

/-- Only the entry being sent leaves the list (R160). -/
theorem filter_sending {before after : List Entry} {q : Frame} (others : ∀ e ∈ before ++ after, e.stage ≠ .sending) :
    ((before ++ { request := q, stage := .sending } :: after).filter fun e => !e.isSending) = before ++ after := by
  have kept {es : List Entry} (sub : ∀ e ∈ es, e ∈ before ++ after) : es.filter (fun e => !e.isSending) = es :=
    List.filter_eq_self.mpr fun e mem => by simp [Entry.isSending, others e (sub e mem)]
  have leaves : Entry.isSending { request := q, stage := .sending } = true := rfl
  rw [List.filter_append, List.filter_cons, leaves, kept (by simp +contextual), kept (by simp +contextual)]
  rfl

end

/-! ### Fields of several bytes (R172) -/

theorem beBytes_getElem? (n x : Nat) : ∀ i, i < n → (beBytes n x)[i]? = some (one (x / 256 ^ (n - 1 - i))) := by
  induction n with
  | zero => exact fun i lt => absurd lt (Nat.not_lt_zero i)
  | succ n ih =>
    intro i lt
    cases i with
    | zero => rfl
    | succ i =>
      rw [beBytes, List.getElem?_cons_succ, ih i (by omega)]
      congr 4
      omega

theorem beBytesInt_eq {n : Nat} {y : Int} (lo : -(256 ^ n : Nat) ≤ 2 * y) (hi : 2 * y < (256 ^ n : Nat)) :
    beBytesInt n y = beBytes n (if 0 ≤ y then y.toNat else 256 ^ n - y.natAbs) := by
  unfold beBytesInt
  congr 1
  split
  · rw [Int.emod_eq_of_lt ‹_› (by omega)]
  · rw [← Int.add_emod_right, Int.emod_eq_of_lt (by omega) (by omega)]
    omega

/-! ### The reports (R173, R174) -/

theorem signed4_eq (x : Int) : signed4 x = beBytesInt 4 x := rfl

theorem byte4_eq (x : Nat) : byte4 x = beBytes 4 x := rfl

theorem byte2_eq (x : Nat) : byte2 x = beBytes 2 x := rfl

theorem optBytes_none (width : Nat) : optBytes width none = 0 :: List.replicate width 0 := rfl

theorem periodBytes_length (p : Nat) : (periodBytes p).length = 4 := by
  unfold periodBytes
  split
  · exact beBytes_length ..
  · exact beBytes_length ..

theorem periodBytes_of_lt {p : Nat} (small : p < 2 ^ 32) : periodBytes p = beBytes 4 p := if_pos small

theorem isReport_verdictChange (g : GroupId) (old new : Verdict) (cause : VerdictCause) (window : Word) (entry : Option (Nat × Bool)) :
    IsReport (.verdictChange g old new cause window entry) 0x81
      ([one g.toNat, one old.code, one new.code, one cause.code] ++ beBytes 4 window.toNat ++
        optBytes 1 (entry.map fun e => [one e.1]) ++ [if (entry.map Prod.snd).getD false then 1 else 0]) :=
  ⟨rfl, by simp [ReportBody.fields, byte1_eq, word4, boolByte]⟩

theorem isReport_limitEvent (k : Nat) (u : UnitId) (event : LimitEventKind) (severity : Severity) (window : Word) (value : Option Int) :
    IsReport (.limitEvent k u event severity window value) 0x82
      ([one k, one u.kindCode, one u.index, one event.code, one severity.code] ++ beBytes 4 window.toNat ++
        optBytes 4 (value.map fun x => beBytesInt 4 x)) :=
  ⟨rfl, by simp [ReportBody.fields, byte1_eq, word4, show signed4 = beBytesInt 4 from rfl]⟩

theorem isReport_freezeEvent (frozen : Bool) (r : TriggerRecord) (post : Nat) (span : Option (Word × Word)) (ignored : Nat) :
    IsReport (.freezeEvent frozen r post span ignored) 0x86
      ([if frozen then 2 else 1, one r.cause.code] ++ optBytes 1 (r.group.map fun g => [one g.toNat]) ++
        optBytes 1 (r.comparator.map fun c => [one c.toNat]) ++ optBytes 4 (r.window.map fun w => beBytes 4 w.toNat) ++
        beBytes 4 r.cycle.toNat ++ [one post] ++ (optBytes 4 (span.map fun s => beBytes 4 s.1.toNat) ++
          optBytes 4 (span.map fun s => beBytes 4 s.2.toNat)) ++ beBytes 2 ignored) := by
  refine ⟨rfl, ?_⟩
  have kind : one (if frozen then 2 else 1) = if frozen then 2 else 1 := by cases frozen <;> rfl
  simp only [ReportBody.fields, byte1_eq, word4_eq, byte2_eq, kind]
  simp

theorem isReport_windowDigest (g : GroupId) (window : Word) (mean : Int) (rf : Option Nat) (jg : Nat) (verdict : Verdict) :
    IsReport (.windowDigest g window mean rf jg verdict) 0x88
      (one g.toNat :: beBytes 4 window.toNat ++ beBytesInt 4 mean ++ (boolByte rf.isSome :: ratio2 rf) ++ beBytes 4 jg ++ [one verdict.code]) :=
  ⟨rfl, by simp [ReportBody.fields, byte1_eq, word4, signed4_eq, byte4_eq, ratioBytes_eq]⟩

/-! ### The obligation -/

/-- Settles O31: the arbiter's choice, the end of a frame, and the bytes of each kind of report. -/
theorem transmitterAndArbiter : Obligations.TransmitterAndArbiter := by
  unfold Obligations.TransmitterAndArbiter
  refine ⟨fun s before after q r n running idle notDue entries least => ?_, fun s r rest running idle notDue unready queue => ⟨fun free => ?_,
    fun held => ?_⟩, fun s before after q r running sending entries others => ?_, fun s r running sending => ?_,
    fun n x => ⟨beBytes_length n x, beBytes_getElem? n x, fun y => beBytesInt_eq⟩, fun n bs => ⟨rfl, rfl⟩, ?_,
    fun g old new cause window entry => ?_, fun k u event severity window value => ?_, fun g c source mode active value index tripped => ?_,
    fun old new cause period frequency => ⟨periodBytes period, periodBytes_length period, periodBytes_of_lt, rfl, ?_⟩,
    fun g old new cause window => ⟨rfl, ?_⟩, fun p old new cause window => ⟨rfl, ?_⟩, fun frozen r post span ignored => ?_,
    fun f flags => ⟨rfl, ?_⟩, fun g window mean rf jg verdict => ?_⟩
  · have next := nextReply_of_least entries least
    have frame : s.lc.hasFrame = true := by simp [LinkController.hasFrame, next]
    rw [exec_transmitStart running idle notDue, frame, if_pos rfl, LinkController.transmit, next, entries]
    simp only [restage_readyAt least]
    rfl
  · have next := nextReply_eq_none unready
    have frame : s.lc.hasFrame = true := by simp [LinkController.hasFrame, next, free, queue]
    rw [exec_transmitStart running idle notDue, frame, if_pos rfl, LinkController.transmit, next, queue]
    simp only [free, if_true]
    rfl
  · have next := nextReply_eq_none unready
    have frame : s.lc.hasFrame = false := by simp [LinkController.hasFrame, next, held.ne']
    rw [exec_transmitStart running idle notDue, frame]
    rfl
  · rw [exec_frameSent running sending, LinkController.sent, sending, entries]
    simp only [if_true, filter_sending others]
    rfl
  · rw [exec_frameSent running sending, LinkController.sent, sending]
    rfl
  · exact ⟨rfl, rfl, rfl, rfl, rfl, rfl, rfl, rfl, rfl, rfl, rfl, rfl, rfl, rfl, rfl, rfl⟩
  · have report := isReport_verdictChange g old new cause window entry
    cases entry <;> simpa [optBytes] using report
  · have report := isReport_limitEvent k u event severity window value
    cases u <;> cases value <;> simpa [optBytes, UnitId.kindCode, UnitId.index, one] using report
  · exact ⟨rfl, by simp [ReportBody.fields, byte1_eq, signed4_eq, boolByte]⟩
  · simp [ReportBody.fields, byte1_eq, byte4_eq]
  · simp [ReportBody.fields, byte1_eq, word4, one]
  · simp [ReportBody.fields, byte1_eq, word4, one]
  · have report := isReport_freezeEvent frozen r post span ignored
    cases span <;> simpa [optBytes] using report
  · simp [ReportBody.fields, byte1_eq, flagBytes]
  · have report := isReport_windowDigest g window mean rf jg verdict
    cases rf <;> simpa [boolByte, ratio2] using report

end Sys2Proof.Machine
end

