-- ==== Sys2Proof/Proofs/QueuePolicy.lean ====
section
/-! PROOFS. The full-queue policy of the report queue, the cause of a sticky flag, and the notices of one event (R164, R168). -/

namespace Sys2Proof.Machine

open Sys2Proof.Safety

/-! ### The queue after a record -/

theorem dropOldestNonTrip_of_first {r : Report} (nonTrip : r.body.isTrip = false) (newer : List Report) :
    ∀ {older : List Report}, (∀ x ∈ older, x.body.isTrip = true) → dropOldestNonTrip (older ++ r :: newer) = some (older ++ newer)
  | [], _ => by simp [dropOldestNonTrip, nonTrip]
  | x :: older, trips => by
    have rest := dropOldestNonTrip_of_first nonTrip newer (older := older) fun y mem => trips y (by simp [mem])
    simp [dropOldestNonTrip, trips x (by simp), rest]

theorem dropOldestNonTrip_of_trips : ∀ {q : List Report}, (∀ x ∈ q, x.body.isTrip = true) → dropOldestNonTrip q = none
  | [], _ => rfl
  | x :: q, trips => by
    simp [dropOldestNonTrip, trips x (by simp), dropOldestNonTrip_of_trips (q := q) fun y mem => trips y (by simp [mem])]

section
variable {q : List Report} {r : Report}

theorem queueAfter_of_room (room : q.length < 64) : queueAfter q r = (q ++ [r], false) := if_pos room

theorem queueAfter_of_nonTrip (full : q.length = 64) (nonTrip : r.body.isTrip = false) : queueAfter q r = (q, true) := by
  unfold queueAfter
  rw [if_neg (show ¬ q.length < Config.queueMax from full.not_lt), nonTrip]
  rfl

theorem queueAfter_of_displaced {older newer : List Report} {x : Report} (full : q.length = 64) (trip : r.body.isTrip = true)
    (parts : q = older ++ x :: newer) (trips : ∀ y ∈ older, y.body.isTrip = true) (nonTrip : x.body.isTrip = false) :
    queueAfter q r = (older ++ newer ++ [r], true) := by
  unfold queueAfter
  rw [if_neg (show ¬ q.length < Config.queueMax from full.not_lt), if_pos trip, parts, dropOldestNonTrip_of_first nonTrip newer trips]

theorem queueAfter_of_trips (full : q.length = 64) (trip : r.body.isTrip = true) (trips : ∀ y ∈ q, y.body.isTrip = true) :
    queueAfter q r = (q, true) := by
  unfold queueAfter
  rw [if_neg (show ¬ q.length < Config.queueMax from full.not_lt), if_pos trip, dropOldestNonTrip_of_trips trips]

end

theorem bumpLost_eq {n : Nat} (le : n ≤ 65535) : bumpLost n = min (n + 1) 65535 := by
  unfold bumpLost
  split <;> omega

/-! ### A record enqueued (R164) -/

section
variable {l : LinkController} {cycle : Word} {b : ReportBody} {q : List Report}

theorem enqueue_of_room (room : l.queue.length < 64) :
    l.enqueue cycle b = { l with queue := l.queue ++ [{ cycle := cycle, body := b }] } := by
  unfold LinkController.enqueue LinkController.enqueueRaw
  simp only [queueAfter_of_room room]
  rfl

theorem enqueue_of_loss_noted (loss : queueAfter l.queue { cycle := cycle, body := b } = (q, true)) (le : l.lost ≤ 65535)
    (noted : flagOf l.flags .reportLost = true) : l.enqueue cycle b = { l with queue := q, lost := min (l.lost + 1) 65535 } := by
  unfold LinkController.enqueue LinkController.enqueueRaw
  simp only [loss, noted, bumpLost_eq le]
  rfl

/-- A loss with REPORT_LOST clear sets it, and with the mask on its FLAG_EVENT is lost too. -/
theorem enqueue_of_loss_unnoted (loss : queueAfter l.queue { cycle := cycle, body := b } = (q, true)) (full : q.length = 64)
    (le : l.lost ≤ 65535) (unnoted : flagOf l.flags .reportLost = false) :
    l.enqueue cycle b = { l with
      queue := q
      flags := l.flags ||| 0x020#12
      lost := if flagOf l.masks .reportLost then min (l.lost + 2) 65535 else min (l.lost + 1) 65535 } := by
  have second : queueAfter q { cycle := cycle, body := .flagEvent .reportLost (l.flags ||| flagBit .reportLost) } = (q, true) :=
    queueAfter_of_nonTrip full rfl
  have twice : bumpLost (bumpLost l.lost) = min (l.lost + 2) 65535 := by
    rw [bumpLost_eq le, bumpLost_eq (min_le_right ..)]
    omega
  unfold LinkController.enqueue LinkController.enqueueRaw
  simp only [loss, unnoted, second, if_true, Bool.not_false, Bool.and_self]
  cases flagOf l.masks .reportLost with
  | true =>
    rw [twice]
    rfl
  | false =>
    rw [bumpLost_eq le]
    rfl

end

/-! ### The cause of a flag (R168) -/

theorem Flag.number_lt (f : Flag) : f.number < 12 := by cases f <;> decide

theorem flagBit_getLsbD (f : Flag) (k : Nat) : (flagBit f).getLsbD k = true ↔ k = f.number := by
  have := f.number_lt
  rw [flagBit, BitVec.getLsbD_ofNat, Nat.testBit_two_pow]
  simp only [Bool.and_eq_true, decide_eq_true_eq]
  omega

section
variable {l : LinkController} {cycle : Word} {f : Flag}

theorem raise_of_set (set : flagOf l.flags f = true) : l.raise cycle f = l := if_pos set

theorem raise_of_unmasked (clear : flagOf l.flags f = false) (off : flagOf l.masks f = false) :
    l.raise cycle f = { l with flags := l.flags ||| flagBit f } := by
  unfold LinkController.raise
  rw [clear, off]
  rfl

theorem raise_of_masked (clear : flagOf l.flags f = false) (on : flagOf l.masks f = true) :
    l.raise cycle f = LinkController.enqueue cycle { l with flags := l.flags ||| flagBit f } (.flagEvent f (l.flags ||| flagBit f)) := by
  unfold LinkController.raise
  rw [clear, on]
  rfl

end

/-- Settles O32, by what the queue does with a record and whether the flag is set already. -/
theorem fullQueuePolicy : Obligations.FullQueuePolicy := by
  unfold Obligations.FullQueuePolicy
  refine ⟨?queue, ?flags, fun l cycle b f ns => ⟨rfl, rfl, rfl⟩⟩
  case queue =>
    intro l cycle b le new
    have displaced {older newer : List Report} {r : Report} (full : l.queue.length = 64) (parts : l.queue = older ++ r :: newer) :
        (older ++ newer ++ [new]).length = 64 := by
      rw [parts] at full
      simp only [List.length_append, List.length_cons, List.length_nil] at full ⊢
      omega
    refine ⟨enqueue_of_room, fun full noted nonTrip => ?_, fun older r newer full noted trip parts trips nonTrip => ?_,
      fun full noted trip trips => ?_, fun full unnoted nonTrip => ?_, fun older r newer full unnoted trip parts trips nonTrip => ?_,
      fun full unnoted trip trips => ?_⟩
    · exact enqueue_of_loss_noted (queueAfter_of_nonTrip full nonTrip) le noted
    · exact enqueue_of_loss_noted (queueAfter_of_displaced full trip parts trips nonTrip) le noted
    · exact enqueue_of_loss_noted (queueAfter_of_trips full trip trips) le noted
    · exact enqueue_of_loss_unnoted (queueAfter_of_nonTrip full nonTrip) full le unnoted
    · exact enqueue_of_loss_unnoted (queueAfter_of_displaced full trip parts trips nonTrip) (displaced full parts) le unnoted
    · exact enqueue_of_loss_unnoted (queueAfter_of_trips full trip trips) full le unnoted
  case flags =>
    intro l cycle f
    refine ⟨l.flags ||| flagBit f, fun k => ?_, raise_of_set, raise_of_unmasked, fun clear on => ⟨raise_of_masked clear on, fun room => ?_⟩⟩
    · rw [BitVec.getLsbD_or, Bool.or_eq_true, flagBit_getLsbD]
    · rw [raise_of_masked clear on]
      exact enqueue_of_room room

end Sys2Proof.Machine
end

