-- ==== Sys2Proof/Proofs/RequestPlaces.lean ====
section
/-! PROOFS. A request keeps its place in the pending list until its reply has been sent (R159, R160). -/

namespace Sys2Proof.Machine

open Sys2Proof.Safety

/-! ### The requests of the list over a character -/

section
variable (l : LinkController) (cycle : Word)

theorem raise_entries (f : Flag) : (l.raise cycle f).entries = l.entries := (l.post_same cycle [.flag f]).entries

theorem abandon_entries : (l.abandon cycle).entries = l.entries := raise_entries _ cycle .linkGap

/-- A good frame is held at the tail, or not at all (R159). -/
theorem handOn_entries (f : Frame) : (l.handOn cycle f).entries = l.entries ∨ ∃ e, (l.handOn cycle f).entries = l.entries ++ [e] := by
  unfold LinkController.handOn
  split
  · exact .inr ⟨_, rfl⟩
  · exact .inl (raise_entries _ cycle _)

theorem character_entries (now : Count) (b : Byte) :
    (l.character cycle now b).entries = l.entries ∨ ∃ e, (l.character cycle now b).entries = l.entries ++ [e] := by
  unfold LinkController.character
  split
  · exact .inl (by split <;> rfl)
  · split
    · exact .inl (raise_entries _ cycle _)
    · split
      · exact .inl (raise_entries _ cycle _)
      · exact .inl rfl
  · exact .inl (by split <;> rfl)
  · exact .inl rfl
  · split
    · exact handOn_entries _ cycle _
    · exact .inl (raise_entries _ cycle _)

end

theorem State.receiveCharacter_entries (s : State) (elapsed : Nat) (b : Byte) :
    (s.receiveCharacter elapsed b).lc.entries = s.lc.entries ∨ ∃ e, (s.receiveCharacter elapsed b).lc.entries = s.lc.entries ++ [e] := by
  have found : (if s.lc.gapExceeded (s.ct.elapse elapsed).timebase then s.lc.abandon s.ct.cycle else s.lc).entries = s.lc.entries := by
    split
    · exact abandon_entries ..
    · rfl
  rw [← found]
  exact character_entries ..

/-- No request's rule changes the list it is held in. -/
theorem Effect.entries {s : State} {c : Instr} {t : State} (h : Effect s c t) : t.lc.entries = s.lc.entries := by
  cases h with
  | forceFreeze normal => exact (s.offerTrigger_only _).link.same.entries
  | setCounter w name => cases name <;> rfl
  | setLimit => unfold State.stageLimit; simp
  | deleteLimit => unfold State.stageLimit; simp
  | clearFlags | setFlagMask | holdReports | syncPoint => rfl
  | _ => simp

/-- The requests held before are the first of those held after; only a character received adds one. -/
def PlacesKept (c : Instr) (s t : State) : Prop :=
  ∃ more : List Frame, more.length ≤ 1 ∧ t.lc.entries.map Entry.request = s.lc.entries.map Entry.request ++ more ∧
    (more ≠ [] → ∃ n b stop, c = .linkCharacter n b stop ∨ c = .frameAccepted n b stop)

theorem PlacesKept.of_same {c : Instr} {s t : State} (same : t.lc.entries.map Entry.request = s.lc.entries.map Entry.request) :
    PlacesKept c s t :=
  ⟨[], Nat.zero_le _, by rw [same, List.append_nil], fun none => absurd rfl none⟩

theorem placesKept_moves {c : Instr} {s t : State} (reset : ∀ w, c ≠ .reset w) (release : ∀ x p, c ≠ .resetRelease x p)
    (sent : c ≠ .frameSent) (restart : c ≠ .restartExecution) (h : Moves c s t) : PlacesKept c s t := by
  cases h with
  | idle => exact .of_same rfl
  | reset written => exact absurd rfl (reset written)
  | release strap reference held => exact absurd rfl (release strap reference)
  | polarity elapsed p => exact .of_same (s.polarityStep_link elapsed p).keeps.requests
  | confirm => exact .of_same (LinkController.post_enqueues ..).keeps.requests
  | miss due => exact .of_same s.missStep_link.keeps.requests
  | sample raw due => exact .of_same (s.sampleStep_link raw).keeps.requests
  | boundary inputs at_end =>
    obtain ⟨l, link, e⟩ := s.boundaryStep_lc inputs
    rw [PlacesKept, e]
    exact PlacesKept.of_same (t := s.setLc l) link.keeps.requests
  | jobStart free => exact .of_same (by rw [State.startNext_lc])
  | jobCompletion => exact .of_same s.completeJob_link.requests
  | pass => exact .of_same s.passStep_link.requests
  | @character _ elapsed b _ received =>
    obtain ⟨stop, named⟩ := received
    obtain same | ⟨e, added⟩ := s.receiveCharacter_entries elapsed b
    · exact .of_same (by rw [same])
    · exact ⟨[e.request], le_rfl, by rw [added]; simp, fun _ => ⟨elapsed, b, stop, named⟩⟩
  | gap => exact .of_same (congrArg (List.map Entry.request) (abandon_entries s.lc s.ct.cycle))
  | request effect stage readied =>
    refine .of_same ?_
    rw [State.setLc_lc, LinkController.staged, restage_requests, effect.entries]
  | transmit =>
    refine .of_same ?_
    rw [State.setLc_lc, LinkController.transmit]
    split
    · exact restage_requests ..
    · split
      · split <;> rfl
      · rfl
  | sent => exact absurd rfl sent
  | stored readBack => exact .of_same (s.completeStore_link readBack).requests
  | checked => exact .of_same s.completeCheck_link.requests
  | restarted running => exact absurd rfl restart

/-- Settles O33, by every move that a step can make. -/
theorem requestsKeepTheirPlace : Obligations.RequestsKeepTheirPlace := by
  unfold Obligations.RequestsKeepTheirPlace
  exact fun c s t reset release sent restart h => placesKept_moves reset release sent restart (exec_moves h)

end Sys2Proof.Machine
end

