-- ==== Sys2Proof/Proofs/BoundaryRules.lean ====
section
/-! PROOFS. The commands that are a cycle boundary, and what the model's tests at a boundary say (R28, R38, R40, R47, R84). -/

namespace Sys2Proof.Machine

open Sys2Proof.Safety

/-! ### The tests at a boundary -/

section
variable (s : State)

theorem State.entersFree_iff : s.entersFree = true ↔ EntersFree s := by
  rw [State.entersFree, Bool.and_eq_true, decide_eq_true_iff, decide_eq_true_iff]
  rfl

theorem State.stopped_iff : s.ae.stopped = true ↔ s.ae.clock = none := Option.isNone_iff_eq_none

theorem AnalysisEngine.completes_iff (a : AnalysisEngine) :
    a.completes = true ↔ ∃ w, a.clock = some w ∧ w.length.cycles ≤ w.completed + 1 := by
  unfold AnalysisEngine.completes
  cases a.clock <;> simp

theorem State.endsWindow_iff : s.endsWindow = true ↔ EndsWindow s := by
  rw [State.endsWindow, Bool.and_eq_true, AnalysisEngine.completes_iff, Bool.not_eq_true', ← Bool.not_eq_true, State.entersFree_iff]
  rfl

theorem State.opensWindow_iff : s.opensWindow = true ↔ EndsWindow s ∨ StartsClock s := by
  rw [State.opensWindow, Bool.or_eq_true, Bool.and_eq_true, Bool.and_eq_true, decide_eq_true_iff, decide_eq_true_iff, State.endsWindow_iff,
    State.stopped_iff, and_assoc]
  rfl

theorem State.leaving_iff (inputs : InputLevels) (g : GroupId) : (s.leaving inputs).get g = true ↔ Leaves s inputs g := by
  rw [State.leaving, Quad.get_ofFn, GroupMonitor.leaves, GroupMonitor.accepts]
  cases level : inputs.get g <;> cases accepted : (s.gm.groups.get g).accepted <;> simp [Leaves, level, accepted, levelOf]

variable {s}

theorem State.stopped_of_none (none : s.ae.clock = none) : s.ae.stopped = true := s.stopped_iff.mpr none

theorem State.not_stopped (running : s.ae.clock ≠ none) : s.ae.stopped = false :=
  Bool.eq_false_iff.mpr fun stopped => running (s.stopped_iff.mp stopped)

/-- No window ends with the clock STOPPED. -/
theorem State.not_endsWindow_of_none (none : s.ae.clock = none) : ¬ EndsWindow s := by
  rintro ⟨⟨w, running, -⟩, -⟩
  rw [none] at running
  cases running

theorem running_of_endsWindow (ends : EndsWindow s) : s.ae.clock ≠ none := fun none => State.not_endsWindow_of_none none ends

theorem State.endsWindow_of_not (not : ¬ EndsWindow s) : s.endsWindow = false := Bool.eq_false_iff.mpr fun ends => not (s.endsWindow_iff.mp ends)

theorem State.entersFree_of_not (not : ¬ EntersFree s) : s.entersFree = false := Bool.eq_false_iff.mpr fun free => not (s.entersFree_iff.mp free)

/-- At a window boundary, and nowhere else with the clock running, what is staged applies. -/
theorem State.appliesHere_of_ends (ends : EndsWindow s) : s.appliesHere = true := by
  rw [State.appliesHere, s.endsWindow_iff.mpr ends, Bool.or_true]

theorem State.appliesHere_of_none (none : s.ae.clock = none) : s.appliesHere = true := by
  rw [State.appliesHere, State.stopped_of_none none, Bool.true_or]

theorem State.appliesHere_of_within (running : s.ae.clock ≠ none) (within : ¬ EndsWindow s) : s.appliesHere = false := by
  rw [State.appliesHere, State.not_stopped running, State.endsWindow_of_not within]
  rfl

theorem State.opensWindow_of_ends (ends : EndsWindow s) : s.opensWindow = true := s.opensWindow_iff.mpr (.inl ends)

theorem State.opensWindow_of_starts (starts : StartsClock s) : s.opensWindow = true := s.opensWindow_iff.mpr (.inr starts)

theorem State.opensWindow_of_not (ends : ¬ EndsWindow s) (starts : ¬ StartsClock s) : s.opensWindow = false :=
  Bool.eq_false_iff.mpr fun opens => (s.opensWindow_iff.mp opens).elim ends starts

theorem State.openingNumber_of_opens (opens : s.opensWindow = true) : s.openingNumber = s.ae.counter + 1 := if_pos opens

end

/-! ### The commands -/

section
variable {s : State} {inputs : InputLevels} (boundary : AtBoundary s)
include boundary

theorem boundary_whenDue {due : Bool} (isDue : due = true) :
    whenDue s (s.boundaryDue && due) (s.boundaryStep inputs) = .next (s.boundaryStep inputs) := by
  have atEnd : s.boundaryDue = true := decide_eq_true boundary.issued
  simp [whenDue, boundary.running, atEnd, isDue]

theorem exec_cycleBoundary : exec (.cycleBoundary inputs) s = .next (s.boundaryStep inputs) := by
  have atEnd : s.boundaryDue = true := decide_eq_true boundary.issued
  calc
    exec (.cycleBoundary inputs) s = whenDue s s.boundaryDue (s.boundaryStep inputs) := rfl
    _ = _ := by simp [whenDue, boundary.running, atEnd]

theorem exec_windowBoundary (ends : EndsWindow s) : exec (.windowBoundary inputs) s = .next (s.boundaryStep inputs) :=
  boundary_whenDue boundary (s.endsWindow_iff.mpr ends)

theorem exec_holdoverLimit (free : EntersFree s) : exec (.holdoverLimit inputs) s = .next (s.boundaryStep inputs) :=
  boundary_whenDue boundary (s.entersFree_iff.mpr free)

end

end Sys2Proof.Machine
end

