-- ==== Sys2Proof/Proofs/DeferredReplies.lean ====
section
/-! PROOFS. The deferred replies of STORE_SETTINGS, CHECK_SETTINGS and SYNC_POINT, and the carrying out of a restart (R162, R171, R181, R182,
R185). -/

namespace Sys2Proof.Machine

open Sys2Proof.Safety

/-! ### A deferred reply becomes READY (R160) -/

/-- The first DEFERRED entry of a kind stands behind `before`. -/
structure DefersFirst (l : LinkController) (before after : List Entry) (q : Frame) (kind : Byte) : Prop where
  entries : l.entries = before ++ { request := q, stage := .deferred } :: after
  isKind : q.kind = kind
  first : ∀ e ∈ before, e.stage = .deferred → e.request.kind ≠ kind

section
variable {l m : LinkController} {before after : List Entry} {q : Frame} {kind : Byte}

theorem DefersFirst.congr (h : DefersFirst l before after q kind) (entries : m.entries = l.entries) : DefersFirst m before after q kind :=
  ⟨entries.trans h.entries, h.isKind, h.first⟩

theorem replyDeferred_of_first (h : DefersFirst l before after q kind) (status : Byte) (fields : List Byte) :
    l.replyDeferred kind status fields = answered l before after q (replyFrame q status fields) := by
  have others : ∀ e ∈ before, e.isDeferred kind = false := fun e mem => by
    simp only [Entry.isDeferred, Bool.and_eq_false_imp, decide_eq_true_iff]
    exact fun deferred => beq_eq_false_iff_ne.mpr (h.first e mem deferred)
  have own : Entry.isDeferred kind { request := q, stage := .deferred } = true := by simp [Entry.isDeferred, h.isKind]
  have request : l.deferredRequest kind = some q := by
    rw [LinkController.deferredRequest, h.entries, find?_append_first others own]
    rfl
  unfold LinkController.replyDeferred
  rw [request]
  simp only [LinkController.makeReady, h.entries, restage_append others own]
  rfl

end

/-! ### STORE_COMPLETION and CHECK_COMPLETION (R181, R182) -/

section
variable {s : State}

theorem exec_storeCompletion {snapshot : Settings} (running : s.inReset = false) (flight : s.ss.flight = some (.store snapshot))
    (readBack : StoredImage) : exec (.storeCompletion readBack) s = .next (s.completeStore readBack) := by
  have storing : s.storing = true := by simp [State.storing, flight]
  change whenDue s _ _ = _
  simp [whenDue, running, storing]

theorem exec_checkCompletion (running : s.inReset = false) (flight : s.ss.flight = some .check) :
    exec .checkCompletion s = .next s.completeCheck := by
  have checking : s.checking = true := by simp [State.checking, flight]
  change whenDue s _ _ = _
  simp [whenDue, running, checking]

/-- The state in which a store in flight has ended. -/
def State.storeEnded (s : State) (readBack : StoredImage) : State :=
  (s.setSs { s.ss with image := readBack, flight := none }).setFreeNext (s.freeNext + 1)

variable {snapshot : Settings} {readBack : StoredImage}

theorem completeStore_of_same (flight : s.ss.flight = some (.store snapshot)) (same : readBack = .whole snapshot (imageCrc snapshot)) :
    s.completeStore readBack = (s.storeEnded readBack).setLc (s.lc.replyDeferred 0x19 0 (word4 (imageCrc snapshot))) := by
  have free : s.freeAfterWrite = s.freeNext + 1 := by simp [State.freeAfterWrite, State.storing, flight]
  have ok : decide (readBack = imageOf snapshot) = true := decide_eq_true same
  unfold State.completeStore State.storeEnded
  rw [flight]
  simp only [ok, free, if_true, State.setFreeNext_lc, State.setSs_lc]

theorem completeStore_of_other (flight : s.ss.flight = some (.store snapshot)) (other : readBack ≠ .whole snapshot (imageCrc snapshot)) :
    s.completeStore readBack = (s.storeEnded readBack).setLc
      ((s.lc.post s.ct.cycle [.flag .storeFailed]).replyDeferred 0x19 1 (word4 (imageCrc snapshot))) := by
  have free : s.freeAfterWrite = s.freeNext + 1 := by simp [State.freeAfterWrite, State.storing, flight]
  have failed : decide (readBack = imageOf snapshot) = false := decide_eq_false other
  unfold State.completeStore State.storeEnded
  rw [flight]
  simp only [failed, free, Bool.false_eq_true, if_false, State.post_lc, State.setFreeNext_lc, State.setSs_lc]
  rfl

end

theorem flagOf_raised (l : LinkController) (cycle : Word) (f : Flag) : flagOf (l.raise cycle f).flags f = true := by
  cases set : flagOf l.flags f with
  | true => rw [raise_of_set set, set]
  | false =>
    have own : flagOf (l.flags ||| flagBit f) f = true := by
      rw [flagOf, BitVec.getLsbD_or, (flagBit_getLsbD f f.number).mpr rfl, Bool.or_true]
    cases mask : flagOf l.masks f with
    | false => rw [raise_of_unmasked set mask]; exact own
    | true =>
      rw [raise_of_masked set mask]
      exact (LinkController.post_enqueues cycle { l with flags := l.flags ||| flagBit f }
        [.report (.flagEvent f (l.flags ||| flagBit f))]).flags f own

theorem complement_ne_self (x : Word) : ~~~x ≠ x := fun same => by
  have bit := congrArg (·.getLsbD 0) same
  simp at bit

/-- The CRCs of a torn image do not match (log entry 3). -/
theorem crcs_torn_ne (n : Nat) : (StoredImage.torn.crcs n).1 ≠ (StoredImage.torn.crcs n).2 := by
  unfold StoredImage.crcs
  dsimp only
  split
  · rename_i same
    rw [same]
    exact complement_ne_self _
  · assumption

theorem isSome_load_iff (image : StoredImage) :
    image.load.isSome = true ↔ ∃ copy, image = .whole copy (imageCrc copy) ∧ copy.inRange = true := by
  constructor
  · intro loads
    by_contra none
    push Not at none
    rw [StoredImage.load_of_unloadable fun copy is => Bool.eq_false_iff.mpr (none copy is)] at loads
    cases loads
  · rintro ⟨copy, rfl, range⟩
    rw [StoredImage.load_of_loadable range]
    rfl

/-! ### SYNC_POINT (R162) -/

section
variable {l : LinkController}

theorem closeLimit_of_none (none : l.sync = none) (point : Option Word) : l.closeLimit point = l := by
  unfold LinkController.closeLimit
  rw [none]

theorem closeAnalysis_of_none (none : l.sync = none) (point : Option Word) : l.closeAnalysis point = l := by
  unfold LinkController.closeAnalysis
  rw [none]

theorem closeAnalysis_of_open (sync : l.sync = some { analysis := none, limit := none }) (window : Option Word) :
    l.closeAnalysis window = { l with sync := some { analysis := some window, limit := none } } := by
  unfold LinkController.closeAnalysis
  rw [sync]
  rfl

theorem closeLimit_of_open (sync : l.sync = some { analysis := none, limit := none }) (pass : Option Word) :
    l.closeLimit pass = { l with sync := some { analysis := none, limit := some pass } } := by
  unfold LinkController.closeLimit
  rw [sync]
  rfl

/-- A class that has closed does not close again. -/
theorem closeLimit_of_closed {pass : Option Word} (sync : l.sync = some { analysis := none, limit := some pass }) (later : Option Word) :
    l.closeLimit later = l := by
  unfold LinkController.closeLimit
  rw [sync]
  change { l with sync := some { analysis := none, limit := some pass } } = l
  rw [← sync]

theorem closeAnalysis_of_closed {window : Option Word} (sync : l.sync = some { analysis := some window, limit := none }) (later : Option Word) :
    l.closeAnalysis later = l := by
  unfold LinkController.closeAnalysis
  rw [sync]
  change { l with sync := some { analysis := some window, limit := none } } = l
  rw [← sync]

theorem closeAnalysis_of_last {pass : Option Word} (sync : l.sync = some { analysis := none, limit := some pass }) (window : Option Word) :
    l.closeAnalysis window = LinkController.replyDeferred { l with sync := none } 0x18 0 (syncFields window pass) := by
  unfold LinkController.closeAnalysis
  rw [sync]
  rfl

theorem closeLimit_of_last {window : Option Word} (sync : l.sync = some { analysis := some window, limit := none }) (pass : Option Word) :
    l.closeLimit pass = LinkController.replyDeferred { l with sync := none } 0x18 0 (syncFields window pass) := by
  unfold LinkController.closeLimit
  rw [sync]
  rfl

end

theorem syncFields_eq (window pass : Option Word) :
    syncFields window pass = beBytes 4 (window.getD 0).toNat ++ (if window.isSome then 0 else 1) ::
      beBytes 4 (pass.getD 0).toNat ++ [if pass.isSome then 0 else 1] := by
  cases window <;> cases pass <;> simp [syncFields, word4, byte1_eq, one]

/-- What closes at a boundary (R162). -/
theorem syncedLink_of_ends {s : State} (ends : EndsWindow s) : s.syncedLink = s.lc.closeAnalysis (some (s.ae.counter + 1)) := by
  have opens := State.opensWindow_of_ends ends
  simp only [State.syncedLink, State.not_stopped (running_of_endsWindow ends), State.appliesHere_of_ends ends, opens, State.openingNumber_of_opens opens,
    Bool.false_eq_true, if_false, if_true]

theorem syncedLink_of_none {s : State} (none : s.ae.clock = none) :
    s.syncedLink = (s.lc.closeLimit Option.none).closeAnalysis (if s.opensWindow then some s.openingNumber else Option.none) := by
  simp only [State.syncedLink, State.stopped_of_none none, State.appliesHere_of_none none, if_true]

theorem syncedLink_of_within {s : State} (running : s.ae.clock ≠ none) (within : ¬ EndsWindow s) : s.syncedLink = s.lc := by
  simp only [State.syncedLink, State.not_stopped running, State.appliesHere_of_within running within, Bool.false_eq_true, if_false]

/-- A pass with everything ready in front of it is carried out. -/
theorem exec_evaluationPass {s : State} {p : Pass} {rest : List Pass} (running : s.inReset = false) (passes : s.ae.passes = p :: rest)
    (ready : p.ready = true) : exec .evaluationPass s = .next ((s.setAe s.ae.withoutPass).evaluate p) := by
  have next : s.ae.nextPass = some p := by
    rw [AnalysisEngine.nextPass, passes]
    exact if_pos ready
  calc
    exec .evaluationPass s = whenDue s s.ae.nextPass.isSome s.passStep := rfl
    _ = .next s.passStep := by simp [whenDue, running, next]
    _ = _ := by rw [State.passStep_of_ready next]

theorem evaluate_requests (s : State) (p : Pass) : SameRequests (s.lc.closeLimit (some p.window)) (s.evaluate p).lc := by
  obtain ⟨l, m, edits, judged, rfl⟩ := s.evaluate_link p
  exact SameRequests.trans (LinkController.closeLimit_congr _ edits.same.sameRequests) judged.same.sameRequests

/-! ### The obligations -/

/-- Settles O50: each completion by what is in flight, each class by its first application point. -/
theorem deferredRepliesAreFormed : Obligations.DeferredRepliesAreFormed := by
  unfold Obligations.DeferredRepliesAreFormed
  refine ⟨?store, ⟨fun image n => image.crcs n, fun _ _ _ => rfl, fun _ _ _ => rfl, crcs_torn_ne, ?check⟩, ?boundary, ?pass,
    fun l point none => ⟨closeAnalysis_of_none none point, closeLimit_of_none none point⟩, ?classes⟩
  case store =>
    intro s before after q snapshot readBack running flight entries kind first crc reply
    have defers : DefersFirst s.lc before after q 0x19 := ⟨entries, kind, first⟩
    have frame (status : Byte) : replyFrame q status (word4 crc) = reply status := by
      simp only [replyFrame, kind, word4, reply]
      rfl
    refine ⟨fun same => ?_, fun other => ⟨_, rfl, (LinkController.post_same ..).entries, flagOf_raised s.lc s.ct.cycle .storeFailed, ?_⟩⟩
    · rw [exec_storeCompletion running flight, completeStore_of_same flight same, replyDeferred_of_first defers, frame]
      rfl
    · rw [exec_storeCompletion running flight, completeStore_of_other flight other,
        replyDeferred_of_first (defers.congr (LinkController.post_same ..).entries), frame]
      rfl
  case check =>
    intro s before after q running flight entries kind first computed stored
    have defers : DefersFirst s.lc before after q 0x1A := ⟨entries, kind, first⟩
    refine ⟨s.ss.image.load.isSome, isSome_load_iff _, ?_⟩
    have fields : word4 computed ++ word4 stored ++ [boolByte (decide (computed = stored)), boolByte s.ss.image.load.isSome] =
        beBytes 4 computed.toNat ++ beBytes 4 stored.toNat ++
          [if computed = stored then 1 else 0, if s.ss.image.load.isSome then 1 else 0] := by
      simp [word4, boolByte]
    rw [exec_checkCompletion running flight, ← fields]
    exact congrArg (fun l => Host.Outcome.next { s with ss := { s.ss with flight := none }, lc := l }) (replyDeferred_of_first defers 0 _)
  case boundary =>
    intro s inputs boundary
    have requests := s.boundaryStep_requests inputs
    refine ⟨fun ends => ⟨_, exec_windowBoundary boundary ends, exec_cycleBoundary boundary, ?_⟩,
      fun none => ⟨_, exec_cycleBoundary boundary, fun starts => ?_, fun idle => ?_⟩,
      fun running within => ⟨_, exec_cycleBoundary boundary, ?_⟩⟩
    · rwa [syncedLink_of_ends ends] at requests
    · have opens := State.opensWindow_of_starts starts
      rwa [syncedLink_of_none none, if_pos opens, State.openingNumber_of_opens opens] at requests
    · have shut := State.opensWindow_of_not (State.not_endsWindow_of_none none) idle
      rwa [syncedLink_of_none none, if_neg (by rw [shut]; exact Bool.false_ne_true)] at requests
    · rwa [syncedLink_of_within running within] at requests
  case pass =>
    intro s p rest running passes ready
    exact ⟨_, exec_evaluationPass running passes ready, evaluate_requests (s.setAe s.ae.withoutPass) p⟩
  case classes =>
    intro l before after q entries kind first fields
    have defers : DefersFirst { l with sync := none } before after q 0x18 := ⟨entries, kind, first⟩
    have reply (window pass : Option Word) : replyFrame q 0 (syncFields window pass) = okReply q (fields window pass) := by
      rw [syncFields_eq]
      rfl
    refine ⟨fun window sync => closeAnalysis_of_open sync window, fun pass sync => closeLimit_of_open sync pass,
      fun window pass sync => ⟨closeLimit_of_closed sync, ?_⟩, fun window pass sync => ⟨closeAnalysis_of_closed sync, ?_⟩⟩
    · rw [closeAnalysis_of_last sync, replyDeferred_of_first defers, reply]
    · rw [closeLimit_of_last sync, replyDeferred_of_first defers, reply]

/-- The alert line at a restart: no verdict raises it (R120). -/
theorem restarted_alert (l : LimitEvaluator) (x : Settings) (m : Mode) :
    (l.restarted x m).alert = true ↔ m = .normal ∧ ∃ g, l.latches.get g = true := by
  simp [LimitEvaluator.restarted, LimitEvaluator.refreshAlert, Quad.any_iff, Verdict.alerting_iff]

/-- Settles O51, block by block. -/
theorem restartIsCarriedOut : Obligations.RestartIsCarriedOut := by
  unfold Obligations.RestartIsCarriedOut
  intro s running due x
  have le : s.restartStep.le = s.le.restarted x s.mode := rfl
  refine ⟨s.restartStep, ?_, rfl, rfl, rfl, rfl, running, rfl, rfl, rfl, rfl, rfl, rfl, rfl, ?_, ?_, fun g => ?_, fun k => ?_, ?_, rfl⟩
  · calc
      exec .restartExecution s = whenDue s s.lc.restartDue s.restartStep := rfl
      _ = _ := by simp [whenDue, running, due]
  · rw [le]; exact s.le.restarted_latches ..
  · rw [le]; simp only [LimitEvaluator.restarted, LimitEvaluator.refreshAlert]
  · rw [le, s.le.restarted_verdicts, Quad.get_fill]
  · rw [le, s.le.restarted_records, tableMap_getElem]
    cases x.limits[k] <;> rfl
  · rw [le]; exact restarted_alert ..

end Sys2Proof.Machine
end

