-- ==== Sys2Proof/Proofs/Crossings.lean ====
section
/-! PROOFS. The crossing detector and the tracker at every crossing and at every expiry of the miss timer (R21 to R33). -/

namespace Sys2Proof.Machine

open Sys2Proof.Safety

/-! ### The tests on a period -/

theorem inRangePeriod_eq_false_iff (p : Nat) : inRangePeriod p = false ↔ p < 151516 ∨ 238095 < p := by
  rw [← Bool.not_eq_true, inRangePeriod_iff]
  omega

theorem CycleTracker.steadyAgainst_of_last {c : CycleTracker} {q : Nat} (last : c.lastInRange = some q) (p : Nat) :
    c.steadyAgainst p = isSteady p q := by
  unfold CycleTracker.steadyAgainst
  rw [last]

theorem isSteady_of_le {p q : Nat} (near : ((p : Int) - q).natAbs * 200 ≤ q) : isSteady p q = true := decide_eq_true near

theorem isSteady_of_lt {p q : Nat} (far : q < ((p : Int) - q).natAbs * 200) : isSteady p q = false :=
  decide_eq_false (Nat.not_le.mpr far)

theorem CycleTracker.acceptable_iff {c : CycleTracker} {a : Nat} (accepted : c.accepted = some a) (p : Nat) :
    c.acceptable p = true ↔ (151516 ≤ p ∧ p ≤ 238095) ∧ ((p : Int) - a).natAbs * 50 ≤ a := by
  unfold CycleTracker.acceptable
  rw [accepted]
  dsimp only [isAcceptable]
  rw [Bool.and_eq_true, inRangePeriod_iff, decide_eq_true_iff]

theorem CycleTracker.not_acceptable_iff {c : CycleTracker} {a : Nat} (accepted : c.accepted = some a) (p : Nat) :
    c.acceptable p = false ↔ p < 151516 ∨ 238095 < p ∨ a < ((p : Int) - a).natAbs * 50 := by
  rw [← Bool.not_eq_true, CycleTracker.acceptable_iff accepted]
  omega

/-- The conditions of a judgement determine it. -/
theorem CycleTracker.judge_of_judges {c : CycleTracker} {stamp : Count} {p : Nat} {j : Judgement} (measured : c.period stamp = some p)
    (judged : c.Judges p j) : c.judge stamp = j := by
  unfold CycleTracker.judge
  rw [measured]
  cases judged with
  | begins searching range => obtain e | e := searching <;> simp [e, range]
  | ignored searching range => obtain e | e := searching <;> simp [e, range]
  | returns locking range => simp [locking, range]
  | locks locking range steady fourth => simp [locking, range, steady, Config.steadyLimit, fourth]
  | steady locking range steady few => simp [locking, range, steady, Config.steadyLimit, Nat.not_le.mpr few]
  | unsteady locking range unsteady => simp [locking, range, unsteady]
  | accepted locked near => simp [locked, near]
  | loses locked far third => simp [locked, far, Config.missLimit, third]
  | rejected locked far few => simp [locked, far, Config.missLimit, Nat.not_le.mpr few]
  | holdoverOut holdover range => simp [holdover, range]
  | holdoverUnsteady holdover range unsteady => obtain e | e := unsteady <;> simp [holdover, range, e]
  | relocks holdover range running steady fourth => simp [holdover, range, running, steady, Config.steadyLimit, fourth]
  | holdoverSteady holdover range running steady few =>
    simp [holdover, range, running, steady, Config.steadyLimit, Nat.not_le.mpr few]

/-! ### The confirmation that issues a crossing -/

/-- CT as a crossing finds it that is confirmed at the count `due`: POSITIVE confirmed, and no candidate (R21). -/
def CycleTracker.atCrossing (c : CycleTracker) (due : Count) : CycleTracker :=
  { c.reach due with confirmed := some .positive, candidate := none }

theorem CycleTracker.confirmedAs_eq (c : CycleTracker) (k : Candidate) :
    c.confirmedAs k = { c.reach (k.stamp + 2000#64) with confirmed := some k.polarity, candidate := none } := rfl

theorem CycleTracker.atCrossing_period (c : CycleTracker) (due stamp : Count) : (c.atCrossing due).period stamp = c.period stamp := rfl

/-- A confirmation is taken whenever a candidate stands. -/
theorem exec_polarityConfirmed {s : State} {k : Candidate} (running : s.inReset = false) (candidate : s.ct.candidate = some k) :
    exec .polarityConfirmed s = .next s.confirmStep := by
  change whenDue s s.ct.candidate.isSome s.confirmStep = _
  rw [candidate]
  exact whenDue_of_due running

section
variable {s : State} {prev stamp : Count} (crosses : CrossingAt s stamp)
include crosses

theorem issues_of_crossing : s.ct.issues = some stamp := by simp [CycleTracker.issues, crosses.candidate, crosses.confirmed]

theorem confirmStep_of_crossing : s.confirmStep = (s.setCt ((s.ct.atCrossing (stamp + 2000#64)).crossing stamp)).post
    (syncNotices s.ct ((s.ct.atCrossing (stamp + 2000#64)).crossing stamp) .crossing ((s.ct.period stamp).getD 0)) := by
  have found : s.ct.confirmedAs { polarity := .positive, stamp := stamp } = s.ct.atCrossing (stamp + 2000#64) :=
    CycleTracker.confirmedAs_eq ..
  unfold State.confirmStep
  rw [CycleTracker.confirm_of_issues crosses.candidate (issues_of_crossing crosses), found, CycleTracker.atCrossing_period]
  generalize stamp + 2000#64 = due
  rfl

end

theorem CycleTracker.period_of_previous {c : CycleTracker} {prev : Count} (previous : c.previous = some prev) (stamp : Count) :
    c.period stamp = some (stamp - prev).toNat := by
  rw [CycleTracker.period, previous]
  rfl

/-- The crossing changes only CT and LC; what it makes of the detector and of the cycle in progress (R21, R22). -/
theorem CycleTracker.crossing_detector (c : CycleTracker) (stamp : Count) :
    (c.crossing stamp).previous = some stamp ∧ (c.crossing stamp).confirmed = c.confirmed ∧
      (c.crossing stamp).candidate = c.candidate ∧ (c.crossing stamp).cycle = c.cycle ∧ (c.crossing stamp).length = c.length := by
  rw [c.crossing_frame]
  exact ⟨rfl, rfl, rfl, rfl, rfl⟩

/-- The step that issues a crossing: CT alone takes it, and its change of state is reported (R21, R33). -/
structure Crosses (s t : State) (stamp : Count) (p : Nat) (due : Count) : Prop where
  frame : OnlyTracker s t
  tracker : t.ct = (s.ct.atCrossing due).crossing stamp
  link : t.lc = s.lc.post s.ct.cycle (syncNotices s.ct t.ct .crossing p)

theorem confirmStep_crosses {s : State} {prev stamp : Count} (crosses : CrossingAt s stamp) (previous : s.ct.previous = some prev) :
    ∃ due, Crosses s s.confirmStep stamp (stamp - prev).toNat due := by
  rw [confirmStep_of_crossing crosses, CycleTracker.period_of_previous previous]
  generalize stamp + 2000#64 = due
  refine ⟨due, rfl, rfl, ?_⟩
  have cycle : ((s.ct.atCrossing due).crossing stamp).cycle = s.ct.cycle := (CycleTracker.crossing_detector _ _).2.2.2.1
  rw [State.post_lc, State.setCt_ct, State.setCt_lc, cycle, State.post_ct, State.setCt_ct]
  rfl

theorem syncNotices_of_same {before after : CycleTracker} (same : before.tracker = after.tracker) (cause : SyncCause) (p : Nat) :
    syncNotices before after cause p = [] := if_pos same

theorem syncNotices_of_moved {before after : CycleTracker} (moved : before.tracker ≠ after.tracker) (cause : SyncCause) (p : Nat) :
    syncNotices before after cause p =
      .report (.syncEvent before.tracker after.tracker cause p after.frequency) :: after.tracker.entryFlag := if_neg moved

/-- A crossing that leaves the tracker in its state enqueues nothing (R33). -/
theorem Crosses.silent {s t : State} {stamp due : Count} {p : Nat} (crossed : Crosses s t stamp p due)
    (same : t.ct.tracker = s.ct.tracker) : t.lc = s.lc := by
  rw [crossed.link, syncNotices_of_same same.symm]
  rfl

/-! ### What each judgement does (R22 to R28) -/

section
variable {c : CycleTracker} {stamp : Count} {p : Nat} (measured : c.period stamp = some p)
include measured

theorem CycleTracker.crossing_of_begins (judged : c.Judges p .begins) :
    c.crossing stamp = { c with
      previous := some stamp, tracker := .locking, origin := c.tracker.asOrigin, runCount := 1, lastInRange := some p } := by
  simp only [CycleTracker.crossing, CycleTracker.judge_of_judges measured judged, measured, Option.getD_some]

theorem CycleTracker.crossing_of_ignored (judged : c.Judges p .ignored) :
    c.crossing stamp = { c with
      previous := some stamp } := by
  simp only [CycleTracker.crossing, CycleTracker.judge_of_judges measured judged]

theorem CycleTracker.crossing_of_steady (judged : c.Judges p .steady) :
    c.crossing stamp = { c with
      previous := some stamp, runCount := c.runCount + 1, lastInRange := some p } := by
  simp only [CycleTracker.crossing, CycleTracker.judge_of_judges measured judged, measured, Option.getD_some]

theorem CycleTracker.crossing_of_unsteady (judged : c.Judges p .unsteady) :
    c.crossing stamp = { c with
      previous := some stamp, runCount := 1, lastInRange := some p } := by
  simp only [CycleTracker.crossing, CycleTracker.judge_of_judges measured judged, measured, Option.getD_some]

theorem CycleTracker.crossing_of_returns (judged : c.Judges p .returns) :
    c.crossing stamp = { c with
      previous := some stamp, runCount := 0, tracker := c.origin.tracker } := by
  simp only [CycleTracker.crossing, CycleTracker.judge_of_judges measured judged]

theorem CycleTracker.crossing_of_accepted (judged : c.Judges p .accepted) :
    c.crossing stamp = { c with
      previous := some stamp, accepted := some p, missCount := 0, steering := some stamp,
      missTimer := some (stamp + BitVec.ofNat 64 (3 * p / 2)) } := by
  simp only [CycleTracker.crossing, CycleTracker.judge_of_judges measured judged, measured, Option.getD_some]
  rfl

theorem CycleTracker.crossing_of_rejected (judged : c.Judges p .rejected) :
    c.crossing stamp = { c with
      previous := some stamp, missCount := c.missCount + 1,
      missTimer := some (stamp + BitVec.ofNat 64 (3 * c.accepted.getD 0 / 2)) } := by
  simp only [CycleTracker.crossing, CycleTracker.judge_of_judges measured judged]
  rfl

theorem CycleTracker.crossing_of_holdoverOut (judged : c.Judges p .holdoverOut) :
    c.crossing stamp = { c with
      previous := some stamp, runCount := 0 } := by
  simp only [CycleTracker.crossing, CycleTracker.judge_of_judges measured judged]

theorem CycleTracker.crossing_of_holdoverUnsteady (judged : c.Judges p .holdoverUnsteady) :
    c.crossing stamp = { c with
      previous := some stamp, runCount := 1, lastInRange := some p } := by
  simp only [CycleTracker.crossing, CycleTracker.judge_of_judges measured judged, measured, Option.getD_some]

theorem CycleTracker.crossing_of_holdoverSteady (judged : c.Judges p .holdoverSteady) :
    c.crossing stamp = { c with
      previous := some stamp, runCount := c.runCount + 1, lastInRange := some p } := by
  simp only [CycleTracker.crossing, CycleTracker.judge_of_judges measured judged, measured, Option.getD_some]

theorem CycleTracker.crossing_of_locks (judged : c.Judges p .locks) :
    c.crossing stamp = CycleTracker.enterLocked { c with previous := some stamp } stamp p := by
  simp only [CycleTracker.crossing, CycleTracker.judge_of_judges measured judged, measured, Option.getD_some]

theorem CycleTracker.crossing_of_relocks (judged : c.Judges p .relocks) :
    c.crossing stamp = { CycleTracker.enterLocked { c with previous := some stamp } stamp p with holdoverCycles := 0 } := by
  simp only [CycleTracker.crossing, CycleTracker.judge_of_judges measured judged, measured, Option.getD_some]

theorem CycleTracker.crossing_of_loses (judged : c.Judges p .loses) :
    c.crossing stamp = CycleTracker.enterHoldover { c with previous := some stamp } := by
  simp only [CycleTracker.crossing, CycleTracker.judge_of_judges measured judged]

end

/-! ### CandidatesAndConfirmations -/

theorem CycleTracker.elapse_overdue_iff {c : CycleTracker} {k : Candidate} (candidate : c.candidate = some k) (elapsed : Nat) :
    (c.elapse elapsed).overdue = true ↔ 2000 ≤ (c.timebase + BitVec.ofNat 64 elapsed - k.stamp).toNat := by
  have kept : (c.elapse elapsed).candidate = some k := candidate
  rw [CycleTracker.overdue, kept]
  exact decide_eq_true_iff

theorem polarity_whenDue {s : State} (running : s.inReset = false) {elapsed : Nat} {p : Polarity} (changes : p ≠ s.ct.reference) :
    exec (.referencePolarityChange elapsed p) s = .next (s.polarityStep elapsed p) := by
  change whenDue s (decide (p ≠ s.ct.reference)) (s.polarityStep elapsed p) = _
  rw [decide_eq_true changes]
  exact whenDue_of_due running

/-- Settles O5, by whether a candidate is overdue at the change, and by what the confirmation issues. -/
theorem candidatesAndConfirmations : Obligations.CandidatesAndConfirmations := by
  unfold Obligations.CandidatesAndConfirmations
  refine ⟨?change, ?overdue, ?silent, ?first⟩
  case change =>
    intro s elapsed p now running changes young
    have punctual : (s.ct.elapse elapsed).overdue = false := by
      cases candidate : s.ct.candidate with
      | none => simp [CycleTracker.overdue, CycleTracker.elapse, candidate]
      | some k =>
        rw [← Bool.not_eq_true, CycleTracker.elapse_overdue_iff candidate elapsed]
        exact Nat.not_le.mpr (young k candidate)
    rw [polarity_whenDue running changes, State.polarityStep_eq, CycleTracker.beforePolarity, punctual]
    rfl
  case overdue =>
    intro s elapsed p k now running changes candidate old
    have late : (s.ct.elapse elapsed).overdue = true := (CycleTracker.elapse_overdue_iff candidate elapsed).mpr old
    refine ⟨_, exec_polarityConfirmed running candidate, ?_⟩
    rw [polarity_whenDue running changes]
    simp only [State.polarityStep, State.setCt_ct, late, if_true]
    rfl
  case silent =>
    intro s k running candidate other
    have issues : s.ct.issues = none := by simp [CycleTracker.issues, candidate, other]
    rw [exec_polarityConfirmed running candidate, State.confirmStep, CycleTracker.confirm_of_silent candidate issues,
      CycleTracker.confirmedAs_eq]
    exact congrArg Host.Outcome.next (State.post_nil _)
  case first =>
    intro s stamp crosses previous
    have measured : s.ct.period stamp = none := by simp [CycleTracker.period, previous]
    rw [exec_polarityConfirmed crosses.running crosses.candidate, confirmStep_of_crossing crosses]
    generalize stamp + 2000#64 = due
    have first : (s.ct.atCrossing due).crossing stamp = { s.ct.atCrossing due with previous := some stamp } := by
      simp only [CycleTracker.crossing, CycleTracker.judge_of_unmeasured ((s.ct.atCrossing_period due stamp).trans measured)]
    have same : s.ct.tracker = ((s.ct.atCrossing due).crossing stamp).tracker := by rw [first]; rfl
    rw [syncNotices_of_same same, first]
    rfl

/-! ### CrossingWhileSearching -/

theorem period_at_crossing {c : CycleTracker} {prev : Count} (previous : c.previous = some prev) (stamp due : Count) :
    (c.atCrossing due).period stamp = some (stamp - prev).toNat := by
  rw [CycleTracker.atCrossing_period]
  exact CycleTracker.period_of_previous previous stamp

theorem Tracker.asOrigin_tracker {t : Tracker} (searching : t = .seek ∨ t = .free) : t.asOrigin.tracker = t := by
  obtain rfl | rfl := searching <;> rfl

theorem CycleTracker.frequency_congr {c d : CycleTracker} (same : c.accepted = d.accepted) : c.frequency = d.frequency := by
  rw [CycleTracker.frequency, CycleTracker.frequency, same]

/-- The notices of a return from LOCKING to the state its run began in (R24, R33). -/
theorem Origin.syncNotices_return {before after : CycleTracker} (o : Origin) (locking : before.tracker = .locking)
    (returned : after.tracker = o.tracker) (cause : SyncCause) (p : Nat) :
    syncNotices before after cause p =
      .report (.syncEvent .locking o.tracker cause p after.frequency) :: (if o = .free then [.flag .syncFree] else []) := by
  cases o <;> simp [syncNotices, locking, returned, Origin.tracker, Tracker.entryFlag]

/-- Settles O6, by the judgement that each of the conditions determines. -/
theorem crossingWhileSearching : Obligations.CrossingWhileSearching := by
  unfold Obligations.CrossingWhileSearching
  intro s prev stamp crosses previous P
  obtain ⟨due, crossed⟩ := confirmStep_crosses crosses previous
  have detector := CycleTracker.crossing_detector (s.ct.atCrossing due) stamp
  have measured := period_at_crossing previous stamp due
  rw [← crossed.tracker] at detector
  obtain ⟨stamped, confirmed, candidate, cycle, length⟩ := detector
  refine ⟨s.confirmStep, exec_polarityConfirmed crosses.running crosses.candidate, crossed.frame, stamped, confirmed,
    candidate, cycle, length, ?begins, ?ignored, ?steady, ?unsteady, ?returns⟩
  case begins =>
    intro searching low high
    have run := crossed.tracker.trans (CycleTracker.crossing_of_begins measured (.begins searching ((inRangePeriod_iff P).mpr ⟨low, high⟩)))
    have enters : s.confirmStep.ct.tracker = .locking := by rw [run]
    have accepted : s.confirmStep.ct.accepted = s.ct.accepted := by rw [run]; rfl
    have moved : s.ct.tracker ≠ s.confirmStep.ct.tracker := by rintro e; simp [e, enters] at searching
    refine ⟨enters, by rw [run], by rw [run], by rw [run]; exact Tracker.asOrigin_tracker searching, accepted, ?_⟩
    rw [crossed.link, syncNotices_of_moved moved, enters, CycleTracker.frequency_congr accepted]
    rfl
  case ignored =>
    intro searching out
    have run := crossed.tracker.trans (CycleTracker.crossing_of_ignored measured (.ignored searching ((inRangePeriod_eq_false_iff P).mpr out)))
    have same : s.confirmStep.ct.tracker = s.ct.tracker := by rw [run]; rfl
    exact ⟨same, by rw [run]; rfl, by rw [run]; rfl, crossed.silent same⟩
  case steady =>
    intro q locking last low high near few
    have steady : s.ct.steadyAgainst P = true := (CycleTracker.steadyAgainst_of_last last P).trans (isSteady_of_le near)
    have run := crossed.tracker.trans
      (CycleTracker.crossing_of_steady measured (.steady locking ((inRangePeriod_iff P).mpr ⟨low, high⟩) steady few))
    have same : s.confirmStep.ct.tracker = s.ct.tracker := by rw [run]; rfl
    exact ⟨same.trans locking, by rw [run]; rfl, by rw [run], crossed.silent same⟩
  case unsteady =>
    intro q locking last low high far
    have unsteady : s.ct.steadyAgainst P = false := (CycleTracker.steadyAgainst_of_last last P).trans (isSteady_of_lt far)
    have run := crossed.tracker.trans
      (CycleTracker.crossing_of_unsteady measured (.unsteady locking ((inRangePeriod_iff P).mpr ⟨low, high⟩) unsteady))
    have same : s.confirmStep.ct.tracker = s.ct.tracker := by rw [run]; rfl
    exact ⟨same.trans locking, by rw [run], by rw [run], crossed.silent same⟩
  case returns =>
    intro locking out
    have run := crossed.tracker.trans
      (CycleTracker.crossing_of_returns measured (.returns locking ((inRangePeriod_eq_false_iff P).mpr out)))
    have returned : s.confirmStep.ct.tracker = s.ct.origin.tracker := by rw [run]; rfl
    have accepted : s.confirmStep.ct.accepted = s.ct.accepted := by rw [run]; rfl
    refine ⟨returned, by rw [run], ?_⟩
    rw [crossed.link, Origin.syncNotices_return _ locking returned, CycleTracker.frequency_congr accepted]

/-! ### CrossingWhileTracking -/

/-- Settles O7, by the judgement that each of the conditions determines. -/
theorem crossingWhileTracking : Obligations.CrossingWhileTracking := by
  unfold Obligations.CrossingWhileTracking
  intro s prev stamp a crosses previous accepted P
  obtain ⟨due, crossed⟩ := confirmStep_crosses crosses previous
  have measured := period_at_crossing previous stamp due
  have detector := CycleTracker.crossing_detector (s.ct.atCrossing due) stamp
  rw [← crossed.tracker] at detector
  obtain ⟨stamped, confirmed, candidate, -, -⟩ := detector
  have inRange (low : 151516 ≤ P) (high : P ≤ 238095) : inRangePeriod P = true := (inRangePeriod_iff P).mpr ⟨low, high⟩
  refine ⟨s.confirmStep, exec_polarityConfirmed crosses.running crosses.candidate, crossed.frame, stamped, confirmed,
    candidate, ?accepted, ?rejected, ?holdoverOut, ?first, ?unsteady, ?steady⟩
  case accepted =>
    intro locked low high near
    have run := crossed.tracker.trans (CycleTracker.crossing_of_accepted measured
      (.accepted locked ((CycleTracker.acceptable_iff accepted P).mpr ⟨⟨low, high⟩, near⟩)))
    have same : s.confirmStep.ct.tracker = s.ct.tracker := by rw [run]; rfl
    exact ⟨same.trans locked, by rw [run], by rw [run], by rw [run], by rw [run], crossed.silent same⟩
  case rejected =>
    intro locked far few
    have run := crossed.tracker.trans (CycleTracker.crossing_of_rejected measured
      (.rejected locked ((CycleTracker.not_acceptable_iff accepted P).mpr far) few))
    have known : (s.ct.atCrossing due).accepted = some a := accepted
    rw [known, Option.getD_some] at run
    have same : s.confirmStep.ct.tracker = s.ct.tracker := by rw [run]; rfl
    exact ⟨same.trans locked, by rw [run], by rw [run]; rfl, by rw [run]; rfl, by rw [run], crossed.silent same⟩
  case holdoverOut =>
    intro holdover out
    have run := crossed.tracker.trans
      (CycleTracker.crossing_of_holdoverOut measured (.holdoverOut holdover ((inRangePeriod_eq_false_iff P).mpr out)))
    have same : s.confirmStep.ct.tracker = s.ct.tracker := by rw [run]; rfl
    exact ⟨same.trans holdover, by rw [run], by rw [run]; rfl, crossed.silent same⟩
  case first =>
    intro holdover low high none
    have run := crossed.tracker.trans
      (CycleTracker.crossing_of_holdoverUnsteady measured (.holdoverUnsteady holdover (inRange low high) (.inl none)))
    have same : s.confirmStep.ct.tracker = s.ct.tracker := by rw [run]; rfl
    exact ⟨same.trans holdover, by rw [run], by rw [run], crossed.silent same⟩
  case unsteady =>
    intro q holdover last low high far
    have unsteady : s.ct.steadyAgainst P = false := (CycleTracker.steadyAgainst_of_last last P).trans (isSteady_of_lt far)
    have run := crossed.tracker.trans
      (CycleTracker.crossing_of_holdoverUnsteady measured (.holdoverUnsteady holdover (inRange low high) (.inr unsteady)))
    have same : s.confirmStep.ct.tracker = s.ct.tracker := by rw [run]; rfl
    exact ⟨same.trans holdover, by rw [run], by rw [run], crossed.silent same⟩
  case steady =>
    intro q holdover last low high near running few
    have steady : s.ct.steadyAgainst P = true := (CycleTracker.steadyAgainst_of_last last P).trans (isSteady_of_le near)
    have run := crossed.tracker.trans (CycleTracker.crossing_of_holdoverSteady measured
      (.holdoverSteady holdover (inRange low high) (Nat.pos_iff_ne_zero.mp running) steady few))
    have same : s.confirmStep.ct.tracker = s.ct.tracker := by rw [run]; rfl
    exact ⟨same.trans holdover, by rw [run]; rfl, by rw [run], crossed.silent same⟩

/-! ### FourthSteadyPeriodLocks -/

/-- What entry into LOCKED makes of CT (R24, R26, R28). -/
structure Locked (c : CycleTracker) (stamp : Count) (p : Nat) : Prop where
  tracker : c.tracker = .locked
  accepted : c.accepted = some p
  misses : c.missCount = 0
  run : c.runCount = 0
  timer : c.missTimer = some (stamp + BitVec.ofNat 64 (3 * p / 2))
  steering : c.steering = some stamp

theorem CycleTracker.enterLocked_locked (c : CycleTracker) (stamp : Count) (p : Nat) : Locked (c.enterLocked stamp p) stamp p :=
  ⟨rfl, rfl, rfl, rfl, rfl, rfl⟩

/-- The one report of entry into LOCKED (R33). -/
theorem Crosses.locked_link {s t : State} {stamp due : Count} {p : Nat} (crossed : Crosses s t stamp p due) (locked : Locked t.ct stamp p)
    (elsewhere : s.ct.tracker ≠ .locked) :
    t.lc = s.lc.post s.ct.cycle [.report (.syncEvent s.ct.tracker .locked .crossing p (roundDiv 10000000000 p))] := by
  have moved : s.ct.tracker ≠ t.ct.tracker := by rwa [locked.tracker]
  have frequency : t.ct.frequency = roundDiv 10000000000 p := by rw [CycleTracker.frequency, locked.accepted]
  rw [crossed.link, syncNotices_of_moved moved, locked.tracker, frequency]
  rfl

theorem pendingJudgement_of_crossing {s : State} {prev stamp : Count} {j : Judgement} (crosses : CrossingAt s stamp)
    (previous : s.ct.previous = some prev) (judged : s.ct.Judges (stamp - prev).toNat j) : s.ct.pendingJudgement = some j := by
  rw [CycleTracker.pendingJudgement, issues_of_crossing crosses]
  exact congrArg some (CycleTracker.judge_of_judges (CycleTracker.period_of_previous previous stamp) judged)

/-- Settles O8: the fourth steady period is judged to lock, in LOCKING and in HOLDOVER. -/
theorem fourthSteadyPeriodLocks : Obligations.FourthSteadyPeriodLocks := by
  unfold Obligations.FourthSteadyPeriodLocks
  intro s prev stamp q crosses previous last run P low high near
  obtain ⟨due, crossed⟩ := confirmStep_crosses crosses previous
  have measured := period_at_crossing previous stamp due
  have detector := CycleTracker.crossing_detector (s.ct.atCrossing due) stamp
  rw [← crossed.tracker] at detector
  obtain ⟨stamped, confirmed, candidate, -, -⟩ := detector
  have range : inRangePeriod P = true := (inRangePeriod_iff P).mpr ⟨low, high⟩
  have steady : s.ct.steadyAgainst P = true := (CycleTracker.steadyAgainst_of_last last P).trans (isSteady_of_le near)
  have fourth : 4 ≤ s.ct.runCount + 1 := by omega
  constructor
  · intro locking
    have judged : s.ct.Judges P .locks := .locks locking range steady fourth
    have run := crossed.tracker.trans (CycleTracker.crossing_of_locks measured (.locks locking range steady fourth))
    have locked : Locked s.confirmStep.ct stamp P := by rw [run]; exact CycleTracker.enterLocked_locked ..
    refine ⟨s.confirmStep, ?_, crossed.frame, stamped, confirmed, candidate, locked.tracker, locked.accepted, locked.misses, locked.run,
      locked.timer, locked.steering, ?_⟩
    · change whenDue s (decide (s.ct.pendingJudgement = some .locks)) s.confirmStep = _
      rw [decide_eq_true (pendingJudgement_of_crossing crosses previous judged)]
      exact whenDue_of_due crosses.running
    · rw [← locking]
      exact crossed.locked_link locked (by rw [locking]; nofun)
  · intro holdover
    have running : s.ct.runCount ≠ 0 := by rw [run]; nofun
    have judged : s.ct.Judges P .relocks := .relocks holdover range running steady fourth
    have relocked := crossed.tracker.trans (CycleTracker.crossing_of_relocks measured (.relocks holdover range running steady fourth))
    have locked : Locked s.confirmStep.ct stamp P := by rw [relocked]; exact ⟨rfl, rfl, rfl, rfl, rfl, rfl⟩
    refine ⟨s.confirmStep, ?_, crossed.frame, stamped, confirmed, candidate, locked.tracker, locked.accepted, locked.misses, locked.run,
      by rw [relocked], locked.timer, locked.steering, ?_⟩
    · change whenDue s (decide (s.ct.pendingJudgement = some .relocks)) s.confirmStep = _
      rw [decide_eq_true (pendingJudgement_of_crossing crosses previous judged)]
      exact whenDue_of_due crosses.running
    · rw [← holdover]
      exact crossed.locked_link locked (by rw [holdover]; nofun)

/-! ### MissesLeadToHoldover -/

/-- What entry into HOLDOVER makes of CT (R25, R30). -/
structure Lost (c : CycleTracker) (a : Nat) : Prop where
  tracker : c.tracker = .holdover
  accepted : c.accepted = some a
  misses : c.missCount = 0
  run : c.runCount = 0
  cycles : c.holdoverCycles = 0
  timer : c.missTimer = none
  mark : c.holdoverMark = true

theorem CycleTracker.enterHoldover_lost {c : CycleTracker} {a : Nat} (accepted : c.accepted = some a) : Lost c.enterHoldover a :=
  ⟨rfl, accepted, rfl, rfl, rfl, rfl, rfl⟩

/-- The report and the flag of entry into HOLDOVER from LOCKED (R33). -/
theorem Lost.notices {before after : CycleTracker} {a : Nat} (lost : Lost after a) (locked : before.tracker = .locked) (cause : SyncCause)
    (p : Nat) : syncNotices before after cause p =
      [.report (.syncEvent .locked .holdover cause p (roundDiv 10000000000 a)), .flag .syncHoldover] := by
  have moved : before.tracker ≠ after.tracker := by rw [locked, lost.tracker]; nofun
  have frequency : after.frequency = roundDiv 10000000000 a := by rw [CycleTracker.frequency, lost.accepted]
  rw [syncNotices_of_moved moved, lost.tracker, locked, frequency]
  rfl

theorem CycleTracker.expire_of_few {c : CycleTracker} {a : Nat} (accepted : c.accepted = some a) (few : c.missCount + 1 < 3) (due : Count) :
    c.expire due = { c.reach due with
      missCount := c.missCount + 1
      missTimer := some (due + BitVec.ofNat 64 (3 * a / 2)) } := by
  have known : missCounts (c.reach due).accepted = 3 * a / 2 := congrArg missCounts accepted
  have notThird : ¬ Config.missLimit ≤ (c.reach due).missCount + 1 := Nat.not_le.mpr few
  unfold CycleTracker.expire CycleTracker.startMissTimer
  rw [if_neg notThird, known]
  rfl

theorem CycleTracker.expire_of_third {c : CycleTracker} (third : 3 ≤ c.missCount + 1) (due : Count) :
    c.expire due = (c.reach due).enterHoldover := if_pos third

/-- Settles O9, by whether the miss is the third, for an expiry and for a rejected crossing. -/
theorem missesLeadToHoldover : Obligations.MissesLeadToHoldover := by
  unfold Obligations.MissesLeadToHoldover
  constructor
  · intro s due a running locked timer accepted
    have isDue : s.ct.missDue = true := by simp [CycleTracker.missDue, locked, timer]
    have step : exec .missTimer s = .next s.missStep := by
      change whenDue s s.ct.missDue s.missStep = _
      rw [isDue]
      exact whenDue_of_due running
    rw [step, State.missStep_of_timer timer]
    constructor
    · intro few
      have expired := CycleTracker.expire_of_few accepted few due
      have same : s.ct.tracker = (s.ct.expire due).tracker := by rw [expired]; rfl
      rw [syncNotices_of_same same, expired]
      rfl
    · intro third
      have expired := CycleTracker.expire_of_third third due
      have lost : Lost (s.ct.expire due) a := by
        rw [expired]
        exact CycleTracker.enterHoldover_lost accepted
      refine ⟨_, rfl, ?_, rfl, lost.tracker, lost.accepted, lost.misses, lost.run, lost.cycles, lost.timer, lost.mark, ?_⟩
      · have last : s.ct.lastMiss = true := decide_eq_true third
        change whenDue s (s.ct.missDue && s.ct.lastMiss) s.missStep = _
        rw [isDue, last, State.missStep_of_timer timer]
        exact whenDue_of_due running
      · have cycle : (s.ct.expire due).cycle = s.ct.cycle := by rw [expired]; rfl
        rw [State.post_lc, State.setCt_lc, State.setCt_ct, cycle, lost.notices locked]
  · intro s prev stamp a crosses previous locked accepted misses P far
    obtain ⟨due, crossed⟩ := confirmStep_crosses crosses previous
    have measured := period_at_crossing previous stamp due
    have detector := CycleTracker.crossing_detector (s.ct.atCrossing due) stamp
    rw [← crossed.tracker] at detector
    obtain ⟨stamped, confirmed, candidate, -, -⟩ := detector
    have rejected : s.ct.acceptable P = false := (CycleTracker.not_acceptable_iff accepted P).mpr far
    have third : 3 ≤ s.ct.missCount + 1 := by omega
    have lost : Lost s.confirmStep.ct a := by
      rw [crossed.tracker, CycleTracker.crossing_of_loses measured (.loses locked rejected third)]
      exact CycleTracker.enterHoldover_lost accepted
    refine ⟨s.confirmStep, ?_, crossed.frame, stamped, confirmed, candidate, lost.tracker, lost.accepted, lost.misses, lost.run,
      lost.cycles, lost.timer, lost.mark, ?_⟩
    · change whenDue s (decide (s.ct.pendingJudgement = some .loses)) s.confirmStep = _
      rw [decide_eq_true (pendingJudgement_of_crossing crosses previous (.loses locked rejected third))]
      exact whenDue_of_due crosses.running
    · rw [crossed.link, lost.notices locked]

end Sys2Proof.Machine
end

