-- ==== Sys2Proof/Proofs/EngineAtBoundary.lean ====
section
/-! PROOFS. AE, ST and CT at a cycle boundary by its course: with the clock STOPPED, within a window, at the window's end, and into FREE
(R28, R38, R40, R41, R45, R46, R153). -/

namespace Sys2Proof.Machine

open Sys2Proof.Safety

/-! ### Counters -/

/-- Counters raised for some of the groups. -/
theorem foldl_bump_get (on : GroupId → Bool) (k : Nat) {l : List GroupId} (nodup : l.Nodup) (st : Statistics) (h : GroupId) (i : Fin 12) :
    ((l.foldl (fun st g => if on g then st.bumpGroup g k else st) st).groups.get h)[i] =
      (st.groups.get h)[i] + (if h ∈ l ∧ on h = true ∧ i.val = k then 1 else 0) := by
  induction l generalizing st with
  | nil => simp
  | cons g l ih =>
    obtain ⟨new, nodup⟩ := List.nodup_cons.mp nodup
    rw [List.foldl_cons, ih nodup]
    have bumped : ((if on g then st.bumpGroup g k else st).groups.get h)[i] =
        (st.groups.get h)[i] + (if h = g ∧ on g = true ∧ i.val = k then 1 else 0) := by
      cases on g with
      | false => simp
      | true => simpa using st.bumpGroup_get g h k i
    rw [bumped]
    by_cases same : h = g
    · subst same
      simp [new]
    · simp [same]

theorem foldl_bump_pairs (on : GroupId → Bool) (k : Nat) (l : List GroupId) (st : Statistics) :
    (l.foldl (fun st g => if on g then st.bumpGroup g k else st) st).pairs = st.pairs :=
  foldl_keeps (R := fun a b : Statistics => b.pairs = a.pairs) (fun _ => rfl) (fun h k => k.trans h)
    (fun st g => by split <;> rfl) l st

section
variable (st : Statistics) (sets : Quad (Option GroupSets)) (gone skipped : Quad Bool) (g : GroupId) (i : Fin 12)

theorem Statistics.countDiscards_get : ((st.countDiscards sets gone).groups.get g)[i] =
    (st.groups.get g)[i] + (if (gone.get g = true ∧ (sets.get g).isSome = true) ∧ i.val = 11 then 1 else 0) := by
  unfold Statistics.countDiscards
  rw [foldl_bump_get (fun g => gone.get g && (sets.get g).isSome) 11 (by decide)]
  simp [GroupId.mem_all]

theorem Statistics.countSkips_get : ((st.countSkips skipped).groups.get g)[i] =
    (st.groups.get g)[i] + (if skipped.get g = true ∧ i.val = 10 then 1 else 0) := by
  unfold Statistics.countSkips
  rw [foldl_bump_get (fun g => skipped.get g) 10 (by decide)]
  simp [GroupId.mem_all]

theorem Statistics.countDiscards_pairs : (st.countDiscards sets gone).pairs = st.pairs := foldl_bump_pairs ..

theorem Statistics.countSkips_pairs : (st.countSkips skipped).pairs = st.pairs := foldl_bump_pairs ..

end

@[simp] theorem AnalysisEngine.marked_groupSets_isSome (a : AnalysisEngine) (mark : Bool) (g : GroupId) :
    ((a.marked mark).groupSets.get g).isSome = (a.groupSets.get g).isSome := by
  cases mark <;> simp [AnalysisEngine.marked, AnalysisEngine.degrade]

/-! ### AE and ST, course by course -/

section
variable {s : State} (inputs : InputLevels)

theorem State.closedAe_of_none (none : s.ae.clock = none) : s.closedAe inputs = s.ae := by
  unfold State.closedAe AnalysisEngine.afterCycle
  rw [none]

theorem State.closedSt_of_none (none : s.ae.clock = none) : s.closedSt inputs = s.st := by
  unfold State.closedSt Statistics.afterCycle
  rw [none]

variable {w : WindowClock} (running : s.ae.clock = some w)
include running

theorem State.closedAe_of_free (free : EntersFree s) : s.closedAe inputs = (s.ae.marked s.ct.holdoverMark).discardWindow := by
  unfold State.closedAe AnalysisEngine.afterCycle
  rw [running, s.entersFree_iff.mpr free]
  rfl

theorem State.closedSt_of_free (free : EntersFree s) :
    s.closedSt inputs = s.st.countDiscards (s.ae.marked s.ct.holdoverMark).groupSets (Quad.fill true) := by
  unfold State.closedSt Statistics.afterCycle
  rw [running, s.entersFree_iff.mpr free]
  rfl

theorem State.closedAe_of_ends (ends : EndsWindow s) :
    s.closedAe inputs = (s.ae.counted s.ct.holdoverMark (s.leaving inputs)).handOver s.ss.working w := by
  unfold State.closedAe AnalysisEngine.afterCycle
  rw [running, s.endsWindow_iff.mpr ends, State.entersFree_of_not ends.2]
  rfl

theorem State.closedSt_of_ends (ends : EndsWindow s) :
    s.closedSt inputs = (s.st.countDiscards (s.ae.marked s.ct.holdoverMark).groupSets (s.leaving inputs)).countSkips
      (s.ae.counted s.ct.holdoverMark (s.leaving inputs)).skippedGroups := by
  unfold State.closedSt Statistics.afterCycle
  rw [running, s.endsWindow_iff.mpr ends, State.entersFree_of_not ends.2]
  rfl

theorem State.closedAe_of_within (within : ¬ EndsWindow s) (stays : ¬ EntersFree s) :
    s.closedAe inputs = s.ae.counted s.ct.holdoverMark (s.leaving inputs) := by
  unfold State.closedAe AnalysisEngine.afterCycle
  rw [running, State.endsWindow_of_not within, State.entersFree_of_not stays]
  rfl

theorem State.closedSt_of_within (within : ¬ EndsWindow s) (stays : ¬ EntersFree s) :
    s.closedSt inputs = s.st.countDiscards (s.ae.marked s.ct.holdoverMark).groupSets (s.leaving inputs) := by
  unfold State.closedSt Statistics.afterCycle
  rw [running, State.endsWindow_of_not within, State.entersFree_of_not stays]
  rfl

end

section
variable {s : State} (inputs : InputLevels) (gm : Monitors)

theorem State.openedAe_of_opens (opens : s.opensWindow = true) :
    s.openedAe inputs gm = (s.closedAe inputs).openWindow s.appliedSs.working.analysis.window (s.ct.cycle + 1) gm := if_pos opens

theorem State.openedAe_of_not (not : s.opensWindow = false) : s.openedAe inputs gm = s.closedAe inputs :=
  if_neg (Bool.eq_false_iff.mp not)

end

/-- The record stores, which no boundary touches. -/
theorem State.openedAe_stores (s : State) (inputs : InputLevels) (gm : Monitors) :
    (s.openedAe inputs gm).groupStore = s.ae.groupStore ∧ (s.openedAe inputs gm).pairStore = s.ae.pairStore := by
  have closed : (s.closedAe inputs).groupStore = s.ae.groupStore ∧ (s.closedAe inputs).pairStore = s.ae.pairStore := by
    obtain ⟨-, same⟩ | ⟨w, -, ⟨-, -, same⟩ | ⟨-, -, -, same⟩ | ⟨-, -, -, same⟩⟩ := s.closedAe_cases inputs <;> rw [same]
    · exact ⟨rfl, rfl⟩
    all_goals cases s.ct.holdoverMark <;> exact ⟨rfl, rfl⟩
  unfold State.openedAe
  split
  · exact closed
  · exact closed

theorem State.closedSt_pairs (s : State) (inputs : InputLevels) : (s.closedSt inputs).pairs = s.st.pairs := by
  unfold State.closedSt Statistics.afterCycle
  split
  · rfl
  · split
    · exact Statistics.countDiscards_pairs ..
    · split
      · rw [Statistics.countSkips_pairs, Statistics.countDiscards_pairs]
      · exact Statistics.countDiscards_pairs ..

theorem boundaryKeeps (s : State) (inputs : InputLevels) : BoundaryKeeps s (s.boundaryStep inputs) := by
  obtain ⟨receiver, -, sending, masks, counters, -, -⟩ := s.boundaryStep_keeps inputs
  obtain ⟨groupStore, pairStore⟩ := s.openedAe_stores inputs (s.monitored inputs).gm
  exact {
    pending := s.boundaryStep_pending inputs
    running := s.boundaryStep_inReset inputs
    mode := s.boundaryStep_mode inputs
    latches := by rw [State.boundaryStep_le, State.monitored_latches]
    tripLines := by rw [State.boundaryStep_le, State.monitored_tripLines]
    comparators := s.boundaryStep_fc inputs
    image := by rw [State.boundaryStep_ss, State.appliedSs_image]
    flight := by rw [State.boundaryStep_ss, State.appliedSs_flight]
    comparatorSettings := by rw [State.boundaryStep_ss, State.appliedSs_comparators]
    freezeSetup := by rw [State.boundaryStep_ss, State.appliedSs_freeze]
    pairCounters := by rw [State.boundaryStep_st, State.closedSt_pairs]
    groupStore := by rw [State.boundaryStep_ae, groupStore]
    pairStore := by rw [State.boundaryStep_ae, pairStore]
    receiver := receiver
    sending := sending
    masks := masks
    linkCounters := counters
    free := s.boundaryStep_freeNext inputs }

/-! ### CT -/

section
variable (c : CycleTracker) (free : Bool)

theorem CycleTracker.closeCycle_of_other (other : c.tracker ≠ .holdover) :
    c.closeCycle free = { c.reach c.endCount with cycle := c.cycle + 1 } := by
  unfold CycleTracker.closeCycle
  dsimp only
  split
  · exact absurd ‹_› other
  · rfl

theorem CycleTracker.closeCycle_of_holdover (holdover : c.tracker = .holdover) :
    c.closeCycle false = { c.reach c.endCount with cycle := c.cycle + 1, holdoverCycles := c.holdoverCycles + 1 } := by
  unfold CycleTracker.closeCycle
  dsimp only
  split
  · rfl
  · exact absurd holdover ‹_›

theorem CycleTracker.closeCycle_of_limit (holdover : c.tracker = .holdover) :
    c.closeCycle true = { c.reach c.endCount with
      cycle := c.cycle + 1, tracker := .free, holdoverCycles := c.holdoverCycles + 1, runCount := 0, lastInRange := none } := by
  unfold CycleTracker.closeCycle
  dsimp only
  split
  · rfl
  · exact absurd holdover ‹_›

/-- What closing a cycle changes of CT, but for the run. -/
theorem CycleTracker.closeCycle_frame : c.closeCycle free = { c.reach c.endCount with
    cycle := c.cycle + 1, tracker := (c.closeCycle free).tracker, holdoverCycles := (c.closeCycle free).holdoverCycles,
    runCount := (c.closeCycle free).runCount, lastInRange := (c.closeCycle free).lastInRange } := by
  by_cases holdover : c.tracker = .holdover
  · cases free
    · rw [CycleTracker.closeCycle_of_holdover _ holdover]
    · rw [CycleTracker.closeCycle_of_limit _ holdover]
  · rw [CycleTracker.closeCycle_of_other _ _ holdover]

end

theorem nextLength_of_other {t : Tracker} (locked : t ≠ .locked) (holdover : t ≠ .holdover) (acc : Option Nat) (nominal : Nominal)
    (e : Option Int) : nextLength t acc nominal e = nominal.period := by
  cases t with
  | locked => exact absurd rfl locked
  | holdover => exact absurd rfl holdover
  | seek => rfl
  | locking => rfl
  | free => rfl

end Sys2Proof.Machine
end

