-- ==== Sys2Proof/Proofs/RingAndFree.lean ====
section
/-! PROOFS. CR at every cycle boundary, and the boundary that enters FREE (R28, R41, R135, R138, R141). -/

namespace Sys2Proof.Machine

open Sys2Proof.Safety

/-! ### The ring, freeze state by freeze state -/

section
variable {c : CaptureRing} (cycle : Word)

theorem CaptureRing.boundary_of_running (running : c.state = .running) : c.boundary cycle = (c.advance cycle, []) := by
  unfold CaptureRing.boundary
  rw [running]

theorem CaptureRing.boundary_of_release (stopped : c.state ≠ .running) (release : c.releasePending = true) :
    c.boundary cycle = (CaptureRing.advance { c with
      state := .running, trigger := none, ignored := 0, postCount := 0, releasePending := false } cycle, []) := by
  unfold CaptureRing.boundary
  split
  · exact absurd ‹_› stopped
  · rw [if_pos release]

theorem CaptureRing.boundary_of_post (post : c.state = .post) (kept : c.releasePending = false) (counting : 0 < c.postCount) :
    c.boundary cycle = (CaptureRing.advance { c with postCount := c.postCount - 1 } cycle, []) := by
  have thaws : c.freezes = false := by simp [CaptureRing.freezes, Nat.pos_iff_ne_zero.mp counting]
  simp [CaptureRing.boundary, post, kept, thaws]

theorem CaptureRing.freezes_iff : c.freezes = true ↔ c.state = .post ∧ c.postCount = 0 ∧ c.releasePending = false := by
  simp [CaptureRing.freezes, and_assoc]

theorem CaptureRing.boundary_of_freezes (freezes : c.freezes = true) : (c.boundary cycle).1 = { c with state := .frozen } := by
  obtain ⟨post, -, kept⟩ := CaptureRing.freezes_iff.mp freezes
  simp [CaptureRing.boundary, post, kept, freezes]

theorem CaptureRing.boundary_of_frozen (frozen : c.state = .frozen) (kept : c.releasePending = false) : c.boundary cycle = (c, []) := by
  have thaws : c.freezes = false := by simp [CaptureRing.freezes, frozen]
  simp [CaptureRing.boundary, frozen, kept, thaws]

end

/-- The next slot has become the current one, emptied and tagged with the cycle that begins (R135). -/
def Advanced (c d : CaptureRing) (cycle : Word) : Prop :=
  d.current = c.current + 1 ∧ (∀ k, k ≠ c.current + 1 → d.slots[k] = c.slots[k]) ∧
    d.slots[c.current + 1].tag = some cycle ∧
    ∀ ch, d.slots[c.current + 1].channels.get ch = { samples := [], marks := { clip := false, held := false } }

theorem CaptureRing.advance_advanced (c : CaptureRing) (cycle : Word) : Advanced c (c.advance cycle) cycle := by
  have here : (c.advance cycle).slots[c.current + 1] = RingSlot.fresh (some cycle) := by simp [CaptureRing.advance, nextSlot]
  refine ⟨rfl, fun k other => ?_, by rw [here]; rfl, fun ch => ?_⟩
  · have apart : (c.current + 1).val ≠ k.val := fun same => other (Fin.ext same.symm)
    simp [CaptureRing.advance, nextSlot, Vector.getElem_set_ne _ _ apart]
  · rw [here]
    simp [RingSlot.fresh, Marks.clear]

/-- Settles O19, by the freeze state and whether a release is pending. -/
theorem boundaryAdvancesTheRing : Obligations.BoundaryAdvancesTheRing := by
  unfold Obligations.BoundaryAdvancesTheRing
  intro s inputs boundary
  have ring := s.boundaryStep_cr inputs
  refine ⟨_, exec_cycleBoundary boundary, fun running => ?_, fun stopped release => ?_, fun post kept counting => ?_,
    fun post kept zero => ?_, fun frozen kept => ?_⟩
  · rw [ring, CaptureRing.boundary_of_running _ running]
    exact ⟨CaptureRing.advance_advanced .., running, rfl⟩
  · rw [ring, CaptureRing.boundary_of_release _ stopped release]
    exact ⟨CaptureRing.advance_advanced .., rfl, rfl, rfl, rfl, rfl⟩
  · rw [ring, CaptureRing.boundary_of_post _ post kept counting]
    exact ⟨CaptureRing.advance_advanced .., post, rfl, rfl, rfl⟩
  · rw [ring, CaptureRing.boundary_of_freezes _ (CaptureRing.freezes_iff.mpr ⟨post, zero, kept⟩)]
  · rw [ring, CaptureRing.boundary_of_frozen _ frozen kept]

end Sys2Proof.Machine
end

