-- ==== Sys2Proof/Proofs/BoundaryNotices.lean ====
section
/-! PROOFS. The notices that limit edits and a whole cycle boundary enqueue, in their order (R91, R103, R142, R164). -/

namespace Sys2Proof.Machine

open Sys2Proof.Safety

/-! ### Verdicts recomputed, and limit edits -/

/-- The verdicts recomputed for some of the groups, each with its VERDICT_CHANGE (R103, R109). -/
theorem foldl_recompute_posts (cause : VerdictCause) (window : Word) {l : List GroupId} (nodup : l.Nodup) (s : State) :
    Posts s (l.foldl (State.recompute cause window) s) (l.flatMap fun g =>
      if s.le.verdicts.get g = verdictOf (s.standing g) then []
      else [.report (.verdictChange g (s.le.verdicts.get g) (verdictOf (s.standing g)) cause window (holderOf (s.standing g)))]) := by
  induction l generalizing s with
  | nil => exact .refl s
  | cons g l ih =>
    obtain ⟨new, nodup⟩ := List.nodup_cons.mp nodup
    have first : Posts s (s.recompute cause window g) _ := s.setVerdict_posts g (verdictOf (s.standing g)) (holderOf (s.standing g)) cause window
    have rest := ih nodup (s.recompute cause window g)
    have kept (h : GroupId) (mem : h ∈ l) : (s.recompute cause window g).le.verdicts.get h = s.le.verdicts.get h := by
      rw [State.recompute_verdict, if_neg fun same : h = g => new (same ▸ mem)]
    have standing (h : GroupId) : (s.recompute cause window g).standing h = s.standing h :=
      (State.setVerdict_only ..).standing h
    have same : (l.flatMap fun h =>
        if (s.recompute cause window g).le.verdicts.get h = verdictOf ((s.recompute cause window g).standing h) then []
        else [Notice.report (.verdictChange h ((s.recompute cause window g).le.verdicts.get h)
          (verdictOf ((s.recompute cause window g).standing h)) cause window (holderOf ((s.recompute cause window g).standing h)))]) =
        l.flatMap fun h => if s.le.verdicts.get h = verdictOf (s.standing h) then []
          else [.report (.verdictChange h (s.le.verdicts.get h) (verdictOf (s.standing h)) cause window (holderOf (s.standing h)))] :=
      List.flatMap_congr fun h mem => by rw [kept h mem, standing h]
    rw [same] at rest
    rw [List.foldl_cons, List.flatMap_cons]
    simpa only [eq_comm] using first.trans rest

theorem State.recomputeAll_posts (s : State) (cause : VerdictCause) (window : Word) :
    Posts s (s.recomputeAll cause window) (verdictChanges (fun g => s.le.verdicts.get g) (fun g => verdictOf (s.standing g)) cause window
      fun g => holderOf (s.standing g)) := foldl_recompute_posts cause window (by decide) s

theorem editNotices_eq (s : State) (window : Word) : editNotices s window = withdrawals s window := by
  unfold editNotices withdrawals
  refine List.flatMap_congr fun k _ => ?_
  generalize s.le.records[k] = rs
  unfold withdrawn
  cases s.ss.staged.limits[k] with
  | none => rfl
  | some edit =>
    cases s.ss.working.limits[k] with
    | none => rfl
    | some e =>
      have same : (fun ur : UnitId × CondRecord => ur.2.standing) = fun ur => decide (Stands ur.2) := by
        funext ur
        exact Bool.eq_iff_iff.mpr (by rw [CondRecord.standing_iff, decide_eq_true_iff])
      simp only [same]

theorem OnlySync.queue {l m : LinkController} (h : OnlySync l m) : SameQueue l m := by
  obtain ⟨sync, entries, readied, requests, rfl⟩ := h
  exact ⟨rfl, rfl, rfl, rfl⟩

/-- The reports of an application point of limit edits (R103). -/
def editReports (s : State) (window : Word) : List Notice :=
  withdrawals s window ++
    verdictChanges (fun g => s.le.verdicts.get g) (editedVerdict s) .limitEdit window
      (holder (s.ss.working.applyLimits s.ss.staged).limits (editedRecords s))

theorem State.applyLimitEdits_posts (s : State) (point : Option Word) :
    Posts s (s.applyLimitEdits point) (editReports s (point.getD 0)) := by
  have edited : Posts s (s.editTable.post (editNotices s (point.getD 0))) (withdrawals s (point.getD 0)) := by
    rw [editNotices_eq]
    exact .after (t := s.editTable) ⟨rfl, rfl, rfl, rfl⟩ rfl (.post _ _)
  have standing (g : GroupId) : (s.editTable.post (editNotices s (point.getD 0))).standing g =
      standingFor (s.ss.working.applyLimits s.ss.staged).limits (editedRecords s) g := by
    simp only [State.standing, State.post_ss, State.post_le, State.editTable_eq, State.setSs_ss, State.setSs_le, State.setLe_le]
    rfl
  have verdicts : (s.editTable.post (editNotices s (point.getD 0))).le.verdicts = s.le.verdicts := by
    simp only [State.post_le, State.editTable_eq, State.setSs_le, State.setLe_le]
  have changed := (s.editTable.post (editNotices s (point.getD 0))).recomputeAll_posts .limitEdit (point.getD 0)
  simp only [standing, verdicts] at changed
  have both := edited.trans changed
  have closes : s.applyLimitEdits point =
      ((s.editTable.post (editNotices s (point.getD 0))).recomputeAll .limitEdit (point.getD 0)).setLc
        (((s.editTable.post (editNotices s (point.getD 0))).recomputeAll .limitEdit (point.getD 0)).lc.closeLimit point) := rfl
  rw [closes]
  generalize (s.editTable.post (editNotices s (point.getD 0))).recomputeAll .limitEdit (point.getD 0) = t at both
  exact both.before (t.lc.closeLimit_only point).queue rfl

/-! ### The boundary -/

/-- The reports of GM's step at the boundary of `s` (R91). -/
def State.monitorNotices (s : State) (inputs : InputLevels) : List Notice :=
  GroupId.all.flatMap ((s.applied inputs).groupNotices (s.context inputs)) ++
    PairId.all.flatMap (pairNotices (s.context inputs) (s.applied inputs).gm.groups (s.applied inputs) (s.monitored inputs))

/-- Every notice of a boundary: those of CT and AE, of the limit edits, of GM and of CR (log entry 12). -/
def State.boundaryNotices (s : State) (inputs : InputLevels) : List Notice :=
  s.closeNotices inputs ++ (if s.ae.stopped then editReports s 0 else []) ++ s.monitorNotices inputs ++
    (s.cr.boundary (s.ct.cycle + 1)).2

section
variable (s : State) (inputs : InputLevels)

theorem State.closed_posts : Posts (s.setCt s.closedCt) (s.closed inputs) (s.closeNotices inputs) := by
  rw [State.closed_eq]
  exact .after (t := (((s.setCt s.closedCt).setFe s.testedFe).setSt (s.closedSt inputs)).setAe (s.closedAe inputs)) ⟨rfl, rfl, rfl, rfl⟩ rfl
    (.post _ _)

theorem State.settled_posts : Posts (s.setCt s.closedCt) (s.settled inputs) (s.closeNotices inputs) := by
  unfold State.settled
  split
  · refine (s.closed_posts inputs).before ?_ ?_
    · rw [State.applyAnalysis_eq]
      exact ⟨rfl, rfl, rfl, rfl⟩
    · rw [State.applyAnalysis_eq]
      rfl
  · exact s.closed_posts inputs

/-- The application of the analysis class leaves alone what the limit edits read. -/
theorem State.settled_editReports : editReports (s.settled inputs) 0 = editReports s 0 := by
  have limits : ((s.settled inputs).ss.working.applyLimits (s.settled inputs).ss.staged).limits =
      (s.ss.working.applyLimits s.ss.staged).limits := by
    simp only [Settings.applyLimits, State.settled_edits, State.settled_limits]
  have verdict : editedVerdict (s.settled inputs) = editedVerdict s := funext (s.settled_editedVerdict inputs)
  unfold editReports withdrawals
  simp only [limits, verdict, State.settled_editedRecords, State.settled_le, State.settled_edits, State.settled_limits]

theorem State.applied_posts :
    Posts (s.setCt s.closedCt) (s.applied inputs) (s.closeNotices inputs ++ if s.ae.stopped then editReports s 0 else []) := by
  unfold State.applied
  split
  · have edits := (s.settled inputs).applyLimitEdits_posts none
    rw [Option.getD_none, State.settled_editReports] at edits
    exact (s.settled_posts inputs).trans edits
  · simpa using s.settled_posts inputs

theorem State.monitored_posts : Posts (s.setCt s.closedCt) (s.monitored inputs)
    (s.closeNotices inputs ++ (if s.ae.stopped then editReports s 0 else []) ++ s.monitorNotices inputs) :=
  (s.applied_posts inputs).trans (State.monitorStep_stepped (s.context inputs) (s.applied inputs)).posts

theorem State.synced_posts : Posts (s.setCt s.closedCt) (s.synced inputs)
    (s.closeNotices inputs ++ (if s.ae.stopped then editReports s 0 else []) ++ s.monitorNotices inputs) := by
  have opened : Posts (s.setCt s.closedCt) (s.openedNext inputs) _ :=
    (s.monitored_posts inputs).before (by unfold State.openedNext; split <;> exact ⟨rfl, rfl, rfl, rfl⟩)
      (by unfold State.openedNext; split <;> rfl)
  unfold State.synced
  split
  · exact opened.before (LinkController.closeAnalysis_only ..).queue rfl
  · exact opened

theorem State.ringStep_posts (u : State) : Posts u u.ringStep (u.cr.boundary u.ct.cycle).2 :=
  .after (t := u.setCr (u.cr.boundary u.ct.cycle).1) ⟨rfl, rfl, rfl, rfl⟩ rfl (.post _ _)

theorem State.boundaryStep_posted :
    Posted s.lc (s.boundaryStep inputs).lc (s.ct.cycle + 1) (s.boundaryNotices inputs) := by
  have cycle : s.closedCt.cycle = s.ct.cycle + 1 := CycleTracker.closeCycle_cycle ..
  have ring := (s.synced inputs).ringStep_posts
  have same : (s.synced inputs).cr = s.cr ∧ (s.synced inputs).ct = s.closedCt := by
    obtain ⟨lc, e⟩ := s.synced_eq inputs
    simp [e]
  rw [same.1, same.2, cycle] at ring
  have all := ((s.synced_posts inputs).trans ring).posted
  rw [State.setCt_lc, State.setCt_ct, cycle] at all
  rw [State.boundaryStep_parts]
  generalize (s.synced inputs).ringStep = u at all
  exact ⟨all.queue, all.flags, all.lost⟩

end

end Sys2Proof.Machine
end

