-- ==== Sys2Proof/Proofs/BoundaryCourses.lean ====
section
/-! PROOFS. The boundary that enters FREE, and what every boundary, one with the clock STOPPED and one within a window make of each block
(R27 to R30, R38 to R48, R102, R103, R153). -/

namespace Sys2Proof.Machine

open Sys2Proof.Safety

/-! ### Into FREE -/

theorem State.closedCt_of_free {s : State} (free : EntersFree s) : s.closedCt = { s.ct.reach s.ct.endCount with
    cycle := s.ct.cycle + 1, tracker := .free, holdoverCycles := s.ct.holdoverCycles + 1, runCount := 0, lastInRange := none } := by
  unfold State.closedCt
  rw [s.entersFree_iff.mpr free, CycleTracker.closeCycle_of_limit _ free.1]

/-- The report and the flag of entry into FREE (R33, R41). -/
theorem State.closeNotices_of_free {s : State} (inputs : InputLevels) (free : EntersFree s) :
    s.closeNotices inputs = [.report (.syncEvent .holdover .free .holdoverLimit 0 s.ct.frequency), .flag .syncFree] := by
  have after : s.closedCt.tracker = .free := by rw [State.closedCt_of_free free]
  have moved : s.ct.tracker ≠ s.closedCt.tracker := by rw [free.1, after]; nofun
  have frequency : s.closedCt.frequency = s.ct.frequency := CycleTracker.frequency_congr (by rw [State.closedCt_of_free free]; rfl)
  have unskipped : s.ae.skipNotices s.ct.holdoverMark s.entersFree s.endsWindow (s.leaving inputs) = [] := by
    simp [AnalysisEngine.skipNotices, s.entersFree_iff.mpr free]
  rw [State.closeNotices, syncNotices_of_moved moved, after, free.1, frequency, unskipped]
  rfl

theorem State.not_endsWindow_of_free {s : State} (free : EntersFree s) : ¬ EndsWindow s := fun ends => ends.2 free

theorem State.not_startsClock_of_holdover {s : State} (holdover : s.ct.tracker = .holdover) : ¬ StartsClock s := by
  rintro ⟨-, -, locked⟩
  rw [holdover] at locked
  cases locked

theorem posted_flag {l m : LinkController} {cycle : Word} {ns : List Notice} {f : Flag} (posted : Posted l m cycle ns)
    (mem : Notice.flag f ∈ ns) : flagOf m.flags f = true := by
  obtain ⟨before, after, rfl⟩ := List.append_of_mem mem
  have split : l.post cycle (before ++ .flag f :: after) = ((l.post cycle before).raise cycle f).post cycle after := List.foldl_append ..
  rw [posted.flags, split]
  exact LinkController.post_flag cycle after (LinkController.raise_sets ..)

/-- Settles O20: the boundary enters FREE, which no window end and no start of the clock meets. -/
theorem fiftiethHoldoverBoundary : Obligations.FiftiethHoldoverBoundary := by
  unfold Obligations.FiftiethHoldoverBoundary
  intro s inputs boundary holdover fiftieth
  have free : EntersFree s := ⟨holdover, by omega⟩
  have within := State.not_endsWindow_of_free free
  have shut : s.opensWindow = false := State.opensWindow_of_not within (State.not_startsClock_of_holdover holdover)
  have ct : (s.boundaryStep inputs).ct = s.closedCt.begun s.ct s.appliedSs.working.analysis.nominal := s.boundaryStep_ct inputs
  rw [State.closedCt_of_free free] at ct
  have ae : (s.boundaryStep inputs).ae = s.closedAe inputs := by rw [State.boundaryStep_ae, State.openedAe_of_not _ _ shut]
  have closed : (s.closedAe inputs).clock = none ∧ (s.closedAe inputs).counter = s.ae.counter ∧
      (s.closedAe inputs).groupSlots = s.ae.groupSlots ∧ (s.closedAe inputs).pairSlots = s.ae.pairSlots ∧
      (s.closedAe inputs).passes = s.ae.passes := by
    cases clock : s.ae.clock with
    | none => rw [State.closedAe_of_none inputs clock]; exact ⟨clock, rfl, rfl, rfl, rfl⟩
    | some w =>
      rw [State.closedAe_of_free inputs clock free]
      cases s.ct.holdoverMark <;> exact ⟨rfl, rfl, rfl, rfl, rfl⟩
  obtain ⟨stopped, counter, groupSlots, pairSlots, passes⟩ := closed
  have posted := s.boundaryStep_posted inputs
  have notices := State.closeNotices_of_free inputs free
  have first (n : Notice) (mem : n ∈ s.closeNotices inputs) : n ∈ s.boundaryNotices inputs := by
    simp [State.boundaryNotices, mem]
  have flagged : Notice.flag .syncFree ∈ s.boundaryNotices inputs := first _ (by simp [notices])
  refine ⟨s.boundaryStep inputs, exec_holdoverLimit boundary free, exec_cycleBoundary boundary, boundaryKeeps s inputs, by rw [ct]; rfl,
    by rw [ct]; rfl, by rw [ct]; rfl, by rw [ct]; rfl, by rw [ct, State.boundaryStep_ss]; rfl, posted_flag posted flagged,
    ⟨_, posted, flagged, first _ ?_⟩, by rw [ae]; exact stopped, by rw [ae]; exact counter,
    by rw [ae]; exact groupSlots, by rw [ae]; exact pairSlots, by rw [ae]; exact passes, fun clock => ?_⟩
  · rw [notices]
    exact List.mem_cons_self
  · obtain ⟨w, running⟩ := Option.isSome_iff_exists.mp clock
    have ss : (s.boundaryStep inputs).ss = s.ss := by
      rw [State.boundaryStep_ss, State.appliedSs_of_within (State.not_stopped (by rw [running]; nofun)) (State.endsWindow_of_not within)]
    refine ⟨fun g => ⟨?_, ?_⟩, fun p => ?_, by rw [ss], by rw [ss]⟩
    · rw [ae, State.closedAe_of_free inputs running free]
      exact Quad.get_fill ..
    · rw [State.boundaryStep_st, State.closedSt_of_free inputs running free]
      simpa using Statistics.countDiscards_get s.st (s.ae.marked s.ct.holdoverMark).groupSets (Quad.fill true) g 11
    · rw [ae, State.closedAe_of_free inputs running free]
      exact Duo.get_fill ..

/-! ### Every boundary -/

/-- CT at every boundary (R27 to R30). -/
theorem State.boundaryStep_cycle (s : State) (inputs : InputLevels) :
    let c := (s.boundaryStep inputs).ct
    c.cycle = s.ct.cycle + 1 ∧ c.start = s.ct.start + BitVec.ofNat 64 s.ct.length ∧ c.issued = 0 ∧
      c.steering = none ∧ c.accepted = s.ct.accepted ∧ c.reference = s.ct.reference ∧ c.confirmed = s.ct.confirmed ∧
      c.candidate = s.ct.candidate ∧ c.previous = s.ct.previous ∧ c.missTimer = s.ct.missTimer ∧ c.missCount = s.ct.missCount := by
  have frame : s.closedCt = _ := s.ct.closeCycle_frame s.entersFree
  rw [State.boundaryStep_ct, State.begunCt, CycleTracker.begun, frame]
  exact ⟨rfl, rfl, rfl, rfl, rfl, rfl, rfl, rfl, rfl, rfl, rfl⟩

/-- The length of a cycle that begins in LOCKED (R27). -/
theorem nextLength_of_locked (a : Nat) (nominal : Nominal) (e : Option Int) :
    nextLength .locked (some a) nominal e = ((a : Int) + (e.map (phaseCorrection a)).getD 0).toNat := rfl

theorem State.closedCt_of_other {s : State} (other : s.ct.tracker ≠ .holdover) :
    s.closedCt = { s.ct.reach s.ct.endCount with cycle := s.ct.cycle + 1 } := CycleTracker.closeCycle_of_other _ _ other

theorem State.closedCt_of_holdover {s : State} (holdover : s.ct.tracker = .holdover) (stays : ¬ EntersFree s) :
    s.closedCt = { s.ct.reach s.ct.endCount with cycle := s.ct.cycle + 1, holdoverCycles := s.ct.holdoverCycles + 1 } := by
  unfold State.closedCt
  rw [State.entersFree_of_not stays, CycleTracker.closeCycle_of_holdover _ holdover]

/-! ### With the clock STOPPED -/

/-- The records behind a boundary: those that the limit edits leave, CLEAR for the units that GM clears (R85, R89, R103). -/
theorem State.boundaryStep_records (s : State) (inputs : InputLevels) : (s.boundaryStep inputs).le.records =
    clearWhere ((s.applied inputs).unitCleared (s.context inputs)) s.appliedRecords := by
  rw [State.boundaryStep_le, ← s.applied_records inputs]
  exact (State.monitorStep_stepped ..).records

theorem State.appliedSs_of_none {s : State} (none : s.ae.clock = none) : s.appliedSs = s.ss.withAnalysis.withLimits := by
  unfold State.appliedSs
  rw [State.stopped_of_none none, State.appliesHere_of_none none]
  rfl

theorem editedRecords_entry (s : State) (k : Fin 48) : (editedRecords s)[k] = recordsAfterEdit s.ss.staged.limits[k] s.le.records[k] :=
  tableZip_getElem ..

section
variable (cleared : UnitId → Bool) {s : State} {k : Fin 48}

theorem clearWhere_of_replaced {e : LimitEntry} (replaced : s.ss.staged.limits[k] = some (.replace e)) :
    (clearWhere cleared (editedRecords s))[k] = e.scope.units.map fun u => (u, { state := .clear, count := 0 }) := by
  rw [clearWhere_entry, editedRecords_entry, replaced]
  simp only [recordsAfterEdit, freshRecords, List.map_map]
  refine List.map_congr_left fun u _ => ?_
  cases is : cleared u <;> simp [is, CondRecord.clear]

theorem clearWhere_of_deleted (deleted : s.ss.staged.limits[k] = some .delete) : (clearWhere cleared (editedRecords s))[k] = [] := by
  rw [clearWhere_entry, editedRecords_entry, deleted]
  rfl

theorem clearWhere_of_unedited (unedited : s.ss.staged.limits[k] = none) :
    (clearWhere cleared (editedRecords s))[k].map Prod.fst = s.le.records[k].map Prod.fst ∧
      ∀ ur ∈ (clearWhere cleared (editedRecords s))[k], ur ∈ s.le.records[k] ∨ ur.2 = CondRecord.clear := by
  have same : (editedRecords s)[k] = s.le.records[k] := by rw [editedRecords_entry, unedited]; rfl
  constructor
  · rw [clearWhere_entry, same, List.map_map]
    refine List.map_congr_left fun ur _ => ?_
    cases is : cleared ur.1 <;> simp [is]
  · intro ur mem
    obtain ⟨-, clear, -⟩ | ⟨-, mem⟩ := mem_clearWhere.mp mem
    · exact .inr clear
    · rw [same] at mem
      exact .inl mem

end

/-! ### Within a window -/

theorem AccSet.markedAs_eq (a : AccSet) (mark : Bool) :
    (if mark then a.setDegraded else a) = { a with degraded := a.degraded || mark } := by
  cases mark <;> simp [AccSet.setDegraded]

theorem GroupSets.markedAs_eq (x : GroupSets) (mark : Bool) : (if mark then x.setDegraded else x) =
    { v := { x.v with degraded := x.v.degraded || mark }, ia := { x.ia with degraded := x.ia.degraded || mark },
      ib := { x.ib with degraded := x.ib.degraded || mark }, ig := { x.ig with degraded := x.ig.degraded || mark } } := by
  cases mark <;> simp [GroupSets.setDegraded, AccSet.setDegraded]

theorem State.leaving_eq_false {s : State} {inputs : InputLevels} {g : GroupId} (stays : ¬ Leaves s inputs g) :
    (s.leaving inputs).get g = false := Bool.eq_false_iff.mpr fun leaves => stays ((s.leaving_iff inputs g).mp leaves)

section
variable {s : State} {inputs : InputLevels}

theorem counted_groupSets_of_leaves {g : GroupId} (leaves : Leaves s inputs g) :
    (s.ae.counted s.ct.holdoverMark (s.leaving inputs)).groupSets.get g = none := by
  rw [AnalysisEngine.counted_groupSets, (s.leaving_iff inputs g).mpr leaves]
  rfl

theorem counted_groupSets_of_stays {g : GroupId} (stays : ¬ Leaves s inputs g) :
    (s.ae.counted s.ct.holdoverMark (s.leaving inputs)).groupSets.get g =
      (s.ae.groupSets.get g).map fun x => if s.ct.holdoverMark then x.setDegraded else x := by
  rw [AnalysisEngine.counted_groupSets, State.leaving_eq_false stays]
  rfl

theorem counted_pairSets_of_leaves {p : PairId} (leaves : Leaves s inputs p.first ∨ Leaves s inputs p.second) :
    (s.ae.counted s.ct.holdoverMark (s.leaving inputs)).pairSets.get p = none := by
  have either : ((s.leaving inputs).get p.first || (s.leaving inputs).get p.second) = true := by
    rwa [Bool.or_eq_true, s.leaving_iff, s.leaving_iff]
  rw [AnalysisEngine.counted_pairSets, either]
  rfl

theorem counted_pairSets_of_stays {p : PairId} (first : ¬ Leaves s inputs p.first) (second : ¬ Leaves s inputs p.second) :
    (s.ae.counted s.ct.holdoverMark (s.leaving inputs)).pairSets.get p =
      (s.ae.pairSets.get p).map fun x => if s.ct.holdoverMark then x.setDegraded else x := by
  rw [AnalysisEngine.counted_pairSets, State.leaving_eq_false first, State.leaving_eq_false second]
  rfl

/-- The counters of a group at a boundary that discards the sets of the leaving groups (R153). -/
theorem countDiscards_of_leaves {g : GroupId} (leaves : Leaves s inputs g) :
    ((s.st.countDiscards (s.ae.marked s.ct.holdoverMark).groupSets (s.leaving inputs)).groups.get g)[11] =
      (s.st.groups.get g)[11] + (if (s.ae.groupSets.get g).isSome then 1 else 0) := by
  simpa [(s.leaving_iff inputs g).mpr leaves] using
    s.st.countDiscards_get (s.ae.marked s.ct.holdoverMark).groupSets (s.leaving inputs) g 11

theorem countDiscards_of_stays {g : GroupId} (stays : ¬ Leaves s inputs g) (i : Fin 12) :
    ((s.st.countDiscards (s.ae.marked s.ct.holdoverMark).groupSets (s.leaving inputs)).groups.get g)[i] = (s.st.groups.get g)[i] := by
  rw [Statistics.countDiscards_get]
  simp [State.leaving_eq_false stays]

theorem countDiscards_other (g : GroupId) {i : Fin 12} (other : i.val ≠ 11) :
    ((s.st.countDiscards (s.ae.marked s.ct.holdoverMark).groupSets (s.leaving inputs)).groups.get g)[i] = (s.st.groups.get g)[i] := by
  rw [Statistics.countDiscards_get]
  simp [other]

end

/-- Settles O15: CT at every boundary by its tracker state, then the boundary with the clock STOPPED, then the one within a window. -/
theorem boundaryBeginsTheNextCycle : Obligations.BoundaryBeginsTheNextCycle := by
  unfold Obligations.BoundaryBeginsTheNextCycle
  refine ⟨?every, ?stopped, ?within⟩
  case every =>
    intro s inputs boundary
    obtain ⟨cycle, start, issued, steering, accepted, reference, confirmed, candidate, previous, timer, misses⟩ := s.boundaryStep_cycle inputs
    have ct := s.boundaryStep_ct inputs
    unfold State.begunCt CycleTracker.begun at ct
    have known : s.closedCt.accepted = s.ct.accepted := by rw [← accepted, ct]
    refine ⟨_, exec_cycleBoundary boundary, boundaryKeeps s inputs, cycle, start, issued, steering, accepted, reference, confirmed, candidate,
      previous, timer, misses, s.boundaryStep_holdCount inputs, fun other => ?_, fun holdover few => ?_, fun locked holdover => ?_,
      fun a locked acc none => ?_, fun a stamp locked acc steers => ?_⟩
    · rw [ct, State.closedCt_of_other other]
      exact ⟨rfl, decide_eq_false other, rfl⟩
    · have stays : ¬ EntersFree s := fun free => absurd free.2 (Nat.not_le.mpr few)
      rw [ct, State.closedCt_of_holdover holdover stays]
      have tracker : (s.ct.reach s.ct.endCount).tracker = .holdover := holdover
      exact ⟨holdover, decide_eq_true holdover, rfl, by simp only [tracker]; rfl⟩
    · rw [ct] at locked holdover ⊢
      rw [State.boundaryStep_ss]
      exact nextLength_of_other locked holdover ..
    · have tracker : s.closedCt.tracker = .locked := by rw [State.closedCt_of_other (by rw [locked]; nofun)]; exact locked
      rw [ct]
      dsimp only
      rw [tracker, known, acc, none, nextLength_of_locked]
      simp
    · have tracker : s.closedCt.tracker = .locked := by rw [State.closedCt_of_other (by rw [locked]; nofun)]; exact locked
      rw [ct]
      dsimp only
      rw [tracker, known, acc, steers, nextLength_of_locked]
      rfl
  case stopped =>
    intro s inputs boundary none
    have ss : (s.boundaryStep inputs).ss = s.ss.withAnalysis.withLimits := by rw [State.boundaryStep_ss, State.appliedSs_of_none none]
    have records : (s.boundaryStep inputs).le.records =
        clearWhere ((s.applied inputs).unitCleared (s.context inputs)) (editedRecords s) := by
      rw [State.boundaryStep_records, State.appliedRecords, if_pos (State.stopped_of_none none)]
    have closed := State.closedAe_of_none inputs none
    have st : (s.boundaryStep inputs).st = s.st := by rw [State.boundaryStep_st, State.closedSt_of_none inputs none]
    have digests : (s.boundaryStep inputs).lc.digests = if s.ss.staged.analysis.isSome then Quad.fill 0 else s.lc.digests := by
      simp only [State.boundaryStep_digests, State.appliedDigests, State.appliesHere_of_none none, true_and]
    have ends := State.not_endsWindow_of_none none
    have opened (starts : StartsClock s) : (s.boundaryStep inputs).ae =
        s.ae.openWindow (s.boundaryStep inputs).ss.working.analysis.window (s.ct.cycle + 1) (s.boundaryStep inputs).gm := by
      rw [State.boundaryStep_ae, State.openedAe_of_opens _ _ (State.opensWindow_of_starts starts), closed, State.boundaryStep_ss,
        State.boundaryStep_gm]
    have shut (idle : ¬ StartsClock s) : (s.boundaryStep inputs).ae = s.ae := by
      rw [State.boundaryStep_ae, State.openedAe_of_not _ _ (State.opensWindow_of_not ends idle), closed]
    have slots : (s.boundaryStep inputs).ae.groupSlots = s.ae.groupSlots ∧ (s.boundaryStep inputs).ae.pairSlots = s.ae.pairSlots ∧
        (s.boundaryStep inputs).ae.passes = s.ae.passes := by
      by_cases starts : StartsClock s
      · rw [opened starts]; exact ⟨rfl, rfl, rfl⟩
      · rw [shut starts]; exact ⟨rfl, rfl, rfl⟩
    obtain ⟨groupSlots, pairSlots, passes⟩ := slots
    refine ⟨_, exec_cycleBoundary boundary, boundaryKeeps s inputs, by rw [ss]; rfl, by rw [ss]; rfl, digests, fun k e replaced => ?_,
      fun k deleted => ?_, fun k unedited => ?_, groupSlots, pairSlots, passes, st, fun starts => ?_, shut⟩
    · rw [records]; exact clearWhere_of_replaced _ replaced
    · rw [records]; exact clearWhere_of_deleted _ deleted
    · rw [records]; exact clearWhere_of_unedited _ unedited
    · rw [opened starts]
      exact ⟨rfl, rfl, fun g => Quad.get_map .., fun p => Duo.get_map ..⟩
  case within =>
    intro s inputs w boundary running few stays degraded
    have within : ¬ EndsWindow s := by
      rintro ⟨⟨v, clock, complete⟩, -⟩
      rw [running] at clock
      cases clock
      omega
    have clock : s.ae.clock ≠ none := by rw [running]; nofun
    have idle : ¬ StartsClock s := fun starts => clock starts.1
    have ae : (s.boundaryStep inputs).ae = s.ae.counted s.ct.holdoverMark (s.leaving inputs) := by
      rw [State.boundaryStep_ae, State.openedAe_of_not _ _ (State.opensWindow_of_not within idle),
        State.closedAe_of_within inputs running within stays]
    have st : (s.boundaryStep inputs).st = s.st.countDiscards (s.ae.marked s.ct.holdoverMark).groupSets (s.leaving inputs) := by
      rw [State.boundaryStep_st, State.closedSt_of_within inputs running within stays]
    have ss : (s.boundaryStep inputs).ss = s.ss := by
      rw [State.boundaryStep_ss, State.appliedSs_of_within (State.not_stopped clock) (State.endsWindow_of_not within)]
    have counted : (s.boundaryStep inputs).ae.clock = some { w with completed := w.completed + 1 } := by
      rw [ae, AnalysisEngine.counted_clock, running]
      rfl
    have rest : (s.boundaryStep inputs).ae.groupSlots = s.ae.groupSlots ∧ (s.boundaryStep inputs).ae.pairSlots = s.ae.pairSlots ∧
        (s.boundaryStep inputs).ae.passes = s.ae.passes ∧ (s.boundaryStep inputs).ae.handovers = s.ae.handovers := by
      rw [ae]
      cases s.ct.holdoverMark <;> exact ⟨rfl, rfl, rfl, rfl⟩
    obtain ⟨groupSlots, pairSlots, passes, handovers⟩ := rest
    have requests := s.boundaryStep_requests inputs
    rw [syncedLink_of_within clock within] at requests
    have digests : (s.boundaryStep inputs).lc.digests = s.lc.digests := by
      simp only [State.boundaryStep_digests, State.appliedDigests, State.appliesHere_of_within clock within, Bool.false_eq_true, false_and, if_false]
    refine ⟨_, exec_cycleBoundary boundary, boundaryKeeps s inputs, ss, counted, by rw [ae, AnalysisEngine.counted_counter], groupSlots,
      pairSlots, passes, handovers, fun g => ⟨fun leaves => ?_, fun keeps => ?_⟩, fun p => ⟨fun leaves => ?_, fun first second => ?_⟩,
      fun g => ⟨fun leaves => ?_, fun keeps => ?_, fun k other => ?_⟩, digests, requests⟩
    · rw [ae, counted_groupSets_of_leaves leaves]
    · rw [ae, counted_groupSets_of_stays keeps]
      simp only [GroupSets.markedAs_eq]
      rfl
    · rw [ae, counted_pairSets_of_leaves leaves]
    · rw [ae, counted_pairSets_of_stays first second]
      simp only [AccSet.markedAs_eq]
      rfl
    · rw [st, countDiscards_of_leaves leaves]
    · rw [st]; exact countDiscards_of_stays keeps 11
    · rw [st, countDiscards_other g other]

end Sys2Proof.Machine
end

