-- ==== Sys2Proof/Proofs/GroupsAtBoundary.lean ====
section
/-! PROOFS. Every group at a cycle boundary, and the commands that name a group's part of it (R80 to R87, R94, R138, R153, R165). -/

namespace Sys2Proof.Machine

open Sys2Proof.Safety

/-! ### Debounce and monitor state -/

section
variable {m : GroupMonitor} {closed : Bool}

theorem GroupMonitor.debounced_of_same (same : levelOf closed = m.accepted) : m.debounced closed = { m with debounce := 0 } := if_pos same

theorem GroupMonitor.debounced_of_first (differs : levelOf closed ≠ m.accepted) (first : m.debounce = 0) :
    m.debounced closed = { m with debounce := 1 } := by
  rw [GroupMonitor.debounced, if_neg differs, if_pos first]

theorem GroupMonitor.debounced_of_second (differs : levelOf closed ≠ m.accepted) (second : 1 ≤ m.debounce) :
    m.debounced closed = { m with accepted := levelOf closed, debounce := 0 } := by
  rw [GroupMonitor.debounced, if_neg differs, if_neg (Nat.one_le_iff_ne_zero.mp second)]

theorem GroupMonitor.leaves_iff : m.leaves closed = true ↔
    (levelOf closed ≠ m.accepted ∧ 1 ≤ m.debounce) ∧ levelOf closed = .opened ∧ m.state ≠ .out := by
  cases closed <;> simp [GroupMonitor.leaves, GroupMonitor.accepts, levelOf]

theorem GroupMonitor.debounced_settle : (m.debounced closed).settle = m.settle := by
  unfold GroupMonitor.debounced
  split
  · rfl
  · split <;> rfl

variable (mode : Mode) (settle : Nat) (opens : Bool)

/-- A boundary moves the level and the debounce count alike in every monitor state. -/
theorem GroupMonitor.boundary_level : (m.boundary mode settle opens closed).accepted = (m.debounced closed).accepted ∧
    (m.boundary mode settle opens closed).debounce = (m.debounced closed).debounce := by
  unfold GroupMonitor.boundary
  dsimp only
  split
  · exact ⟨rfl, rfl⟩
  · split
    · split <;> exact ⟨rfl, rfl⟩
    · split <;> exact ⟨rfl, rfl⟩
    · exact ⟨rfl, rfl⟩

theorem GroupMonitor.boundary_of_leaves (leaves : m.leaves closed = true) :
    m.boundary mode settle opens closed = { m.debounced closed with state := .out, settle := 0 } := if_pos leaves

theorem GroupMonitor.stays_of_out (out : m.state = .out) : m.leaves closed = false := by simp [GroupMonitor.leaves, out]

theorem GroupMonitor.boundary_of_out (out : m.state = .out) : m.boundary mode settle opens closed =
    if mode = .normal ∧ (m.debounced closed).accepted = .closed then { m.debounced closed with state := .settling, settle := settle }
    else m.debounced closed := by
  simp [GroupMonitor.boundary, GroupMonitor.stays_of_out out, out]

theorem GroupMonitor.boundary_of_settling (settling : m.state = .settling) (stays : m.leaves closed = false) :
    m.boundary mode settle opens closed =
      if m.settle - 1 = 0 ∧ opens = true then { m.debounced closed with state := .monitor, settle := 0 }
      else { m.debounced closed with settle := m.settle - 1 } := by
  simp [GroupMonitor.boundary, stays, settling]

end

theorem State.boundaryStep_groups (s : State) (inputs : InputLevels) (g : GroupId) : (s.boundaryStep inputs).gm.groups.get g =
    (s.gm.groups.get g).boundary s.mode (s.boundaryStep inputs).ss.working.analysis.settle s.opensWindow (inputs.get g) := by
  rw [State.boundaryStep_gm, State.monitored_groups, State.boundaryStep_ss]

/-- Every group at a boundary, by its level and its monitor state (R80 to R84, R94). -/
theorem boundary_moves_group {s : State} {inputs : InputLevels} (g : GroupId) (boundary : AtBoundary s) :
    let m := s.gm.groups.get g
    let level : Level := if inputs.get g then .closed else .opened
    let changed := level ≠ m.accepted ∧ 1 ≤ m.debounce
    let left := changed ∧ level = .opened ∧ m.state ≠ .out
    ∃ t, exec (.cycleBoundary inputs) s = .next t ∧
      let n := t.gm.groups.get g
      (level = m.accepted → n.accepted = m.accepted ∧ n.debounce = 0) ∧
      (level ≠ m.accepted → m.debounce = 0 → n.accepted = m.accepted ∧ n.debounce = 1) ∧
      (changed → n.accepted = level ∧ n.debounce = 0) ∧
      (left → n.state = .out ∧ n.settle = 0) ∧
      (m.state = .out → s.mode = .normal → n.accepted = .closed →
        n.state = .settling ∧ n.settle = t.ss.working.analysis.settle) ∧
      (m.state = .out → s.mode = .maintenance ∨ n.accepted = .opened → n.state = .out ∧ n.settle = m.settle) ∧
      (m.state = .settling → ¬ left → m.settle ≤ 1 → s.opensWindow = true → n.state = .monitor ∧ n.settle = 0) ∧
      (m.state = .settling → ¬ left → 1 < m.settle ∨ s.opensWindow = false →
        n.state = .settling ∧ n.settle = m.settle - 1) ∧
      (m.state = .monitor → ¬ left → n.state = .monitor ∧ n.settle = m.settle) := by
  intro m level changed left
  refine ⟨s.boundaryStep inputs, exec_cycleBoundary boundary, ?_⟩
  rw [State.boundaryStep_groups]
  generalize (s.boundaryStep inputs).ss.working.analysis.settle = settle
  obtain ⟨accepted, debounce⟩ := m.boundary_level (closed := inputs.get g) s.mode settle s.opensWindow
  have stays (not : ¬ left) : m.leaves (inputs.get g) = false := Bool.eq_false_iff.mpr fun leaves => not (GroupMonitor.leaves_iff.mp leaves)
  dsimp only
  rw [accepted, debounce]
  refine ⟨fun same => ?_, fun differs first => ?_, fun ⟨differs, second⟩ => ?_, fun leaves => ?_, fun out normal closed => ?_,
    fun out other => ?_, fun settling not last opens => ?_, fun settling not more => ?_, fun monitor not => ?_⟩
  · rw [GroupMonitor.debounced_of_same same]
    exact ⟨rfl, rfl⟩
  · rw [GroupMonitor.debounced_of_first differs first]
    exact ⟨rfl, rfl⟩
  · rw [GroupMonitor.debounced_of_second differs second]
    exact ⟨rfl, rfl⟩
  · rw [GroupMonitor.boundary_of_leaves _ _ _ (GroupMonitor.leaves_iff.mpr leaves)]
    exact ⟨rfl, rfl⟩
  · rw [GroupMonitor.boundary_of_out _ _ _ out, if_pos ⟨normal, closed⟩]
    exact ⟨rfl, rfl⟩
  · have idle : ¬ (s.mode = .normal ∧ (m.debounced (inputs.get g)).accepted = .closed) := by
      rintro ⟨normal, closed⟩
      obtain maintenance | opened := other
      · rw [normal] at maintenance; cases maintenance
      · rw [closed] at opened; cases opened
    rw [GroupMonitor.boundary_of_out _ _ _ out, if_neg idle, GroupMonitor.debounced_state, GroupMonitor.debounced_settle]
    exact ⟨out, rfl⟩
  · rw [GroupMonitor.boundary_of_settling _ _ _ settling (stays not), if_pos ⟨Nat.sub_eq_zero_of_le last, opens⟩]
    exact ⟨rfl, rfl⟩
  · have waits : ¬ (m.settle - 1 = 0 ∧ s.opensWindow = true) := by
      rintro ⟨zero, opens⟩
      obtain many | shut := more
      · omega
      · rw [opens] at shut; cases shut
    rw [GroupMonitor.boundary_of_settling _ _ _ settling (stays not), if_neg waits]
    exact ⟨(m.debounced_state _).trans settling, rfl⟩
  · rw [GroupMonitor.boundary_of_monitor monitor (stays not), GroupMonitor.debounced_state, GroupMonitor.debounced_settle]
    exact ⟨monitor, rfl⟩

/-! ### The group that leaves -/

section
variable {s : State} {inputs : InputLevels} {g : GroupId}

/-- What GM's step clears of a group's records is decided by its states before and behind the boundary. -/
theorem groupLeft_iff : (s.applied inputs).groupLeft (s.context inputs) g = true ↔
    (s.gm.groups.get g).state ≠ .out ∧ ((s.boundaryStep inputs).gm.groups.get g).state = .out := by
  have next : (s.applied inputs).nextGroup (s.context inputs) g = (s.boundaryStep inputs).gm.groups.get g := by
    rw [State.boundaryStep_gm]
    exact ((s.applied inputs).monitorStep_groups (s.context inputs) g).symm
  simp [State.groupLeft, next]

theorem State.leaves_eq (s : State) (inputs : InputLevels) (g : GroupId) :
    (s.gm.groups.get g).leaves (inputs.get g) = (s.leaving inputs).get g := by
  rw [State.leaving, Quad.get_ofFn]

variable (leaves : Leaves s inputs g)
include leaves

theorem boundary_out : ((s.boundaryStep inputs).gm.groups.get g).state = .out := by
  have is : (s.gm.groups.get g).leaves (inputs.get g) = true := (s.leaves_eq inputs g).trans ((s.leaving_iff inputs g).mpr leaves)
  rw [State.boundaryStep_groups, GroupMonitor.boundary_of_leaves _ _ _ is]

theorem watched_of_leaves : (s.gm.groups.get g).state ≠ .out := by
  obtain ⟨-, -, -, watched⟩ := leaves
  exact watched

theorem boundary_left : (s.applied inputs).groupLeft (s.context inputs) g = true :=
  groupLeft_iff.mpr ⟨watched_of_leaves leaves, boundary_out leaves⟩

variable (stopped : s.ae.clock = none → s.ae.groupSets.get g = none)
include stopped

/-- A group that leaves has no open set behind the boundary, and its slot is untouched (R45). -/
theorem openedAe_of_leaves : (s.boundaryStep inputs).ae.groupSets.get g = none ∧
    (s.boundaryStep inputs).ae.groupSlots.get g = s.ae.groupSlots.get g := by
  have out := boundary_out leaves
  have gone := counted_groupSets_of_leaves leaves
  have slots : (s.closedAe inputs).groupSlots.get g = s.ae.groupSlots.get g := by
    obtain ⟨-, same⟩ | ⟨w, -, ⟨-, -, same⟩ | ⟨-, -, -, same⟩ | ⟨-, -, -, same⟩⟩ := s.closedAe_cases inputs <;> rw [same]
    · cases s.ct.holdoverMark <;> rfl
    · simp only [AnalysisEngine.handOver, Quad.get_ofFn, gone, slotAfter]
      cases s.ct.holdoverMark <;> rfl
    · cases s.ct.holdoverMark <;> rfl
  cases opens : s.opensWindow with
  | true =>
    rw [State.boundaryStep_gm] at out
    rw [State.boundaryStep_ae, State.openedAe_of_opens _ _ opens]
    exact ⟨by simp [AnalysisEngine.openWindow, out], slots⟩
  | false =>
    rw [State.boundaryStep_ae, State.openedAe_of_not _ _ opens]
    refine ⟨?_, slots⟩
    obtain ⟨none, same⟩ | ⟨w, -, ⟨-, -, same⟩ | ⟨-, ends, -⟩ | ⟨-, -, -, same⟩⟩ := s.closedAe_cases inputs
    · rw [same, stopped none]
    · rw [same]; exact Quad.get_fill ..
    · rw [State.opensWindow, ends] at opens
      cases opens
    · rw [same, gone]

/-- A group that leaves with open sets has one more window discarded (R153). -/
theorem closedSt_of_leaves : ((s.boundaryStep inputs).st.groups.get g)[11] =
    (s.st.groups.get g)[11] + (if (s.ae.groupSets.get g).isSome then 1 else 0) := by
  rw [State.boundaryStep_st]
  cases clock : s.ae.clock with
  | none =>
    rw [State.closedSt_of_none inputs clock, stopped clock]
    simp
  | some w =>
    by_cases free : EntersFree s
    · rw [State.closedSt_of_free inputs clock free]
      simpa using s.st.countDiscards_get (s.ae.marked s.ct.holdoverMark).groupSets (Quad.fill true) g 11
    · by_cases ends : EndsWindow s
      · rw [State.closedSt_of_ends inputs clock ends, ← countDiscards_of_leaves leaves]
        simpa using (s.st.countDiscards (s.ae.marked s.ct.holdoverMark).groupSets (s.leaving inputs)).countSkips_get
          (s.ae.counted s.ct.holdoverMark (s.leaving inputs)).skippedGroups g 11
      · rw [State.closedSt_of_within inputs clock ends free, countDiscards_of_leaves leaves]

end

/-- Settles O17: the accepted level moves the group, and what a group that leaves takes with it. -/
theorem acceptedInputs : Obligations.AcceptedInputs := by
  unfold Obligations.AcceptedInputs
  constructor
  · intro s inputs g boundary normal closed opened second out
    have differs : levelOf (inputs.get g) ≠ (s.gm.groups.get g).accepted := by rw [closed, opened]; nofun
    have accepts : s.acceptsLevel g true inputs = true := by
      simp [State.acceptsLevel, GroupMonitor.accepts, closed, opened, second, levelOf]
    have debounced := GroupMonitor.debounced_of_second differs (by rw [second])
    rw [closed] at debounced
    refine ⟨_, boundary_whenDue boundary accepts, exec_cycleBoundary boundary, boundaryKeeps s inputs, ?_⟩
    rw [State.boundaryStep_groups, closed, GroupMonitor.boundary_of_out _ _ _ out, debounced, if_pos ⟨normal, rfl⟩]
    rfl
  · intro s inputs g boundary open' accepted second watched stopped
    have leaves : Leaves s inputs g := ⟨open', accepted, by rw [second], watched⟩
    have differs : levelOf (inputs.get g) ≠ (s.gm.groups.get g).accepted := by rw [open', accepted]; nofun
    have accepts : s.acceptsLevel g false inputs = true := by
      simp [State.acceptsLevel, GroupMonitor.accepts, open', accepted, second, levelOf]
    have debounced := GroupMonitor.debounced_of_second differs (by rw [second])
    have is : (s.gm.groups.get g).leaves (inputs.get g) = true := (s.leaves_eq inputs g).trans ((s.leaving_iff inputs g).mpr leaves)
    obtain ⟨noSets, slot⟩ := openedAe_of_leaves leaves stopped
    refine ⟨_, boundary_whenDue boundary accepts, exec_cycleBoundary boundary, boundaryKeeps s inputs, ?_, noSets, slot,
      closedSt_of_leaves leaves stopped, fun k ur mem unit => ?_, ?_⟩
    · rw [State.boundaryStep_groups, GroupMonitor.boundary_of_leaves _ _ _ is, debounced, open']
      rfl
    · rw [State.boundaryStep_records] at mem
      obtain ⟨-, clear, -⟩ | ⟨kept, -⟩ := mem_clearWhere.mp mem
      · exact clear
      · rw [unit] at kept
        exact absurd (boundary_left leaves) (Bool.eq_false_iff.mp kept)
    · rw [State.boundaryStep_le]
      exact (State.monitorStep_stepped (s.context inputs) (s.applied inputs)).left g (boundary_left leaves)

/-- Settles O18: each of the three commands is the boundary whose occasion it names. -/
theorem specialBoundaries : Obligations.SpecialBoundaries := by
  unfold Obligations.SpecialBoundaries
  intro s inputs boundary
  refine ⟨fun g settling last stays => ?_, fun post zero kept => ?_, fun last => ?_⟩
  · have not : (s.gm.groups.get g).leaves (inputs.get g) = false := (s.leaves_eq inputs g).trans (State.leaving_eq_false stays)
    have expires : s.settleExpires g inputs = true := by simp [State.settleExpires, settling, last, not]
    refine ⟨_, boundary_whenDue boundary expires, exec_cycleBoundary boundary, ?_⟩
    rw [State.boundaryStep_groups, GroupMonitor.boundary_of_settling _ _ _ settling not, last]
    cases s.opensWindow with
    | true => exact ⟨rfl, rfl⟩
    | false => exact ⟨rfl, (GroupMonitor.debounced_state ..).trans settling⟩
  · have freezes : s.cr.freezes = true := CaptureRing.freezes_iff.mpr ⟨post, zero, kept⟩
    refine ⟨_, boundary_whenDue boundary freezes, exec_cycleBoundary boundary, ?_⟩
    rw [State.boundaryStep_cr, CaptureRing.boundary_of_freezes _ freezes]
  · refine ⟨_, boundary_whenDue boundary (decide_eq_true last), exec_cycleBoundary boundary, ?_⟩
    rw [State.boundaryStep_holdCount, last]

end Sys2Proof.Machine
end

