-- ==== Sys2Proof/Proofs/WindowEnds.lean ====
section
/-! PROOFS. The application of what is staged, a job's snapshot, and the window boundary: hand-over, skip or discard of every open set, and the
opening of the next window (R15, R40, R45 to R48, R52, R73, R102, R153, R162, R166). -/

namespace Sys2Proof.Machine

open Sys2Proof.Safety

/-! ### Application and snapshot -/

theorem applied_getD {α : Type} (staged : Option α) (old : α) : Applied staged old (staged.getD old) := by
  cases staged with
  | none => exact ⟨nofun, fun _ => rfl⟩
  | some x => exact ⟨fun y e => Option.some.inj e, nofun⟩

section
variable (st : Staging) (x : Settings)

theorem Settings.applyAnalysis_weight (i : Fin 50) : (x.applyAnalysis st).weights[i] = st.weights[i].getD x.weights[i] :=
  tableZip_getElem ..

theorem Settings.applyAnalysis_channel (c : ChannelId) : (x.applyAnalysis st).channels.get c = (st.channels.get c).apply (x.channels.get c) :=
  PerChannel.get_ofFn ..

theorem Settings.applyLimits_limit (k : Fin 48) : (x.applyLimits st).limits[k] = LimitEdit.apply st.limits[k] x.limits[k] :=
  tableZip_getElem ..

end

/-! ### The hand-over of one unit -/

section
variable {α β γ : Type} {slot : JobSlot β} (job : α → β)

theorem slotAfter_none : slotAfter none slot job = slot := rfl

theorem slotAfter_of_empty (empty : slot = .empty) (x : α) : slotAfter (some x) slot job = .waiting (job x) := by
  rw [empty]
  rfl

theorem JobSlot.isEmpty_of_ne (busy : slot ≠ .empty) : slot.isEmpty = false := by
  cases slot with
  | empty => exact absurd rfl busy
  | waiting j => rfl
  | running j => rfl

theorem slotAfter_of_busy (busy : slot ≠ .empty) (x : α) : slotAfter (some x) slot job = slot := by
  simp [slotAfter, JobSlot.isEmpty_of_ne busy]

theorem handOverOutcome_none : (handOverOutcome (none : Option α) slot : WindowOutcome γ) = .none := rfl

theorem handOverOutcome_of_empty (empty : slot = .empty) (x : α) : (handOverOutcome (some x) slot : WindowOutcome γ) = .awaited := by
  rw [empty]
  rfl

theorem handOverOutcome_of_busy (busy : slot ≠ .empty) (x : α) : (handOverOutcome (some x) slot : WindowOutcome γ) = .skipped := by
  simp [handOverOutcome, JobSlot.isEmpty_of_ne busy]

theorem skips_of_busy (busy : slot ≠ .empty) (x : α) : skips (some x) slot = true := by
  simp [skips, JobSlot.isEmpty_of_ne busy]

theorem skips_of_empty (empty : slot = .empty) (x : Option α) : skips x slot = false := by
  rw [empty]
  simp [skips, JobSlot.isEmpty]

end

/-! ### The hand-over of the engine -/

section
variable (a : AnalysisEngine) (mark : Bool) (leaving : Quad Bool)

theorem AnalysisEngine.counted_groupSlots : (a.counted mark leaving).groupSlots = a.groupSlots := by cases mark <;> rfl
theorem AnalysisEngine.counted_pairSlots : (a.counted mark leaving).pairSlots = a.pairSlots := by cases mark <;> rfl
theorem AnalysisEngine.counted_handovers : (a.counted mark leaving).handovers = a.handovers := by cases mark <;> rfl
theorem AnalysisEngine.counted_passes : (a.counted mark leaving).passes = a.passes := by cases mark <;> rfl

variable (x : Settings) (w : WindowClock)

theorem AnalysisEngine.handOver_groupSlot (g : GroupId) : (a.handOver x w).groupSlots.get g =
    slotAfter (a.groupSets.get g) (a.groupSlots.get g) fun sets => { head := jobHead a.handovers w (x.snapshot g), sets := sets } :=
  Quad.get_ofFn ..

theorem AnalysisEngine.handOver_pairSlot (p : PairId) : (a.handOver x w).pairSlots.get p =
    slotAfter (a.pairSets.get p) (a.pairSlots.get p) fun set => { head := jobHead a.handovers w (x.snapshot p.first), set := set } :=
  Duo.get_ofFn ..

/-- The pass that the hand-over raises. -/
def AnalysisEngine.raisedPass (a : AnalysisEngine) (w : WindowClock) : Pass :=
  { order := a.handovers, window := w.window
    groups := Quad.ofFn fun g => handOverOutcome (a.groupSets.get g) (a.groupSlots.get g)
    pairs := Duo.ofFn fun p => handOverOutcome (a.pairSets.get p) (a.pairSlots.get p) }

theorem AnalysisEngine.raisedPass_group (g : GroupId) :
    (a.raisedPass w).groups.get g = handOverOutcome (a.groupSets.get g) (a.groupSlots.get g) := Quad.get_ofFn ..

theorem AnalysisEngine.raisedPass_pair (p : PairId) :
    (a.raisedPass w).pairs.get p = handOverOutcome (a.pairSets.get p) (a.pairSlots.get p) := Duo.get_ofFn ..

theorem AnalysisEngine.handOver_passes : (a.handOver x w).passes = a.passes ++ [a.raisedPass w] := rfl

variable {a}

theorem AnalysisEngine.anySkip_of_group {g : GroupId} (skip : skips (a.groupSets.get g) (a.groupSlots.get g) = true) : a.anySkip = true := by
  have any : a.skippedGroups.any = true := (Quad.any_iff _).mpr ⟨g, by rw [AnalysisEngine.skippedGroups, Quad.get_ofFn, skip]⟩
  rw [AnalysisEngine.anySkip, any, Bool.true_or, Bool.true_or]

theorem AnalysisEngine.anySkip_of_pair {p : PairId} (skip : skips (a.pairSets.get p) (a.pairSlots.get p) = true) : a.anySkip = true := by
  cases p with
  | p0 =>
    have first : skips a.pairSets.fst a.pairSlots.fst = true := skip
    simp [AnalysisEngine.anySkip, first]
  | p1 =>
    have second : skips a.pairSets.snd a.pairSlots.snd = true := skip
    simp [AnalysisEngine.anySkip, second]

end

/-! ### The window boundary -/

theorem State.appliedSs_of_ends {s : State} (ends : EndsWindow s) : s.appliedSs = s.ss.withAnalysis := by
  unfold State.appliedSs
  rw [State.not_stopped (running_of_endsWindow ends), State.appliesHere_of_ends ends]
  rfl

section
variable {s : State} {inputs : InputLevels} {w : WindowClock} (running : s.ae.clock = some w) (ends : EndsWindow s)
include running ends

/-- A skip raises WINDOW_SKIPPED (R46). -/
theorem skipped_of_ends (skip : (s.ae.counted s.ct.holdoverMark (s.leaving inputs)).anySkip = true) :
    flagOf (s.boundaryStep inputs).lc.flags .windowSkipped = true := by
  have notices : s.ae.skipNotices s.ct.holdoverMark s.entersFree s.endsWindow (s.leaving inputs) = [.flag .windowSkipped] := by
    unfold AnalysisEngine.skipNotices
    rw [running, s.endsWindow_iff.mpr ends, State.entersFree_of_not ends.2, skip]
    rfl
  refine posted_flag (s.boundaryStep_posted inputs) ?_
  simp [State.boundaryNotices, State.closeNotices, notices]

/-- The skip counter of a group at a window boundary (R153). -/
theorem skipCounter_of_ends (g : GroupId) : ((s.boundaryStep inputs).st.groups.get g)[10] = (s.st.groups.get g)[10] +
    (if skips ((s.ae.counted s.ct.holdoverMark (s.leaving inputs)).groupSets.get g) (s.ae.groupSlots.get g) then 1 else 0) := by
  have discards := countDiscards_other (s := s) (inputs := inputs) g (i := 10) (by decide)
  have skips := (s.st.countDiscards (s.ae.marked s.ct.holdoverMark).groupSets (s.leaving inputs)).countSkips_get
    (s.ae.counted s.ct.holdoverMark (s.leaving inputs)).skippedGroups g 10
  have skipped : (s.ae.counted s.ct.holdoverMark (s.leaving inputs)).skippedGroups.get g =
      Machine.skips ((s.ae.counted s.ct.holdoverMark (s.leaving inputs)).groupSets.get g) (s.ae.groupSlots.get g) := by
    rw [AnalysisEngine.skippedGroups, Quad.get_ofFn, AnalysisEngine.counted_groupSlots]
  rw [discards, skipped] at skips
  rw [State.boundaryStep_st, State.closedSt_of_ends inputs running ends]
  simpa using skips

/-- AE behind a window boundary: the hand-over, then the opening (R46, R48). -/
theorem boundaryAe_of_ends : (s.boundaryStep inputs).ae =
    ((s.ae.counted s.ct.holdoverMark (s.leaving inputs)).handOver s.ss.working w).openWindow
      (s.boundaryStep inputs).ss.working.analysis.window (s.ct.cycle + 1) (s.boundaryStep inputs).gm := by
  rw [State.boundaryStep_ae, State.openedAe_of_opens _ _ (State.opensWindow_of_ends ends), State.closedAe_of_ends inputs running ends,
    State.boundaryStep_ss, State.boundaryStep_gm]

/-- The slot and the outcome of a pair at a window boundary, by the set that it hands over (R46, R52). -/
theorem pair_handedOver (p : PairId) :
    let set := (s.ae.counted s.ct.holdoverMark (s.leaving inputs)).pairSets.get p
    (s.boundaryStep inputs).ae.pairSlots.get p = slotAfter set (s.ae.pairSlots.get p)
      (fun set => { head := jobHead s.ae.handovers w (s.ss.working.snapshot p.first), set := set }) ∧
    ((s.ae.counted s.ct.holdoverMark (s.leaving inputs)).raisedPass w).pairs.get p = handOverOutcome set (s.ae.pairSlots.get p) ∧
    (skips set (s.ae.pairSlots.get p) = true → flagOf (s.boundaryStep inputs).lc.flags .windowSkipped = true) := by
  refine ⟨?_, ?_, fun skip => skipped_of_ends running ends (AnalysisEngine.anySkip_of_pair (p := p) ?_)⟩
  · rw [boundaryAe_of_ends running ends, ← AnalysisEngine.counted_pairSlots s.ae s.ct.holdoverMark (s.leaving inputs),
      ← AnalysisEngine.counted_handovers s.ae s.ct.holdoverMark (s.leaving inputs)]
    exact AnalysisEngine.handOver_pairSlot ..
  · rw [AnalysisEngine.raisedPass_pair, AnalysisEngine.counted_pairSlots]
  · rwa [AnalysisEngine.counted_pairSlots]

/-- The slot, the outcome and the skip counter of a group at a window boundary, by the sets that it hands over (R46, R52, R153). -/
theorem group_handedOver (g : GroupId) :
    let sets := (s.ae.counted s.ct.holdoverMark (s.leaving inputs)).groupSets.get g
    (s.boundaryStep inputs).ae.groupSlots.get g = slotAfter sets (s.ae.groupSlots.get g)
      (fun sets => { head := jobHead s.ae.handovers w (s.ss.working.snapshot g), sets := sets }) ∧
    ((s.ae.counted s.ct.holdoverMark (s.leaving inputs)).raisedPass w).groups.get g = handOverOutcome sets (s.ae.groupSlots.get g) ∧
    ((s.boundaryStep inputs).st.groups.get g)[10] =
      (s.st.groups.get g)[10] + (if skips sets (s.ae.groupSlots.get g) then 1 else 0) ∧
    (skips sets (s.ae.groupSlots.get g) = true → flagOf (s.boundaryStep inputs).lc.flags .windowSkipped = true) := by
  refine ⟨?_, ?_, skipCounter_of_ends running ends g, fun skip => skipped_of_ends running ends (AnalysisEngine.anySkip_of_group (g := g) ?_)⟩
  · rw [boundaryAe_of_ends running ends, ← AnalysisEngine.counted_groupSlots s.ae s.ct.holdoverMark (s.leaving inputs),
      ← AnalysisEngine.counted_handovers s.ae s.ct.holdoverMark (s.leaving inputs)]
    exact AnalysisEngine.handOver_groupSlot ..
  · rw [AnalysisEngine.raisedPass_group, AnalysisEngine.counted_groupSlots]
  · rwa [AnalysisEngine.counted_groupSlots]

end

/-- Settles O21: what applying and a snapshot are, and the window boundary set by set. -/
theorem windowBoundaryProtocol : Obligations.WindowBoundaryProtocol := by
  unfold Obligations.WindowBoundaryProtocol
  refine ⟨?applies, fun x g => rfl, ?boundary⟩
  case applies =>
    intro st x y z
    refine ⟨applied_getD .., fun i => ?_, fun c => ?_, rfl, fun k => ⟨fun unedited => ?_, fun e replaced => ?_, fun deleted => ?_⟩, rfl⟩
    · rw [Settings.applyAnalysis_weight]; exact applied_getD ..
    · rw [Settings.applyAnalysis_channel]
      exact ⟨applied_getD .., applied_getD .., applied_getD .., applied_getD .., applied_getD .., applied_getD .., applied_getD ..⟩
    · rw [Settings.applyLimits_limit, unedited]; rfl
    · rw [Settings.applyLimits_limit, replaced]; rfl
    · rw [Settings.applyLimits_limit, deleted]; rfl
  case boundary =>
    intro s inputs w boundary running complete notLast
    have stays : ¬ EntersFree s := fun ⟨holdover, last⟩ => absurd (notLast holdover) (Nat.not_lt.mpr last)
    have ends : EndsWindow s := ⟨⟨w, running, complete.le⟩, stays⟩
    have ss : (s.boundaryStep inputs).ss = s.ss.withAnalysis := by rw [State.boundaryStep_ss, State.appliedSs_of_ends ends]
    have ae := boundaryAe_of_ends (inputs := inputs) running ends
    have counter : (s.boundaryStep inputs).ae.counter = s.ae.counter + 1 := by
      rw [ae]
      exact congrArg (· + 1) (AnalysisEngine.counted_counter s.ae s.ct.holdoverMark (s.leaving inputs))
    have clock : (s.boundaryStep inputs).ae.clock = some
        { window := s.ae.counter + 1
          firstCycle := s.ct.cycle + 1
          length := (s.boundaryStep inputs).ss.working.analysis.window
          completed := 0 } := by
      rw [ae, ← AnalysisEngine.counted_counter s.ae s.ct.holdoverMark (s.leaving inputs)]
      rfl
    have requests := s.boundaryStep_requests inputs
    rw [syncedLink_of_ends ends] at requests
    have digests : (s.boundaryStep inputs).lc.digests = if s.ss.staged.analysis.isSome then Quad.fill 0 else s.lc.digests := by
      simp only [State.boundaryStep_digests, State.appliedDigests, State.appliesHere_of_ends ends, true_and]
    refine ⟨_, exec_windowBoundary boundary ends, exec_cycleBoundary boundary, boundaryKeeps s inputs, by rw [ss]; rfl, by rw [ss]; rfl,
      fun c => by rw [ss]; exact Staging.withoutAnalysis_channels .., fun i => ?_, by rw [ss]; rfl, counter, clock,
      fun g => by rw [ae]; exact Quad.get_map .., fun p => by rw [ae]; exact Duo.get_map .., requests, digests, ?_⟩
    · rw [ss]
      simp [Staging.withoutAnalysis, Staging.empty]
    · have handovers := AnalysisEngine.counted_handovers s.ae s.ct.holdoverMark (s.leaving inputs)
      refine ⟨(s.ae.counted s.ct.holdoverMark (s.leaving inputs)).raisedPass w, ?_, rfl, handovers, ?_,
        fun p => ?_, fun g => ?_⟩
      · rw [ae, ← AnalysisEngine.counted_passes s.ae s.ct.holdoverMark (s.leaving inputs)]
        rfl
      · rw [ae]
        exact congrArg (· + 1) handovers
      · obtain ⟨slot, outcome, skip⟩ := pair_handedOver (inputs := inputs) running ends p
        refine ⟨fun absent => ?_, fun set keeps some empty => ?_, fun set keeps some busy => ?_⟩
        · have none : (s.ae.counted s.ct.holdoverMark (s.leaving inputs)).pairSets.get p = none := by
            obtain leaves | none := absent
            · exact counted_pairSets_of_leaves leaves
            · rw [AnalysisEngine.counted_pairSets, none, Option.map_none, ite_self]
          rw [slot, outcome, none]
          exact ⟨rfl, rfl⟩
        all_goals
          obtain ⟨first, second⟩ := not_or.mp keeps
          have handed := counted_pairSets_of_stays first second
          rw [some, Option.map_some] at handed
          rw [handed] at slot outcome skip
        · rw [slot, outcome, slotAfter_of_empty _ empty]
          exact ⟨handOverOutcome_of_empty empty _, _, rfl, handovers.symm, rfl, rfl, rfl, rfl, rfl⟩
        · rw [slot, outcome, slotAfter_of_busy _ busy]
          exact ⟨rfl, handOverOutcome_of_busy busy _, skip (skips_of_busy busy _)⟩
      · obtain ⟨slot, outcome, counter, skip⟩ := group_handedOver (inputs := inputs) running ends g
        have leaves := s.leaves_eq inputs g
        refine ⟨fun absent => ?_, fun sets keeps some empty => ?_, fun sets keeps some busy => ?_⟩
        · have none : (s.ae.counted s.ct.holdoverMark (s.leaving inputs)).groupSets.get g = none := by
            obtain left | none := absent
            · exact counted_groupSets_of_leaves ((s.leaving_iff inputs g).mp (leaves.symm.trans left))
            · rw [AnalysisEngine.counted_groupSets, none, Option.map_none, ite_self]
          rw [slot, outcome, counter, none]
          exact ⟨rfl, rfl, BitVec.add_zero _⟩
        all_goals
          have stays : ¬ Leaves s inputs g := fun left => by
            rw [leaves, (s.leaving_iff inputs g).mpr left] at keeps
            cases keeps
          have handed := counted_groupSets_of_stays stays
          rw [some, Option.map_some] at handed
          rw [handed] at slot outcome counter skip
        · rw [slot, outcome, counter, slotAfter_of_empty _ empty, skips_of_empty empty]
          exact ⟨handOverOutcome_of_empty empty _, BitVec.add_zero _, _, rfl, handovers.symm, rfl, rfl, rfl,
            rfl, rfl⟩
        · rw [slot, outcome, counter, slotAfter_of_busy _ busy, skips_of_busy busy]
          exact ⟨rfl, handOverOutcome_of_busy busy _, rfl, skip (skips_of_busy busy _)⟩

end Sys2Proof.Machine
end

