-- ==== Sys2Proof/Proofs/MonitorReports.lean ====
section
/-! PROOFS. The pairs, the verdicts, the records and every report of a cycle boundary (R88 to R91, R103, R112, R142). -/

namespace Sys2Proof.Machine

open Sys2Proof.Safety

/-! ### The span of the ring (R142) -/

theorem findSome?_range (f : Nat → Option α) (n : Nat) (b : α) :
    (List.range n).findSome? f = some b ↔ ∃ j < n, f j = some b ∧ ∀ i < j, f i = none := by
  induction n with
  | zero => simp
  | succ n ih =>
    rw [List.range_succ, List.findSome?_append, Option.or_eq_some_iff, ih, List.findSome?_eq_none_iff]
    simp only [List.mem_range, List.findSome?_cons, List.findSome?_nil]
    constructor
    · rintro (⟨j, small, found, first⟩ | ⟨none, last⟩)
      · exact ⟨j, by omega, found, first⟩
      · exact ⟨n, by omega, by cases e : f n <;> simp_all, none⟩
    · rintro ⟨j, small, found, first⟩
      obtain less | rfl := Nat.lt_succ_iff_lt_or_eq.mp small
      · exact .inl ⟨j, less, found, first⟩
      · exact .inr ⟨first, by simp [found]⟩

theorem CaptureRing.oldest_iff (c : CaptureRing) (a : Word) : c.oldest = some a ↔
    ∃ j : Fin 16, c.slots[c.current + 1 + j].tag = some a ∧ ∀ i : Fin 16, i < j → c.slots[c.current + 1 + i].tag = none := by
  have slot (k : Fin 16) : c.slots[c.current + 1 + Fin.ofNat 16 k.val].tag = c.slots[c.current + 1 + k].tag := by
    have same : Fin.ofNat 16 k.val = k := Fin.ext (Nat.mod_eq_of_lt k.isLt)
    simp only [same]
  rw [CaptureRing.oldest, List.head?_filterMap, findSome?_range]
  constructor
  · rintro ⟨j, small, found, first⟩
    exact ⟨⟨j, small⟩, (slot ⟨j, small⟩).symm.trans found, fun i less => (slot i).symm.trans (first i.val less)⟩
  · rintro ⟨j, found, first⟩
    refine ⟨j.val, j.isLt, (slot j).trans found, fun i less => ?_⟩
    have small : i < 16 := by omega
    exact (slot ⟨i, small⟩).trans (first ⟨i, small⟩ less)

theorem CaptureRing.span_iff (c : CaptureRing) (a b : Word) : c.span = some (a, b) ↔
    c.slots[c.current].tag = some b ∧ ∃ j : Fin 16, c.slots[c.current + 1 + j].tag = some a ∧
      ∀ i : Fin 16, i < j → c.slots[c.current + 1 + i].tag = none := by
  rw [← CaptureRing.oldest_iff]
  have current : c.currentSlot.tag = c.slots[c.current].tag := rfl
  unfold CaptureRing.span
  rw [current]
  cases c.oldest <;> cases c.slots[c.current].tag <;> simp [and_comm]

/-! ### The classes of a boundary's notices -/

/-- A notice of one class is of no other. -/
theorem class_of_monitors {n : Notice} (of : ofMonitors n = true) :
    ofEdits n = false ∧ ofKind 0x86 n = false ∧ ofKind 0x84 n = false := by
  cases n with
  | flag f => cases of
  | report b =>
    cases b with
    | groupEvent => exact ⟨rfl, rfl, rfl⟩
    | pairEvent => exact ⟨rfl, rfl, rfl⟩
    | verdictChange g old new cause =>
      cases cause with
      | out => exact ⟨rfl, rfl, rfl⟩
      | pairBroken => exact ⟨rfl, rfl, rfl⟩
      | limitEdit => cases of
      | evaluation => cases of
    | _ => cases of

theorem class_of_edits {n : Notice} (of : ofEdits n = true) :
    ofMonitors n = false ∧ ofKind 0x86 n = false ∧ ofKind 0x84 n = false := by
  cases n with
  | flag f => cases of
  | report b =>
    cases b with
    | limitEvent => exact ⟨rfl, rfl, rfl⟩
    | verdictChange g old new cause =>
      cases cause with
      | limitEdit => exact ⟨rfl, rfl, rfl⟩
      | out => cases of
      | pairBroken => cases of
      | evaluation => cases of
    | _ => cases of

section
variable (s : State) (inputs : InputLevels)

theorem monitorNotices_class {n : Notice} (mem : n ∈ s.monitorNotices inputs) : ofMonitors n = true := by
  obtain group | pair := List.mem_append.mp mem
  · obtain ⟨g, -, mem⟩ := List.mem_flatMap.mp group
    unfold State.groupNotices at mem
    dsimp only at mem
    split at mem
    · cases mem
    · obtain rfl | mem := List.mem_cons.mp mem
      · rfl
      · split at mem
        · rw [List.mem_singleton.mp mem]
          rfl
        · cases mem
  · obtain ⟨p, -, mem⟩ := List.mem_flatMap.mp pair
    unfold pairNotices at mem
    dsimp only at mem
    split at mem
    · cases mem
    · obtain rfl | mem := List.mem_cons.mp mem
      · rfl
      · split at mem
        · obtain ⟨g, -, mem⟩ := List.mem_flatMap.mp mem
          unfold pairChange at mem
          split at mem
          · cases mem
          · rw [List.mem_singleton.mp mem]
            rfl
        · cases mem

theorem editReports_class {window : Word} {n : Notice} (mem : n ∈ editReports s window) : ofEdits n = true := by
  obtain withdrawn | changed := List.mem_append.mp mem
  · obtain ⟨k, -, mem⟩ := List.mem_flatMap.mp withdrawn
    split at mem
    · obtain ⟨ur, -, rfl⟩ := List.mem_map.mp mem
      rfl
    · cases mem
  · obtain ⟨g, -, mem⟩ := List.mem_flatMap.mp changed
    split at mem
    · cases mem
    · rw [List.mem_singleton.mp mem]
      rfl

end

/-- What CR enqueues at a boundary (R142). -/
def frozenNotices (s : State) : List Notice :=
  match s.cr.trigger with
  | some record =>
    if s.cr.state = .post ∧ s.cr.postCount = 0 ∧ s.cr.releasePending = false then
      [.report (.freezeEvent true record 0 s.cr.span s.cr.ignored)]
    else []
  | none => []

theorem ringNotices_eq (s : State) (cycle : Word) : (s.cr.boundary cycle).2 = frozenNotices s := by
  unfold frozenNotices
  by_cases freezes : s.cr.freezes = true
  · obtain ⟨post, zero, kept⟩ := CaptureRing.freezes_iff.mp freezes
    cases trigger : s.cr.trigger <;> simp [CaptureRing.boundary, post, zero, kept, freezes, trigger]
  · have thaws := mt CaptureRing.freezes_iff.mpr freezes
    have silent : (s.cr.boundary cycle).2 = [] := by
      unfold CaptureRing.boundary
      split
      · rfl
      · rw [if_neg freezes]
        split
        · rfl
        · split <;> rfl
    rw [silent]
    cases s.cr.trigger <;> simp [thaws]

theorem frozenNotices_class (s : State) {n : Notice} (mem : n ∈ frozenNotices s) :
    (ofMonitors n = false ∧ ofEdits n = false ∧ ofKind 0x84 n = false) ∧ ofKind 0x86 n = true := by
  unfold frozenNotices at mem
  split at mem
  · split at mem
    · rw [List.mem_singleton.mp mem]
      exact ⟨⟨rfl, rfl, rfl⟩, rfl⟩
    · cases mem
  · cases mem

theorem State.closeNotices_of_stays {s : State} (inputs : InputLevels) (stays : ¬ EntersFree s) : s.closeNotices inputs =
    s.ae.skipNotices s.ct.holdoverMark s.entersFree s.endsWindow (s.leaving inputs) := by
  have same : s.ct.tracker = s.closedCt.tracker := by
    by_cases holdover : s.ct.tracker = .holdover
    · rw [State.closedCt_of_holdover holdover stays]
      rfl
    · rw [State.closedCt_of_other holdover]
      rfl
  rw [State.closeNotices, syncNotices_of_same same]
  rfl

theorem skipNotices_mem {a : AnalysisEngine} {mark free ends : Bool} {leaving : Quad Bool} {n : Notice}
    (mem : n ∈ a.skipNotices mark free ends leaving) : n = .flag .windowSkipped := by
  unfold AnalysisEngine.skipNotices at mem
  split at mem
  · exact List.mem_singleton.mp mem
  · cases mem

theorem closeNotices_mem {s : State} {inputs : InputLevels} {n : Notice} (mem : n ∈ s.closeNotices inputs) :
    n = .flag .syncFree ∨ n = .flag .windowSkipped ∨
      n = .report (.syncEvent .holdover .free .holdoverLimit 0 s.ct.frequency) := by
  by_cases free : EntersFree s
  · rw [State.closeNotices_of_free inputs free] at mem
    simp only [List.mem_cons, List.not_mem_nil, or_false] at mem
    obtain report | flag := mem
    · exact .inr (.inr report)
    · exact .inl flag
  · rw [State.closeNotices_of_stays inputs free] at mem
    exact .inr (.inl (skipNotices_mem mem))

/-! ### Every notice of a boundary, class by class -/

theorem filter_eq_self_of {p : Notice → Bool} {l : List Notice} (all : ∀ n ∈ l, p n = true) : l.filter p = l := List.filter_eq_self.mpr all

theorem filter_eq_nil_of {p : Notice → Bool} {l : List Notice} (none : ∀ n ∈ l, p n = false) : l.filter p = [] :=
  List.filter_eq_nil_iff.mpr fun n mem => Bool.eq_false_iff.mp (none n mem)

/-- The limit edits' reports of the boundary, none with the clock running. -/
def State.boundaryEdits (s : State) : List Notice := if s.ae.stopped then editReports s 0 else []

section
variable (s : State) (inputs : InputLevels)

theorem boundaryEdits_class {n : Notice} (mem : n ∈ s.boundaryEdits) : ofEdits n = true := by
  unfold State.boundaryEdits at mem
  split at mem
  · exact editReports_class s mem
  · cases mem

theorem State.boundaryNotices_eq : s.boundaryNotices inputs =
    s.closeNotices inputs ++ s.boundaryEdits ++ s.monitorNotices inputs ++ frozenNotices s := by
  rw [State.boundaryNotices, ringNotices_eq]
  rfl

theorem boundaryNotices_ofMonitors : (s.boundaryNotices inputs).filter ofMonitors = s.monitorNotices inputs := by
  have close : (s.closeNotices inputs).filter ofMonitors = [] := filter_eq_nil_of fun n mem => by
    obtain rfl | rfl | rfl := closeNotices_mem mem <;> rfl
  have edits : s.boundaryEdits.filter ofMonitors = [] := filter_eq_nil_of fun n mem => let ⟨other, _⟩ := class_of_edits (boundaryEdits_class s mem); other
  have frozen : (frozenNotices s).filter ofMonitors = [] := filter_eq_nil_of fun n mem => let ⟨⟨other, _⟩, _⟩ := frozenNotices_class s mem; other
  rw [State.boundaryNotices_eq, List.filter_append, List.filter_append, List.filter_append, close, edits, frozen,
    filter_eq_self_of fun n => monitorNotices_class s inputs]
  simp

theorem boundaryNotices_ofEdits : (s.boundaryNotices inputs).filter ofEdits = s.boundaryEdits := by
  have close : (s.closeNotices inputs).filter ofEdits = [] := filter_eq_nil_of fun n mem => by
    obtain rfl | rfl | rfl := closeNotices_mem mem <;> rfl
  have monitors : (s.monitorNotices inputs).filter ofEdits = [] :=
    filter_eq_nil_of fun n mem => let ⟨other, _⟩ := class_of_monitors (monitorNotices_class s inputs mem); other
  have frozen : (frozenNotices s).filter ofEdits = [] := filter_eq_nil_of fun n mem => let ⟨⟨_, other, _⟩, _⟩ := frozenNotices_class s mem; other
  rw [State.boundaryNotices_eq, List.filter_append, List.filter_append, List.filter_append, close, monitors, frozen,
    filter_eq_self_of fun n => boundaryEdits_class s]
  simp

theorem boundaryNotices_ofFreeze : (s.boundaryNotices inputs).filter (ofKind 0x86) = frozenNotices s := by
  have close : (s.closeNotices inputs).filter (ofKind 0x86) = [] := filter_eq_nil_of fun n mem => by
    obtain rfl | rfl | rfl := closeNotices_mem mem <;> rfl
  have edits : s.boundaryEdits.filter (ofKind 0x86) = [] :=
    filter_eq_nil_of fun n mem => let ⟨_, other, _⟩ := class_of_edits (boundaryEdits_class s mem); other
  have monitors : (s.monitorNotices inputs).filter (ofKind 0x86) = [] :=
    filter_eq_nil_of fun n mem => let ⟨_, other, _⟩ := class_of_monitors (monitorNotices_class s inputs mem); other
  rw [State.boundaryNotices_eq, List.filter_append, List.filter_append, List.filter_append, close, edits, monitors,
    filter_eq_self_of fun n mem => (frozenNotices_class s mem).2]
  simp

theorem boundaryNotices_ofSync : (s.boundaryNotices inputs).filter (ofKind 0x84) = (s.closeNotices inputs).filter (ofKind 0x84) := by
  have edits : s.boundaryEdits.filter (ofKind 0x84) = [] :=
    filter_eq_nil_of fun n mem => let ⟨_, _, other⟩ := class_of_edits (boundaryEdits_class s mem); other
  have monitors : (s.monitorNotices inputs).filter (ofKind 0x84) = [] :=
    filter_eq_nil_of fun n mem => let ⟨_, _, other⟩ := class_of_monitors (monitorNotices_class s inputs mem); other
  have frozen : (frozenNotices s).filter (ofKind 0x84) = [] := filter_eq_nil_of fun n mem => let ⟨⟨_, _, other⟩, _⟩ := frozenNotices_class s mem; other
  rw [State.boundaryNotices_eq, List.filter_append, List.filter_append, List.filter_append, edits, monitors, frozen]
  simp

theorem boundaryNotices_class {n : Notice} (mem : n ∈ s.boundaryNotices inputs) :
    n ∈ s.closeNotices inputs ∨ ofEdits n = true ∨ ofMonitors n = true ∨ ofKind 0x86 n = true := by
  rw [State.boundaryNotices_eq] at mem
  simp only [List.mem_append] at mem
  obtain ((close | edits) | monitors) | frozen := mem
  · exact .inl close
  · exact .inr (.inl (boundaryEdits_class s edits))
  · exact .inr (.inr (.inl (monitorNotices_class s inputs monitors)))
  · exact .inr (.inr (.inr (frozenNotices_class s frozen).2))

end

end Sys2Proof.Machine
end

