-- ==== Sys2Proof/Proofs/MonitorsMoved.lean ====
section
/-! PROOFS. What GM finds and leaves at a cycle boundary, in the terms of the states before and behind it, and the reports that say so
(R85, R88 to R91, R103). -/

namespace Sys2Proof.Machine

open Sys2Proof.Safety

/-! ### What GM finds -/

section
variable (s : State) (inputs : InputLevels)

/-- The records that GM finds: those that the limit edits leave, where the boundary applies them. -/
theorem State.appliedRecords_eq : s.appliedRecords = if s.ae.clock = none then editedRecords s else s.le.records := by
  unfold State.appliedRecords
  simp only [s.stopped_iff]

theorem State.applied_verdict_eq (g : GroupId) :
    (s.applied inputs).le.verdicts.get g = if s.ae.clock = none then editedVerdict s g else s.le.verdicts.get g := by
  rw [State.applied_verdict]
  simp only [s.stopped_iff]

/-- A pair breaks at the boundary (R88). -/
theorem pairBreaks_iff (p : PairId) : ((s.applied inputs).groupSteps (s.context inputs)).pairBreaks p = true ↔
    s.gm.pairs.get p = .intact ∧ (s.boundaryStep inputs).gm.pairs.get p = .broken := by
  have old : ((s.applied inputs).groupSteps (s.context inputs)).gm.pairs = s.gm.pairs := by
    rw [State.groupSteps_pairs, State.applied_gm]
  have new : ((s.applied inputs).groupSteps (s.context inputs)).pairNow p = (s.boundaryStep inputs).gm.pairs.get p := by
    rw [State.boundaryStep_gm]
    refine Eq.trans ?_ ((s.applied inputs).monitorStep_pairs (s.context inputs) p).symm
    rw [State.monitorStep_parts]
    simp [PairId.all]
  simp [State.pairBreaks, old, new]

/-- A record of the unit stands when GM finds it. -/
theorem applied_stands_iff (u : UnitId) : (s.applied inputs).le.stands u = true ↔
    ∃ (k : Fin 48) (r : CondRecord), (u, r) ∈ s.appliedRecords[k] ∧ Stands r := by
  rw [LimitEvaluator.stands_iff, State.applied_records]

/-- A group enters MONITOR only where a window opens (R83). -/
theorem opens_of_monitor {g : GroupId} (moved : (s.gm.groups.get g).state ≠ ((s.boundaryStep inputs).gm.groups.get g).state)
    (monitor : ((s.boundaryStep inputs).gm.groups.get g).state = .monitor) : s.opensWindow = true := by
  rw [State.boundaryStep_groups] at moved monitor
  by_contra shut
  cases leaves : (s.gm.groups.get g).leaves (inputs.get g) with
  | true => rw [GroupMonitor.boundary_of_leaves _ _ _ leaves] at monitor; cases monitor
  | false =>
    cases state : (s.gm.groups.get g).state with
    | out =>
      rw [GroupMonitor.boundary_of_out _ _ _ state] at monitor
      split at monitor
      · cases monitor
      · rw [GroupMonitor.debounced_state, state] at monitor; cases monitor
    | settling =>
      rw [GroupMonitor.boundary_of_settling _ _ _ state leaves, if_neg fun both => shut both.2] at monitor
      have still : ((s.gm.groups.get g).debounced (inputs.get g)).state = .monitor := monitor
      rw [GroupMonitor.debounced_state, state] at still
      cases still
    | monitor =>
      rw [GroupMonitor.boundary_of_monitor state leaves, GroupMonitor.debounced_state] at moved
      exact moved rfl

end

/-! ### The reports, by the states before and behind -/

section
variable (s : State) (inputs : InputLevels)

/-- The group has entered OUT at the boundary. -/
abbrev HasLeft (s : State) (inputs : InputLevels) (g : GroupId) : Prop :=
  (s.gm.groups.get g).state ≠ .out ∧ ((s.boundaryStep inputs).gm.groups.get g).state = .out

theorem hasLeft_iff (g : GroupId) : (s.monitored inputs).hasLeft s.gm.groups g = true ↔ HasLeft s inputs g := by
  simp [State.hasLeft, HasLeft]

theorem groupNotices_eq (g : GroupId) : (s.applied inputs).groupNotices (s.context inputs) g =
    let old := (s.gm.groups.get g).state
    let new := ((s.boundaryStep inputs).gm.groups.get g).state
    let before := (s.applied inputs).le.verdicts.get g
    if old = new then []
    else .report (.groupEvent g old new (monitorCause new) (if new = .monitor then s.ae.counter + 1 else 0)) ::
      (if HasLeft s inputs g ∧ before ≠ .normal then [.report (.verdictChange g before .normal .out 0 none)] else []) := by
  have next : (s.applied inputs).nextGroup (s.context inputs) g = (s.boundaryStep inputs).gm.groups.get g := by
    rw [State.boundaryStep_gm]
    exact ((s.applied inputs).monitorStep_groups (s.context inputs) g).symm
  have opening (moved : (s.gm.groups.get g).state ≠ ((s.boundaryStep inputs).gm.groups.get g).state) :
      monitorWindow ((s.boundaryStep inputs).gm.groups.get g).state s.openingNumber =
        if ((s.boundaryStep inputs).gm.groups.get g).state = .monitor then s.ae.counter + 1 else 0 := by
    have opens := opens_of_monitor s inputs moved
    cases state : ((s.boundaryStep inputs).gm.groups.get g).state with
    | monitor => exact (State.openingNumber_of_opens (opens state)).trans (if_pos rfl).symm
    | out => rfl
    | settling => rfl
  unfold State.groupNotices HasLeft
  dsimp only
  rw [next, State.applied_gm]
  by_cases same : (s.gm.groups.get g).state = ((s.boundaryStep inputs).gm.groups.get g).state
  · rw [if_pos same, if_pos same.symm]
  · rw [if_neg same, if_neg (Ne.symm same)]
    have window := opening same
    generalize ((s.boundaryStep inputs).gm.groups.get g).state = new at same window
    have left : (new = .out ∧ (s.applied inputs).le.verdicts.get g ≠ .normal) ↔
        ((s.gm.groups.get g).state ≠ .out ∧ new = .out) ∧ (s.applied inputs).le.verdicts.get g ≠ .normal := by
      constructor
      · rintro ⟨rfl, verdict⟩; exact ⟨⟨same, rfl⟩, verdict⟩
      · rintro ⟨⟨-, out⟩, verdict⟩; exact ⟨out, verdict⟩
    simp only [left, ← window]
    rfl

/-- A pair breaks whose records stood when GM found it. -/
def unitBroke (s : State) (inputs : InputLevels) : UnitId → Bool
  | .group _ => false
  | .pair p => ((s.applied inputs).groupSteps (s.context inputs)).pairBreaks p && (s.applied inputs).le.stands (.pair p)

/-- The entry that holds a group's verdict behind the boundary (R112). -/
theorem monitored_holder (g : GroupId) : holderOf ((s.monitored inputs).standing g) =
    holder (s.boundaryStep inputs).ss.working.limits (s.boundaryStep inputs).le.records g := by
  rw [State.boundaryStep_le, State.boundaryStep_ss, ← s.monitored_ss inputs]
  rfl

theorem pairNotices_eq (p : PairId) :
    pairNotices (s.context inputs) (s.applied inputs).gm.groups (s.applied inputs) (s.monitored inputs) p =
    let old := s.gm.pairs.get p
    let new := (s.boundaryStep inputs).gm.pairs.get p
    if old = new then []
    else .report (.pairEvent p old new (pairCause s.gm.groups (s.boundaryStep inputs) p new) (if new = .intact then s.openingNumber else 0)) ::
      (if unitBroke s inputs (.pair p) = true then [p.first, p.second].flatMap fun g =>
          if HasLeft s inputs g ∨ (s.applied inputs).le.verdicts.get g = (s.boundaryStep inputs).le.verdicts.get g then []
          else [.report (.verdictChange g ((s.applied inputs).le.verdicts.get g) ((s.boundaryStep inputs).le.verdicts.get g) .pairBroken 0
            (holder (s.boundaryStep inputs).ss.working.limits (s.boundaryStep inputs).le.records g))]
        else []) := by
  have breaks := pairBreaks_iff s inputs p
  have cause (new : PairState) : pairCause s.gm.groups (s.monitored inputs) p new = pairCause s.gm.groups (s.boundaryStep inputs) p new := by
    cases new <;> simp [pairCause]
  have change : pairChange s.gm.groups (s.applied inputs) (s.monitored inputs) = fun g =>
      if HasLeft s inputs g ∨ (s.applied inputs).le.verdicts.get g = (s.boundaryStep inputs).le.verdicts.get g then []
      else [.report (.verdictChange g ((s.applied inputs).le.verdicts.get g) ((s.boundaryStep inputs).le.verdicts.get g) .pairBroken 0
        (holder (s.boundaryStep inputs).ss.working.limits (s.boundaryStep inputs).le.records g))] := by
    funext g
    unfold pairChange
    rw [monitored_holder]
    simp only [hasLeft_iff, State.boundaryStep_le]
  have window : (if (s.boundaryStep inputs).gm.pairs.get p = .intact ∧ (s.context inputs).opens = true then (s.context inputs).opening else 0) =
      if (s.boundaryStep inputs).gm.pairs.get p = .intact then s.openingNumber else 0 := by
    have opening : (s.context inputs).opens ≠ true → s.openingNumber = 0 := fun shut => if_neg shut
    by_cases opens : (s.context inputs).opens = true
    · simp only [opens, and_true]
      rfl
    · simp only [opens, opening opens, Bool.false_eq_true, and_false, if_false, ite_self]
  unfold pairNotices unitBroke
  dsimp only
  rw [State.applied_gm, ← s.boundaryStep_gm inputs, cause, change, window]
  by_cases same : s.gm.pairs.get p = (s.boundaryStep inputs).gm.pairs.get p
  · rw [if_pos same, if_pos same.symm]
  · rw [if_neg same, if_neg (Ne.symm same)]
    have broken : ((s.boundaryStep inputs).gm.pairs.get p = .broken ∧ (s.applied inputs).le.stands (.pair p) = true) ↔
        (((s.applied inputs).groupSteps (s.context inputs)).pairBreaks p && (s.applied inputs).le.stands (.pair p)) = true := by
      rw [Bool.and_eq_true, breaks]
      refine and_congr_left fun _ => ⟨fun new => ⟨?_, new⟩, And.right⟩
      rw [new] at same
      cases old : s.gm.pairs.get p with
      | intact => rfl
      | broken => exact absurd old same
    simp only [broken]

end

/-! ### The obligation -/

/-- Settles O16: the groups one by one, the span of the ring, and then pairs, records, verdicts and reports from GM's step, which finds what the
limit edits leave. -/
theorem boundaryMovesTheGroups : Obligations.BoundaryMovesTheGroups := by
  unfold Obligations.BoundaryMovesTheGroups
  refine ⟨fun s inputs g boundary => boundary_moves_group g boundary, fun s a b => s.cr.span_iff a b, ?moves⟩
  case moves =>
    intro s inputs boundary edits opens before held
    have stepped := State.monitorStep_stepped (s.context inputs) (s.applied inputs)
    have found (g : GroupId) : (s.applied inputs).le.verdicts.get g = before g := s.applied_verdict_eq inputs g
    have records : s.appliedRecords = held := s.appliedRecords_eq
    refine ⟨s.boundaryStep inputs, s.boundaryNotices inputs, s.openingNumber, unitBroke s inputs,
      (s.applied inputs).unitCleared (s.context inputs), exec_cycleBoundary boundary, s.boundaryStep_posted inputs,
      fun does => State.openingNumber_of_opens (s.opensWindow_iff.mpr does), fun not => if_neg fun does => not (s.opensWindow_iff.mp does), ?_⟩
    intro left unsupported
    have isLeft (g : GroupId) : (s.applied inputs).groupLeft (s.context inputs) g = true ↔ left g := groupLeft_iff
    have isBroke (p : PairId) : unitBroke s inputs (.pair p) = true ↔ unsupported p := by
      rw [unitBroke, Bool.and_eq_true, pairBreaks_iff, applied_stands_iff, records, and_assoc]
    have unbroken (g : GroupId) (not : ¬ unsupported g.pair) :
        ¬ (((s.applied inputs).groupSteps (s.context inputs)).pairBreaks g.pair = true ∧ (s.applied inputs).le.stands (.pair g.pair) = true) :=
      fun both => not ((isBroke g.pair).mp (Bool.and_eq_true_iff.mpr both))
    have stays (g : GroupId) (not : ¬ left g) : (s.applied inputs).groupLeft (s.context inputs) g = false :=
      Bool.eq_false_iff.mpr fun is => not ((isLeft g).mp is)
    refine ⟨isBroke, isLeft, fun p => pairBreaks_iff s inputs p, fun k => ?_, fun p => ?_, fun g is => ?_, fun g not broken => ?_,
      fun g not kept => ?_, ?_, ?_, boundaryNotices_ofFreeze s inputs, fun free => ?_, fun not => ?_, fun b mem => ?_, fun f mem => ?_⟩
    · rw [State.boundaryStep_records, clearWhere_entry, records]
    · rw [State.boundaryStep_gm, State.boundaryStep_ss]
      exact s.monitored_pairs inputs p
    · rw [State.boundaryStep_le]
      exact stepped.left g ((isLeft g).mpr is)
    · obtain ⟨breaks, stands⟩ := Bool.and_eq_true_iff.mp ((isBroke g.pair).mpr broken)
      have standing : (s.boundaryStep inputs).standing g = (s.monitored inputs).standing g :=
        State.standing_congr (by simp) (by simp) g
      rw [State.verdictFollows_iff, standing, State.boundaryStep_le]
      exact stepped.broken g (stays g not) breaks stands
    · rw [State.boundaryStep_le, ← found]
      exact stepped.kept g (stays g not) (unbroken g kept)
    · rw [boundaryNotices_ofMonitors, State.monitorNotices]
      refine congrArg₂ (· ++ ·) (List.flatMap_congr fun g _ => ?_) (List.flatMap_congr fun p _ => ?_)
      · rw [groupNotices_eq, found]
        rfl
      · rw [pairNotices_eq]
        simp only [found]
        rfl
    · rw [boundaryNotices_ofEdits, State.boundaryEdits]
      by_cases none : s.ae.clock = none
      · have limits : (s.boundaryStep inputs).ss.working.limits = (s.ss.working.applyLimits s.ss.staged).limits := by
          rw [State.boundaryStep_ss, State.appliedSs_of_none none]
          exact congrArg (fun v => tableZip LimitEdit.apply s.ss.staged.limits v) s.ss.withAnalysis_limits
        have edited : before = editedVerdict s := funext fun g => if_pos none
        have table : held = editedRecords s := if_pos none
        rw [if_pos (State.stopped_of_none none), if_pos none, limits, edited, table]
        rfl
      · rw [if_neg (Bool.eq_false_iff.mp (State.not_stopped none)), if_neg none]
    · rw [boundaryNotices_ofSync, State.closeNotices_of_free inputs free]
      rfl
    · rw [boundaryNotices_ofSync, State.closeNotices_of_stays inputs not]
      exact filter_eq_nil_of fun n mem => by rw [skipNotices_mem mem]; rfl
    · obtain close | edits | monitors | frozen := boundaryNotices_class s inputs mem
      · obtain e | e | e := closeNotices_mem close
        · cases e
        · cases e
        · cases e
          exact .inr (.inr (.inr rfl))
      · exact .inr (.inl edits)
      · exact .inl monitors
      · exact .inr (.inr (.inl (of_decide_eq_true frozen)))
    · obtain close | edits | monitors | frozen := boundaryNotices_class s inputs mem
      · obtain e | e | e := closeNotices_mem close
        · cases e
          exact .inl rfl
        · cases e
          exact .inr rfl
        · cases e
      · cases edits
      · cases monitors
      · cases frozen

end Sys2Proof.Machine
end

