-- ==== Sys2Proof/Proofs/Jobs.lean ====
section
/-! PROOFS. The finishing jobs: which one starts, and what its completion stores and counts (R50 to R52, R151, R152, R166). -/

namespace Sys2Proof.Machine

open Sys2Proof.Safety

/-! ### The arithmetic unit -/

theorem mem_jobOrder (u : UnitId) : u ∈ jobOrder := by
  cases u with
  | group g => exact List.mem_append_left _ (List.mem_map_of_mem (GroupId.mem_all g))
  | pair p => exact List.mem_append_right _ (List.mem_map_of_mem (PairId.mem_all p))

theorem AnalysisEngine.unitBusy_iff (a : AnalysisEngine) : a.unitBusy = true ↔ ∃ u, a.runs u = true := by
  constructor
  · intro busy
    simp only [AnalysisEngine.unitBusy, Bool.or_eq_true] at busy
    obtain (groups | first) | second := busy
    · obtain ⟨g, runs⟩ := (Quad.any_iff _).mp groups
      exact ⟨.group g, by simpa [AnalysisEngine.runs] using runs⟩
    · exact ⟨.pair .p0, first⟩
    · exact ⟨.pair .p1, second⟩
  · rintro ⟨u, runs⟩
    by_contra idle
    rw [AnalysisEngine.not_runs_of_free (Bool.eq_false_iff.mpr idle)] at runs
    cases runs

theorem runningSlots_pos_iff (a : AnalysisEngine) : 0 < runningSlots a ↔ a.unitBusy = true := by
  rw [runningSlots_eq, List.countP_pos_iff, AnalysisEngine.unitBusy_iff]
  exact exists_congr fun u => and_iff_right (mem_jobOrder u)

/-- With one slot running, the slot that runs is the one. -/
theorem runs_unique {a : AnalysisEngine} (one : runningSlots a = 1) {u v : UnitId} (first : a.runs u = true) (second : a.runs v = true) :
    u = v := by
  rw [runningSlots_eq, List.countP_eq_length_filter] at one
  obtain ⟨only, e⟩ := List.length_eq_one_iff.mp one
  have sole (w : UnitId) (runs : a.runs w = true) : w = only := by
    have mem : w ∈ jobOrder.filter a.runs := List.mem_filter.mpr ⟨mem_jobOrder w, runs⟩
    rw [e] at mem
    exact List.mem_singleton.mp mem
  rw [sole u first, sole v second]

/-! ### The job that starts -/

/-- The first candidate of the lowest ordinal stays the best. -/
theorem foldl_earlier_kept (c : UnitId × Nat) {l : List (UnitId × Nat)} (later : ∀ b ∈ l, c.2 ≤ b.2) :
    l.foldl earlier (some c) = some c := by
  induction l with
  | nil => rfl
  | cons b l ih =>
    have kept : earlier (some c) b = some c := if_neg (Nat.not_lt.mpr (later b List.mem_cons_self))
    rw [List.foldl_cons, kept]
    exact ih fun x mem => later x (List.mem_cons_of_mem _ mem)

theorem foldl_earlier_mem {l : List (UnitId × Nat)} {best : Option (UnitId × Nat)} {b : UnitId × Nat}
    (found : l.foldl earlier best = some b) : b ∈ l ∨ best = some b := by
  induction l generalizing best with
  | nil => exact .inr found
  | cons x l ih =>
    obtain mem | first := ih found
    · exact .inl (List.mem_cons_of_mem _ mem)
    · cases best with
      | none =>
        cases first
        exact .inl List.mem_cons_self
      | some c =>
        unfold earlier at first
        dsimp only at first
        split at first
        · cases first
          exact .inl List.mem_cons_self
        · exact .inr first

/-- The candidate that comes before all of lower order and is no later than the rest is chosen (R50). -/
theorem foldl_earlier_split {before after : List (UnitId × Nat)} {c : UnitId × Nat} (first : ∀ b ∈ before, c.2 < b.2)
    (rest : ∀ b ∈ after, c.2 ≤ b.2) : (before ++ c :: after).foldl earlier none = some c := by
  have taken : earlier (before.foldl earlier none) c = some c := by
    cases best : before.foldl earlier none with
    | none => rfl
    | some b =>
      obtain mem | e := foldl_earlier_mem best
      · exact if_pos (first b mem)
      · cases e
  rw [List.foldl_append, List.foldl_cons, taken, foldl_earlier_kept c rest]

theorem AnalysisEngine.nextJob_of_first {a : AnalysisEngine} {u : UnitId} {n : Nat} {before after : List UnitId}
    (order : jobOrder = before ++ u :: after) (waits : a.waitingOrder u = some n)
    (first : ∀ v ∈ before, ∀ m, a.waitingOrder v = some m → n < m) (rest : ∀ v ∈ after, ∀ m, a.waitingOrder v = some m → n ≤ m) :
    a.nextJob = some u := by
  have mem {l : List UnitId} {b : UnitId × Nat} (mem : b ∈ l.filterMap fun u => (a.waitingOrder u).map fun n => (u, n)) :
      b.1 ∈ l ∧ a.waitingOrder b.1 = some b.2 := by
    obtain ⟨v, listed, e⟩ := List.mem_filterMap.mp mem
    obtain ⟨m, waiting, rfl⟩ := Option.map_eq_some_iff.mp e
    exact ⟨listed, waiting⟩
  have candidate : (a.waitingOrder u).map (fun n => (u, n)) = some (u, n) := by rw [waits]; rfl
  unfold AnalysisEngine.nextJob
  rw [order, List.filterMap_append, List.filterMap_cons, candidate, foldl_earlier_split]
  · rfl
  · intro b found
    obtain ⟨inBefore, waiting⟩ := mem found
    exact first b.1 inBefore b.2 waiting
  · intro b found
    obtain ⟨inAfter, waiting⟩ := mem found
    exact rest b.1 inAfter b.2 waiting

/-- The groups that come before a group in the order of R50. -/
theorem jobOrder_group (g : GroupId) : ∃ before after, jobOrder = before ++ .group g :: after ∧
    ∀ v ∈ before, ∃ h : GroupId, v = .group h ∧ h.toNat < g.toNat := by
  cases g with
  | g0 => exact ⟨[], [.group .g1, .group .g2, .group .g3, .pair .p0, .pair .p1], rfl, nofun⟩
  | g1 => exact ⟨[.group .g0], [.group .g2, .group .g3, .pair .p0, .pair .p1], rfl, by simp; decide⟩
  | g2 => exact ⟨[.group .g0, .group .g1], [.group .g3, .pair .p0, .pair .p1], rfl, by simp; decide⟩
  | g3 => exact ⟨[.group .g0, .group .g1, .group .g2], [.pair .p0, .pair .p1], rfl, by simp; decide⟩

/-- The units that come before a pair in the order of R50. -/
theorem jobOrder_pair (p : PairId) : ∃ before after, jobOrder = before ++ .pair p :: after ∧
    ∀ v ∈ before, (∃ h, v = .group h) ∨ ∃ q : PairId, v = .pair q ∧ q.toNat < p.toNat := by
  cases p with
  | p0 => exact ⟨[.group .g0, .group .g1, .group .g2, .group .g3], [.pair .p1], rfl, by simp⟩
  | p1 => exact ⟨[.group .g0, .group .g1, .group .g2, .group .g3, .pair .p0], [], rfl, by simp; decide⟩

theorem AnalysisEngine.waitingOrder_group {a : AnalysisEngine} {g : GroupId} {n : Nat} :
    a.waitingOrder (.group g) = some n ↔ ∃ job, a.groupSlots.get g = .waiting job ∧ job.head.order = n := by
  cases slot : a.groupSlots.get g <;> simp [AnalysisEngine.waitingOrder, slot]

theorem AnalysisEngine.waitingOrder_pair {a : AnalysisEngine} {p : PairId} {n : Nat} :
    a.waitingOrder (.pair p) = some n ↔ ∃ job, a.pairSlots.get p = .waiting job ∧ job.head.order = n := by
  cases slot : a.pairSlots.get p <;> simp [AnalysisEngine.waitingOrder, slot]

theorem exec_jobStart {s : State} {u : UnitId} (running : s.inReset = false) (idle : runningSlots s.ae = 0) (next : s.ae.nextJob = some u) :
    exec .jobStart s = .next (s.setAe (s.ae.startJob u)) := by
  have free : s.ae.unitBusy = false := Bool.eq_false_iff.mpr fun busy => by
    have := (runningSlots_pos_iff s.ae).mpr busy
    omega
  have start : s.startNext = s.setAe (s.ae.startJob u) := by rw [State.startNext, next]
  have step : exec .jobStart s = whenDue s (!s.ae.unitBusy && s.ae.nextJob.isSome) s.startNext := rfl
  rw [step, free, next, start]
  exact whenDue_of_due running

/-- Settles O22: the candidates before the job in the order of R50 are strictly later, the others no earlier. -/
theorem earliestJobStarts : Obligations.EarliestJobStarts := by
  unfold Obligations.EarliestJobStarts
  intro s running
  refine ⟨fun busy => ?_, fun g job idle waiting groups pairs => ?_, fun p job idle waiting groups pairs => ?_⟩
  · have step : exec .jobStart s = whenDue s (!s.ae.unitBusy && s.ae.nextJob.isSome) s.startNext := rfl
    rw [step, (runningSlots_pos_iff s.ae).mp busy]
    exact whenDue_false s _
  · obtain ⟨before, after, order, lower⟩ := jobOrder_group g
    have next : s.ae.nextJob = some (.group g) := by
      refine AnalysisEngine.nextJob_of_first order (AnalysisEngine.waitingOrder_group.mpr ⟨job, waiting, rfl⟩) ?_ ?_
      · rintro v mem m waits
        obtain ⟨h, rfl, less⟩ := lower v mem
        obtain ⟨other, slot, rfl⟩ := AnalysisEngine.waitingOrder_group.mp waits
        obtain earlier | ⟨-, no⟩ := groups h other slot
        · exact earlier
        · omega
      · rintro v - m waits
        cases v with
        | group h =>
          obtain ⟨other, slot, rfl⟩ := AnalysisEngine.waitingOrder_group.mp waits
          obtain earlier | ⟨same, -⟩ := groups h other slot
          · exact earlier.le
          · exact same.le
        | pair q =>
          obtain ⟨other, slot, rfl⟩ := AnalysisEngine.waitingOrder_pair.mp waits
          exact pairs q other slot
    rw [exec_jobStart running idle next, AnalysisEngine.startJob, waiting]
    rfl
  · obtain ⟨before, after, order, lower⟩ := jobOrder_pair p
    have next : s.ae.nextJob = some (.pair p) := by
      refine AnalysisEngine.nextJob_of_first order (AnalysisEngine.waitingOrder_pair.mpr ⟨job, waiting, rfl⟩) ?_ ?_
      · rintro v mem m waits
        obtain ⟨h, rfl⟩ | ⟨q, rfl, less⟩ := lower v mem
        · obtain ⟨other, slot, rfl⟩ := AnalysisEngine.waitingOrder_group.mp waits
          exact groups h other slot
        · obtain ⟨other, slot, rfl⟩ := AnalysisEngine.waitingOrder_pair.mp waits
          obtain earlier | ⟨-, no⟩ := pairs q other slot
          · exact earlier
          · omega
      · rintro v - m waits
        cases v with
        | group h =>
          obtain ⟨other, slot, rfl⟩ := AnalysisEngine.waitingOrder_group.mp waits
          exact (groups h other slot).le
        | pair q =>
          obtain ⟨other, slot, rfl⟩ := AnalysisEngine.waitingOrder_pair.mp waits
          obtain earlier | ⟨same, -⟩ := pairs q other slot
          · exact earlier.le
          · exact same.le
    rw [exec_jobStart running idle next, AnalysisEngine.startJob, waiting]
    rfl

/-! ### The job that completes -/

/-- The running job is that of a slot that runs; there is none where no slot runs. -/
theorem AnalysisEngine.running_cases (a : AnalysisEngine) :
    (∃ g job, a.running = .group g job ∧ a.groupSlots.get g = .running job) ∨
    (∃ p job, a.running = .pair p job ∧ a.pairSlots.get p = .running job) ∨ ∀ u, a.runs u = false := by
  unfold AnalysisEngine.running
  split
  · exact .inl ⟨_, _, rfl, ‹_›⟩
  · exact .inl ⟨_, _, rfl, ‹_›⟩
  · exact .inl ⟨_, _, rfl, ‹_›⟩
  · exact .inl ⟨_, _, rfl, ‹_›⟩
  · exact .inr (.inl ⟨_, _, rfl, ‹_›⟩)
  · exact .inr (.inl ⟨_, _, rfl, ‹_›⟩)
  · rename_i g0 g1 g2 g3 p0 p1
    have idle {α : Type} {slot : JobSlot α} (not : ∀ job, slot = .running job → False) : slot.isRunning = false := by
      cases slot with
      | running job => exact (not job rfl).elim
      | _ => rfl
    refine .inr (.inr fun u => ?_)
    cases u with
    | group g => cases g <;> exact idle ‹_›
    | pair p => cases p <;> exact idle ‹_›

section
variable {a : AnalysisEngine} (one : runningSlots a = 1)
include one

theorem AnalysisEngine.running_of_group {g : GroupId} {job : GroupJob} (slot : a.groupSlots.get g = .running job) :
    a.running = .group g job := by
  have here : a.runs (.group g) = true := by rw [AnalysisEngine.runs, slot]; rfl
  obtain ⟨h, other, running, found⟩ | ⟨p, other, running, found⟩ | idle := a.running_cases
  · have there : a.runs (.group h) = true := by rw [AnalysisEngine.runs, found]; rfl
    cases runs_unique one here there
    rw [slot] at found
    cases found
    exact running
  · have there : a.runs (.pair p) = true := by rw [AnalysisEngine.runs, found]; rfl
    cases runs_unique one here there
  · rw [idle] at here
    cases here

theorem AnalysisEngine.running_of_pair {p : PairId} {job : PairJob} (slot : a.pairSlots.get p = .running job) :
    a.running = .pair p job := by
  have here : a.runs (.pair p) = true := by rw [AnalysisEngine.runs, slot]; rfl
  obtain ⟨h, other, running, found⟩ | ⟨q, other, running, found⟩ | idle := a.running_cases
  · have there : a.runs (.group h) = true := by rw [AnalysisEngine.runs, found]; rfl
    cases runs_unique one here there
  · have there : a.runs (.pair q) = true := by rw [AnalysisEngine.runs, found]; rfl
    cases runs_unique one here there
    rw [slot] at found
    cases found
    exact running
  · rw [idle] at here
    cases here

end

/-- The counters that a stored group record raises: windows analysed, with RF and its bin, degraded (R151, R152). -/
def GroupRecord.raises (r : GroupRecord) (i : Nat) : Bool :=
  decide (i = 7) || (match r.rf with
    | some x => decide (i = 8) || decide (i = rfBin x)
    | none => false) || (r.degraded && decide (i = 9))

section
variable (r : GroupRecord)

theorem GroupRecord.raises_analysed : r.raises 7 = true := by simp [GroupRecord.raises]

theorem GroupRecord.raises_withRf : r.raises 8 = r.rf.isSome := by
  cases rf : r.rf <;> simp [GroupRecord.raises, rf]

theorem GroupRecord.raises_degraded : r.raises 9 = r.degraded := by
  cases rf : r.rf with
  | none => simp [GroupRecord.raises, rf]
  | some x =>
    have bin := rfBin_lt x
    have other : 9 ≠ rfBin x := by omega
    simp [GroupRecord.raises, rf, other]

theorem GroupRecord.raises_none_above {i : Nat} (above : 10 ≤ i) : r.raises i = false := by
  have others : i ≠ 7 ∧ i ≠ 8 ∧ i ≠ 9 := by omega
  cases rf : r.rf with
  | none => simp [GroupRecord.raises, rf, others]
  | some x =>
    have bin := rfBin_lt x
    have other : i ≠ rfBin x := by omega
    simp [GroupRecord.raises, rf, others, other]

variable {r}

theorem GroupRecord.raises_bin {x i : Nat} (rf : r.rf = some x) (bin : i < 7) : r.raises i = decide (i = rfBin x) := by
  have others : i ≠ 7 ∧ i ≠ 8 ∧ i ≠ 9 := by omega
  simp [GroupRecord.raises, rf, others]

theorem GroupRecord.raises_no_bin {i : Nat} (rf : r.rf = none) (bin : i < 7) : r.raises i = false := by
  have others : i ≠ 7 ∧ i ≠ 9 := by omega
  simp [GroupRecord.raises, rf, others]

end

theorem Statistics.bumpGroup_at (st : Statistics) (g h : GroupId) (k : Nat) {i : Nat} (small : i < 12) :
    ((st.bumpGroup g k).groups.get h)[i] = (st.groups.get h)[i] + (if h = g ∧ i = k then 1 else 0) := st.bumpGroup_get g h k ⟨i, small⟩

theorem Statistics.countRecord_get (st : Statistics) (g h : GroupId) (r : GroupRecord) (i : Fin 12) :
    ((st.countRecord g r).groups.get h)[i] = (st.groups.get h)[i] + (if h = g ∧ r.raises i.val = true then 1 else 0) := by
  obtain ⟨i, small⟩ := i
  change ((st.countRecord g r).groups.get h)[i] = (st.groups.get h)[i] + _
  unfold Statistics.countRecord GroupRecord.raises
  dsimp only
  by_cases same : h = g
  · cases rf : r.rf with
    | none =>
      by_cases seven : i = 7
      · cases r.degraded <;> simp [Statistics.bumpGroup_at, same, seven]
      · cases r.degraded <;> simp [Statistics.bumpGroup_at, same, seven]
    | some x =>
      have bin := rfBin_lt x
      by_cases high : 7 ≤ i
      · have other : i ≠ rfBin x := by omega
        by_cases seven : i = 7
        · cases r.degraded <;> simp [Statistics.bumpGroup_at, same, seven, seven ▸ other]
        · by_cases eight : i = 8
          · cases r.degraded <;> simp [Statistics.bumpGroup_at, same, eight, eight ▸ other]
          · cases r.degraded <;> simp [Statistics.bumpGroup_at, same, seven, eight, other]
      · have others : i ≠ 7 ∧ i ≠ 8 ∧ i ≠ 9 := by omega
        cases r.degraded <;> simp [Statistics.bumpGroup_at, same, others]
  · cases r.rf <;> cases r.degraded <;> simp [Statistics.bumpGroup_at, same]

theorem Statistics.countRecord_pairs (st : Statistics) (g : GroupId) (r : GroupRecord) : (st.countRecord g r).pairs = st.pairs := by
  unfold Statistics.countRecord
  dsimp only
  cases r.rf <;> cases r.degraded <;> rfl

/-- The bins of RF in 0.01 %, by their bounds (R152). -/
theorem rfBin_eq_iff {x : Nat} (clamped : x ≤ 65535) (b : Fin 12) (bin : b.val < 7) : b.val = rfBin x ↔
    [0, 25, 50, 100, 200, 400, 800].getD b.val 0 ≤ x ∧ x ≤ [24, 49, 99, 199, 399, 799, 65535].getD b.val 0 := by
  obtain ⟨b, small⟩ := b
  dsimp only at bin ⊢
  unfold rfBin
  interval_cases b <;> simp <;> split_ifs <;> simp <;> omega

theorem GroupJob.record_rf_le {g : GroupId} {job : GroupJob} {x : Nat} (rf : (job.record g).rf = some x) : x ≤ 65535 := by
  have clamps (present : Bool) (raw : Nat) (some : (clampedRatio present raw).1 = some x) : x ≤ 65535 := by
    unfold clampedRatio clampRatio at some
    split at some
    · cases some
      exact Nat.min_le_right ..
    · cases some
  exact clamps _ _ rf

/-- A stored record reaches LC alone (R166). -/
theorem State.offerDigest_eq (s : State) (g : GroupId) (r : GroupRecord) : s.offerDigest g r = s.setLc (s.offerDigest g r).lc := by
  unfold State.offerDigest
  dsimp only
  split
  · rfl
  · split <;> rfl

theorem State.offerDigest_of_zero {s : State} (zero : s.ss.working.analysis.digest = 0) (g : GroupId) (r : GroupRecord) :
    (s.offerDigest g r).lc = s.lc := by
  unfold State.offerDigest
  rw [zero]
  rfl

theorem State.offerDigest_of_more {s : State} {g : GroupId} (more : s.lc.digests.get g + 1 < s.ss.working.analysis.digest) (r : GroupRecord) :
    (s.offerDigest g r).lc = { s.lc with digests := s.lc.digests.set g (s.lc.digests.get g + 1) } := by
  unfold State.offerDigest
  dsimp only
  rw [if_neg (by omega), if_neg (by omega)]
  rfl

theorem State.offerDigest_of_last {s : State} {g : GroupId} (sends : 0 < s.ss.working.analysis.digest)
    (last : s.ss.working.analysis.digest ≤ s.lc.digests.get g + 1) (r : GroupRecord) :
    (s.offerDigest g r).lc = LinkController.post s.ct.cycle { s.lc with digests := s.lc.digests.set g 0 }
      [.report (.windowDigest g r.window r.meanV r.rf r.jg (s.le.verdicts.get g))] := by
  unfold State.offerDigest
  dsimp only
  rw [if_neg (by omega), if_pos last]
  rfl

/-- The record of a group's job stored and counted, before LC is offered it. -/
def State.stored (s : State) (g : GroupId) (job : GroupJob) : State :=
  (s.setAe (s.ae.completeGroup g job)).setSt (s.st.countRecord g (job.record g))

theorem exec_jobCompletion {s : State} (running : s.inReset = false) (one : runningSlots s.ae = 1) :
    exec .jobCompletion s = .next s.completeJob := by
  have step : exec .jobCompletion s = whenDue s s.ae.unitBusy s.completeJob := rfl
  rw [step, (runningSlots_pos_iff s.ae).mp (by omega)]
  exact whenDue_of_due running

/-- Settles O23: the one running job, its stores, its counters and its digest. -/
theorem jobCompletionStores : Obligations.JobCompletionStores := by
  unfold Obligations.JobCompletionStores
  constructor
  · intro s g job running one slot r N before
    have completes : s.completeJob = (s.stored g job).offerDigest g r := by
      rw [State.completeJob, AnalysisEngine.running_of_group one slot]
      rfl
    have counts (i : Fin 12) : ((s.st.countRecord g r).groups.get g)[i] = before[i] + (if r.raises i.val = true then 1 else 0) := by
      simpa only [true_and] using s.st.countRecord_get g g r i
    have kept {i : Fin 12} (unraised : r.raises i.val = false) : ((s.st.countRecord g r).groups.get g)[i] = before[i] := by
      rw [counts i, unraised]
      exact BitVec.add_zero _
    rw [exec_jobCompletion running one, completes, State.offerDigest_eq]
    refine ⟨_, rfl, rfl, rfl, s.st.countRecord_pairs g r, fun h other => ?_, (counts 7).trans ?_, (counts 8).trans ?_, (counts 9).trans ?_,
      kept (i := 10) (r.raises_none_above (by decide)), kept (i := 11) (r.raises_none_above (by decide)),
      fun x rf => ⟨GroupJob.record_rf_le rf, fun b bin => (counts b).trans ?_⟩, fun none b bin => kept (GroupRecord.raises_no_bin none bin),
      fun zero => State.offerDigest_of_zero (s := s.stored g job) zero g r, fun more => State.offerDigest_of_more (s := s.stored g job) more r,
      fun sends last => State.offerDigest_of_last (s := s.stored g job) sends last r⟩
    · change (s.st.countRecord g r).groups.get h = s.st.groups.get h
      refine Vector.ext fun i small => ?_
      simpa [other] using s.st.countRecord_get g h r ⟨i, small⟩
    · exact congrArg (before[7] + ·) (if_pos r.raises_analysed)
    · exact congrArg (fun on => before[8] + if on = true then 1 else 0) r.raises_withRf
    · exact congrArg (fun on => before[9] + if on = true then 1 else 0) r.raises_degraded
    · have bounds := rfBin_eq_iff (GroupJob.record_rf_le rf) b bin
      simp only [GroupRecord.raises_bin rf bin, decide_eq_true_iff, bounds]
  · intro s p job running one slot r
    have completes : s.completeJob = (s.setAe (s.ae.completePair p job)).setSt (s.st.bumpPair p) := by
      rw [State.completeJob, AnalysisEngine.running_of_pair one slot]
    rw [exec_jobCompletion running one, completes]
    rfl

end Sys2Proof.Machine
end

