-- ==== Sys2Proof/Proofs/EvaluationPass.lean ====
section
/-! PROOFS. The evaluation pass: what it makes of records, verdicts, latches and the freeze state, every report it enqueues, and the entry
that a VERDICT_CHANGE names (R102 to R113, R137, R139, R142). -/

namespace Sys2Proof.Machine

open Sys2Proof.Safety

/-! ### Freeze triggers of verdicts (R110, R137, R139) -/

/-- A trigger that CR considers. -/
def State.considerTrigger (s : State) (r : TriggerRecord) : State :=
  (s.setCr (s.cr.consider s.ss.working.freeze.postCycles r).1).post (s.cr.consider s.ss.working.freeze.postCycles r).2

theorem State.considerTriggers_ring (rs : List TriggerRecord) (s : State) :
    (rs.foldl State.considerTrigger s).cr = s.cr.considerAll s.ss.working.freeze.postCycles rs := by
  induction rs generalizing s with
  | nil => rfl
  | cons r rs ih => exact ih (s.considerTrigger r)

theorem State.considerTrigger_posts (s : State) (r : TriggerRecord) :
    Posts s (s.considerTrigger r) (s.cr.consider s.ss.working.freeze.postCycles r).2 :=
  .after (t := s.setCr (s.cr.consider s.ss.working.freeze.postCycles r).1) ⟨rfl, rfl, rfl, rfl⟩ rfl (.post _ _)

theorem State.considerTriggers_silent (rs : List TriggerRecord) {s : State} (other : s.cr.state ≠ .running) :
    Posts s (rs.foldl State.considerTrigger s) [] := by
  induction rs generalizing s with
  | nil => exact .refl s
  | cons r rs ih =>
    obtain ⟨running, -⟩ | ⟨-, counted⟩ := s.cr.consider_cases s.ss.working.freeze.postCycles r
    · exact absurd running other
    · have first := s.considerTrigger_posts r
      rw [counted] at first
      have still : (s.considerTrigger r).cr.state ≠ .running := by
        change (s.cr.consider s.ss.working.freeze.postCycles r).1.state ≠ _
        rw [counted]
        exact other
      exact first.trans (ih still)

/-- Of several triggers the first alone is reported, and only while the ring runs. -/
theorem State.considerTriggers_posts (rs : List TriggerRecord) (s : State) :
    Posts s (rs.foldl State.considerTrigger s) ((if s.cr.state = .running then rs.head?.toList else []).map fun r =>
      .report (.freezeEvent false r s.ss.working.freeze.postCycles none s.cr.ignored)) := by
  by_cases running : s.cr.state = .running
  · rw [if_pos running]
    cases rs with
    | nil => exact .refl s
    | cons r rs =>
      have taken : s.cr.consider s.ss.working.freeze.postCycles r =
          ({ s.cr with state := .post, postCount := s.ss.working.freeze.postCycles, trigger := some r },
            [.report (.freezeEvent false r s.ss.working.freeze.postCycles none s.cr.ignored)]) := by simp [CaptureRing.consider, running]
      have first := s.considerTrigger_posts r
      rw [taken] at first
      refine first.trans (State.considerTriggers_silent rs ?_)
      change (s.cr.consider s.ss.working.freeze.postCycles r).1.state ≠ _
      rw [taken]
      exact nofun
  · rw [if_neg running]
    exact State.considerTriggers_silent rs running

/-- A verdict that moved from `old` to ALARM or TRIP with its source flag set (R110, R136). -/
def offersVerdict (f : FreezeSetup) (new old : Verdict) : Bool :=
  decide (new ≠ old) && ((decide (new = .alarm) && f.verdictAlarm) || (decide (new = .trip) && f.verdictTrip))

/-- The trigger record of a group's verdict (R137). -/
def verdictRecord (verdicts : Quad Verdict) (window cycle : Word) (g : GroupId) : TriggerRecord :=
  { cause := if verdicts.get g = .trip then .verdictTrip else .verdictAlarm
    group := some g
    comparator := none
    window := some window
    cycle := cycle }

theorem State.offerVerdict_eq (before : Quad Verdict) (window : Word) (s : State) (g : GroupId) : s.offerVerdict before window g =
    if offersVerdict s.ss.working.freeze (s.le.verdicts.get g) (before.get g) then
      s.considerTrigger (verdictRecord s.le.verdicts window s.ct.cycle g) else s := by
  unfold State.offerVerdict offersVerdict verdictRecord State.offerTrigger State.considerTrigger
  by_cases same : s.le.verdicts.get g = before.get g
  · simp [same]
  · cases verdict : s.le.verdicts.get g with
    | normal => simp
    | watch => simp
    | alarm => simp [verdict ▸ same, FreezeSetup.admits]; rfl
    | trip => simp [verdict ▸ same, FreezeSetup.admits]; rfl

/-- The groups whose verdicts offer a trigger, in group order. -/
def State.offeringGroups (s : State) (before : Quad Verdict) : List GroupId :=
  GroupId.all.filter fun g => offersVerdict s.ss.working.freeze (s.le.verdicts.get g) (before.get g)

theorem State.offerVerdicts_eq (s : State) (before : Quad Verdict) (window : Word) : s.offerVerdicts before window =
    ((s.offeringGroups before).map (verdictRecord s.le.verdicts window s.ct.cycle)).foldl State.considerTrigger s := by
  unfold State.offerVerdicts State.offeringGroups
  generalize GroupId.all = l
  induction l generalizing s with
  | nil => rfl
  | cons g l ih =>
    rw [List.foldl_cons, ih, State.offerVerdict_eq, List.filter_cons]
    split <;> rfl

/-! ### The judgements and their reports (R107 to R109) -/

theorem limitEventKind_eq (before after : CondRecord) : limitEventKind before after =
    if ¬ Stands before ∧ Stands after then some .active else if Stands before ∧ ¬ Stands after then some .cleared else none := by
  unfold limitEventKind
  simp only [← CondRecord.standing_iff]
  cases before.standing <;> cases after.standing <;> rfl

theorem judgeNotices_eq (m : Monitors) (p : Pass) (limits : Vector (Option LimitEntry) 48)
    (records : Vector (List (UnitId × CondRecord)) 48) : judgeNotices m p limits records = judgements m p limits records := by
  unfold judgeNotices judgements
  refine List.flatMap_congr fun k _ => ?_
  generalize records[k] = rs
  cases limits[k] with
  | none => rfl
  | some e =>
    refine List.filterMap_congr fun ur _ => ?_
    unfold judgeNotice
    cases judgedValue m p e ur.1 with
    | none => rfl
    | some x =>
      simp only [limitEventKind_eq, Option.bind_some]
      split
      · rfl
      · split <;> rfl

theorem Posts.setLe_post (s : State) (l : LimitEvaluator) (ns : List Notice) : Posts s ((s.setLe l).post ns) ns :=
  .after (t := s.setLe l) ⟨rfl, rfl, rfl, rfl⟩ rfl (.post _ _)

theorem State.judgedBy_posts (s : State) (p : Pass) : Posts s (s.judgedBy p)
    (judgements s.gm p s.ss.working.limits s.le.records ++
      verdictChanges (fun g => s.le.verdicts.get g) (fun g => (s.judgedBy p).le.verdicts.get g) .evaluation p.window
        (holder (s.judgedBy p).ss.working.limits (s.judgedBy p).le.records)) := by
  have judged : Posts s (s.judgeRecords p) (judgements s.gm p s.ss.working.limits s.le.records) := by
    rw [← judgeNotices_eq, State.judgeRecords]
    exact .setLe_post ..
  have changed := (s.judgeRecords p).recomputeAll_posts .evaluation p.window
  have standing (g : GroupId) : (s.judgeRecords p).standing g = (s.judgedBy p).standing g := ((s.judgedBy_only p).standing g).symm
  have verdicts : (s.judgeRecords p).le.verdicts = s.le.verdicts := by simp [State.judgeRecords]
  have follows (g : GroupId) : verdictOf ((s.judgedBy p).standing g) = (s.judgedBy p).le.verdicts.get g := (s.judgedBy_follows p g).symm
  simp only [standing, follows, verdicts] at changed
  have last : (s.judgeRecords p).recomputeAll .evaluation p.window = s.judgedBy p := rfl
  rw [last] at changed
  generalize s.judgedBy p = t at changed
  exact judged.trans changed

/-! ### The whole pass -/

section
variable (s : State) (p : Pass)

/-- The state behind the edits of step 1. -/
def State.editedBy : State := s.applyLimitEdits (some p.window)

/-- The state behind step 4, whose verdicts offer the triggers of step 5. -/
def State.latchedBy : State := ((s.editedBy p).judgedBy p).latchRisen (s.editedBy p).le.verdicts

theorem State.evaluate_eq : s.evaluate p = (s.latchedBy p).offerVerdicts (s.editedBy p).le.verdicts p.window := s.evaluate_parts p

theorem State.editedBy_verdict (g : GroupId) : (s.editedBy p).le.verdicts.get g = editedVerdict s g := s.applyLimitEdits_verdict _ g

theorem State.evaluate_le : (s.evaluate p).le = (s.latchedBy p).le := by
  rw [State.evaluate_eq]
  exact (State.offerVerdicts_only ..).le

theorem State.latchedBy_ss : (s.latchedBy p).ss = s.ss.withLimits := by
  have edited : (s.editedBy p).ss = s.ss.withLimits := s.applyLimitEdits_ss _
  rw [State.latchedBy, (State.latchRisen_only ..).ss, State.judgedBy_ss, edited]

theorem State.evaluate_verdicts : (s.evaluate p).le.verdicts = ((s.editedBy p).judgedBy p).le.verdicts := by
  rw [State.evaluate_le, State.latchedBy, (State.latchRisen_only ..).verdicts]

theorem State.evaluate_records :
    (s.evaluate p).le.records = judgeTable s.gm p s.ss.withLimits.working.limits (editedRecords s) := by
  have gm : (s.editedBy p).gm = s.gm := s.applyLimitEdits_gm _
  have ss : (s.editedBy p).ss = s.ss.withLimits := s.applyLimitEdits_ss _
  have records : (s.editedBy p).le.records = editedRecords s := s.applyLimitEdits_records _
  rw [State.evaluate_le, State.latchedBy, (State.latchRisen_only ..).records, State.judgedBy_records, gm, ss, records]

theorem State.evaluate_follows (g : GroupId) : VerdictFollows (s.evaluate p) g := by
  have ss : (s.evaluate p).ss = ((s.editedBy p).judgedBy p).ss := by
    rw [State.evaluate_eq, (State.offerVerdicts_only ..).ss, State.latchedBy, (State.latchRisen_only ..).ss]
  have records : (s.evaluate p).le.records = ((s.editedBy p).judgedBy p).le.records := by
    rw [State.evaluate_le, State.latchedBy, (State.latchRisen_only ..).records]
  rw [State.verdictFollows_iff, State.evaluate_verdicts, State.standing_congr (by rw [ss]) records]
  exact State.judgedBy_follows ..

/-- The verdict of a group rose to TRIP in step 3. -/
def State.Rises (g : GroupId) : Prop := (s.evaluate p).le.verdicts.get g = .trip ∧ editedVerdict s g ≠ .trip

theorem State.evaluate_latches (g : GroupId) :
    (s.evaluate p).le.latches.get g = true ↔ s.le.latches.get g = true ∨ s.Rises p g := by
  have edited : (s.editedBy p).le.latches = s.le.latches := s.applyLimitEdits_latches _
  rw [State.Rises, State.evaluate_verdicts, State.evaluate_le, State.latchedBy, State.latchRisen_latches, State.judgedBy_latches, edited,
    State.editedBy_verdict]
  split
  · simp [*]
  · rename_i other
    exact ⟨.inl, fun either => either.resolve_right other⟩

theorem State.evaluate_tripLine {g : GroupId} (rises : s.Rises p g) : (s.evaluate p).le.tripLines.get g = true := by
  rw [State.Rises, State.evaluate_verdicts, ← s.editedBy_verdict p] at rises
  rw [State.evaluate_le, State.latchedBy, State.latchRisen_tripLines, if_pos rises]

theorem State.editedBy_frame : (s.editedBy p).ct = s.ct ∧ (s.editedBy p).gm = s.gm ∧ (s.editedBy p).cr = s.cr := by
  obtain ⟨verdicts, alert, lc, e⟩ := s.applyLimitEdits_eq (some p.window)
  rw [State.editedBy, e]
  simp

theorem State.latchedBy_frame : (s.latchedBy p).ct = s.ct ∧ (s.latchedBy p).cr = s.cr := by
  obtain ⟨ct, -, cr⟩ := s.editedBy_frame p
  obtain ⟨verdicts, alert, lc, -, judged⟩ := (s.editedBy p).judgedBy_only p
  obtain ⟨latches, tripLines, alert', latched⟩ := ((s.editedBy p).judgedBy p).latchRisen_only (s.editedBy p).le.verdicts
  rw [State.latchedBy, latched, judged]
  simp [State.judgeRecords, ct, cr]

/-- The groups whose verdicts step 3 moved to ALARM or TRIP with the source flag set, in group order (R110). -/
def State.passOffers : List GroupId :=
  GroupId.all.filter fun g =>
    offersVerdict s.ss.working.freeze ((s.evaluate p).le.verdicts.get g) (editedVerdict s g)

/-- The trigger that such a group offers. -/
def State.passRecord (g : GroupId) : TriggerRecord := verdictRecord (s.evaluate p).le.verdicts p.window s.ct.cycle g

theorem State.evaluate_offers : s.evaluate p = ((s.passOffers p).map (s.passRecord p)).foldl State.considerTrigger (s.latchedBy p) := by
  have verdicts : (s.latchedBy p).le.verdicts = (s.evaluate p).le.verdicts := by rw [State.evaluate_le]
  have freeze : (s.latchedBy p).ss.working.freeze = s.ss.working.freeze := by
    rw [State.latchedBy_ss, SettingsStore.withLimits_freeze]
  have groups : (s.latchedBy p).offeringGroups (s.editedBy p).le.verdicts = s.passOffers p := by
    unfold State.offeringGroups State.passOffers
    simp only [verdicts, freeze, State.editedBy_verdict]
  have eq := s.evaluate_eq p
  rw [State.offerVerdicts_eq, groups, verdicts, (s.latchedBy_frame p).1] at eq
  exact eq

theorem State.evaluate_ring :
    (s.evaluate p).cr = s.cr.considerAll s.ss.working.freeze.postCycles ((s.passOffers p).map (s.passRecord p)) := by
  rw [State.evaluate_offers, State.considerTriggers_ring, State.latchedBy_ss, SettingsStore.withLimits_freeze,
    (s.latchedBy_frame p).2]

theorem State.latchedBy_posts : Posts s (s.latchedBy p)
    (editReports s p.window ++
      (judgements s.gm p (s.evaluate p).ss.working.limits (editedRecords s) ++
        verdictChanges (editedVerdict s) (fun g => (s.evaluate p).le.verdicts.get g) .evaluation p.window
          (holder (s.evaluate p).ss.working.limits (s.evaluate p).le.records))) := by
  have edits : Posts s (s.editedBy p) (editReports s p.window) := s.applyLimitEdits_posts (some p.window)
  have judged := (s.editedBy p).judgedBy_posts p
  have limits : (s.editedBy p).ss.working.limits = (s.evaluate p).ss.working.limits := by
    have ss : (s.editedBy p).ss = s.ss.withLimits := s.applyLimitEdits_ss _
    rw [(s.evaluate_only p).ss, ss]
  have records : (s.editedBy p).le.records = editedRecords s := s.applyLimitEdits_records _
  have after : ((s.editedBy p).judgedBy p).le.records = (s.evaluate p).le.records := by
    rw [State.evaluate_le, State.latchedBy, (State.latchRisen_only ..).records]
  simp only [State.judgedBy_ss, (s.editedBy_frame p).2.1, limits, records, after, State.editedBy_verdict, ← State.evaluate_verdicts] at judged
  have both := edits.trans judged
  obtain ⟨latches, tripLines, alert, latched⟩ := ((s.editedBy p).judgedBy p).latchRisen_only (s.editedBy p).le.verdicts
  rw [State.latchedBy, latched]
  generalize (s.editedBy p).judgedBy p = t at both
  exact both.before (u := t.setLe _) ⟨rfl, rfl, rfl, rfl⟩ rfl

theorem State.evaluate_posts : Posts s (s.evaluate p)
    (editReports s p.window ++
      (judgements s.gm p (s.evaluate p).ss.working.limits (editedRecords s) ++
        verdictChanges (editedVerdict s) (fun g => (s.evaluate p).le.verdicts.get g) .evaluation p.window
          (holder (s.evaluate p).ss.working.limits (s.evaluate p).le.records)) ++
      (if s.cr.state = .running then (s.passOffers p).head?.toList else []).map fun g =>
        .report (.freezeEvent false (s.passRecord p g) s.ss.working.freeze.postCycles none s.cr.ignored)) := by
  have offers := State.considerTriggers_posts ((s.passOffers p).map (s.passRecord p)) (s.latchedBy p)
  rw [← State.evaluate_offers, State.latchedBy_ss, SettingsStore.withLimits_freeze, (s.latchedBy_frame p).2] at offers
  have list : ((if s.cr.state = .running then ((s.passOffers p).map (s.passRecord p)).head?.toList else []).map fun r =>
        Notice.report (.freezeEvent false r s.ss.working.freeze.postCycles none s.cr.ignored)) =
      (if s.cr.state = .running then (s.passOffers p).head?.toList else []).map fun g =>
        .report (.freezeEvent false (s.passRecord p g) s.ss.working.freeze.postCycles none s.cr.ignored) := by
    split
    · cases s.passOffers p <;> rfl
    · rfl
  rw [list] at offers
  exact (s.latchedBy_posts p).trans offers

/-- What a pass leaves of the records of each slot, by the edit staged for it (R102, R103, R108). -/
theorem State.evaluate_record (k : Fin 48) : (s.evaluate p).le.records[k] =
    judgeSlot s.gm p (LimitEdit.apply s.ss.staged.limits[k] s.ss.working.limits[k])
      (recordsAfterEdit s.ss.staged.limits[k] s.le.records[k]) := by
  have edited : (editedRecords s)[k] = recordsAfterEdit s.ss.staged.limits[k] s.le.records[k] := tableZip_getElem ..
  rw [State.evaluate_records, judgeTable_entry, SettingsStore.withLimits_limit, edited]

end

/-! ### The entry that a VERDICT_CHANGE names (R112) -/

theorem standingFor_sorted (limits : Vector (Option LimitEntry) 48) (records : Vector (List (UnitId × CondRecord)) 48) (g : GroupId) :
    (standingFor limits records g).Pairwise fun x y => x.entry ≤ y.entry := by
  have entry {k : Fin 48} {x : Standing} (mem : x ∈ match limits[k] with
      | some e => standingIn k.val e g records[k]
      | none => []) : x.entry = k.val := by
    revert mem
    generalize records[k] = rs
    cases limits[k] with
    | none => exact nofun
    | some e =>
      intro mem
      obtain ⟨ur, -, rfl⟩ := List.mem_map.mp mem
      rfl
  refine List.pairwise_flatMap.mpr ⟨fun k _ => ?_, ?_⟩
  · exact List.pairwise_of_forall_mem_list fun x memX y memY => by rw [entry memX, entry memY]
  · exact (List.pairwise_lt_finRange 48).imp fun before x memX y memY => by
      rw [entry memX, entry memY]
      exact Nat.le_of_lt before

theorem verdictOf_eq_normal_or (ss : List Standing) : verdictOf ss = .normal ∨ ∃ x ∈ ss, verdictOf ss = x.severity.verdict :=
  (foldl_verdict ss .normal).2.2

theorem holderOf_eq_none {ss : List Standing} : holderOf ss = none ↔ ss = [] := by
  unfold holderOf
  rw [Option.map_eq_none_iff, List.find?_eq_none]
  constructor
  · intro none
    obtain normal | ⟨x, mem, same⟩ := verdictOf_eq_normal_or ss
    · exact (verdictOf_eq_normal ss).mp normal
    · exact absurd (decide_eq_true same.symm) (none x mem)
  · rintro rfl
    exact nofun

/-- The holder is the first of the highest severity, and so of the lowest entry where entries rise. -/
theorem holderOf_eq_some {ss : List Standing} (sorted : ss.Pairwise fun x y => x.entry ≤ y.entry) {k : Nat} {ofPair : Bool}
    (holds : holderOf ss = some (k, ofPair)) :
    ∃ x ∈ ss, x.entry = k ∧ x.ofPair = ofPair ∧
      ∀ y ∈ ss, y.severity.code ≤ x.severity.code ∧ (y.severity = x.severity → x.entry ≤ y.entry) := by
  obtain ⟨x, found, named⟩ := Option.map_eq_some_iff.mp holds
  cases named
  obtain ⟨highest, before, after, split, lower⟩ := List.find?_eq_some_iff_append.mp found
  have highest : verdictOf ss = x.severity.verdict := (of_decide_eq_true highest).symm
  obtain ⟨-, bounds⟩ := (verdictOf_eq_severity ss x.severity).mp highest
  refine ⟨x, by simp [split], rfl, rfl, fun y mem => ⟨bounds y mem, fun same => ?_⟩⟩
  rw [split] at mem sorted
  obtain earlier | here := List.mem_append.mp mem
  · have differs := lower y earlier
    rw [same, highest] at differs
    simp at differs
  · obtain rfl | later := List.mem_cons.mp here
    · exact le_refl _
    · exact List.rel_of_pairwise_cons (List.pairwise_append.mp sorted).2.1 later

/-- No entry is named exactly if no record stands. -/
theorem holder_eq_none {limits : Vector (Option LimitEntry) 48} {records : Vector (List (UnitId × CondRecord)) 48} {g : GroupId} :
    holder limits records g = none ↔ ∀ (k : Nat) (severity : Severity) (u : UnitId), ¬ ∃ (i : Fin 48) (e : LimitEntry) (r : CondRecord),
      i.val = k ∧ limits[i] = some e ∧ (u, r) ∈ records[i] ∧ AppliesTo g u ∧ Stands r ∧ e.severity = severity := by
  rw [holder, holderOf_eq_none, List.eq_nil_iff_forall_not_mem]
  constructor
  · rintro none _ _ u ⟨i, e, r, rfl, entry, record, applies, stands, rfl⟩
    exact none _ (mem_standingFor.mpr ⟨i, e, u, r, entry, record, applies, stands, rfl⟩)
  · intro none x mem
    obtain ⟨i, e, u, r, entry, record, applies, stands, rfl⟩ := mem_standingFor.mp mem
    exact none _ _ u ⟨i, e, r, rfl, entry, record, applies, stands, rfl⟩

theorem kindCode_eq_one (u : UnitId) : u.kindCode = 1 ↔ ∃ p, u = .pair p := by
  cases u <;> simp [UnitId.kindCode]

/-! ### The obligation -/

theorem pass_offers_triggers (s : State) (p : Pass) :
    let sameFreeze := fun (c : CaptureRing) => c.state = s.cr.state ∧ c.trigger = s.cr.trigger ∧ c.postCount = s.cr.postCount
    let t := s.evaluate p
    let offering := s.passOffers p
    (offering = [] → sameFreeze t.cr ∧ t.cr.ignored = s.cr.ignored) ∧
    (s.cr.state ≠ .running → sameFreeze t.cr ∧
      (s.cr.ignored ≤ 65535 → t.cr.ignored = min (s.cr.ignored + offering.length) 65535)) ∧
    (∀ g more, offering = g :: more → s.cr.state = .running →
      t.cr.state = .post ∧ t.cr.postCount = s.ss.working.freeze.postCycles ∧
      (s.cr.ignored ≤ 65535 → t.cr.ignored = min (s.cr.ignored + more.length) 65535) ∧
      t.cr.trigger = some (s.passRecord p g)) := by
  dsimp only
  rw [State.evaluate_ring]
  refine ⟨fun none => ?_, fun other => ?_, fun g more list running => ?_⟩
  · rw [none]
    exact ⟨⟨rfl, rfl, rfl⟩, rfl⟩
  · obtain ⟨n, ring, count⟩ := CaptureRing.considerAll_of_not_running other s.ss.working.freeze.postCycles
      ((s.passOffers p).map (s.passRecord p))
    rw [ring]
    exact ⟨⟨rfl, rfl, rfl⟩, by simpa using count⟩
  · rw [list]
    obtain ⟨n, ring, count⟩ := CaptureRing.considerAll_of_running running s.ss.working.freeze.postCycles (s.passRecord p g)
      (more.map (s.passRecord p))
    rw [List.map_cons, ring]
    exact ⟨rfl, rfl, by simpa using count, rfl⟩

section
variable (s : State) (a : AnalysisEngine)

theorem editedRecords_setAe : editedRecords (s.setAe a) = editedRecords s := by simp only [editedRecords, State.setAe_ss, State.setAe_le]

theorem editedVerdict_setAe (g : GroupId) : editedVerdict (s.setAe a) g = editedVerdict s g := by
  simp only [editedVerdict, editedRecords_setAe, State.setAe_ss]

theorem withdrawals_setAe (window : Word) : withdrawals (s.setAe a) window = withdrawals s window := by
  unfold withdrawals
  simp only [State.setAe_ss, State.setAe_le]

end

/-- The records of a slot behind a pass, by the edit staged for it. -/
theorem pass_judges_records (s : State) (p : Pass) (k : Fin 48) :
    (∀ e, s.ss.staged.limits[k] = none → s.ss.working.limits[k] = some e →
      (s.evaluate p).le.records[k] = s.le.records[k].map (judgeRecord s.gm p e)) ∧
    (∀ e, s.ss.staged.limits[k] = some (.replace e) →
      (s.evaluate p).le.records[k] = (e.scope.units.map fun u => (u, CondRecord.clear)).map (judgeRecord s.gm p e)) ∧
    (s.ss.staged.limits[k] = some .delete → (s.evaluate p).le.records[k] = []) := by
  rw [State.evaluate_record]
  refine ⟨fun e unedited entry => ?_, fun e replaced => ?_, fun deleted => ?_⟩
  · rw [unedited, entry]
    rfl
  · rw [replaced]
    rfl
  · rw [deleted]
    rfl

theorem OnlyPass.frame {s t : State} {a : AnalysisEngine} (only : OnlyPass (s.setAe a) t) :
    t = { s with ae := t.ae, le := t.le, cr := t.cr, lc := t.lc, ss := t.ss } := by
  obtain ⟨pending, inReset, mode, fe, ct, -, gm, fc, st, freeNext⟩ := only
  cases t
  simp only [State.mk.injEq, true_and]
  exact ⟨pending, inReset, mode, fe, ct, gm, fc, st, freeNext⟩

theorem OnlyPass.ring {s t : State} (only : OnlyPass s t) :
    t.cr = { s.cr with state := t.cr.state, trigger := t.cr.trigger, postCount := t.cr.postCount, ignored := t.cr.ignored } := by
  obtain ⟨-, -, -, -, -, -, -, -, -, -, -, slots, current, release⟩ := only
  cases ring : t.cr
  rw [ring] at slots current release
  simp only [CaptureRing.mk.injEq, true_and]
  exact ⟨slots, current, release⟩

/-- The frame of a pass on LC (R108, R162). -/
theorem pass_keeps_link (s : State) (p : Pass) :
    (s.evaluate p).lc.receiver = s.lc.receiver ∧ (s.evaluate p).lc.sending = s.lc.sending ∧ (s.evaluate p).lc.masks = s.lc.masks ∧
    (s.evaluate p).lc.counters = s.lc.counters ∧ (s.evaluate p).lc.holdCount = s.lc.holdCount := by
  obtain ⟨l, m, edits, judged, rfl⟩ := s.evaluate_link p
  have keeps := (edits.keeps.trans (l.closeLimit_only (some p.window)).keeps).trans judged.keeps
  exact ⟨keeps.receiver, keeps.sending, keeps.masks, keeps.counters, keeps.holdCount⟩

/-- Settles O24, through the state behind each of the five steps. -/
theorem evaluationPassSteps : Obligations.EvaluationPassSteps := by
  refine ⟨?pass, ?named⟩
  case pass =>
    intro s p rest running passes ready
    have only := (s.setAe s.ae.withoutPass).evaluate_only p
    have records (k : Fin 48) := pass_judges_records (s.setAe s.ae.withoutPass) p k
    have follows := (s.setAe s.ae.withoutPass).evaluate_follows p
    have latches (g : GroupId) := (s.setAe s.ae.withoutPass).evaluate_latches p g
    have tripLines (g : GroupId) := (s.setAe s.ae.withoutPass).evaluate_tripLine p (g := g)
    have link := pass_keeps_link (s.setAe s.ae.withoutPass) p
    have requests := evaluate_requests (s.setAe s.ae.withoutPass) p
    have offers := pass_offers_triggers (s.setAe s.ae.withoutPass) p
    have posts := ((s.setAe s.ae.withoutPass).evaluate_posts p).posted
    simp only [State.Rises, State.passOffers, State.passRecord, editReports, editedVerdict_setAe, editedRecords_setAe, withdrawals_setAe,
      State.setAe_ss, State.setAe_le, State.setAe_gm, State.setAe_cr, State.setAe_lc, State.setAe_ct]
      at records latches tripLines link requests offers posts
    refine ⟨_, exec_evaluationPass running passes ready, ?_⟩
    generalize (s.setAe s.ae.withoutPass).evaluate p = t at *
    have ae : t.ae = { s.ae with passes := rest } := by rw [only.ae, State.setAe_ae, AnalysisEngine.withoutPass, passes, List.drop_one, List.tail_cons]
    obtain ⟨none, other, first⟩ := offers
    obtain ⟨receiver, sending, masks, counters, holdCount⟩ := link
    refine ⟨only.frame, ae, only.ss, fun k e => (records k).1 e, fun k e => (records k).2.1 e, fun k => (records k).2.2, follows, latches,
      fun g trip rose => tripLines g ⟨trip, rose⟩, only.ring, receiver, sending, masks, counters, holdCount, requests, none, other, first, ?_⟩
    have limits : (s.ss.working.applyLimits s.ss.staged).limits = t.ss.working.limits := by
      rw [only.ss]
      rfl
    rw [limits, ← List.append_assoc] at posts
    exact posts
  case named =>
    intro limits records g
    refine ⟨holder_eq_none, fun k ofPair named => ?_⟩
    obtain ⟨x, mem, rfl, rfl, first⟩ := holderOf_eq_some (standingFor_sorted ..) named
    obtain ⟨i, e, u, r, entry, record, applies, stands, rfl⟩ := mem_standingFor.mp mem
    refine ⟨e.severity, u, ⟨i, e, r, rfl, entry, record, applies, stands, rfl⟩, ?_, ?_⟩
    · rw [decide_eq_true_iff]
      exact kindCode_eq_one u
    · rintro _ _ u' ⟨i', e', r', rfl, entry', record', applies', stands', rfl⟩
      exact first _ (mem_standingFor.mpr ⟨i', e', u', r', entry', record', applies', stands', rfl⟩)

end Sys2Proof.Machine
end

