-- ==== Sys2Proof/Proofs/SampleEvents.lean ====
section
/-! PROOFS. The sample event: the samples added to the open sets and to the ring, the CLIP flag, what stays as it was, and the two commands
that name a part of it (R12, R13, R42 to R44, R123, R126, R134). -/

namespace Sys2Proof.Machine

open Sys2Proof.Safety

/-! ### A sample added to a set (R42 to R44) -/

section
variable (a : AccSet) (k : Nat) (x : Int) (sources : List Sample)

theorem AccSet.add_lines (i : Fin 50) : (a.add k x sources).cosSums[i] = a.cosSums[i] + x * cosT ((i.val + 1) * k) ∧
    (a.add k x sources).sinSums[i] = a.sinSums[i] + x * sinT ((i.val + 1) * k) := by simp [AccSet.add]

theorem AccSet.add_square : ((a.add k x sources).q : Int) = a.q + x * x := by
  simp [AccSet.add]

theorem AccSet.add_mark {j : Nat} {m : Marks} {y : Sample} (mark : a.marks[j]? = some m) (source : sources[j]? = some y) :
    (a.add k x sources).marks[j]? = some { clip := m.clip || y.clipped, held := m.held || y.held } := by
  simp [AccSet.add, addMarks, List.getElem?_zipWith, mark, source]

theorem AccSet.addWithExtremes_largest {y : Int} (largest : a.largest = some y) :
    (a.addWithExtremes k x sources).largest = some (if y < x then x else y) := by
  simp only [AccSet.addWithExtremes, largest, Option.some.injEq]
  split <;> omega

theorem AccSet.addWithExtremes_smallest {y : Int} (smallest : a.smallest = some y) :
    (a.addWithExtremes k x sources).smallest = some (if x < y then x else y) := by
  simp only [AccSet.addWithExtremes, smallest, Option.some.injEq]
  split <;> omega

end

/-! ### CR takes the samples (R134) -/

section
variable (c : CaptureRing) (ys : PerChannel Sample)

theorem CaptureRing.write_of_frozen {c : CaptureRing} (frozen : c.state = .frozen) : c.write ys = c := by simp [CaptureRing.write, frozen]

theorem CaptureRing.write_of_open {c : CaptureRing} (open' : c.state ≠ .frozen) :
    (c.write ys).slots = c.slots.set c.current (c.currentSlot.write ys) := by
  unfold CaptureRing.write
  split
  · exact absurd ‹_› open'
  · rfl

theorem SlotChannel.write_at (r : RingSlot) (channel : ChannelId) :
    (r.write ys).channels.get channel = (r.channels.get channel).write (ys.get channel) := PerChannel.get_ofFn ..

end

/-! ### The notices of a sample event (R13, R128, R142) -/

theorem anyClipped_iff (ys : PerChannel Sample) : anyClipped ys = true ↔ ∃ c, (ys.get c).clipped = true := by
  simp [anyClipped, ChannelId.mem_all]

theorem State.fcNotices_ne_flag (s : State) (ys : PerChannel Sample) (index : Nat) (l : List (GroupId × CompId)) (c : CaptureRing)
    (post : Nat) (cycle : Word) (f : Flag) : Notice.flag f ∉ c.fcNotices (s.judgement ys index) l post cycle := by
  intro mem
  obtain ⟨gc, -, mem⟩ := List.mem_flatMap.mp mem
  obtain freeze | fast := List.mem_append.mp mem
  · unfold CaptureRing.freezeNotices at freeze
    split at freeze <;> simp at freeze
  · unfold State.judgement at fast
    dsimp only at fast
    split at fast <;> simp at fast

/-- CLIP where a sample is clipped, and then the reports of FC, which in MAINTENANCE has none. -/
theorem State.sampleStep_posts (s : State) (raw : RawCodes) :
    ∃ reports : List Notice, Posts s (s.sampleStep raw) ((if anyClipped (s.samplesOf raw) then [.flag .clip] else []) ++ reports) ∧
      (∀ f, Notice.flag f ∉ reports) ∧ (s.mode = .maintenance → reports = []) := by
  have clip := s.delivered_posts raw
  cases mode : s.mode with
  | normal =>
    have judged := (State.sampleStep_judged mode raw).posts
    exact ⟨_, clip.trans judged, fun f => s.fcNotices_ne_flag _ _ _ _ _ _ f, nofun⟩
  | maintenance =>
    have still : s.sampleStep raw = (s.delivered raw).setFc Comparators.fresh := by
      simp [State.sampleStep_eq, State.judgeComparators, mode]
    exact ⟨[], by rw [List.append_nil, still]; exact clip.before ⟨rfl, rfl, rfl, rfl⟩ rfl, fun _ => List.not_mem_nil, fun _ => rfl⟩

theorem State.sampleStep_of_maintenance {s : State} (maintenance : s.mode = .maintenance) (raw : RawCodes) :
    (s.sampleStep raw).fc = Comparators.fresh ∧ (s.sampleStep raw).le = s.le := by
  simp [State.sampleStep_eq, State.judgeComparators, maintenance]

/-! ### Commands -/

section
variable {s : State}

theorem exec_sampleEvent (running : s.inReset = false) (due : s.ct.issued < 120) (raw : RawCodes) :
    exec (.sampleEvent raw) s = .next (s.sampleStep raw) := by
  have issues : s.sampleDue = true := decide_eq_true due
  calc
    exec (.sampleEvent raw) s = whenDue s s.sampleDue (s.sampleStep raw) := rfl
    _ = .next (s.sampleStep raw) := by rw [issues, whenDue_of_due running]

theorem exec_holdEnd (running : s.inReset = false) (due : s.ct.issued < 120) {c : ChannelId} (last : s.fe.holdOf c = 1) (raw : RawCodes) :
    exec (.holdEnd c raw) s = .next (s.sampleStep raw) := by
  have issues : s.sampleDue = true := decide_eq_true due
  calc
    exec (.holdEnd c raw) s = whenDue s (s.sampleDue && decide (s.fe.holdOf c = 1)) (s.sampleStep raw) := rfl
    _ = .next (s.sampleStep raw) := by rw [issues, decide_eq_true last, Bool.and_true, whenDue_of_due running]

theorem exec_filteredOutputChange (running : s.inReset = false) (due : s.ct.issued < 120) {g : GroupId} {c : CompId} {raw : RawCodes}
    (changes : s.outputChanges g c raw = true) : exec (.filteredOutputChange g c raw) s = .next (s.sampleStep raw) := by
  have issues : s.sampleDue = true := decide_eq_true due
  calc
    exec (.filteredOutputChange g c raw) s = whenDue s (s.sampleDue && s.outputChanges g c raw) (s.sampleStep raw) := rfl
    _ = .next (s.sampleStep raw) := by rw [issues, changes, Bool.and_true, whenDue_of_due running]

end

/-! ### The obligations -/

/-- The last sample of a hold repeats the value last delivered (R12). -/
theorem RangeState.afterSample_of_last {x : ChannelSettings} {r : RangeState} {raw : RawCode} (last : r.hold = 1) :
    (r.afterSample x raw).hold = 0 ∧ (r.afterSample x raw).last = r.last := by
  simp [RangeState.afterSample, currentSample, last]

/-- Settles O13: each row is the sample event, and what it names is read off FE and FC behind it. -/
theorem specialSampleEvents : Obligations.SpecialSampleEvents := by
  refine ⟨fun s raw g running due => ⟨fun last => ?_, fun last => ?_⟩, ?changes⟩
  · refine ⟨s.sampleStep raw, exec_holdEnd running due (c := .ia g) last raw, exec_sampleEvent running due raw, ?_⟩
    simpa [FrontEnd.afterSample] using RangeState.afterSample_of_last last
  · refine ⟨s.sampleStep raw, exec_holdEnd running due (c := .ib g) last raw, exec_sampleEvent running due raw, ?_⟩
    simpa [FrontEnd.afterSample] using RangeState.afterSample_of_last last
  case changes =>
    intro s raw g c running due normal x y judged turns complete
    have differs : x.rawOutput y.value ≠ (s.fc.get g c).active := by rw [turns]; cases (s.fc.get g c).active <;> exact nofun
    obtain ⟨after, changes⟩ := CompState.afterSample_of_turns judged differs complete
    have changing : s.outputChanges g c raw = true := by
      rw [State.outputChanges, decide_eq_true normal, Bool.true_and]
      exact changes
    obtain ⟨filters, latches, -, -⟩ := State.sampleStep_judged normal raw
    refine ⟨s.sampleStep raw, exec_filteredOutputChange running due changing, exec_sampleEvent running due raw, ?_,
      fun quiet armed service => ?_⟩
    · rw [filters, Comparators.get_setAll, if_pos (mem_comparatorOrder _), ← turns]
      exact after
    · have trips : (s.judgement (s.samplesOf raw) s.ct.issued (g, c)).trips = true := by
        have turnsActive : (s.fc.get g c).changes x y && !(s.fc.get g c).active := by rw [changes, quiet]; rfl
        change (((s.fc.get g c).changes x y && !(s.fc.get g c).active) && x.tripArmed && decide ((s.gm.groups.get g).state ≠ .out)) = true
        rw [turnsActive, armed, decide_eq_true service]
        rfl
      have tripped : g ∈ (comparatorOrder.filter fun gc => (s.judgement (s.samplesOf raw) s.ct.issued gc).trips).map Prod.fst :=
        mem_tripped.mpr ⟨c, trips⟩
      rw [latches]
      exact ⟨(LimitEvaluator.latchAll_latches ..).mpr (.inr tripped), (LimitEvaluator.latchAll_tripLines ..).trans (if_pos tripped),
        LimitEvaluator.latchAll_alert _ (List.ne_nil_of_mem tripped)⟩

/-- Settles O12: the sets, the ring and the notices one after the other, and the frame of the event for the rest. -/
theorem sampleEventDelivers : Obligations.SampleEventDelivers := by
  refine ⟨?add, ?event⟩
  case add =>
    intro a k x sources
    exact ⟨rfl, a.add_square .., a.add_lines k x sources, rfl, rfl, rfl, fun j m y => a.add_mark k x sources, rfl,
      fun none => by simp [AccSet.addWithExtremes, none], fun y => a.addWithExtremes_largest k x sources,
      fun none => by simp [AccSet.addWithExtremes, none], fun y => a.addWithExtremes_smallest k x sources⟩
  case event =>
    intro s raw running due ys n current
    obtain ⟨reports, posts, noFlag, quiet⟩ := s.sampleStep_posts raw
    have only := s.sampleStep_only raw
    have same := (s.sampleStep_link raw).same
    have clips : Notice.flag .clip ∈ (if anyClipped ys then [.flag .clip] else []) ++ reports ↔ ∃ c, (ys.get c).clipped = true := by
      rw [← anyClipped_iff]
      cases anyClipped ys <;> simp [noFlag]
    refine ⟨s.sampleStep raw, _, exec_sampleEvent running due raw, s.sampleStep_ct raw, s.sampleStep_fe raw, s.sampleStep_current raw,
      fun frozen => ?_, fun open' => ?_, fun g => ?_, fun p => ?_, ?_, ?_, ?_, ?_, ?_, ?_, ?_, posts.posted, clips, ?_, fun f other => ?_,
      fun clipped => ?_, fun maintenance => ?_, s.sampleStep_records raw, s.sampleStep_verdicts raw, s.sampleStep_gm raw,
      s.sampleStep_st raw, s.sampleStep_ss raw, s.sampleStep_mode raw, s.sampleStep_pending raw, ?_, s.sampleStep_freeNext raw,
      same.entries, same.receiver, same.sending, same.counters, same.masks, same.holdCount, same.digests, same.sameRequests⟩
    · rw [s.sampleStep_slots, CaptureRing.write_of_frozen ys frozen]
    · rw [s.sampleStep_slots, CaptureRing.write_of_open ys open']
      have here : (s.cr.slots.set s.cr.current (s.cr.currentSlot.write ys))[s.cr.current] = s.cr.currentSlot.write ys :=
        Vector.getElem_set_self _
      refine ⟨fun k other => ?_, ?_, fun c => ?_⟩
      · exact Vector.getElem_set_ne _ _ fun here => other (Fin.ext here.symm)
      · rw [here]
        rfl
      · dsimp only
        rw [here, SlotChannel.write_at]
        exact ⟨rfl, rfl, rfl⟩
    · rw [s.sampleStep_ae]
      exact Quad.get_ofFn ..
    · rw [s.sampleStep_ae]
      exact Duo.get_ofFn ..
    iterate 7 rw [s.sampleStep_ae]; rfl
    · rw [List.filter_append, List.length_append]
      have none : reports.filter (fun n => decide (n = Notice.flag .clip)) = [] :=
        List.filter_eq_nil_iff.mpr fun n mem same => noFlag .clip (of_decide_eq_true same ▸ mem)
      rw [none]
      cases anyClipped (s.samplesOf raw) <;> decide
    · have clipFree : Notice.flag f ∉ (if anyClipped (s.samplesOf raw) then [Notice.flag .clip] else []) := by
        cases anyClipped (s.samplesOf raw) <;> simp [other]
      exact List.not_mem_append clipFree (noFlag f)
    · rw [posts.same.flags, (anyClipped_iff _).mpr clipped]
      exact (LinkController.post_enqueues s.ct.cycle (s.lc.raise s.ct.cycle .clip) reports).flags .clip (flagOf_raised ..)
    · obtain ⟨fc, le⟩ := State.sampleStep_of_maintenance maintenance raw
      refine ⟨fc, le, fun n mem => ?_⟩
      rw [quiet maintenance, List.append_nil] at mem
      revert mem
      cases anyClipped (s.samplesOf raw) <;> simp
    · rw [s.sampleStep_inReset, running]

end Sys2Proof.Machine
end

