-- ==== Sys2Proof/Proofs/Calibration.lean ====
section
/-! PROOFS. Calibration and the spans of samples, the up-switch test, and the range of a current channel at a cycle boundary
(R3 to R5, R9, R10, R16). -/

namespace Sys2Proof.Machine

open Sys2Proof.Safety

/-! ### Calibration (R3, R4) -/

theorem clampInt_bounds {lo hi : Int} (ordered : lo ≤ hi) (x : Int) : lo ≤ clampInt lo hi x ∧ clampInt lo hi x ≤ hi := by
  unfold clampInt
  split
  · omega
  · split <;> omega

theorem clampInt_ne_self (lo hi x : Int) : clampInt lo hi x ≠ x ↔ x < lo ∨ hi < x := by
  unfold clampInt
  split
  · omega
  · split <;> omega

theorem calibrate_eq {offset : Int} {gain : Nat} {raw q : Int} (below : q * 32768 ≤ (raw - offset) * gain + 16384)
    (above : (raw - offset) * gain + 16384 < (q + 1) * 32768) : calibrate offset gain raw = q := by
  unfold calibrate
  generalize (raw - offset) * gain = x at *
  omega

section
variable (offset : Int) (gain : Nat) (raw : RawCode)

theorem convert_code : (convert offset gain raw).code = clampInt (-32768) 32767 (calibrate offset gain raw.toInt) := rfl

theorem convert_bounds : -32768 ≤ (convert offset gain raw).code ∧ (convert offset gain raw).code ≤ 32767 :=
  clampInt_bounds (by decide) _

theorem convert_clipped : (convert offset gain raw).clipped = true ↔ raw.toInt = -32768 ∨ raw.toInt = 32767 ∨
    calibrate offset gain raw.toInt < -32768 ∨ 32767 < calibrate offset gain raw.toInt := by
  rw [← clampInt_ne_self]
  simp [convert, or_assoc]

/-- The neutral pair gives the raw code back. -/
theorem convert_neutral : (convert 0 32768 raw).code = raw.toInt := by
  have low := BitVec.le_toInt raw
  have high := BitVec.toInt_lt (x := raw)
  rw [convert_code, calibrate_eq (q := raw.toInt) (by omega) (by omega)]
  unfold clampInt
  omega

end

theorem rangeConversion_low_code (x : ChannelSettings) (raw : RawCode) :
    (rangeConversion x .low raw).code = (convert x.offsetLow x.gainLow raw).code * 8 := rfl

/-! ### The up-switch test (R9) -/

/-- A sample without the held mark has the clipped mark of its conversion. -/
theorem currentSample_clipped {x : ChannelSettings} {r : RangeState} {raw : RawCode} (free : (currentSample x r raw).held = false) :
    (currentSample x r raw).clipped = (rangeConversion x r.range raw).clipped := by
  by_cases holds : 0 < r.hold
  · simp [currentSample, holds] at free
  · by_cases switches : downSwitches x r (rangeConversion x r.range raw) = true
    · simp [currentSample, holds, switches] at free
    · simp [currentSample, holds, switches]

theorem RangeState.afterSample_steady (x : ChannelSettings) (r : RangeState) (raw : RawCode) : (r.afterSample x raw).steady =
    (r.steady && keepsSteady x r (currentSample x r raw) (rangeConversion x r.range raw)) := by
  unfold RangeState.afterSample
  dsimp only
  split
  · rfl
  · split <;> rfl

theorem keepsSteady_iff (x : ChannelSettings) (r : RangeState) (raw : RawCode) :
    let y := currentSample x r raw
    keepsSteady x r y (rangeConversion x r.range raw) = true ↔
      x.rangeMode = .auto ∧ r.range = .low ∧ -24000 ≤ y.value ∧ y.value ≤ 24000 ∧ y.clipped = false ∧ y.held = false := by
  dsimp only
  have within : (currentSample x r raw).value.natAbs ≤ 24000 ↔ -24000 ≤ (currentSample x r raw).value ∧
      (currentSample x r raw).value ≤ 24000 := by omega
  cases held : (currentSample x r raw).held with
  | true => simp [keepsSteady, held]
  | false => simp [keepsSteady, held, currentSample_clipped held, Config.upSwitchLimit, within, and_assoc]

/-! ### The range at a boundary (R9, R10, R16) -/

/-- A staged range mode moves the range and the hold, each of the two modes its own way, and nothing else. -/
theorem RangeState.applyMode_kept (staged : Option RangeMode) (r : RangeState) :
    (r.applyMode staged).last = r.last ∧ (r.applyMode staged).steady = r.steady := by
  cases staged with
  | none => exact ⟨rfl, rfl⟩
  | some mode => cases mode <;> exact ⟨rfl, rfl⟩

theorem RangeState.applyMode_of_other {staged : Option RangeMode} (low : staged ≠ some .fixedLow) (high : staged ≠ some .fixedHigh)
    (r : RangeState) : r.applyMode staged = r := by
  cases staged with
  | none => rfl
  | some mode => cases mode <;> first | rfl | exact absurd rfl low | exact absurd rfl high

/-- A current channel at a test point or at another boundary. -/
def RangeState.testedWhen (x : ChannelSettings) (test : Bool) (r : RangeState) : RangeState := if test then r.testPoint x else r

theorem RangeState.testedWhen_range (x : ChannelSettings) (test : Bool) (r : RangeState) :
    let passes := test = true ∧ x.rangeMode = .auto ∧ r.range = .low ∧ r.steady = true
    (passes → (r.testedWhen x test).range = .high) ∧ (¬ passes → (r.testedWhen x test).range = r.range) := by
  cases test with
  | false => exact ⟨nofun, fun _ => rfl⟩
  | true =>
    exact ⟨fun passes => if_pos passes.2, fun fails => if_neg fun passes => fails ⟨rfl, passes⟩⟩

/-- A current channel at a boundary: the test where it is a test point, and then a staged range mode where settings apply. -/
def RangeState.atBoundary (x : ChannelSettings) (staged : Option RangeMode) (test applies : Bool) (r : RangeState) : RangeState :=
  if applies then (r.testedWhen x test).applyMode staged else r.testedWhen x test

theorem State.boundaryStep_range (s : State) (inputs : InputLevels) (g : GroupId) :
    ((s.boundaryStep inputs).fe.ia.get g = (s.fe.ia.get g).atBoundary (s.ss.working.channels.ia.get g)
      (s.ss.staged.channels.ia.get g).rangeMode (s.ae.stopped || s.endsWindow || s.entersFree) s.appliesHere) ∧
    (s.boundaryStep inputs).fe.ib.get g = (s.fe.ib.get g).atBoundary (s.ss.working.channels.ib.get g)
      (s.ss.staged.channels.ib.get g).rangeMode (s.ae.stopped || s.endsWindow || s.entersFree) s.appliesHere := by
  rw [State.boundaryStep_fe]
  unfold State.appliedFe State.testedFe RangeState.atBoundary RangeState.testedWhen
  generalize s.appliesHere = applies
  generalize (s.ae.stopped || s.endsWindow || s.entersFree) = test
  cases test <;> cases applies <;> simp [FrontEnd.testPoint, FrontEnd.applyStaged]

theorem RangeState.atBoundary_range (x : ChannelSettings) (staged : Option RangeMode) (test applies : Bool) (before : RangeState) :
    let after := before.atBoundary x staged test applies
    let passes := test = true ∧ x.rangeMode = .auto ∧ before.range = .low ∧ before.steady = true
    after.last = before.last ∧ (test = true → after.steady = true) ∧ (¬ test = true → after.steady = before.steady) ∧
    (applies = true → staged = some .fixedLow → after.range = .low ∧ after.hold = before.hold) ∧
    (applies = true → staged = some .fixedHigh → after.range = .high ∧ after.hold = 0) ∧
    (¬ applies = true ∨ (staged ≠ some .fixedLow ∧ staged ≠ some .fixedHigh) →
      after.hold = before.hold ∧ (passes → after.range = .high) ∧ (¬ passes → after.range = before.range)) := by
  dsimp only
  have kept : (before.testedWhen x test).last = before.last ∧ (before.testedWhen x test).hold = before.hold := by
    cases test <;> exact ⟨rfl, rfl⟩
  have steady : (test = true → (before.testedWhen x test).steady = true) ∧
      (¬ test = true → (before.testedWhen x test).steady = before.steady) := by
    cases test with
    | false => exact ⟨nofun, fun _ => rfl⟩
    | true => exact ⟨fun _ => rfl, fun not => absurd rfl not⟩
  have ranges := before.testedWhen_range x test
  unfold RangeState.atBoundary
  generalize before.testedWhen x test = r at *
  obtain ⟨last, hold⟩ := kept
  obtain ⟨sameLast, sameSteady⟩ := r.applyMode_kept staged
  cases applies with
  | false => exact ⟨last, steady.1, steady.2, nofun, nofun, fun _ => ⟨hold, ranges⟩⟩
  | true =>
    simp only [if_true, sameLast, sameSteady]
    refine ⟨last, steady.1, steady.2, fun _ low => ?_, fun _ high => ?_, fun other => ?_⟩
    · rw [low]
      exact ⟨rfl, hold⟩
    · rw [high]
      exact ⟨rfl, rfl⟩
    · obtain ⟨low, high⟩ := other.resolve_left fun not => not trivial
      rw [RangeState.applyMode_of_other low high]
      exact ⟨hold, ranges⟩

/-- Settles O11: the exact quotient, the test as a conjunction, and a channel at a boundary by whether it tests and applies. -/
theorem calibrationAndSpans : Obligations.CalibrationAndSpans := by
  refine ⟨?spans, ?test, ?range⟩
  case spans =>
    intro offset gain raw
    refine ⟨fun q below above => ?_, (convert_bounds ..).1, (convert_bounds ..).2, ?_, fun x => ?_⟩
    · have quotient := calibrate_eq below above
      exact ⟨by rw [convert_code, quotient]; rfl, by rw [convert_clipped, quotient]⟩
    · rintro rfl rfl
      exact convert_neutral raw
    · obtain ⟨lowest, highest⟩ := convert_bounds x.offsetLow x.gainLow raw
      obtain ⟨lowest', highest'⟩ := convert_bounds x.offsetHigh x.gainHigh raw
      rw [rangeConversion_low_code]
      exact ⟨highest, lowest, highest', lowest', by omega, by omega, Dvd.intro_left _ rfl, rfl, rfl, rfl, rfl⟩
  case test =>
    intro x r raw
    rw [RangeState.afterSample_steady, Bool.and_eq_true]
    exact and_congr_right fun _ => keepsSteady_iff x r raw
  case range =>
    intro s inputs boundary
    refine ⟨_, exec_cycleBoundary boundary, ?_⟩
    intro testPoint applies x before after staged channel
    have test : (s.ae.stopped || s.endsWindow || s.entersFree) = true ↔ testPoint := by
      rw [Bool.or_eq_true, Bool.or_eq_true, State.stopped_iff, State.endsWindow_iff, State.entersFree_iff, or_assoc]
    have apply : s.appliesHere = true ↔ applies := by
      rw [State.appliesHere, Bool.or_eq_true, State.stopped_iff, State.endsWindow_iff]
    have moved : after = before.atBoundary x staged (s.ae.stopped || s.endsWindow || s.entersFree) s.appliesHere := by
      obtain ⟨g, ⟨rfl, rfl, rfl, rfl⟩ | ⟨rfl, rfl, rfl, rfl⟩⟩ := channel
      · exact (s.boundaryStep_range inputs g).1
      · exact (s.boundaryStep_range inputs g).2
    have ranges := RangeState.atBoundary_range x staged (s.ae.stopped || s.endsWindow || s.entersFree) s.appliesHere before
    rw [← moved, test, apply] at ranges
    exact ranges

end Sys2Proof.Machine
end

