-- ==== Sys2Proof/Proofs/SumsAndRoots.lean ====
section
/-! PROOFS. The cosine and sine tables, the integer root, and what a set holds after any list of samples (R42, R43, R59, R61, R62). -/

namespace Sys2Proof.Machine

open Sys2Proof.Safety

/-! ### The tables (R59) -/

section
variable {k : Nat}

theorem cosT_mod (k : Nat) : cosT k = cosT (k % 120) := by simp only [cosT, Nat.mod_mod]

theorem cosT_of_first (first : k ≤ 30) : cosT k = cosQuarter.getD k 0 := by
  have small : k % 120 = k := Nat.mod_eq_of_lt (by omega)
  simp only [cosT, small, if_pos first]

theorem cosT_of_second (above : 30 < k) (below : k ≤ 60) : cosT k = -(cosQuarter.getD (60 - k) 0 : Int) := by
  have small : k % 120 = k := Nat.mod_eq_of_lt (by omega)
  simp only [cosT, small, if_neg (Nat.not_le.mpr above), if_pos below]

theorem cosT_of_third (above : 60 < k) (below : k ≤ 90) : cosT k = -(cosQuarter.getD (k - 60) 0 : Int) := by
  have small : k % 120 = k := Nat.mod_eq_of_lt (by omega)
  simp only [cosT, small, if_neg (show ¬ k ≤ 30 by omega), if_neg (Nat.not_le.mpr above), if_pos below]

theorem cosT_of_fourth (above : 90 < k) (below : k < 120) : cosT k = cosQuarter.getD (120 - k) 0 := by
  have small : k % 120 = k := Nat.mod_eq_of_lt below
  simp only [cosT, small, if_neg (show ¬ k ≤ 30 by omega), if_neg (show ¬ k ≤ 60 by omega), if_neg (Nat.not_le.mpr above)]

/-- The half cycle is antisymmetric about its quarter. -/
theorem cosT_half (above : 31 ≤ k) (below : k ≤ 60) : cosT k = -cosT (60 - k) := by
  rw [cosT_of_second above below, cosT_of_first (by omega)]

/-- The cycle is symmetric about its half. -/
theorem cosT_whole (above : 61 ≤ k) (below : k ≤ 119) : cosT k = cosT (120 - k) := by
  obtain third | rfl | fourth : k < 90 ∨ k = 90 ∨ 90 < k := by omega
  · have mirrored : 60 - (120 - k) = k - 60 := by omega
    rw [cosT_of_third above (by omega), cosT_of_second (by omega) (by omega), mirrored]
  · rfl
  · rw [cosT_of_fourth fourth (by omega), cosT_of_first (by omega)]

end

/-! ### The root (00_scope) -/

/-- The bits still to come can reach the root, and never pass it. -/
theorem isqrtFrom_isRoot {n k r : Nat} (least : r * r ≤ n) (reach : n < (r + 2 ^ k) * (r + 2 ^ k)) : IsRoot n (isqrtFrom n k r) := by
  induction k generalizing r with
  | zero => exact ⟨least, reach⟩
  | succ k ih =>
    rw [isqrtFrom]
    split
    · have halves : r + 2 ^ (k + 1) = r + 2 ^ k + 2 ^ k := by ring
      exact ih ‹_› (halves ▸ reach)
    · exact ih least (Nat.lt_of_not_le ‹_›)

theorem isqrt_isRoot (n : Nat) : IsRoot n (isqrt n) := by
  refine isqrtFrom_isRoot (Nat.zero_le n) ?_
  calc
    n < 2 ^ (n.log2 + 1) := Nat.lt_log2_self
    _ ≤ 2 ^ ((n.log2 / 2 + 1) + (n.log2 / 2 + 1)) := Nat.pow_le_pow_right (by decide) (by omega)
    _ = (0 + 2 ^ (n.log2 / 2 + 1)) * (0 + 2 ^ (n.log2 / 2 + 1)) := by rw [Nat.zero_add, pow_add]

/-! ### A set after any list of samples (R42, R43) -/

theorem max?_concat (xs : List Int) (x : Int) : (xs ++ [x]).max? = some (xs.max?.elim x (max x)) := by
  cases xs with
  | nil => rfl
  | cons y ys =>
    change some ((ys ++ [x]).foldl max y) = some (max x (ys.foldl max y))
    rw [List.foldl_append, max_comm]
    rfl

theorem min?_concat (xs : List Int) (x : Int) : (xs ++ [x]).min? = some (xs.min?.elim x (min x)) := by
  cases xs with
  | nil => rfl
  | cons y ys =>
    change some ((ys ++ [x]).foldl min y) = some (min x (ys.foldl min y))
    rw [List.foldl_append, min_comm]
    rfl

/-- What a set holds of the samples added to it, each at its index: their sums and their extremes. -/
structure Accumulates (a : AccSet) (xs : List (Nat × Int × List Sample)) : Prop where
  s0 : a.s0 = (xs.map fun x => x.2.1).sum
  q : (a.q : Int) = ((xs.map fun x => x.2.1).map fun x => x * x).sum
  largest : a.largest = (xs.map fun x => x.2.1).max?
  smallest : a.smallest = (xs.map fun x => x.2.1).min?
  cosSums : ∀ i : Fin 50, a.cosSums[i] = (xs.map fun x => x.2.1 * cosT ((i.val + 1) * x.1)).sum
  sinSums : ∀ i : Fin 50, a.sinSums[i] = (xs.map fun x => x.2.1 * sinT ((i.val + 1) * x.1)).sum

theorem Accumulates.opened (channels : Nat) : Accumulates (AccSet.opened channels) [] :=
  ⟨rfl, rfl, rfl, rfl, fun _ => by simp [AccSet.opened], fun _ => by simp [AccSet.opened]⟩

theorem Accumulates.add {a : AccSet} {xs : List (Nat × Int × List Sample)} (h : Accumulates a xs) (x : Nat × Int × List Sample) :
    Accumulates (a.addWithExtremes x.1 x.2.1 x.2.2) (xs ++ [x]) where
  s0 := by simp [AccSet.addWithExtremes, AccSet.add, h.s0]
  q := by
    have square : ((a.addWithExtremes x.1 x.2.1 x.2.2).q : Int) = a.q + x.2.1 * x.2.1 := a.add_square x.1 x.2.1 x.2.2
    simp [square, h.q]
  largest := by
    rw [List.map_append, List.map_singleton, max?_concat, ← h.largest, AccSet.addWithExtremes]
    cases a.largest <;> rfl
  smallest := by
    rw [List.map_append, List.map_singleton, min?_concat, ← h.smallest, AccSet.addWithExtremes]
    cases a.smallest <;> rfl
  cosSums i := by
    have line : (a.addWithExtremes x.1 x.2.1 x.2.2).cosSums[i] = _ := (a.add_lines x.1 x.2.1 x.2.2 i).1
    simp only [line, h.cosSums i, List.map_append, List.map_singleton, List.sum_append, List.sum_singleton]
  sinSums i := by
    have line : (a.addWithExtremes x.1 x.2.1 x.2.2).sinSums[i] = _ := (a.add_lines x.1 x.2.1 x.2.2 i).2
    simp only [line, h.sinSums i, List.map_append, List.map_singleton, List.sum_append, List.sum_singleton]

theorem accumulates (channels : Nat) (xs : List (Nat × Int × List Sample)) :
    Accumulates (xs.foldl (fun a x => a.addWithExtremes x.1 x.2.1 x.2.2) (AccSet.opened channels)) xs := by
  induction xs using List.reverseRecOn with
  | nil => exact .opened channels
  | append_singleton xs x ih =>
    rw [List.foldl_append]
    exact ih.add x

/-- The square of a sum is at most the number of its terms times the sum of their squares. -/
theorem sum_mul_sum_le (values : List Int) : values.sum * values.sum ≤ values.length * (values.map fun x => x * x).sum := by
  have cauchy := sq_sum_le_card_mul_sum_sq (s := Finset.univ) (f := fun i : Fin values.length => values[i.val])
  have squares := Fin.sum_univ_fun_getElem values fun x => x ^ 2
  rw [Fin.sum_univ_getElem, squares, Finset.card_univ, Fintype.card_fin] at cauchy
  simpa only [sq] using cauchy

/-- Settles O26: the four quarters of the table, the root bit by bit, and the sums by induction on the samples. -/
theorem sumsAndRoots : Obligations.SumsAndRoots := by
  refine ⟨by decide, fun k => ⟨cosT_half, cosT_whole, cosT_mod k, cosT_mod (k + 90)⟩, fun n => ?root, fun channels xs => ?sums⟩
  case root => exact ⟨(isqrt_isRoot n).least, (isqrt_isRoot n).greatest⟩
  case sums =>
    have sums := accumulates channels xs
    refine ⟨sums.s0, sums.q, ?_, fun y => ?_, fun y => ?_, fun i => ⟨sums.cosSums i, sums.sinSums i⟩⟩
    · rw [sums.s0, sums.q]
      simpa only [List.length_map] using sum_mul_sum_le (xs.map fun x => x.2.1)
    · rw [sums.largest]
      exact List.max?_eq_some_iff
    · rw [sums.smallest]
      exact List.min?_eq_some_iff

end Sys2Proof.Machine
end

