-- ==== Sys2Proof/Proofs/Figures.lean ====
section
/-! PROOFS. Each figure of a record by its formula: rounding, means, ripple, lines, ratios, the arm index and the interference sum, with
their clamps (R6, R60 to R77). -/

namespace Sys2Proof.Machine

open Sys2Proof.Safety

/-! ### Rounding (00_scope, R6) -/

theorem roundDiv_bounds (n : Nat) {d : Nat} (positive : 0 < d) :
    2 * d * roundDiv n d ≤ 2 * n + d ∧ 2 * n + d < 2 * d * (roundDiv n d + 1) :=
  ⟨Nat.mul_div_le .., Nat.lt_mul_div_succ _ (by omega)⟩

theorem roundDiv_rounds (n : Nat) {d : Nat} (positive : 0 < d) : Rounds n d (roundDiv n d) := by
  obtain ⟨least, greatest⟩ := roundDiv_bounds n positive
  refine ⟨least, greatest, fun _ => Int.natCast_nonneg _, fun low => ?_⟩
  have zero : n = 0 := by omega
  have none : roundDiv n d = 0 := by
    rw [roundDiv, zero]
    exact Nat.div_eq_of_lt (by omega)
  simp [none]

theorem roundDivInt_rounds (x : Int) {d : Nat} (positive : 0 < d) : Rounds x d (roundDivInt x d) := by
  obtain ⟨least, greatest, -, zero⟩ := roundDiv_rounds x.natAbs positive
  unfold roundDivInt
  split
  · refine ⟨?_, ?_, fun _ => by omega, fun _ => by omega⟩
    · rw [Int.natAbs_neg]
      exact least
    · rw [Int.natAbs_neg]
      exact greatest
  · exact ⟨least, greatest, fun _ => Int.natCast_nonneg _, fun low => zero (by omega)⟩

theorem toEngineering_rounds (x : Int) (fs : Nat) {span : Nat} (positive : 0 < span) : Rounds (x * fs) span (toEngineering x fs span) :=
  roundDivInt_rounds _ positive

theorem toEngineeringNat_rounds (x fs : Nat) {span : Nat} (positive : 0 < span) :
    Rounds (x * fs : Nat) span (toEngineeringNat x fs span) := roundDiv_rounds _ positive

/-- A clamped figure keeps its bound in engineering units (R66). -/
theorem toEngineeringNat_le {x fs span most bound : Nat} (clamped : x ≤ most) (fits : fs ≤ 65535)
    (within : 2 * (most * 65535) + span < 2 * span * (bound + 1)) : toEngineeringNat x fs span ≤ bound := by
  have product : x * fs ≤ most * 65535 := Nat.mul_le_mul clamped fits
  unfold toEngineeringNat roundDiv
  refine Nat.le_of_lt_succ (Nat.div_lt_of_lt_mul ?_)
  calc
    2 * (x * fs) + span ≤ 2 * (most * 65535) + span := by omega
    _ < 2 * span * (bound + 1) := within

theorem rawRatio_rounds (x : Nat) {m : Int} (nonzero : m ≠ 0) : Rounds (x * 10000 : Nat) m.natAbs (rawRatio x m) :=
  roundDiv_rounds _ (Int.natAbs_pos.mpr nonzero)

/-! ### The figures of one set (R61 to R64) -/

theorem WindowLen.samples_pos (w : WindowLen) : 0 < w.samples := by cases w <;> decide

section
variable (a : AccSet) (w : WindowLen)

theorem AccSet.mean_rounds : Rounds a.s0 w.samples (a.mean w.samples) := roundDivInt_rounds _ (WindowLen.samples_pos w)

theorem AccSet.ripple_root : RippleRms a w.samples (a.ripple w.samples) := by
  rw [RippleRms, sq, sq]
  exact isqrt_isRoot _

variable {a} in
theorem AccSet.peak_eq {x y : Int} (largest : a.largest = some x) (smallest : a.smallest = some y) (ordered : y ≤ x) :
    (a.peak : Int) = x - y := by
  simp only [AccSet.peak, largest, smallest, Option.getD_some]
  omega

theorem AccSet.rawLine (i : Fin 50) : RawLine a w.samples i (a.rawAmplitudes w.samples)[i] := by
  refine ⟨isqrt (a.cosSums[i].natAbs * a.cosSums[i].natAbs + a.sinSums[i].natAbs * a.sinSums[i].natAbs), ?_, ?_⟩
  · rw [sq, sq]
    exact isqrt_isRoot _
  · have raw : (a.rawAmplitudes w.samples)[i] = rawAmplitude a.cosSums[i] a.sinSums[i] w.samples := by simp [AccSet.rawAmplitudes]
    rw [raw]
    exact roundDiv_rounds _ (Nat.mul_pos (WindowLen.samples_pos w) (by decide))

end

/-! ### Lines, their clamps and what is made of them (R64, R66, R70, R72, R75) -/

section
variable (lines : Lines) (i : Fin 50)

theorem clampLines_at (span : Nat) : (clampLines span lines)[i] = min lines[i] span := tableMap_getElem ..

theorem Lines.toEngineering_at (fs span : Nat) : (lines.toEngineering fs span)[i] = toEngineeringNat lines[i] fs span := tableMap_getElem ..

theorem clampedLine_rounds (most fs : Nat) {span : Nat} (positive : 0 < span) :
    Rounds (min lines[i] most * fs : Nat) span ((clampLines most lines).toEngineering fs span)[i] := by
  rw [Lines.toEngineering_at, clampLines_at]
  exact toEngineeringNat_rounds _ _ positive

theorem exceeds_iff (bound : Nat) : exceeds bound lines = true ↔ ∃ i : Fin 50, bound < lines[i] := by
  simp only [exceeds, List.any_eq_true, decide_eq_true_iff, Vector.mem_toList_iff, Vector.mem_iff_getElem]
  constructor
  · rintro ⟨x, ⟨k, small, rfl⟩, above⟩
    exact ⟨⟨k, small⟩, above⟩
  · rintro ⟨k, above⟩
    exact ⟨lines[k], ⟨k.val, k.isLt, rfl⟩, above⟩

/-- The ratios of clamped lines to a mean, before their clamp. -/
theorem lineRatios_at (most : Nat) (m : Int) :
    (tableMap (fun x => rawRatio x m) (clampLines most lines))[i] = rawRatio (min lines[i] most) m := by
  rw [tableMap_getElem, clampLines_at]

theorem lineRatios_exceed (most bound : Nat) (m : Int) : exceeds bound (tableMap (fun x => rawRatio x m) (clampLines most lines)) = true ↔
    ∃ i : Fin 50, bound < rawRatio (min lines[i] most) m := by
  rw [exceeds_iff]
  exact exists_congr fun i => by rw [lineRatios_at]

theorem lineRatios_clamped (most : Nat) (m : Int) :
    ∃ v, some (tableMap clampRatio (tableMap (fun x => rawRatio x m) (clampLines most lines))) = some v ∧
      ∀ i : Fin 50, v[i] = min (rawRatio (min lines[i] most) m) 65535 :=
  ⟨_, rfl, fun i => by rw [tableMap_getElem, lineRatios_at]; rfl⟩

theorem armIndex_raw {m : Int} (nonzero : m ≠ 0) : RawArmIndex lines[0] lines[1] m (rawRatio (armRoot lines) m) := by
  refine ⟨armRoot lines, ?_, rawRatio_rounds _ nonzero⟩
  rw [sq, sq]
  exact isqrt_isRoot _

theorem interference_raw (weights : Vector Nat 50) : RawInterference weights (fun i => lines[i]) (rawInterference weights lines) := by
  refine ⟨_, ?_, roundDiv_rounds _ (by decide)⟩
  have terms : (tableZip (fun w x => (w * x) * (w * x)) weights lines).toList =
      (List.finRange 50).map fun i => (weights[i] * lines[i]) ^ 2 := by
    rw [tableZip, Vector.toList_ofFn, List.ofFn_eq_map]
    exact List.map_congr_left fun i _ => (sq _).symm
  rw [terms]
  exact isqrt_isRoot _

theorem clampedInterference_raw (most : Nat) (weights : Vector Nat 50) :
    RawInterference weights (fun i => min lines[i] most) (rawInterference weights (clampLines most lines)) := by
  simpa only [clampLines_at] using interference_raw (clampLines most lines) weights

theorem clampedArmIndex_raw (most : Nat) {m : Int} (nonzero : m ≠ 0) :
    RawArmIndex (min lines[(0 : Fin 50)] most) (min lines[(1 : Fin 50)] most) m (rawRatio (armRoot (clampLines most lines)) m) := by
  rw [← clampLines_at, ← clampLines_at]
  exact armIndex_raw _ nonzero

end

/-! ### A figure that may be absent (R69 to R72) -/

section
variable (present : Bool) (x : Nat)

theorem clampedRatio_of_base (noBase : Bool) :
    (clampedRatio (!noBase) x).1 = if noBase = true then none else some (min x 65535) := by
  cases noBase <;> rfl

theorem clampedRatio_of_both {P Q : Prop} [Decidable P] [Decidable Q] :
    (clampedRatio (decide P && decide Q) x).1 = if P ∧ Q then some (min x 65535) else none := by
  by_cases p : P <;> by_cases q : Q <;> simp [clampedRatio, clampRatio, p, q]

theorem clampedRatio_clamps : (clampedRatio present x).2 = true ↔ present = true ∧ 65535 < x := by
  cases present <;> simp [clampedRatio]

end

/-! ### The obligation -/

section
variable (p : PairId) (job : PairJob)

theorem PairJob.record_noBase : (job.record p).noBase = !(decide (job.set.mean job.head.length.samples ≠ 0) &&
    decide (2 * job.head.snapshot.lightLoad ≤ (job.record p).meanIP.natAbs)) := rfl

theorem PairJob.record_noBase_iff : (job.record p).noBase = false ↔
    job.set.mean job.head.length.samples ≠ 0 ∧ 2 * job.head.snapshot.lightLoad ≤ (job.record p).meanIP.natAbs := by
  rw [PairJob.record_noBase, Bool.not_eq_false', Bool.and_eq_true, decide_eq_true_iff, decide_eq_true_iff]

theorem PairJob.record_ratiosIP : (job.record p).ratiosIP = if !(job.record p).noBase then
    some (tableMap clampRatio (tableMap (fun x => rawRatio x (job.set.mean job.head.length.samples))
      (clampLines 1048575 (job.set.rawAmplitudes job.head.length.samples)))) else none := by
  rw [PairJob.record_noBase, Bool.not_not]
  rfl

theorem PairJob.record_clamped : (job.record p).clamped =
    (exceeds amplitudeSpanIP (job.set.rawAmplitudes job.head.length.samples) ||
      (!(job.record p).noBase && exceeds 65535 (tableMap (fun x => rawRatio x (job.set.mean job.head.length.samples))
        (clampLines amplitudeSpanIP (job.set.rawAmplitudes job.head.length.samples)))) ||
      decide (amplitudeSpanIP < rawInterference job.head.snapshot.weights (clampLines amplitudeSpanIP (job.set.rawAmplitudes job.head.length.samples)))) := by
  simp only [PairJob.record, Bool.not_not]

end

section
variable (g : GroupId) (job : GroupJob)

/-- The mean of one of a job's sets, before conversion. -/
def JobHead.mean (h : JobHead) (a : AccSet) : Int := a.mean h.length.samples

/-- The amplitudes of one of a job's sets, before their clamps. -/
def JobHead.raw (h : JobHead) (a : AccSet) : Lines := a.rawAmplitudes h.length.samples

theorem GroupJob.record_noBase : (job.record g).noBase =
    !(decide (job.head.mean job.sets.v ≠ 0) && decide (job.head.snapshot.baseMin ≤ (job.record g).meanV.natAbs)) := rfl

theorem GroupJob.record_noBase_iff : (job.record g).noBase = false ↔
    job.head.mean job.sets.v ≠ 0 ∧ job.head.snapshot.baseMin ≤ (job.record g).meanV.natAbs := by
  rw [GroupJob.record_noBase, Bool.not_eq_false', Bool.and_eq_true, decide_eq_true_iff, decide_eq_true_iff]

/-- RF and PPR, before their clamps. -/
def GroupJob.rawRf (job : GroupJob) : Nat := rawRatio (job.sets.v.ripple job.head.length.samples) (job.head.mean job.sets.v)
def GroupJob.rawPpr (job : GroupJob) : Nat := rawRatio job.sets.v.peak (job.head.mean job.sets.v)

/-- The arm index of a bridge, before its clamp. -/
def JobHead.rawArm (h : JobHead) (a : AccSet) : Nat := rawRatio (armRoot (clampLines amplitudeSpanI (h.raw a))) (h.mean a)

/-- The share deviation, before its clamp. -/
def GroupJob.rawSd (job : GroupJob) : Nat := rawShare (job.head.mean job.sets.ia) (job.head.mean job.sets.ib)

def GroupJob.rawJ (job : GroupJob) : Nat :=
  rawInterference job.head.snapshot.weights (clampLines amplitudeSpanIG (job.head.raw job.sets.ig))

theorem GroupJob.record_rf : (job.record g).rf = (clampedRatio (!(job.record g).noBase) job.rawRf).1 := by
  rw [GroupJob.record_noBase, Bool.not_not]
  rfl

theorem GroupJob.record_ppr : (job.record g).ppr = (clampedRatio (!(job.record g).noBase) job.rawPpr).1 := by
  rw [GroupJob.record_noBase, Bool.not_not]
  rfl

theorem GroupJob.record_ratiosV : (job.record g).ratiosV = if !(job.record g).noBase then
    some (tableMap clampRatio (tableMap (fun x => rawRatio x (job.head.mean job.sets.v)) (clampLines 32767 (job.head.raw job.sets.v))))
    else none := by
  rw [GroupJob.record_noBase, Bool.not_not]
  rfl

theorem GroupJob.record_sd : (job.record g).sd = (clampedRatio (decide ((job.head.snapshot.lightLoad : Int) ≤ (job.record g).meanIG) &&
    decide (0 < job.head.mean job.sets.ia + job.head.mean job.sets.ib)) job.rawSd).1 := rfl

theorem GroupJob.record_ka : (job.record g).ka = (clampedRatio (decide ((job.head.snapshot.lightLoad : Int) ≤ (job.record g).meanIA) &&
    decide (job.head.mean job.sets.ia ≠ 0)) (job.head.rawArm job.sets.ia)).1 := rfl

theorem GroupJob.record_kb : (job.record g).kb = (clampedRatio (decide ((job.head.snapshot.lightLoad : Int) ≤ (job.record g).meanIB) &&
    decide (job.head.mean job.sets.ib ≠ 0)) (job.head.rawArm job.sets.ib)).1 := rfl

theorem GroupJob.record_clamped : (job.record g).clamped =
    (exceeds amplitudeSpanV (job.head.raw job.sets.v) || exceeds amplitudeSpanI (job.head.raw job.sets.ia) ||
      exceeds amplitudeSpanI (job.head.raw job.sets.ib) || exceeds amplitudeSpanIG (job.head.raw job.sets.ig) ||
      (clampedRatio (!(job.record g).noBase) job.rawRf).2 || (clampedRatio (!(job.record g).noBase) job.rawPpr).2 ||
      (!(job.record g).noBase && exceeds 65535 (tableMap (fun x => rawRatio x (job.head.mean job.sets.v))
        (clampLines amplitudeSpanV (job.head.raw job.sets.v)))) ||
      (clampedRatio (decide ((job.head.snapshot.lightLoad : Int) ≤ (job.record g).meanIG) &&
        decide (0 < job.head.mean job.sets.ia + job.head.mean job.sets.ib)) job.rawSd).2 ||
      (clampedRatio (decide ((job.head.snapshot.lightLoad : Int) ≤ (job.record g).meanIA) &&
        decide (job.head.mean job.sets.ia ≠ 0)) (job.head.rawArm job.sets.ia)).2 ||
      (clampedRatio (decide ((job.head.snapshot.lightLoad : Int) ≤ (job.record g).meanIB) &&
        decide (job.head.mean job.sets.ib ≠ 0)) (job.head.rawArm job.sets.ib)).2 ||
      decide (amplitudeSpanIG < job.rawJ)) := by
  rw [GroupJob.record_noBase, Bool.not_not]
  dsimp only [GroupJob.record, GroupJob.rawRf, GroupJob.rawPpr, GroupJob.rawSd, GroupJob.rawJ, JobHead.rawArm, JobHead.raw, JobHead.mean]
  rfl

end

/-- Settles O27: every figure by the lemma about its formula; the flag CLAMPED is the disjunction of their clamps. -/
theorem figuresOfARecord : Obligations.FiguresOfARecord := by
  refine ⟨?group, ?pair⟩
  case group =>
    intro g job
    refine ⟨job.head.mean job.sets.v, job.head.mean job.sets.ia, job.head.mean job.sets.ib, job.head.mean job.sets.ig,
      roundDivInt (job.head.mean job.sets.ia * 10000) (job.head.mean job.sets.ia + job.head.mean job.sets.ib).natAbs,
      job.sets.v.ripple job.head.length.samples, job.sets.ig.ripple job.head.length.samples, job.sets.v.peak, job.rawRf, job.rawPpr,
      job.head.rawArm job.sets.ia, job.head.rawArm job.sets.ib, job.rawJ,
      fun i => (job.head.raw job.sets.v)[i], fun i => (job.head.raw job.sets.ia)[i], fun i => (job.head.raw job.sets.ib)[i],
      fun i => (job.head.raw job.sets.ig)[i],
      fun i => rawRatio (min (job.head.raw job.sets.v)[i] 32767) (job.head.mean job.sets.v), ?_⟩
    refine ⟨rfl, rfl, rfl, rfl, job.sets.v.mean_rounds _, job.sets.ia.mean_rounds _, job.sets.ib.mean_rounds _, job.sets.ig.mean_rounds _,
      toEngineering_rounds _ _ (by decide), toEngineering_rounds _ _ (by decide), toEngineering_rounds _ _ (by decide),
      toEngineering_rounds _ _ (by decide), job.sets.v.ripple_root _, toEngineeringNat_rounds _ _ (by decide), job.sets.ig.ripple_root _,
      toEngineeringNat_rounds _ _ (by decide), fun _ _ => AccSet.peak_eq, toEngineeringNat_rounds _ _ (by decide),
      fun i => ⟨job.sets.v.rawLine _ i, job.sets.ia.rawLine _ i, job.sets.ib.rawLine _ i, job.sets.ig.rawLine _ i⟩,
      fun i => ⟨clampedLine_rounds _ i _ _ (by decide), clampedLine_rounds _ i _ _ (by decide), clampedLine_rounds _ i _ _ (by decide),
        clampedLine_rounds _ i _ _ (by decide)⟩,
      job.record_noBase_iff g,
      fun nonzero => ⟨rawRatio_rounds _ nonzero, rawRatio_rounds _ nonzero, fun i => rawRatio_rounds _ nonzero⟩, ?rf, ?ppr,
      fun absent => ?absent, fun present => ?present, fun sum => roundDivInt_rounds _ (by omega), ?sd,
      fun nonzero => clampedArmIndex_raw _ _ nonzero, ?ka, fun nonzero => clampedArmIndex_raw _ _ nonzero, ?kb,
      clampedInterference_raw .., toEngineeringNat_rounds _ _ (by decide), ?clamped, ?degraded, ?marks, fun fits i => ?line, fun fits => ?jg⟩
    case rf => rw [GroupJob.record_rf, clampedRatio_of_base]
    case ppr => rw [GroupJob.record_ppr, clampedRatio_of_base]
    case absent =>
      rw [GroupJob.record_ratiosV, absent]
      rfl
    case present =>
      rw [GroupJob.record_ratiosV, present]
      exact lineRatios_clamped ..
    case sd => rw [GroupJob.record_sd, clampedRatio_of_both]; rfl
    case ka => rw [GroupJob.record_ka, clampedRatio_of_both]
    case kb => rw [GroupJob.record_kb, clampedRatio_of_both]
    case clamped =>
      rw [GroupJob.record_clamped]
      simp only [Bool.or_eq_true, Bool.and_eq_true, Bool.not_eq_true', clampedRatio_clamps, exceeds_iff, lineRatios_at, decide_eq_true_iff,
        or_assoc, exists_or, and_or_left]
      simp only [amplitudeSpanV, amplitudeSpanI, amplitudeSpanIG, GroupJob.rawSd, rawShare]
    case degraded =>
      change (job.sets.v.degraded || job.sets.ia.degraded || job.sets.ib.degraded || job.sets.ig.degraded) = true ↔ _
      simp only [Bool.or_eq_true, or_assoc]
    case marks =>
      intro v a b gA gB markV markA markB markG
      simp [GroupJob.record, AccSet.mark, Marks.or, markV, markA, markB, markG]
    case line =>
      change (Lines.toEngineering _ _ _)[i] ≤ _
      rw [Lines.toEngineering_at, clampLines_at]
      exact toEngineeringNat_le (Nat.min_le_right ..) fits (by decide)
    case jg => exact toEngineeringNat_le (Nat.min_le_right ..) fits (by decide)
  case pair =>
    intro p job
    refine ⟨job.set.mean job.head.length.samples, _, fun i => (job.set.rawAmplitudes job.head.length.samples)[i],
      fun i => rawRatio (min (job.set.rawAmplitudes job.head.length.samples)[i] 1048575) (job.set.mean job.head.length.samples),
      rfl, rfl, rfl, rfl, rfl, rfl, job.set.mean_rounds _, toEngineering_rounds _ _ (by decide), fun i => job.set.rawLine _ i,
      fun i => clampedLine_rounds _ i _ _ (by decide), job.record_noBase_iff p, fun nonzero i => rawRatio_rounds _ nonzero,
      fun absent => ?_, fun present => ?_, clampedInterference_raw ..,
      toEngineeringNat_rounds _ _ (by decide), ?_⟩
    · rw [PairJob.record_ratiosIP, absent]
      rfl
    · rw [PairJob.record_ratiosIP, present]
      exact lineRatios_clamped ..
    · rw [PairJob.record_clamped]
      simp only [Bool.or_eq_true, Bool.and_eq_true, Bool.not_eq_true', exceeds_iff, lineRatios_at, decide_eq_true_iff, or_assoc]
      simp only [amplitudeSpanIP]

end Sys2Proof.Machine
end
